-- ==== Sys2Proof/Word.lean ====
section
/-!
DEFINITION. The words of the machine (00_scope R13): bytes, 7-bit register addresses, 24-bit
frequency values, the closed sets of names the spec lists, and the error value of 60_exceptions R210.
-/

namespace Sys2Proof

/-- A byte: 8 bits, bit 7 the most significant (00_scope R13). -/
abbrev Byte := BitVec 8

/-- A register address, `0x00`..`0x7F` (10_state R31; field `A` of 30_encoding R71). -/
abbrev Addr := BitVec 7

/-- The 24-bit frequency value of the triplet (30_encoding R78). -/
abbrev Frf := BitVec 24

/-- The operand of `SetFrequency`: a 32-bit unsigned number of Hz (43_frequency_synthesizer R157). -/
abbrev Hz := BitVec 32

/-- An exact non-negative rational `num / den` (43_frequency_synthesizer R150, R154). -/
structure Ratio where
  num : Nat
  den : Nat
  deriving DecidableEq, Repr

/-- An opaque error value the platform's `Transfer`, `SetSelect` or `OnRisingEdge` returned
(60_exceptions R210). Nothing is known of one beyond being the same value or another. -/
abbrev PlatformError := Nat

/-- The five operating modes (42_mode_controller R130). -/
inductive Mode where
  | sleep
  | standby
  | frequencySynthesis
  | transmit
  | receive
  deriving DecidableEq, Repr, Inhabited

/-- The names of the waits that can time out (60_exceptions R210). -/
inductive WaitName where
  | modeReady
  | packetSent
  | payloadReady
  deriving DecidableEq, Repr, Inhabited

/-- The nine operations the host can call (00_scope R3), as names an error's context can hold. -/
inductive OpName where
  | reset
  | setStandbyMode
  | isReady
  | detectDevice
  | setFrequency
  | send
  | receive
  | readRegister
  | writeRegister
  deriving DecidableEq, Repr, Inhabited

/-- Class and cause of an error in one value, so that a class never carries another class's cause
(the table of 60_exceptions R210). -/
inductive ErrorKind where
  /-- A frame step failed; the cause is the platform's own value (R211). -/
  | transport (cause : PlatformError)
  /-- A bounded wait ended without seeing its condition; the cause is the wait's name (R212). -/
  | timeout (wait : WaitName)
  /-- The name of `DetectDevice`'s `false`; never a value any operation returns (R213). -/
  | identityMismatch
  /-- Registration of the interrupt handler failed at creation (R214). -/
  | setup (cause : PlatformError)
  deriving DecidableEq, Repr, Inhabited

/-- An error value: class and cause, and the names of the operations that wrapped it (60_exceptions
R210). That the list begins with the outermost is the model's choice (DESIGN CHOICE, log 20). -/
structure OpError where
  kind : ErrorKind
  context : List OpName := []
  deriving DecidableEq, Repr, Inhabited

end Sys2Proof
end

