-- ==== Sys2Proof/Config.lean ====
section
/-!
DEFINITION. What an implementation fixes (the parameters of 00_scope R6, R7 and R8), the target's
state (10_state R31 to R35, needed here because the environment draws whole targets), the
environment's choice at one capability call, and the one free value of the model.
-/

namespace Sys2Proof

/-- The three strengths of the target, one chosen by configuration (10_state R30). -/
inductive TargetKind where
  | oracle
  | loopback
  | reference
  deriving DecidableEq, Repr, Inhabited

/-- `WAIT_KIND` (00_scope R8): how `Send` and `Receive` wait for completion. -/
inductive WaitKind where
  | dwell
  | pollStatus
  | event
  deriving DecidableEq, Repr, Inhabited

/-- The parameters, with the defaults of 00_scope R6 and R7; those of R8 that the spec leaves OPEN
have the test vectors' values (DESIGN CHOICE, log 3). Durations are in microseconds (R12). -/
structure Params where
  /-- `ADDR_BITS`: a register address is below `2^ADDR_BITS`. -/
  addrBits : Nat := 7
  /-- `DIR_BIT`: the bit of the address byte that gives the direction. -/
  dirBit : Fin 8 := 7
  expectedVersion : Byte := 0x24
  fifoWindow : Nat := 66
  scratchSize : Nat := 256
  resetLowMin : Nat := 100000
  resetHoldMin : Nat := 100000
  pollIntervalMax : Nat := 1000
  /-- `FSTEP_APPROX`, about 61.035 Hz: "approximate only" (R6), and read by no rule (43 R150). -/
  fstepApprox : Ratio := { num := 61035, den := 1000 }
  regFifo : Addr := 0x00
  regOpmode : Addr := 0x01
  regFrfMsb : Addr := 0x07
  regFrfMid : Addr := 0x08
  regFrfLsb : Addr := 0x09
  regVersion : Addr := 0x10
  regIrqFlags1 : Addr := 0x27
  regIrqFlags2 : Addr := 0x28
  modeReadyBit : Fin 8 := 7
  packetSentBit : Fin 8 := 3
  payloadReadyBit : Fin 8 := 2
  modeSleep : Byte := 0x00
  modeStandby : Byte := 0x04
  modeFs : Byte := 0x08
  modeTx : Byte := 0x0C
  modeRx : Byte := 0x10
  fxoscHz : Nat := 32000000
  frfShift : Nat := 19
  pollInterval : Nat := 1000
  readyTimeout : Nat := 10000
  waitKind : WaitKind := .pollStatus
  txDwell : Nat := 5000
  rxDwell : Nat := 5000
  txTimeout : Nat := 10000
  rxTimeout : Nat := 10000
  resetLowTime : Nat := 100000
  resetHoldTime : Nat := 100000
  maxSendLen : Nat := 66
  dummyByte : Byte := 0x00
  /-- Which target answers on the bus (10_state R30). -/
  target : TargetKind := .oracle
  /-- `RESET_IMAGE` (70_reset_and_hazards R241) by address; an address it does not give is drawn. -/
  resetImage : List (Option Byte) := []
  deriving DecidableEq, Repr

/-- The named registers, in the order of 20_memory R59. -/
def Params.registers (p : Params) : List Addr :=
  [p.regFifo, p.regOpmode, p.regFrfMsb, p.regFrfMid, p.regFrfLsb, p.regVersion, p.regIrqFlags1,
    p.regIrqFlags2]

/-- The five mode values, in the order of 30_encoding R77. -/
def Params.modeValues (p : Params) : List Byte :=
  [p.modeSleep, p.modeStandby, p.modeFs, p.modeTx, p.modeRx]

/-- The constraints of 00_scope R7 and R8 on a choice of values (addresses and bit numbers are in
range by their types), with three more that the rules presuppose (DEDUCED, log 4): the address fits
beside the direction in one byte, and the scratch buffers hold a whole outgoing frame and a whole
window (10_state R25). Two names may share an address (log 30). -/
def Params.check (p : Params) : Bool :=
  decide p.modeValues.Nodup
    && decide (p.regFrfMid.toNat = p.regFrfMsb.toNat + 1)
    && decide (p.regFrfLsb.toNat = p.regFrfMsb.toNat + 2)
    && decide (0 < p.fxoscHz)
    && decide (0 < p.pollInterval) && decide (p.pollInterval ≤ p.pollIntervalMax)
    && decide (p.resetLowMin ≤ p.resetLowTime) && decide (p.resetHoldMin ≤ p.resetHoldTime)
    && decide (p.maxSendLen ≤ p.fifoWindow)
    && decide (p.addrBits ≤ 7) && decide (p.maxSendLen < p.scratchSize)
    && decide (p.fifoWindow ≤ p.scratchSize)

/-- A configuration: parameters that meet the constraints. -/
structure Config extends Params where
  valid : toParams.check = true
  deriving DecidableEq, Repr

/-- The configuration of the defaults. -/
def Config.default : Config := { toParams := {}, valid := by decide }

end Sys2Proof

namespace Sys2Proof.Machine

/-- The target's state (10_state R31 to R35). The registers are a list of cells in the canonical
form of `Memory.wf`; `drained` is the model's own: the bytes that the read frame now open has taken
from the FIFO, which 20_memory R66 may give back. -/
structure Target where
  x : List Host.Cell := []
  fifo : List Byte := []
  chipMode : Mode := .sleep
  ready : Bool := false
  packetSent : Bool := false
  payloadReady : Bool := false
  irq : Bool := false
  version : Byte := 0x24
  drained : List Byte := []
  deriving DecidableEq, Repr, Inhabited

/-- What the target and the interrupt line may do between two controller steps (10_state R34, R40). A
rising edge runs the handler (45_event_channel R201, log 10). -/
inductive TargetAct where
  | settle
  | txComplete
  | rxPacket (p : List Byte)
  /-- The environment drives the interrupt line to a level (10_state R34). -/
  | irq (level : Bool)
  deriving DecidableEq, Repr, Inhabited

/-- The environment's choices at one capability call, `Now()` or `Sleep(d)`: what happens before
it, the time it takes, the error the platform reports, and every value the rules `draw` there. -/
structure Moment where
  acts : List TargetAct := []
  delay : Nat := 0
  err : Option PlatformError := none
  /-- `draw Byte`. -/
  byte : Byte := 0
  /-- Which way two simultaneous events go (60_exceptions R218, item 3). -/
  choice : Bool := false
  /-- The number of bytes a failed FIFO read has removed (20_memory R66). -/
  count : Nat := 0
  /-- The target where no rule fixes it (10_state R36, R44; 70_reset_and_hazards R241). -/
  target : Target := {}
  deriving DecidableEq, Repr, Inhabited

end Sys2Proof.Machine

namespace Sys2Proof

/-- FREE VALUE (log 1): the environment's choice at the n-th call, constrained by nothing. -/
opaque Config.freeMoment : Nat → Machine.Moment

end Sys2Proof
end

