-- ==== Sys2Proof/Syntax.lean ====
section
/-!
DEFINITION. The instructions: one constructor for each of the 42 rows of spec/opcode_table.json, and
the form in which one is presented to the controller.
-/

namespace Sys2Proof

/-- The rows of the opcode table: five bus frame formats, eleven frame instances, the nine
operations of the host (30_encoding R82) and the seventeen internal operations (R83). -/
inductive Instr where
  /-- `RD`, single read frame (30_encoding R72). -/
  | rd (a : Addr)
  /-- `WR`, single write frame (R73). -/
  | wr (a : Addr) (v : Byte)
  /-- `BWR`, burst write to the FIFO (R74). -/
  | bwr (d : List Byte)
  /-- `BRD`, burst read of `n` bytes from the FIFO (R75). -/
  | brd (n : Nat)
  /-- `ADDRBYTE`, the address byte, `w` the direction (R71). -/
  | addrByte (w : Bool) (a : Addr)
  | wrOpmodeStandby
  | wrOpmodeTx
  | wrOpmodeRx
  | wrOpmodeSleep
  | wrOpmodeFs
  | rdIrqFlags1
  | rdIrqFlags2
  | rdVersion
  | wrFrfMsb (m : Byte)
  | wrFrfMid (i : Byte)
  | wrFrfLsb (l : Byte)
  | reset
  | setStandbyMode
  | isReady
  | detectDevice
  | setFrequency (hz : Hz)
  | send (data : List Byte)
  | receive
  | readRegister (addr : Byte)
  | writeRegister (addr : Byte) (value : Byte)
  | openFrame
  | exchange (b : Byte)
  | closeFrame (ePrev : Option OpError)
  | setMode (m : Mode)
  | setModeAndWait (m : Mode)
  | fifoWrite (data : List Byte)
  | fifoRead (n : Nat)
  | waitTxDone
  | waitPayloadReady
  | pollFlag (reg : Addr) (bit : Fin 8) (timeout : Nat) (name : WaitName)
  | handler
  | awaitEvent (timeout : Nat) (name : WaitName)
  /-- 43_frequency_synthesizer R151 gives `hz` as a 32-bit unsigned number; that the operand may be any
  natural number is the model's choice (DESIGN CHOICE, log 32). -/
  | hzToFrf (hz : Nat)
  | frfToHz (f : Frf)
  | frfToHzInt (f : Frf)
  | frfSplit (frf : Frf)
  | frfJoin (m : Byte) (i : Byte) (l : Byte)
  deriving DecidableEq, Repr

/-- The typed operands that stand beside a command code; the spec gives them no byte layout
(30_encoding R82). -/
inductive Operands where
  | nothing
  | hz (hz : Hz)
  | data (data : List Byte)
  | addr (addr : Byte)
  | addrValue (addr : Byte) (value : Byte)
  deriving DecidableEq, Repr

/-- What can be presented to the controller: a host call (30_encoding R82), or the bytes of one bus
frame, first byte first (R70). Internal operations have no form (R83). -/
inductive Request where
  | call (code : Byte) (operands : Operands)
  | frame (bytes : List Byte)
  deriving DecidableEq, Repr

end Sys2Proof
end

