-- ==== Sys2Proof/WellFormed.lean ====
section
/-!
DEFINITION. Which instructions are well formed: the bounds the spec puts on operands that their
types do not already carry. `exec` refuses an instruction that is not.
-/

namespace Sys2Proof

/-- `addr` is one of the `2^ADDR_BITS` addresses: `addr ≤ 0x7F` (00_scope R6, 30_encoding R81). -/
def Params.addrInRange (p : Params) (addr : Byte) : Bool := decide (addr.toNat < 2 ^ p.addrBits)

/-- `HZ_LIMIT = 2^24 × FSTEP = FXOSC_HZ × 2^(24 − FRF_SHIFT)`, an exact rational for any `FRF_SHIFT`
(43_frequency_synthesizer R152, R159). -/
def Params.hzLimit (p : Params) : Ratio := { num := p.fxoscHz * 2 ^ 24, den := 2 ^ p.frfShift }

/-- `hz < HZ_LIMIT` (43_frequency_synthesizer R152, R157). -/
def Params.hzInRange (p : Params) (hz : Hz) : Bool :=
  decide (hz.toNat * p.hzLimit.den < p.hzLimit.num)

/-- `len(data) ≤ MAX_SEND_LEN` (20_memory R56; 44_packet_io R171, R176). -/
def Params.sendLenOk (p : Params) (data : List Byte) : Bool := decide (data.length ≤ p.maxSendLen)

/-- The drained bytes fit `rx_buf` (10_state R25, 44_packet_io R172). -/
def Params.drainFits (p : Params) (n : Nat) : Bool := decide (n ≤ p.scratchSize)

/-- Well-formedness under a configuration. -/
def Instr.wellFormed (c : Config) : Instr → Bool
  | .rd _ => true
  | .wr _ _ => true
  | .bwr d => c.sendLenOk d
  | .brd _ => true
  | .addrByte _ _ => true
  | .wrOpmodeStandby => true
  | .wrOpmodeTx => true
  | .wrOpmodeRx => true
  | .wrOpmodeSleep => true
  | .wrOpmodeFs => true
  | .rdIrqFlags1 => true
  | .rdIrqFlags2 => true
  | .rdVersion => true
  | .wrFrfMsb _ => true
  | .wrFrfMid _ => true
  | .wrFrfLsb _ => true
  | .reset => true
  | .setStandbyMode => true
  | .isReady => true
  | .detectDevice => true
  | .setFrequency hz => c.hzInRange hz
  | .send data => c.sendLenOk data
  | .receive => true
  | .readRegister addr => c.addrInRange addr
  | .writeRegister addr _ => c.addrInRange addr
  | .openFrame => true
  | .exchange _ => true
  | .closeFrame _ => true
  | .setMode _ => true
  | .setModeAndWait _ => true
  | .fifoWrite data => c.sendLenOk data
  | .fifoRead n => c.drainFits n
  | .waitTxDone => true
  | .waitPayloadReady => true
  | .pollFlag _ _ _ _ => true
  | .handler => true
  | .awaitEvent _ _ => true
  | .hzToFrf _ => true
  | .frfToHz _ => true
  | .frfToHzInt _ => true
  | .frfSplit _ => true
  | .frfJoin _ _ _ => true

end Sys2Proof
end

