-- ==== Sys2Proof/Decode.lean ====
section
/-!
DEFINITION. The decoder, total on every request and rejecting by name, the encoder written from the
same tables (30_encoding sections 1, 2, 3 and 5), and the reading of one row's word of
spec/opcode_table.json.

Two spaces of the table have words of their own: a host operation is a command code with typed
operands, a bus frame is the bytes between `CS+` and `CS-`. Internal operations have no encoding
(30_encoding R83), so nothing decodes to one and `encode` answers none for it.
-/

namespace Sys2Proof

/-- Why a request names no instruction. -/
inductive Reject where
  /-- Codes `0x00` and `0x0A`..`0xFF` (30_encoding R82). -/
  | noSuchCode
  /-- The operands beside the code are not the ones its signature takes (R82). -/
  | wrongOperands
  /-- No byte between `CS+` and `CS-` (30_encoding R81). -/
  | emptyFrame
  /-- Several data bytes to an address other than `REG_FIFO` (30_encoding R81). -/
  | burstElsewhere
  /-- A read frame whose data exchanges do not send `DUMMY_BYTE` (30_encoding R72, R75). -/
  | notDummy
  /-- A burst write of more than `MAX_SEND_LEN` bytes (20_memory R56). -/
  | burstTooLong
  deriving DecidableEq, Repr

/-- The direction `w` at bit `d`, the bits of the address in order at the seven others. -/
def insertDirection (d : Fin 8) (w : Bool) (a : Addr) : Byte :=
  BitVec.ofNat 8
    (a.toNat / 2 ^ d.val * 2 ^ (d.val + 1) + w.toNat * 2 ^ d.val + a.toNat % 2 ^ d.val)

/-- The seven bits of `b` other than bit `d`, in order. -/
def removeDirection (d : Fin 8) (b : Byte) : Addr :=
  BitVec.ofNat 7 (b.toNat / 2 ^ (d.val + 1) * 2 ^ d.val + b.toNat % 2 ^ d.val)

/-- The address byte `{w, a}` (30_encoding R71): with `DIR_BIT = 7` bit 7 the direction, bits 6-0 the
address. Where the address lies beside another `DIR_BIT` is the model's choice (log 4). -/
def addressByte (c : Config) (w : Bool) (a : Addr) : Byte := insertDirection c.dirBit w a

/-- Bit `DIR_BIT` of an address byte: 1 = write (00_scope R6, 30_encoding R71). -/
def addressByteDir (c : Config) (b : Byte) : Bool := b.getLsbD c.dirBit.val

/-- The address in an address byte, its bits 6-0 with `DIR_BIT = 7` (30_encoding R71). -/
def addressByteAddr (c : Config) (b : Byte) : Addr := removeDirection c.dirBit b

/-- The command codes (30_encoding R82). -/
def decodeCall (code : Byte) (ops : Operands) : Except Reject Instr :=
  match code.toNat, ops with
  | 0x01, .nothing => .ok .reset
  | 0x02, .nothing => .ok .setStandbyMode
  | 0x03, .nothing => .ok .isReady
  | 0x04, .nothing => .ok .detectDevice
  | 0x05, .hz hz => .ok (.setFrequency hz)
  | 0x06, .data data => .ok (.send data)
  | 0x07, .nothing => .ok .receive
  | 0x08, .addr addr => .ok (.readRegister addr)
  | 0x09, .addrValue addr value => .ok (.writeRegister addr value)
  | n, _ => if 1 ≤ n ∧ n ≤ 9 then .error .wrongOperands else .error .noSuchCode

/-- A two-byte write frame: the table's frame instances first, in its order, then the general `WR`. -/
def decodeWrite (c : Config) (a : Addr) (v : Byte) : Instr :=
  if a = c.regOpmode ∧ v = c.modeStandby then .wrOpmodeStandby
  else if a = c.regOpmode ∧ v = c.modeTx then .wrOpmodeTx
  else if a = c.regOpmode ∧ v = c.modeRx then .wrOpmodeRx
  else if a = c.regOpmode ∧ v = c.modeSleep then .wrOpmodeSleep
  else if a = c.regOpmode ∧ v = c.modeFs then .wrOpmodeFs
  else if a = c.regFrfMsb then .wrFrfMsb v
  else if a = c.regFrfMid then .wrFrfMid v
  else if a = c.regFrfLsb then .wrFrfLsb v
  else .wr a v

/-- A two-byte read frame: the table's frame instances first, in its order, then the general `RD`. -/
def decodeRead (c : Config) (a : Addr) : Instr :=
  if a = c.regIrqFlags1 then .rdIrqFlags1
  else if a = c.regIrqFlags2 then .rdIrqFlags2
  else if a = c.regVersion then .rdVersion
  else .rd a

/-- The bytes of one frame (30_encoding R76): the first byte gives direction and address, every
later byte is data. A frame of one data byte is the single format, of none or several the burst
format of the FIFO, and of the address byte alone, to another address, `ADDRBYTE`. -/
def decodeFrame (c : Config) : List Byte → Except Reject Instr
  | [] => .error .emptyFrame
  | [b] =>
    if addressByteAddr c b = c.regFifo then
      if addressByteDir c b then .ok (.bwr []) else .ok (.brd 0)
    else .ok (.addrByte (addressByteDir c b) (addressByteAddr c b))
  | [b, d] =>
    if addressByteDir c b then .ok (decodeWrite c (addressByteAddr c b) d)
    else if d = c.dummyByte then .ok (decodeRead c (addressByteAddr c b))
    else .error .notDummy
  | b :: d :: e :: ds =>
    if addressByteAddr c b ≠ c.regFifo then .error .burstElsewhere
    else if addressByteDir c b then
      if (d :: e :: ds).length ≤ c.maxSendLen then .ok (.bwr (d :: e :: ds))
      else .error .burstTooLong
    else if (d :: e :: ds).all (· == c.dummyByte) then .ok (.brd (d :: e :: ds).length)
    else .error .notDummy

/-- The decoder. -/
def decode (c : Config) : Request → Except Reject Instr
  | .call code ops => decodeCall code ops
  | .frame bytes => decodeFrame c bytes

/-- The bytes of a write frame (30_encoding R73, R74). -/
def writeFrameBytes (c : Config) (a : Addr) (d : List Byte) : List Byte := addressByte c true a :: d

/-- The bytes of a read frame of `n` data exchanges (30_encoding R72, R75). -/
def readFrameBytes (c : Config) (a : Addr) (n : Nat) : List Byte :=
  addressByte c false a :: List.replicate n c.dummyByte

/-- The encoder: what a row of the table looks like to the controller, where it has an encoding. -/
def encode (c : Config) : Instr → Option Request
  | .rd a => some (.frame (readFrameBytes c a 1))
  | .wr a v => some (.frame (writeFrameBytes c a [v]))
  | .bwr d => some (.frame (writeFrameBytes c c.regFifo d))
  | .brd n => some (.frame (readFrameBytes c c.regFifo n))
  | .addrByte w a => some (.frame [addressByte c w a])
  | .wrOpmodeStandby => some (.frame (writeFrameBytes c c.regOpmode [c.modeStandby]))
  | .wrOpmodeTx => some (.frame (writeFrameBytes c c.regOpmode [c.modeTx]))
  | .wrOpmodeRx => some (.frame (writeFrameBytes c c.regOpmode [c.modeRx]))
  | .wrOpmodeSleep => some (.frame (writeFrameBytes c c.regOpmode [c.modeSleep]))
  | .wrOpmodeFs => some (.frame (writeFrameBytes c c.regOpmode [c.modeFs]))
  | .rdIrqFlags1 => some (.frame (readFrameBytes c c.regIrqFlags1 1))
  | .rdIrqFlags2 => some (.frame (readFrameBytes c c.regIrqFlags2 1))
  | .rdVersion => some (.frame (readFrameBytes c c.regVersion 1))
  | .wrFrfMsb m => some (.frame (writeFrameBytes c c.regFrfMsb [m]))
  | .wrFrfMid i => some (.frame (writeFrameBytes c c.regFrfMid [i]))
  | .wrFrfLsb l => some (.frame (writeFrameBytes c c.regFrfLsb [l]))
  | .reset => some (.call 0x01 .nothing)
  | .setStandbyMode => some (.call 0x02 .nothing)
  | .isReady => some (.call 0x03 .nothing)
  | .detectDevice => some (.call 0x04 .nothing)
  | .setFrequency hz => some (.call 0x05 (.hz hz))
  | .send data => some (.call 0x06 (.data data))
  | .receive => some (.call 0x07 .nothing)
  | .readRegister addr => some (.call 0x08 (.addr addr))
  | .writeRegister addr value => some (.call 0x09 (.addrValue addr value))
  | .openFrame => none
  | .exchange _ => none
  | .closeFrame _ => none
  | .setMode _ => none
  | .setModeAndWait _ => none
  | .fifoWrite _ => none
  | .fifoRead _ => none
  | .waitTxDone => none
  | .waitPayloadReady => none
  | .pollFlag _ _ _ _ => none
  | .handler => none
  | .awaitEvent _ _ => none
  | .hzToFrf _ => none
  | .frfToHz _ => none
  | .frfToHzInt _ => none
  | .frfSplit _ => none
  | .frfJoin _ _ _ => none

/-- Whether `i` is the most particular row that its words stand for. The words of a frame instance
are words of `RD` or `WR` too, and one data byte to or from the FIFO is a single frame (30_encoding
R86); the decoder names the instance, and the single format (log 12). Two instances share words only
where two registers share an address; the one earlier in the table is named then (log 30). -/
def Instr.mostParticular (c : Config) : Instr → Bool
  | .rd a => decide (a ∉ [c.regIrqFlags1, c.regIrqFlags2, c.regVersion])
  | .wr a v =>
    decide (a ∉ [c.regFrfMsb, c.regFrfMid, c.regFrfLsb])
      && !(decide (a = c.regOpmode) && decide (v ∈ c.modeValues))
  | .bwr d => decide (d.length ≠ 1)
  | .brd n => decide (n ≠ 1)
  | .addrByte _ a => decide (a ≠ c.regFifo)
  | .wrOpmodeStandby => true
  | .wrOpmodeTx => true
  | .wrOpmodeRx => true
  | .wrOpmodeSleep => true
  | .wrOpmodeFs => true
  | .rdIrqFlags1 => true
  | .rdIrqFlags2 => decide (c.regIrqFlags2 ≠ c.regIrqFlags1)
  | .rdVersion => decide (c.regVersion ∉ [c.regIrqFlags1, c.regIrqFlags2])
  | .wrFrfMsb m => !(decide (c.regFrfMsb = c.regOpmode) && decide (m ∈ c.modeValues))
  | .wrFrfMid i => !(decide (c.regFrfMid = c.regOpmode) && decide (i ∈ c.modeValues))
  | .wrFrfLsb l => !(decide (c.regFrfLsb = c.regOpmode) && decide (l ∈ c.modeValues))
  | .reset => true
  | .setStandbyMode => true
  | .isReady => true
  | .detectDevice => true
  | .setFrequency _ => true
  | .send _ => true
  | .receive => true
  | .readRegister _ => true
  | .writeRegister _ _ => true
  | .openFrame => true
  | .exchange _ => true
  | .closeFrame _ => true
  | .setMode _ => true
  | .setModeAndWait _ => true
  | .fifoWrite _ => true
  | .fifoRead _ => true
  | .waitTxDone => true
  | .waitPayloadReady => true
  | .pollFlag _ _ _ _ => true
  | .handler => true
  | .awaitEvent _ _ => true
  | .hzToFrf _ => true
  | .frfToHz _ => true
  | .frfToHzInt _ => true
  | .frfSplit _ => true
  | .frfJoin _ _ _ => true

/-- The zero operands of a command code's signature (30_encoding R82). -/
def zeroOperands (code : Byte) : Operands :=
  match code.toNat with
  | 0x05 => .hz 0
  | 0x06 => .data []
  | 0x08 => .addr 0
  | 0x09 => .addrValue 0 0
  | _ => .nothing

/-- The request that one word of the opcode table stands for. The table numbers a two-byte frame as
one 16-bit number, first byte high; a word of one byte is a command code where it is one of the nine
(30_encoding R82), and otherwise an address byte (R71) whose data byte is 0 (log 12). -/
def requestOfTableWord (nbits w : Nat) : Request :=
  if nbits ≤ 8 then
    if 1 ≤ w ∧ w ≤ 9 then .call (BitVec.ofNat 8 w) (zeroOperands (BitVec.ofNat 8 w))
    else .frame [BitVec.ofNat 8 w, 0]
  else .frame [BitVec.ofNat 8 (w / 256), BitVec.ofNat 8 w]

/-- The instruction the decoder reads from one word of the opcode table, under the default
addresses and mode values the table itself is written with. -/
def decodeTableWord (nbits w : Nat) : Option Instr :=
  match decode Config.default (requestOfTableWord nbits w) with
  | .ok i => some i
  | .error _ => none

end Sys2Proof
end

