-- ==== Sys2Proof/Machine/State.lean ====
section
/-!
DEFINITION. The machine's state (10_state R20 to R35), with the model's own fields that hold the
environment, the host's requests and the record of a run; the reasons a step stops; reset.
-/

namespace Sys2Proof.Machine

/-- The sequencer state, which takes the place of a program counter (10_state R27). -/
inductive SeqState where
  | idle
  | frameOpen
  | frameAddr
  | frameData (i : Nat)
  | frameClose
  | readyPoll (k : Nat)
  | flagPoll (k : Nat)
  | eventWait
  | dwell
  | resetLow
  | resetHold
  | send1
  | send2
  | send3
  | send4
  | send5
  | recv1
  | recv2
  | recv3
  | recv4
  deriving DecidableEq, Repr

/-- One entry of a bus trace (00_scope R15): `CS+` and `CS-`, `aa/bb`, `RST0` and `RST1`, `T(d)`,
each with the error the platform returned, if any (the trace's `!`). -/
inductive BusCall where
  | select (active : Bool) (err : Option PlatformError)
  | transfer (sent : Byte) (answer : Except PlatformError Byte)
  | resetLevel (level : Bool)
  | sleep (duration : Nat)
  deriving DecidableEq, Repr

/-- What an operation returns with outcome `ok` (30_encoding R82; 43_frequency_synthesizer). -/
inductive Value where
  | unit
  | bool (b : Bool)
  | byte (b : Byte)
  | bytes (l : List Byte)
  | natural (n : Nat)
  | rational (q : Ratio)
  | triplet (m i l : Byte)
  | frf (f : Frf)
  deriving DecidableEq, Repr

/-- The outcome of the last operation as the host sees it (00_scope R10); `nothingYet` before the
first one. The outcome `refused` is no result: it is `Host.Outcome.refused`. -/
inductive Result where
  | nothingYet
  | ok (v : Value)
  | error (e : OpError)
  deriving DecidableEq, Repr

/-- The frame on the bus as the target follows it (30_encoding R76, 20_memory R62, R66): the address
byte if one was sent (direction and address), the data exchanges that succeeded, all exchanges
attempted, whether a step of the frame returned an error, and the data byte of a register write, which
is delivered when the frame ends (20_memory R61). -/
structure BusFrame where
  addr : Option (Bool × Addr) := none
  data : Nat := 0
  attempted : Nat := 0
  failed : Bool := false
  pending : Option Byte := none
  deriving DecidableEq, Repr

/-- Why the machine stops with a fault. No step raises one (93_implementation_defined part 1: "No
behaviour is treated as `fault` that the document does not itself call an error", and its errors are
results of operations). -/
inductive Fault where
  /-- Raised by creation alone, when registration of the interrupt handler fails: no controller
  exists afterwards (45_event_channel R203, 60_exceptions R214). Safe: nothing goes on. -/
  | setupError (cause : PlatformError)
  deriving DecidableEq, Repr

/-- Why an instruction is given no meaning (00_scope R10, 60_exceptions R215). Each is safe: the
model stops where the spec promises nothing. -/
inductive Refusal where
  /-- Raised by `exec` for an instruction without a meaning; no arm of this model does. Safe. -/
  | notModelled (mnemonic : String)
  /-- Raised by `step`: the request at the head of the queue names no instruction (30_encoding R81,
  R82). Safe. -/
  | undecodable (why : Reject)
  /-- Raised by a host operation issued while another is in progress (60_exceptions R225). Safe. -/
  | busy
  /-- Raised by `ReadRegister` and `WriteRegister` with an `addr` out of range, `addr > 0x7F`
  (30_encoding R81). Safe. -/
  | addressRange
  /-- Raised by `SetFrequency` with `hz ≥ HZ_LIMIT` (43_frequency_synthesizer R152). Safe. -/
  | frequencyRange
  /-- Raised by `Send`, `FifoWrite` and `BWR` with more than `MAX_SEND_LEN` bytes (44_packet_io
  R171, R176). Safe. -/
  | sendTooLong
  /-- Raised by `FifoRead` of more bytes than `rx_buf` has (10_state R25). Safe. -/
  | scratchOverflow
  /-- Raised by `OpenFrame`, or by an instruction that opens a frame, while a frame is open
  (30_encoding R81, 20_memory R62). Safe. -/
  | frameOpen
  /-- Raised by `Exchange` with no frame open (40_register_access R102). Safe. -/
  | noFrame
  /-- Raised by `Exchange` and `ADDRBYTE` after a step of the open frame failed (40_register_access
  R102, R103). Safe. -/
  | exchangeAfterError
  /-- Raised by `Exchange` where a simulated target meets a burst frame to an address other than
  `REG_FIFO` while no contract is broken (30_encoding R81, log 31). Safe. -/
  | burstElsewhere
  /-- Raised by `ADDRBYTE` in an open frame whose first byte is already sent (20_memory R62). Safe. -/
  | addressNotFirst
  deriving DecidableEq, Repr

/-- The state. Controller state is 10_state R21 to R29, target state R31 to R35 (`target`). -/
structure State where
  /-- The parameters (10_state R45); no step changes them. -/
  cfg : Config
  cs : Bool
  rst : Bool
  modeCache : Option Mode
  awaitReady : Bool
  txBuf : List Byte
  rxBuf : List Byte
  evt : Bool
  seq : SeqState
  dropped : List OpError
  hazard : Bool
  target : Target
  /-- Model's own: the state that opened the frame, where `seq` returns when it closes (R27). -/
  opener : SeqState
  /-- Model's own: the error `e` that the open frame carries to its close (40_register_access). -/
  frameErr : Option OpError
  /-- Model's own: the frame as the target follows it. -/
  frame : Option BusFrame
  /-- Model's own: the clock behind `Now()`, in microseconds (00_scope R12). -/
  clock : Nat
  /-- Model's own: the number of calls the environment has answered. -/
  tick : Nat
  /-- Model's own: the environment's choices for the first calls; later ones are free. -/
  script : List Moment
  /-- Model's own: the requests of the host that wait (log 2). -/
  requests : List Request
  /-- Model's own: the outcome of the last operation. -/
  result : Result
  /-- Model's own: the capability calls so far, oldest first (00_scope R15). -/
  trace : List BusCall
  /-- Model's own: the values `seq` took so far, oldest first (10_state R27). -/
  path : List SeqState
  deriving DecidableEq, Repr

/-- The controller as created (10_state R44, 70_reset_and_hazards R240), with nothing yet asked of
it. What R44 leaves unspecified has the values of log 5. -/
def State.reset : State where
  cfg := Config.default
  cs := false
  rst := true
  modeCache := none
  awaitReady := false
  txBuf := List.replicate 256 0
  rxBuf := List.replicate 256 0
  evt := false
  seq := .idle
  dropped := []
  hazard := false
  target := {}
  opener := .idle
  frameErr := none
  frame := none
  clock := 0
  tick := 0
  script := []
  requests := []
  result := .nothingYet
  trace := []
  path := []

end Sys2Proof.Machine
end

