-- ==== Sys2Proof/Machine/Operands.lean ====
section
/-!
DEFINITION. Operand forms and the values carried in frames: register operands, mode values, the
frequency arithmetic and the triplet (30_encoding section 3, 43_frequency_synthesizer section 1).
-/

namespace Sys2Proof.Machine

/-- A host operation's 8-bit `addr` operand is one of the `2^ADDR_BITS` registers (30_encoding R81). -/
def addressAccepted (c : Config) (addr : Byte) : Bool := c.addrInRange addr

/-- The register an accepted `addr` names: its bits 6-0 (30_encoding R71). -/
def registerOf (addr : Byte) : Addr := addr.setWidth 7

/-- `SetFrequency` accepts `hz` (43_frequency_synthesizer R152). -/
def hzAccepted (c : Config) (hz : Hz) : Bool := c.hzInRange hz

/-- `Send`, `FifoWrite` and `BWR` accept `data` (44_packet_io R171, R176). -/
def sendAccepted (c : Config) (data : List Byte) : Bool := c.sendLenOk data

/-- `FifoRead` accepts `n` (10_state R25, 44_packet_io R172). -/
def drainAccepted (c : Config) (n : Nat) : Bool := c.drainFits n

/-- `ModeValue(m)` (30_encoding R77). -/
def modeValue (c : Config) : Mode → Byte
  | .sleep => c.modeSleep
  | .standby => c.modeStandby
  | .frequencySynthesis => c.modeFs
  | .transmit => c.modeTx
  | .receive => c.modeRx

/-- The mode whose value a byte is, if it is one of the five (10_state R23). -/
def modeOf (c : Config) (v : Byte) : Option Mode :=
  if v = c.modeSleep then some .sleep
  else if v = c.modeStandby then some .standby
  else if v = c.modeFs then some .frequencySynthesis
  else if v = c.modeTx then some .transmit
  else if v = c.modeRx then some .receive
  else none

/-- `HzToFrf(hz) = floor(hz × 2^FRF_SHIFT / FXOSC_HZ)` in unbounded naturals
(43_frequency_synthesizer R151, which gives it for `hz` of 32 bits; beyond them, log 32). -/
def hzToFrf (c : Config) (hz : Nat) : Nat := hz * 2 ^ c.frfShift / c.fxoscHz

/-- `FrfToHz(frf) = frf × FXOSC_HZ / 2^FRF_SHIFT`, exact (43_frequency_synthesizer R154). -/
def frfToHz (c : Config) (f : Frf) : Ratio := { num := f.toNat * c.fxoscHz, den := 2 ^ c.frfShift }

/-- `FrfToHzInt(frf) = ceil(frf × FXOSC_HZ / 2^FRF_SHIFT)` (43_frequency_synthesizer R155). -/
def frfToHzInt (c : Config) (f : Frf) : Nat :=
  (f.toNat * c.fxoscHz + (2 ^ c.frfShift - 1)) / 2 ^ c.frfShift

/-- Bits 23-16 of a frequency value (43_frequency_synthesizer R153). -/
def frfMsb (f : Frf) : Byte := f.extractLsb' 16 8

/-- Bits 15-8 of a frequency value (43_frequency_synthesizer R153). -/
def frfMid (f : Frf) : Byte := f.extractLsb' 8 8

/-- Bits 7-0 of a frequency value (43_frequency_synthesizer R153). -/
def frfLsb (f : Frf) : Byte := f.extractLsb' 0 8

/-- `FrfSplit(frf)` (30_encoding R78). -/
def frfSplit (f : Frf) : Byte × Byte × Byte := (frfMsb f, frfMid f, frfLsb f)

/-- `FrfJoin(m, i, l) = (m << 16) | (i << 8) | l` (30_encoding R78). -/
def frfJoin (m i l : Byte) : Frf :=
  (m.setWidth 24 <<< 16) ||| (i.setWidth 24 <<< 8) ||| l.setWidth 24

/-- The 24-bit value `SetFrequency` writes for an accepted `hz` (43_frequency_synthesizer R157). -/
def frfOfHz (c : Config) (hz : Hz) : Frf := BitVec.ofNat 24 (hzToFrf c hz.toNat)

end Sys2Proof.Machine
end

