-- ==== Sys2Proof/Machine/Flags.lean ====
section
/-!
DEFINITION. The status bits (30_encoding R79), the version test (R80), and the marks an access sets:
`hazard`, `await_ready` and `mode_cache` (10_state R23, R24, R29; 70_reset_and_hazards R246, R247,
R249).
-/

namespace Sys2Proof.Machine

/-- Bit `i` of a status byte is 1 (30_encoding R79). -/
def statusBit (b : Byte) (i : Fin 8) : Bool := b.getLsbD i.val

/-- `ModeReady(b)` (30_encoding R79). -/
def modeReady (c : Config) (b : Byte) : Bool := statusBit b c.modeReadyBit

/-- `VersionOk(b)`: equality with the expected byte, no bit masked (30_encoding R80). -/
def versionOk (c : Config) (b : Byte) : Bool := decide (b = c.expectedVersion)

/-- A status byte with bit `i` equal to `f` and the other bits 0 (10_state R38). -/
def flagByte (i : Fin 8) (f : Bool) : Byte := if f then BitVec.twoPow 8 i.val else 0

/-- `REG_IRQFLAGS1` as the reference target reads it (10_state R38). -/
def irqFlags1 (c : Config) (t : Target) : Byte := flagByte c.modeReadyBit t.ready

/-- `REG_IRQFLAGS2` as the reference target reads it (10_state R38). Where `PACKETSENT_BIT` and
`PAYLOADREADY_BIT` are the same bit, R38 gives it two values, and it reads as 1 where either flag is
set: the model's choice (DESIGN CHOICE, log 28). -/
def irqFlags2 (c : Config) (t : Target) : Byte :=
  flagByte c.packetSentBit t.packetSent ||| flagByte c.payloadReadyBit t.payloadReady

/-- A status register as the reference target reads it (10_state R38). Where `REG_IRQFLAGS1` and
`REG_IRQFLAGS2` share one address it holds the bits of both: the model's choice (DESIGN CHOICE, log
30). -/
def statusByte (c : Config) (a : Addr) (t : Target) : Byte :=
  (if a = c.regIrqFlags1 then irqFlags1 c t else 0)
    ||| (if a = c.regIrqFlags2 then irqFlags2 c t else 0)

/-- `hazard <- true` where `p` holds; sticky (10_state R29). -/
def State.markHazard (p : Bool) (s : State) : State := { s with hazard := s.hazard || p }

/-- The mark of a read frame to `a` (70_reset_and_hazards R246, 40_register_access R104). -/
def State.markRead (a : Addr) (s : State) : State :=
  s.markHazard (s.awaitReady && decide (a ≠ s.cfg.regIrqFlags1))

/-- The mark of a write frame to `a` (70_reset_and_hazards R246, 40_register_access R105). -/
def State.markWrite (a : Addr) (s : State) : State :=
  s.markHazard (s.awaitReady && decide (a ≠ s.cfg.regOpmode))

/-- The mark of a FIFO burst frame (70_reset_and_hazards R246, 44_packet_io R171, R172). -/
def State.markBurst (s : State) : State := s.markHazard s.awaitReady

/-- The start of a write frame of `v` to the mode register: `await_ready`, and `hazard` if `v` is no
mode value (10_state R24, 70_reset_and_hazards R249). A write to another register does nothing here. -/
def State.beginModeWrite (a : Addr) (v : Byte) (s : State) : State :=
  if a = s.cfg.regOpmode then
    { s with awaitReady := true, hazard := s.hazard || (modeOf s.cfg v).isNone }
  else s

/-- The end of a write frame of `v` to the mode register: `mode_cache` (10_state R23). -/
def State.endModeWrite (a : Addr) (v : Byte) (e : Option OpError) (s : State) : State :=
  if a = s.cfg.regOpmode then
    { s with modeCache := if e.isNone then modeOf s.cfg v else none }
  else s

/-- The mark of `SetFrequency` outside Standby and Sleep (43_frequency_synthesizer R158). -/
def State.markFrequency (s : State) : State :=
  s.markHazard (decide (s.modeCache ≠ some .standby) && decide (s.modeCache ≠ some .sleep))

end Sys2Proof.Machine
end

