-- ==== Sys2Proof/Machine/Ops.lean ====
section
/-!
DEFINITION. The named operations everything else is written over: the register space as a list of
cells, the target's own steps and the handler, the passing of one environment moment, the clock, and
the end of an operation (error entry and return, 60_exceptions R219, R220).
-/

namespace Sys2Proof.Machine

/-! ### The register space (20_memory R50, 10_state R31) -/

/-- The byte at an address; an address that is not listed reads as 0 (log 5). -/
def Memory.read : List Host.Cell → Nat → Byte
  | [], _ => 0
  | (k, v) :: rest, a => if k = a then v else Memory.read rest a

/-- Put `v` before the cells `rest`, keeping no cell that holds what an unlisted address reads as. -/
def Memory.cons (a : Nat) (v : Byte) (rest : List Host.Cell) : List Host.Cell :=
  if v = 0 then rest else (a, v) :: rest

/-- `x[a] <- v` (00_scope R14), keeping the canonical form. -/
def Memory.write : List Host.Cell → Nat → Byte → List Host.Cell
  | [], a, v => Memory.cons a v []
  | (k, b) :: rest, a, v =>
    if a < k then Memory.cons a v ((k, b) :: rest)
    else if a = k then Memory.cons a v rest
    else (k, b) :: Memory.write rest a v

/-- The canonical form from a lower bound on: addresses rising, below 128, no byte 0. -/
def Memory.wfFrom : Nat → List Host.Cell → Bool
  | _, [] => true
  | lo, (k, b) :: rest =>
    decide (lo ≤ k) && decide (k < 128) && decide (b ≠ 0) && Memory.wfFrom (k + 1) rest

/-- The canonical form of the register space: addresses strictly rising within `0x00`..`0x7F`, and no
cell equal to what an unlisted address reads as. -/
def Memory.wf (x : List Host.Cell) : Bool := Memory.wfFrom 0 x

/-- Any list of cells brought to the canonical form of a register space: cells beyond the 128
addresses are left out, and of two cells at one address the first counts. -/
def Memory.canon : List Host.Cell → List Host.Cell
  | [] => []
  | (a, v) :: rest => if a < 128 then Memory.write (Memory.canon rest) a v else Memory.canon rest

/-- A register space with an image laid over it from address `a` on; `none` leaves a register as it
is. -/
def Memory.overlay : List (Option Byte) → Nat → List Host.Cell → List Host.Cell
  | [], _, x => x
  | none :: rest, a, x => Memory.overlay rest (a + 1) x
  | some v :: rest, a, x =>
    Memory.overlay rest (a + 1) (if a < 128 then Memory.write x a v else x)

/-- `x[a]` of a target (10_state R31). -/
def Target.reg (t : Target) (a : Addr) : Byte := Memory.read t.x a.toNat

/-- `x[a] <- v` in a target. -/
def Target.setReg (t : Target) (a : Addr) (v : Byte) : Target :=
  { t with x := Memory.write t.x a.toNat v }

/-! ### The environment's moment -/

/-- The environment's choice at the k-th call from now: from the script while it lasts, then free. -/
def State.momentAt (s : State) (k : Nat) : Moment :=
  s.script.getD (s.tick + k) (Config.freeMoment (s.tick + k))

/-- The environment's choice at the next call. -/
def State.moment (s : State) : Moment := s.momentAt 0

/-- No law ties the target: the oracle target (10_state R36), and either simulated target once `hazard`
is set, of which "the spec makes no promise" any more (10_state R29); so a read that breaks the
readiness rule, which sets `hazard` at the start of its frame, returns any byte (70_reset_and_hazards
R246; log 8). -/
def State.lawless (s : State) : Bool := decide (s.cfg.target = .oracle) || s.hazard

/-- A target drawn by the environment, brought to the form every target has: registers in canonical
form, a FIFO of at most `FIFO_WINDOW` bytes. The version byte (10_state R35: fixed for a chip) and
the line level (moved by edges alone, R34) are those of `old`. -/
def Target.drawn (c : Config) (old free : Target) : Target :=
  { free with
    x := Memory.canon free.x
    fifo := free.fifo.take c.fifoWindow
    version := old.version
    irq := old.irq
    drained := [] }

/-- What the target's own steps and the handler touch (10_state R40, 45_event_channel R201). -/
structure World where
  target : Target
  evt : Bool
  deriving DecidableEq, Repr

/-- `Handler()`, the handler's step for one rising edge: fill the slot if it is empty, else drop the
edge (45_event_channel R201). -/
def World.handler (w : World) : World := if w.evt = false then { w with evt := true } else w

/-- A rising edge of the interrupt line: the line is high, and the handler runs once, with the edge
(45_event_channel R201; that no controller step comes between the edge and its handler, log 10). -/
def World.risingEdge (w : World) : World :=
  World.handler { w with target := { w.target with irq := true } }

/-- The environment drives the interrupt line; only a change from low to high is an edge
(45_event_channel R201: "Only the edge matters, not the level"). -/
def World.driveIrq (level : Bool) (w : World) : World :=
  if level && !w.target.irq then w.risingEdge
  else { w with target := { w.target with irq := level } }

/-- `Settle` (10_state R40). -/
def World.settle (c : Config) (w : World) : World :=
  match w.target.ready, modeOf c (w.target.reg c.regOpmode) with
  | false, some m => { w with target := { w.target with chipMode := m, ready := true } }
  | _, _ => w

/-- `TxComplete` (10_state R40). -/
def World.txComplete (w : World) : World :=
  if w.target.chipMode = .transmit ∧ w.target.ready = true ∧ w.target.packetSent = false then
    World.risingEdge
      { w with target := { w.target with fifo := [], drained := [], packetSent := true } }
  else w

/-- `RxPacket(p)` (10_state R40). -/
def World.rxPacket (c : Config) (p : List Byte) (w : World) : World :=
  if w.target.chipMode = .receive ∧ w.target.ready = true ∧ w.target.payloadReady = false
      ∧ p.length ≤ c.fifoWindow then
    World.risingEdge
      { w with target := { w.target with fifo := p, drained := [], payloadReady := true } }
  else w

/-- A step of the other agents. The target's own steps are the reference target's; the loopback
target has no step of its own and no interrupt (10_state R37). -/
def World.act (c : Config) (lawless : Bool) (w : World) : TargetAct → World
  | .settle => if c.target = .reference ∧ lawless = false then w.settle c else w
  | .txComplete => if c.target = .reference ∧ lawless = false then w.txComplete else w
  | .rxPacket p => if c.target = .reference ∧ lawless = false then w.rxPacket c p else w
  | .irq level => if c.target = .loopback then w else w.driveIrq level

/-- The other agents' steps before the next call, in order. -/
def State.worldAfter (s : State) : World :=
  s.moment.acts.foldl (World.act s.cfg s.lawless) ⟨s.target, s.evt⟩

/-- One environment moment passes: the other agents step, time goes on (00_scope R9, R12), and a
target that no law ties becomes any target (10_state R36). -/
def State.elapse (s : State) : State :=
  { s with
    target :=
      if s.lawless then Target.drawn s.cfg s.worldAfter.target s.moment.target
      else s.worldAfter.target
    evt := s.worldAfter.evt
    clock := s.clock + s.moment.delay
    tick := s.tick + 1 }

/-! ### Time (00_scope R12) -/

/-- `Now()`. -/
def State.now (s : State) : State × Nat := (s.elapse, s.elapse.clock)

/-- One more call in the trace (00_scope R15). -/
def State.log (c : BusCall) (s : State) : State := { s with trace := s.trace ++ [c] }

/-- `Sleep(d)`: at least `d` passes, with no upper bound. -/
def State.sleep (d : Nat) (s : State) : State :=
  { s.elapse with clock := s.elapse.clock + d }.log (.sleep d)

/-! ### The sequencer, and the end of an operation -/

/-- `seq <- q` (00_scope R14). -/
def State.setSeq (q : SeqState) (s : State) : State := { s with seq := q, path := s.path ++ [q] }

/-- The error value of a failed frame step (60_exceptions R211). -/
def transportError (e : PlatformError) : OpError := { kind := .transport e }

/-- The error value of a wait that timed out (60_exceptions R212). -/
def timeoutError (w : WaitName) : OpError := { kind := .timeout w }

/-- `Wrapped(ctx, e)`: the context grows, class and cause stay (60_exceptions R210). R210 says only that
`ctx` is "added to its context"; that it goes to the head is the model's choice (DESIGN CHOICE, log 20). -/
def wrapError (op : OpName) (e : OpError) : OpError := { e with context := op :: e.context }

/-- The code of an error's class (60_exceptions R210). -/
def errorCode (e : OpError) : Nat :=
  match e.kind with
  | .transport _ => 1
  | .timeout _ => 2
  | .identityMismatch => 3
  | .setup _ => 4

/-- Two error values are the same error when class and cause agree (60_exceptions R210). -/
def sameError (e f : OpError) : Bool := decide (e.kind = f.kind)

/-- The result of an operation that returns an error or nothing. -/
def resultOf (e : Option OpError) : Result :=
  match e with
  | none => .ok .unit
  | some e => .error e

/-- The result of an operation that returns a value or an error. -/
def resultWith {α : Type} (v : α → Value) (r : Except OpError α) : Result :=
  match r with
  | .ok a => .ok (v a)
  | .error e => .error e

/-- The end of an operation, error entry and return alike: nothing is saved and nothing restored,
`seq` goes back to `q` (Idle for an operation of the host), and the host gets the result
(60_exceptions R219 step 4, R220; 00_scope R14). -/
def State.conclude (q : SeqState) (r : Result) (s : State) : State :=
  { s.setSeq q with result := r }

/-- An operation of the host: refused while another is in progress (60_exceptions R225), and ended
in `Idle`. -/
def hostOperation (body : State → State × Result) (s : State) :
    Host.Outcome State Fault Refusal :=
  if s.seq = .idle then .next ((body s).1.conclude .idle (body s).2) else .refused .busy

/-- An internal operation or a frame, ended in the sequencer state that called it (10_state R27). -/
def internalOperation (body : State → State × Result) (s : State) :
    Host.Outcome State Fault Refusal :=
  .next ((body s).1.conclude s.seq (body s).2)

/-- An internal operation that opens a frame: refused while one is open (20_memory R62). -/
def framedOperation (body : State → State × Result) (s : State) :
    Host.Outcome State Fault Refusal :=
  if s.cs then .refused .frameOpen else internalOperation body s

/-- A pure function's value is its result; there is no bus activity (43_frequency_synthesizer R154)
and no step of the sequencer. -/
def pureOperation (v : Value) (s : State) : Host.Outcome State Fault Refusal :=
  .next { s with result := .ok v }

end Sys2Proof.Machine
end

