-- ==== Sys2Proof/Machine/Target.lean ====
section
/-!
DEFINITION. The target's side of the bus (10_state R36 to R39, 20_memory R66), and the capabilities
`SetSelect`, `Transfer` and `SetResetLevel` (00_scope R11).
-/

namespace Sys2Proof.Machine

/-! ### What a data exchange and a delivery do in the target -/

/-- A data exchange of a read frame at `a` on the reference target: the byte returned, and the
target afterwards (10_state R38). `draw` is the byte of a read of an empty FIFO. Where two names share
the address the earlier row of the table counts (log 30). -/
def Target.readData (c : Config) (draw : Byte) (a : Addr) (t : Target) : Target × Byte :=
  if a = c.regFifo then
    match t.fifo with
    | b :: rest => ({ t with fifo := rest, drained := t.drained ++ [b] }, b)
    | [] => (t, draw)
  else if a = c.regVersion then (t, t.version)
  else if a = c.regIrqFlags1 ∨ a = c.regIrqFlags2 then (t, statusByte c a t)
  else (t, t.reg a)

/-- A data exchange of a write frame of `v` to `REG_FIFO` on the reference target: the target
afterwards, and whether it sets `hazard` (10_state R39, 70_reset_and_hazards R250). `free` gives what
R39 leaves unspecified. -/
def Target.pushFifo (c : Config) (free : Target) (v : Byte) (t : Target) : Target × Bool :=
  if t.fifo.length < c.fifoWindow then ({ t with fifo := t.fifo ++ [v] }, false)
  else ({ t with fifo := free.fifo }, true)

/-- The delivery of a write frame of `v` to the register `a`, another address than that of the FIFO, on
the reference target: the target afterwards, and whether it sets `hazard` (10_state R39,
70_reset_and_hazards R249). `free` gives what R39 leaves unspecified. Where two names share the address
the earlier row of the table counts (log 30). -/
def Target.writeRegister (c : Config) (free : Target) (a : Addr) (v : Byte) (t : Target) :
    Target × Bool :=
  if a = c.regOpmode then
    let t' : Target :=
      { t.setReg a v with ready := false, packetSent := false, payloadReady := false }
    match modeOf c v with
    | some _ => (t', false)
    | none => ({ t' with chipMode := free.chipMode }, true)
  else if a = c.regVersion ∨ a = c.regIrqFlags1 ∨ a = c.regIrqFlags2 then (t, false)
  else (t.setReg a v, false)

/-- A target after a frame to `a` in which a step returned an error (20_memory R66): the addressed
register, or the FIFO, holds any value; a failed read has removed at most as many bytes from the FIFO
as exchanges were attempted. A failed mode write leaves the mode and its flags open as well. -/
def Target.afterFailure (c : Config) (m : Moment) (free : Target) (w : Bool) (a : Addr)
    (attempted : Nat) (t : Target) : Target :=
  if a = c.regFifo then
    if w then { t with fifo := free.fifo }
    else { t with fifo := ((t.drained ++ t.fifo).drop (min m.count attempted)).take c.fifoWindow }
  else if w = true ∧ a = c.regOpmode then
    { t.setReg a m.byte with
      chipMode := free.chipMode
      ready := free.ready
      packetSent := free.packetSent
      payloadReady := free.payloadReady }
  else t.setReg a m.byte

/-! ### The capabilities -/

/-- The error the platform reports at the next call; on the loopback target no step fails
(10_state R37). -/
def State.callError (s : State) : Option PlatformError :=
  if s.cfg.target = .loopback then none else s.moment.err

/-- The values the environment draws at the next call. -/
def State.free (s : State) : Target := Target.drawn s.cfg s.target s.moment.target

/-- The target's view of `CS+`: a frame begins. -/
def State.beginFrame (e : Option PlatformError) (s : State) : State :=
  { s with frame := some { failed := e.isSome }, target := { s.target with drained := [] } }

/-- The delivery of the byte `v` of a register write at `a` to a simulated target (20_memory R61, R62):
the table of 10_state R39 on the reference target, plain storage on the loopback target (R37). -/
def Target.deliver (c : Config) (free : Target) (a : Addr) (v : Byte) (t : Target) : Target × Bool :=
  if c.target = .reference then Target.writeRegister c free a v t else (t.setReg a v, false)

/-- The target when a frame ends, and whether that sets `hazard`. If a step of the frame failed, R66
applies, unless no byte was sent (30_encoding R81: "the target ignores it"); otherwise the byte of a
register write "is delivered when its frame ends" (20_memory R61). -/
def State.afterFrame (m : Moment) (free : Target) (e : Option PlatformError) (s : State) :
    Target × Bool :=
  match s.frame with
  | some { addr := some (w, a), attempted := n, failed := failed, pending := pending, .. } =>
    if s.lawless then (s.target, false)
    else if failed || e.isSome then (Target.afterFailure s.cfg m free w a n s.target, false)
    else match pending with
      | some v => Target.deliver s.cfg free a v s.target
      | none => (s.target, false)
  | _ => (s.target, false)

/-- The target's view of `CS-`: the frame ends. -/
def State.endFrame (m : Moment) (free : Target) (e : Option PlatformError) (s : State) : State :=
  { s with
    frame := none
    target := (s.afterFrame m free e).1
    hazard := s.hazard || (s.afterFrame m free e).2 }

/-- `SetSelect(active)`, with the error it returns. -/
def State.setSelect (active : Bool) (s : State) : State × Option PlatformError :=
  let t := if active then s.elapse.beginFrame s.callError
    else s.elapse.endFrame s.moment s.free s.callError
  (t.log (.select active s.callError), s.callError)

/-- What the target makes of one exchange that succeeded: itself and the frame afterwards, whether
the exchange sets `hazard`, and the byte it answers. -/
structure Answer where
  target : Target
  frame : Option BusFrame
  hazard : Bool
  byte : Byte
  deriving DecidableEq, Repr

/-- A data exchange of byte `b` in the frame `f` at `(w, a)`. The byte received in a write's data
exchange is any (93_implementation_defined U21). The byte of a register write is kept with the frame
until it ends (20_memory R61). A byte for the FIFO enters it here, "one byte per data exchange of the
frame" (10_state R39; 20_memory R57: "byte by byte"); that this names the instant is the model's reading
(DEDUCED, log 29). -/
def State.dataAnswer (m : Moment) (free : Target) (f : BusFrame) (w : Bool) (a : Addr) (b : Byte)
    (s : State) : Answer :=
  let f' : BusFrame := { f with data := f.data + 1, attempted := f.attempted + 1 }
  if s.lawless then ⟨s.target, some f', false, m.byte⟩
  else match s.cfg.target, w with
    | .loopback, true => ⟨s.target, some { f' with pending := some b }, false, m.byte⟩
    | .loopback, false => ⟨s.target, some f', false, s.target.reg a⟩
    | _, true =>
      if a = s.cfg.regFifo then
        let p := Target.pushFifo s.cfg free b s.target
        ⟨p.1, some f', p.2, m.byte⟩
      else ⟨s.target, some { f' with pending := some b }, false, m.byte⟩
    | _, false =>
      let p := Target.readData s.cfg m.byte a s.target
      ⟨p.1, some f', false, p.2⟩

/-- An exchange of byte `b`: the first byte of a frame is the address byte, every later one is data
(30_encoding R76, 20_memory R62). During the address exchange the simulated targets answer `0x00`
(10_state R37, R38). -/
def State.answer (m : Moment) (free : Target) (b : Byte) (s : State) : Answer :=
  match s.frame with
  | none => ⟨s.target, none, false, m.byte⟩
  | some f =>
    match f.addr with
    | none =>
      ⟨s.target,
        some { f with
          addr := some (addressByteDir s.cfg b, addressByteAddr s.cfg b), attempted := f.attempted + 1 },
        false, if s.lawless then m.byte else 0⟩
    | some (w, a) => s.dataAnswer m free f w a b

/-- The state after an exchange the target answered. -/
def State.withAnswer (r : Answer) (s : State) : State :=
  { s with target := r.target, frame := r.frame, hazard := s.hazard || r.hazard }

/-- The frame after an exchange that returned an error: the target may or may not have taken the
byte (20_memory R66). -/
def BusFrame.fail (c : Config) (b : Byte) (f : BusFrame) : BusFrame :=
  { f with
    addr := f.addr.or (some (addressByteDir c b, addressByteAddr c b))
    attempted := f.attempted + 1
    failed := true }

/-- The target's view of an exchange that returned an error. -/
def State.failInFrame (b : Byte) (s : State) : State :=
  { s with frame := s.frame.map (BusFrame.fail s.cfg b) }

/-- `Transfer(b)`, with the byte received or the error. -/
def State.transfer (b : Byte) (s : State) : State × Except PlatformError Byte :=
  match s.callError with
  | some e => ((s.elapse.failInFrame b).log (.transfer b (.error e)), .error e)
  | none =>
    let r := s.elapse.answer s.moment s.free b
    ((s.elapse.withAnswer r).log (.transfer b (.ok r.byte)), .ok r.byte)

/-- `SetResetLevel(level)`, which has no error path (00_scope R11). -/
def State.setResetLevel (level : Bool) (s : State) : State := s.elapse.log (.resetLevel level)

/-- The target's power-on state (70_reset_and_hazards R241): the registers from `RESET_IMAGE` where
it gives them, FIFO empty, flags false, line low, version unchanged; the rest drawn. -/
def Target.poweredOn (c : Config) (free : Target) (t : Target) : Target :=
  { x := Memory.overlay c.resetImage 0 (Memory.canon free.x)
    fifo := []
    chipMode := free.chipMode
    ready := free.ready
    packetSent := false
    payloadReady := false
    irq := false
    version := t.version
    drained := [] }

/-- The effect of `Reset()` on the target, at its return (70_reset_and_hazards R241). -/
def State.powerOnTarget (s : State) : State :=
  { s with
    target :=
      if s.lawless then { s.free with irq := false }
      else Target.poweredOn s.cfg s.moment.target s.target
    tick := s.tick + 1 }

/-- A simulated target meets the second data byte of a frame to an address other than `REG_FIFO`
(30_encoding R81); the oracle target, under no law, refuses nothing (10_state R36). Once `hazard` is set
no law ties a simulated target either, and it refuses nothing: R29 withdraws the target's state and the
bytes read, and whether the refusal stands is the model's choice (DESIGN CHOICE, log 31). -/
def State.burstElsewhere (s : State) : Bool :=
  match s.frame with
  | some { addr := some (_, a), data := d, .. } =>
    !s.lawless && decide (0 < d) && decide (a ≠ s.cfg.regFifo)
  | _ => false

end Sys2Proof.Machine
end

