-- ==== Sys2Proof/Machine/RegisterAccess.lean ====
section
/-!
DEFINITION. RegisterAccess (40_register_access): the three frame steps, whole frames, the reading and
writing of one register, and the instructions of this component.
-/

namespace Sys2Proof.Machine

/-! ### Frame steps -/

/-- `OpenFrame()` (40_register_access R101). -/
def State.openFrame (s : State) : State × Option OpError :=
  let p := State.setSelect true
    { s.setSeq .frameOpen with opener := s.seq, frameErr := none, cs := true }
  ({ p.1 with frameErr := p.2.map transportError }, p.2.map transportError)

/-- The sequencer state of the next exchange (10_state R27): the address byte, then data byte 0, 1,
and so on. -/
def nextExchange : SeqState → SeqState
  | .frameAddr => .frameData 0
  | .frameData i => .frameData (i + 1)
  | _ => .frameAddr

/-- `Exchange(b)` (40_register_access R102); the frame carries the error to its close. -/
def State.exchange (b : Byte) (s : State) : State × Except OpError Byte :=
  let p := State.transfer b (s.setSeq (nextExchange s.seq))
  ({ p.1 with
      frameErr := match p.2 with
        | .ok _ => p.1.frameErr
        | .error e => some (transportError e) },
    p.2.mapError transportError)

/-- `CloseFrame(e_prev)` (40_register_access R103): the first error of the frame is the one
reported. `seq` goes back to the state that opened the frame (10_state R27). -/
def State.closeFrame (ePrev : Option OpError) (s : State) : State × Option OpError :=
  let back := if s.cs then s.opener else s.seq
  let p := State.setSelect false { s.setSeq .frameClose with cs := false }
  ({ p.1.setSeq back with frameErr := none }, ePrev.or (p.2.map transportError))

/-! ### Whole frames (30_encoding R70) -/

/-- Exchanges in order until one fails: the bytes received so far and the error, if any. -/
def State.exchangeAll : List Byte → State → State × List Byte × Option OpError
  | [], s => (s, [], none)
  | b :: rest, s =>
    let p := s.exchange b
    match p.2 with
    | .error e => (p.1, [], some e)
    | .ok r =>
      let q := State.exchangeAll rest p.1
      (q.1, r :: q.2.1, q.2.2)

/-- One chip-select scope over the given bytes: open, exchange unless opening failed, and close on
every path (40_register_access R100). Answers the bytes received and the error of the frame. -/
def State.runFrame (bytes : List Byte) (s : State) : State × List Byte × Option OpError :=
  let p := s.openFrame
  let q := if p.2.isNone then State.exchangeAll bytes p.1 else (p.1, [], p.2)
  let r := q.1.closeFrame q.2.2
  (r.1, q.2.1, r.2)

/-- A read frame of `n` data exchanges at `a` (30_encoding R72, R75): the data bytes, without the
byte received during the address exchange. -/
def State.readFrame (a : Addr) (n : Nat) (s : State) : State × List Byte × Option OpError :=
  let p := s.runFrame (readFrameBytes s.cfg a n)
  (p.1, p.2.1.drop 1, p.2.2)

/-- A write frame of the data bytes `d` to `a` (30_encoding R73, R74). -/
def State.writeFrame (a : Addr) (d : List Byte) (s : State) : State × Option OpError :=
  let p := s.runFrame (writeFrameBytes s.cfg a d)
  (p.1, p.2.2)

/-- A FIFO burst write frame, `BWR` (30_encoding R74), with the mark of 70_reset_and_hazards R246. -/
def State.burstWrite (d : List Byte) (s : State) : State × Option OpError :=
  s.markBurst.writeFrame s.cfg.regFifo d

/-- A FIFO burst read frame, `BRD` (30_encoding R75), with the mark of 70_reset_and_hazards R246. -/
def State.burstRead (n : Nat) (s : State) : State × List Byte × Option OpError :=
  s.markBurst.readFrame s.cfg.regFifo n

/-! ### One register -/

/-- `ReadRegister` at a register in range (40_register_access R104): one `RD` frame. -/
def State.readReg (a : Addr) (s : State) : State × Except OpError Byte :=
  let p := (s.markRead a).readFrame a 1
  (p.1,
    match p.2.2 with
    | some e => .error e
    | none => .ok (p.2.1.headD 0))

/-- `WriteRegister` at a register in range (40_register_access R105): one `WR` frame, with the
bookkeeping of a write to the mode register. -/
def State.writeReg (a : Addr) (v : Byte) (s : State) : State × Option OpError :=
  let p := ((s.markWrite a).beginModeWrite a v).writeFrame a [v]
  (p.1.endModeWrite a v p.2, p.2)

/-! ### Instructions -/

/-- `ReadRegister(addr)` (40_register_access R104). -/
def execReadRegister (addr : Byte) (s : State) : Host.Outcome State Fault Refusal :=
  if addressAccepted s.cfg addr then
    hostOperation (fun s =>
      ((s.readReg (registerOf addr)).1, resultWith .byte (s.readReg (registerOf addr)).2)) s
  else .refused .addressRange

/-- `WriteRegister(addr, value)` (40_register_access R105). -/
def execWriteRegister (addr value : Byte) (s : State) : Host.Outcome State Fault Refusal :=
  if addressAccepted s.cfg addr then
    hostOperation (fun s =>
      ((s.writeReg (registerOf addr) value).1, resultOf (s.writeReg (registerOf addr) value).2)) s
  else .refused .addressRange

/-- `OpenFrame()` (40_register_access R101). A second `CS+` while a frame is open has no meaning
(30_encoding R81). -/
def execOpenFrame (s : State) : Host.Outcome State Fault Refusal :=
  if s.cs then .refused .frameOpen
  else .next { s.openFrame.1 with result := resultOf s.openFrame.2 }

/-- `Exchange(b)` (40_register_access R102): only in an open frame, and not after a failed step of
it. A simulated target refuses a burst to another address than `REG_FIFO` (30_encoding R81). -/
def execExchange (b : Byte) (s : State) : Host.Outcome State Fault Refusal :=
  if s.cs = false then .refused .noFrame
  else if s.frameErr.isSome then .refused .exchangeAfterError
  else if s.burstElsewhere then .refused .burstElsewhere
  else .next { (s.exchange b).1 with result := resultWith .byte (s.exchange b).2 }

/-- `CloseFrame(e_prev)` (40_register_access R103). That it runs with no frame open too is the model's
choice (DESIGN CHOICE, log 13). -/
def execCloseFrame (ePrev : Option OpError) (s : State) : Host.Outcome State Fault Refusal :=
  .next { (s.closeFrame ePrev).1 with result := resultOf (s.closeFrame ePrev).2 }

end Sys2Proof.Machine
end

