-- ==== Sys2Proof/Machine/DeviceIdentity.lean ====
section
/-!
DEFINITION. DeviceIdentity (41_device_identity): the comparison of the version register with the
expected constant.
-/

namespace Sys2Proof.Machine

/-- What `DetectDevice` makes of the version read: an error and a mismatch are both `false`
(41_device_identity R120, R121). -/
def identityVerdict (c : Config) (r : Except OpError Byte) : Bool :=
  match r with
  | .ok b => versionOk c b
  | .error _ => false

/-- `DetectDevice` (41_device_identity R120). -/
def execDetectDevice (s : State) : Host.Outcome State Fault Refusal :=
  hostOperation (fun s =>
    ((s.readReg s.cfg.regVersion).1,
      .ok (.bool (identityVerdict s.cfg (s.readReg s.cfg.regVersion).2)))) s

end Sys2Proof.Machine
end

