-- ==== Sys2Proof/Machine/FrequencySynthesizer.lean ====
section
/-!
DEFINITION. FrequencySynthesizer (43_frequency_synthesizer): the three register writes, and the pure
functions as instructions.
-/

namespace Sys2Proof.Machine

/-- One of the three writes; its error, if any, is appended to `dropped`
(43_frequency_synthesizer R157). -/
def State.writeDropping (a : Addr) (v : Byte) (s : State) : State :=
  let p := s.writeReg a v
  { p.1 with dropped := p.1.dropped ++ p.2.toList }

/-- `SetFrequency(hz)` for an accepted `hz` (43_frequency_synthesizer R157): all three writes are
always attempted. -/
def State.setFrequency (hz : Hz) (s : State) : State :=
  let f := frfSplit (frfOfHz s.cfg hz)
  let s1 := s.markFrequency.writeDropping s.cfg.regFrfMsb f.1
  let s2 := s1.writeDropping s.cfg.regFrfMid f.2.1
  s2.writeDropping s.cfg.regFrfLsb f.2.2

/-- `SetFrequency` (43_frequency_synthesizer R157), refused at `HZ_LIMIT` and above (R152). -/
def execSetFrequency (hz : Hz) (s : State) : Host.Outcome State Fault Refusal :=
  if hzAccepted s.cfg hz then hostOperation (fun s => (s.setFrequency hz, .ok .unit)) s
  else .refused .frequencyRange

/-- `HzToFrf` (43_frequency_synthesizer R151). The rule gives `hz` as a 32-bit unsigned number; that a
larger one is accepted and answered with the floor as well is the model's choice (DESIGN CHOICE, log 32). -/
def execHzToFrf (hz : Nat) (s : State) : Host.Outcome State Fault Refusal :=
  pureOperation (.natural (hzToFrf s.cfg hz)) s

/-- `FrfToHz` (43_frequency_synthesizer R154). -/
def execFrfToHz (f : Frf) (s : State) : Host.Outcome State Fault Refusal :=
  pureOperation (.rational (frfToHz s.cfg f)) s

/-- `FrfToHzInt` (43_frequency_synthesizer R155). -/
def execFrfToHzInt (f : Frf) (s : State) : Host.Outcome State Fault Refusal :=
  pureOperation (.natural (frfToHzInt s.cfg f)) s

/-- `FrfSplit` (30_encoding R78). -/
def execFrfSplit (f : Frf) (s : State) : Host.Outcome State Fault Refusal :=
  pureOperation (.triplet (frfSplit f).1 (frfSplit f).2.1 (frfSplit f).2.2) s

/-- `FrfJoin` (30_encoding R78). -/
def execFrfJoin (m i l : Byte) (s : State) : Host.Outcome State Fault Refusal :=
  pureOperation (.frf (frfJoin m i l)) s

end Sys2Proof.Machine
end

