-- ==== Sys2Proof/Machine/BusFrames.lean ====
section
/-!
DEFINITION. The bus frame formats of 30_encoding R70 to R75 and the frame instances of the opcode
table, as instructions: the controller issues that one frame. Each keeps the marks the spec gives
the frame (10_state R23, R24; 70_reset_and_hazards R246, R249) and ends in the sequencer state it
was issued from.
-/

namespace Sys2Proof.Machine

/-- The controller issues one `RD` frame at `a`; the byte read is the result. -/
def issueRead (a : Addr) (s : State) : Host.Outcome State Fault Refusal :=
  framedOperation (fun s => ((s.readReg a).1, resultWith .byte (s.readReg a).2)) s

/-- The controller issues one `WR` frame of `v` to `a`. -/
def issueWrite (a : Addr) (v : Byte) (s : State) : Host.Outcome State Fault Refusal :=
  framedOperation (fun s => ((s.writeReg a v).1, resultOf (s.writeReg a v).2)) s

/-- `RD` (30_encoding R72). -/
def execRd (a : Addr) (s : State) : Host.Outcome State Fault Refusal := issueRead a s

/-- `WR` (30_encoding R73). -/
def execWr (a : Addr) (v : Byte) (s : State) : Host.Outcome State Fault Refusal := issueWrite a v s

/-- `BWR` (30_encoding R74), of at most `MAX_SEND_LEN` bytes (20_memory R56). -/
def execBwr (d : List Byte) (s : State) : Host.Outcome State Fault Refusal :=
  if sendAccepted s.cfg d then
    framedOperation (fun s => ((s.burstWrite d).1, resultOf (s.burstWrite d).2)) s
  else .refused .sendTooLong

/-- The result of a burst read: the bytes, or the error and no bytes (44_packet_io R172). -/
def burstResult (p : List Byte × Option OpError) : Result :=
  match p.2 with
  | none => .ok (.bytes p.1)
  | some e => .error e

/-- `BRD` (30_encoding R75). -/
def execBrd (n : Nat) (s : State) : Host.Outcome State Fault Refusal :=
  framedOperation (fun s => ((s.burstRead n).1, burstResult (s.burstRead n).2)) s

/-- The frame that consists of its address byte (30_encoding R70 with `n = 0`), with the marks of a
read or write frame; a write frame to the mode register that carries no value leaves `mode_cache`
unknown (10_state R23, R24). -/
def State.addressFrame (w : Bool) (a : Addr) (s : State) : State × Option OpError :=
  if w then
    let s0 := s.markWrite a
    let p := State.writeFrame a [] (if a = s.cfg.regOpmode then { s0 with awaitReady := true } else s0)
    (if a = s.cfg.regOpmode then { p.1 with modeCache := none } else p.1, p.2)
  else
    let p := (s.markRead a).readFrame a 0
    (p.1, p.2.2)

/-- `ADDRBYTE` (30_encoding R71): in an open frame that awaits its first byte, the exchange of that
byte; with no frame open, the frame of the address byte alone (log 13). "The address byte is
interpreted only as the first byte after `CS+`" (20_memory R62): later in a frame it is none. -/
def execAddrByte (w : Bool) (a : Addr) (s : State) : Host.Outcome State Fault Refusal :=
  if s.cs then
    if s.frameErr.isSome then .refused .exchangeAfterError
    else if s.seq = .frameOpen then
      .next { (s.exchange (addressByte s.cfg w a)).1 with
        result := resultWith (fun _ => .unit) (s.exchange (addressByte s.cfg w a)).2 }
    else .refused .addressNotFirst
  else
    internalOperation (fun s => ((s.addressFrame w a).1, resultOf (s.addressFrame w a).2)) s

/-- `WR.OPMODE.STANDBY` (42_mode_controller R131). -/
def execWrOpmodeStandby (s : State) : Host.Outcome State Fault Refusal :=
  issueWrite s.cfg.regOpmode (modeValue s.cfg .standby) s

/-- `WR.OPMODE.TX` (42_mode_controller R131). -/
def execWrOpmodeTx (s : State) : Host.Outcome State Fault Refusal :=
  issueWrite s.cfg.regOpmode (modeValue s.cfg .transmit) s

/-- `WR.OPMODE.RX` (42_mode_controller R131). -/
def execWrOpmodeRx (s : State) : Host.Outcome State Fault Refusal :=
  issueWrite s.cfg.regOpmode (modeValue s.cfg .receive) s

/-- `WR.OPMODE.SLEEP` (42_mode_controller R137). -/
def execWrOpmodeSleep (s : State) : Host.Outcome State Fault Refusal :=
  issueWrite s.cfg.regOpmode (modeValue s.cfg .sleep) s

/-- `WR.OPMODE.FS` (42_mode_controller R137). -/
def execWrOpmodeFs (s : State) : Host.Outcome State Fault Refusal :=
  issueWrite s.cfg.regOpmode (modeValue s.cfg .frequencySynthesis) s

/-- `RD.IRQFLAGS1`, the readiness poll's frame (42_mode_controller R133). -/
def execRdIrqFlags1 (s : State) : Host.Outcome State Fault Refusal :=
  issueRead s.cfg.regIrqFlags1 s

/-- `RD.IRQFLAGS2`, the completion poll's frame (44_packet_io R175). -/
def execRdIrqFlags2 (s : State) : Host.Outcome State Fault Refusal :=
  issueRead s.cfg.regIrqFlags2 s

/-- `RD.VERSION`, the identity read (41_device_identity R120). -/
def execRdVersion (s : State) : Host.Outcome State Fault Refusal := issueRead s.cfg.regVersion s

/-- `WR.FRFMSB` (43_frequency_synthesizer R157). -/
def execWrFrfMsb (m : Byte) (s : State) : Host.Outcome State Fault Refusal :=
  issueWrite s.cfg.regFrfMsb m s

/-- `WR.FRFMID` (43_frequency_synthesizer R157). -/
def execWrFrfMid (i : Byte) (s : State) : Host.Outcome State Fault Refusal :=
  issueWrite s.cfg.regFrfMid i s

/-- `WR.FRFLSB` (43_frequency_synthesizer R157). -/
def execWrFrfLsb (l : Byte) (s : State) : Host.Outcome State Fault Refusal :=
  issueWrite s.cfg.regFrfLsb l s

end Sys2Proof.Machine
end

