-- ==== Sys2Proof/Machine/EventChannel.lean ====
section
/-!
DEFINITION. EventChannel (45_event_channel): the handler of the interrupt line's edge, and the wait
for an event; and the creation of the controller, which binds the handler.
-/

namespace Sys2Proof.Machine

/-- `AwaitEvent(timeout, name)` (45_event_channel R202): none = ok. A pending event is taken at once
and no time passes. Otherwise the environment chooses what happens until the wait ends: an event that
arrives within the bound is taken; one that arrives as the bound expires is taken or not; without one
the wait ends at some time after the bound. -/
def State.awaitEvent (timeout : Nat) (name : WaitName) (s : State) : State × Option OpError :=
  let s0 := s.setSeq .eventWait
  if s0.evt then ({ s0 with evt := false }, none)
  else
    let s1 := s0.now.1
    let t0 := s0.now.2
    if s1.evt then ({ s1 with evt := false }, none)
    else
      let s2 := s1.elapse
      if s2.evt = true ∧ (s2.clock - t0 ≤ timeout ∨ s1.moment.choice = true) then
        ({ s2 with evt := false }, none)
      else ({ s2 with clock := max s2.clock (t0 + timeout + 1) }, some (timeoutError name))

/-- `Handler()` on the state (45_event_channel R201): the slot is filled if it is empty, and the edge
is dropped if it is not. -/
def State.runHandler (s : State) : State := { s with evt := (World.handler ⟨s.target, s.evt⟩).evt }

/-- `Handler` (45_event_channel R201): the handler's step for a rising edge, which the instruction
stands for ("for the model an edge is an input from the environment"; log 10). Nothing but the slot
changes, not even a result. -/
def execHandler (s : State) : Host.Outcome State Fault Refusal := .next s.runHandler

/-- `AwaitEvent` (45_event_channel R202). That it runs while a frame is open too is the model's choice
(DESIGN CHOICE, log 24). -/
def execAwaitEvent (timeout : Nat) (name : WaitName) (s : State) :
    Host.Outcome State Fault Refusal :=
  internalOperation (fun s => ((s.awaitEvent timeout name).1, resultOf (s.awaitEvent timeout name).2))
    s

/-- Creation of the controller over a configuration and a target, the handler registered with the
outcome `e` of `OnRisingEdge` (45_event_channel R203, 60_exceptions R214, 70_reset_and_hazards R240,
R244): if the registration fails there is no controller. -/
def create (c : Config) (chip : Target) (e : Option PlatformError) :
    Host.Outcome State Fault Refusal :=
  match e with
  | some e => .fault (.setupError e)
  | none =>
    .next { State.reset with
      cfg := c
      txBuf := List.replicate c.scratchSize 0
      rxBuf := List.replicate c.scratchSize 0
      target := chip }

end Sys2Proof.Machine
end

