-- ==== Sys2Proof/Machine/ModeController.lean ====
section
/-!
DEFINITION. ModeController (42_mode_controller): the mode write, the bounded poll of a status bit,
the readiness wait and the reset pulse.
-/

namespace Sys2Proof.Machine

/-- `SetMode(m)` (42_mode_controller R131). -/
def State.setMode (m : Mode) (s : State) : State × Option OpError :=
  s.writeReg s.cfg.regOpmode (modeValue s.cfg m)

/-- The number of polls a wait of bound `timeout` can make (42_mode_controller R134, 44_packet_io
R175): `floor(timeout / POLL_INTERVAL) + 2`. -/
def pollBound (c : Config) (timeout : Nat) : Nat := timeout / c.pollInterval + 2

/-- The poll loop of `IsReady` and `PollFlag` (42_mode_controller R133, 44_packet_io R175) from poll
number `k` on, in the fixed order poll, bit test, time test, sleep. `seqOf` names the sequencer state
of a poll, `t0` is when the wait began. None = the bit was seen. With `pollBound` polls allowed the
last arm is never reached (R134). -/
def State.pollLoop (seqOf : Nat → SeqState) (reg : Addr) (bit : Fin 8) (timeout : Nat)
    (name : WaitName) (t0 : Nat) : Nat → Nat → State → State × Option OpError
  | 0, _, s => (s, some (timeoutError name))
  | fuel + 1, k, s =>
    let p := (s.setSeq (seqOf k)).readReg reg
    match p.2 with
    | .error e => (p.1, some e)
    | .ok b =>
      if statusBit b bit then (p.1, none)
      else
        let q := p.1.now
        if q.2 - t0 > timeout then (q.1, some (timeoutError name))
        else State.pollLoop seqOf reg bit timeout name t0 fuel (k + 1)
          (q.1.sleep q.1.cfg.pollInterval)

/-- A bounded wait for a status bit: the time is taken, then polls begin at number 1. -/
def State.pollFor (seqOf : Nat → SeqState) (reg : Addr) (bit : Fin 8) (timeout : Nat)
    (name : WaitName) (s : State) : State × Option OpError :=
  State.pollLoop seqOf reg bit timeout name s.now.2 (pollBound s.cfg timeout) 1 s.now.1

/-- `IsReady()` (42_mode_controller R133); `await_ready` falls when the bit is seen, and only then. -/
def State.isReady (s : State) : State × Option OpError :=
  let p := s.pollFor .readyPoll s.cfg.regIrqFlags1 s.cfg.modeReadyBit s.cfg.readyTimeout .modeReady
  match p.2 with
  | none => ({ p.1 with awaitReady := false }, none)
  | some e => (p.1, some e)

/-- `SetStandbyMode()` (42_mode_controller R132): the error of the mode write, wrapped. -/
def State.setStandbyMode (s : State) : State × Option OpError :=
  ((s.setMode .standby).1, (s.setMode .standby).2.map (wrapError .setStandbyMode))

/-- `Reset()` (42_mode_controller R135, 70_reset_and_hazards R241). -/
def State.resetPulse (s : State) : State :=
  let low := (State.setResetLevel false { s.setSeq .resetLow with rst := false }).sleep
    s.cfg.resetLowTime
  let high := (State.setResetLevel true { low with rst := true }).setSeq .resetHold
  let held := (high.sleep s.cfg.resetHoldTime).powerOnTarget
  { held with modeCache := none, awaitReady := false }

/-! ### Instructions -/

/-- `SetMode` (42_mode_controller R131). -/
def execSetMode (m : Mode) (s : State) : Host.Outcome State Fault Refusal :=
  framedOperation (fun s => ((s.setMode m).1, resultOf (s.setMode m).2)) s

/-- `SetStandbyMode` (42_mode_controller R132). -/
def execSetStandbyMode (s : State) : Host.Outcome State Fault Refusal :=
  hostOperation (fun s => (s.setStandbyMode.1, resultOf s.setStandbyMode.2)) s

/-- `IsReady` (42_mode_controller R133). -/
def execIsReady (s : State) : Host.Outcome State Fault Refusal :=
  hostOperation (fun s => (s.isReady.1, resultOf s.isReady.2)) s

/-- `Reset` (42_mode_controller R135). -/
def execReset (s : State) : Host.Outcome State Fault Refusal :=
  hostOperation (fun s => (s.resetPulse, .ok .unit)) s

end Sys2Proof.Machine
end

