-- ==== Sys2Proof/Machine/PacketIO.lean ====
section
/-!
DEFINITION. PacketIO (44_packet_io): the FIFO bursts over the scratch buffers, the waits for
completion, and the sequences `Send` and `Receive`.
-/

namespace Sys2Proof.Machine

/-- A scratch buffer with the bytes `l` written from index 0 on (10_state R25). -/
def bufferWith (l buf : List Byte) : List Byte := (l ++ buf.drop l.length).take buf.length

/-- `SetModeAndWait(m)` (44_packet_io R170). -/
def State.setModeAndWait (m : Mode) (s : State) : State × Option OpError :=
  match (s.setMode m).2 with
  | some e => ((s.setMode m).1, some e)
  | none => (s.setMode m).1.isReady

/-- `FifoWrite(data)` (44_packet_io R171). -/
def State.fifoWrite (data : List Byte) (s : State) : State × Option OpError :=
  State.burstWrite data
    { s with txBuf := bufferWith (writeFrameBytes s.cfg s.cfg.regFifo data) s.txBuf }

/-- `FifoRead(n)` (44_packet_io R172): the bytes received stand in `rx_buf`, also after an error; on
an error none is returned. -/
def State.fifoRead (n : Nat) (s : State) : State × Except OpError (List Byte) :=
  let p := s.burstRead n
  ({ p.1 with rxBuf := bufferWith p.2.1 p.1.rxBuf },
    match p.2.2 with
    | none => .ok p.2.1
    | some e => .error e)

/-- A wait of fixed length that observes nothing and cannot fail (44_packet_io R173, R174). -/
def State.dwell (d : Nat) (s : State) : State := (s.setSeq .dwell).sleep d

/-- `PollFlag(reg, bit, timeout, name)` (44_packet_io R175). -/
def State.pollFlag (reg : Addr) (bit : Fin 8) (timeout : Nat) (name : WaitName) (s : State) :
    State × Option OpError :=
  s.pollFor .flagPoll reg bit timeout name

/-- The three designs of a completion wait (44_packet_io R173, R174). -/
def State.completionWait (dwell : Nat) (bit : Fin 8) (timeout : Nat) (name : WaitName) (s : State) :
    State × Option OpError :=
  match s.cfg.waitKind with
  | .dwell => (s.dwell dwell, none)
  | .pollStatus => s.pollFlag s.cfg.regIrqFlags2 bit timeout name
  | .event => s.awaitEvent timeout name

/-- `WaitTxDone()` (44_packet_io R173). -/
def State.waitTxDone (s : State) : State × Option OpError :=
  s.completionWait s.cfg.txDwell s.cfg.packetSentBit s.cfg.txTimeout .packetSent

/-- `WaitPayloadReady()` (44_packet_io R174). -/
def State.waitPayloadReady (s : State) : State × Option OpError :=
  s.completionWait s.cfg.rxDwell s.cfg.payloadReadyBit s.cfg.rxTimeout .payloadReady

/-- Steps 3, 4 and 5 of `Send` (44_packet_io R176): step 5 runs whatever step 3 or step 4 returned,
and the error of the earliest failing step is the one returned. -/
def State.transmitAndReturn (s : State) : State × Option OpError :=
  let r3 := (s.setSeq .send3).setModeAndWait .transmit
  let r4 := if r3.2.isNone then (r3.1.setSeq .send4).waitTxDone else (r3.1.setSeq .send4, r3.2)
  let r5 := (r4.1.setSeq .send5).setModeAndWait .standby
  (r5.1, r4.2.or r5.2)

/-- `Send(data)` for accepted data (44_packet_io R176). -/
def State.send (data : List Byte) (s : State) : State × Option OpError :=
  let r1 := (s.setSeq .send1).setModeAndWait .standby
  match r1.2 with
  | some e => (r1.1, some e)
  | none =>
    let r2 := (r1.1.setSeq .send2).fifoWrite data
    match r2.2 with
    | some e => (r2.1, some e)
    | none => r2.1.transmitAndReturn

/-- `Receive()` (44_packet_io R178). -/
def State.receive (s : State) : State × Except OpError (List Byte) :=
  let r1 := (s.setSeq .recv1).setModeAndWait .receive
  match r1.2 with
  | some e => (r1.1, .error e)
  | none =>
    let r2 := (r1.1.setSeq .recv2).waitPayloadReady
    match r2.2 with
    | some e => (r2.1, .error e)
    | none =>
      let r3 := (r2.1.setSeq .recv3).fifoRead s.cfg.fifoWindow
      match r3.2 with
      | .error e => (r3.1, .error e)
      | .ok l => (r3.1.setSeq .recv4, .ok l)

/-- A completion wait issued alone is refused while a frame is open only where it polls the status
register, since only then it opens frames (20_memory R62). That it runs there as a dwell and as an event
wait, of which 44_packet_io R173 and R174 say nothing, is the model's choice (DESIGN CHOICE, log 24). -/
def State.waitNeedsBus (s : State) : Bool := s.cs && decide (s.cfg.waitKind = .pollStatus)

/-! ### Instructions -/

/-- `SetModeAndWait` (44_packet_io R170). -/
def execSetModeAndWait (m : Mode) (s : State) : Host.Outcome State Fault Refusal :=
  framedOperation (fun s => ((s.setModeAndWait m).1, resultOf (s.setModeAndWait m).2)) s

/-- `FifoWrite` (44_packet_io R171). -/
def execFifoWrite (data : List Byte) (s : State) : Host.Outcome State Fault Refusal :=
  if sendAccepted s.cfg data then
    framedOperation (fun s => ((s.fifoWrite data).1, resultOf (s.fifoWrite data).2)) s
  else .refused .sendTooLong

/-- `FifoRead` (44_packet_io R172). -/
def execFifoRead (n : Nat) (s : State) : Host.Outcome State Fault Refusal :=
  if drainAccepted s.cfg n then
    framedOperation (fun s => ((s.fifoRead n).1, resultWith .bytes (s.fifoRead n).2)) s
  else .refused .scratchOverflow

/-- `WaitTxDone` (44_packet_io R173); while a frame is open, log 24. -/
def execWaitTxDone (s : State) : Host.Outcome State Fault Refusal :=
  if s.waitNeedsBus then .refused .frameOpen
  else internalOperation (fun s => (s.waitTxDone.1, resultOf s.waitTxDone.2)) s

/-- `WaitPayloadReady` (44_packet_io R174); while a frame is open, log 24. -/
def execWaitPayloadReady (s : State) : Host.Outcome State Fault Refusal :=
  if s.waitNeedsBus then .refused .frameOpen
  else internalOperation (fun s => (s.waitPayloadReady.1, resultOf s.waitPayloadReady.2)) s

/-- `PollFlag` (44_packet_io R175). -/
def execPollFlag (reg : Addr) (bit : Fin 8) (timeout : Nat) (name : WaitName) (s : State) :
    Host.Outcome State Fault Refusal :=
  framedOperation (fun s =>
    ((s.pollFlag reg bit timeout name).1, resultOf (s.pollFlag reg bit timeout name).2)) s

/-- `Send` (44_packet_io R176), refused above `MAX_SEND_LEN` bytes. -/
def execSend (data : List Byte) (s : State) : Host.Outcome State Fault Refusal :=
  if sendAccepted s.cfg data then
    hostOperation (fun s => ((s.send data).1, resultOf (s.send data).2)) s
  else .refused .sendTooLong

/-- `Receive` (44_packet_io R178). -/
def execReceive (s : State) : Host.Outcome State Fault Refusal :=
  hostOperation (fun s => (s.receive.1, resultWith .bytes s.receive.2)) s

end Sys2Proof.Machine
end

