-- ==== Sys2Proof/Machine/Dispatch.lean ====
section
/-!
DEFINITION. One arm per instruction: the meaning it calls.
-/

namespace Sys2Proof.Machine

def exec (i : Instr) (s : State) : Host.Outcome State Fault Refusal :=
  match i with
  | .rd a => Sys2Proof.Machine.execRd a s
  | .wr a v => Sys2Proof.Machine.execWr a v s
  | .bwr d => Sys2Proof.Machine.execBwr d s
  | .brd n => Sys2Proof.Machine.execBrd n s
  | .addrByte w a => Sys2Proof.Machine.execAddrByte w a s
  | .wrOpmodeStandby => Sys2Proof.Machine.execWrOpmodeStandby s
  | .wrOpmodeTx => Sys2Proof.Machine.execWrOpmodeTx s
  | .wrOpmodeRx => Sys2Proof.Machine.execWrOpmodeRx s
  | .wrOpmodeSleep => Sys2Proof.Machine.execWrOpmodeSleep s
  | .wrOpmodeFs => Sys2Proof.Machine.execWrOpmodeFs s
  | .rdIrqFlags1 => Sys2Proof.Machine.execRdIrqFlags1 s
  | .rdIrqFlags2 => Sys2Proof.Machine.execRdIrqFlags2 s
  | .rdVersion => Sys2Proof.Machine.execRdVersion s
  | .wrFrfMsb m => Sys2Proof.Machine.execWrFrfMsb m s
  | .wrFrfMid mid => Sys2Proof.Machine.execWrFrfMid mid s
  | .wrFrfLsb l => Sys2Proof.Machine.execWrFrfLsb l s
  | .reset => Sys2Proof.Machine.execReset s
  | .setStandbyMode => Sys2Proof.Machine.execSetStandbyMode s
  | .isReady => Sys2Proof.Machine.execIsReady s
  | .detectDevice => Sys2Proof.Machine.execDetectDevice s
  | .setFrequency hz => Sys2Proof.Machine.execSetFrequency hz s
  | .send data => Sys2Proof.Machine.execSend data s
  | .receive => Sys2Proof.Machine.execReceive s
  | .readRegister addr => Sys2Proof.Machine.execReadRegister addr s
  | .writeRegister addr value => Sys2Proof.Machine.execWriteRegister addr value s
  | .openFrame => Sys2Proof.Machine.execOpenFrame s
  | .exchange b => Sys2Proof.Machine.execExchange b s
  | .closeFrame ePrev => Sys2Proof.Machine.execCloseFrame ePrev s
  | .setMode m => Sys2Proof.Machine.execSetMode m s
  | .setModeAndWait m => Sys2Proof.Machine.execSetModeAndWait m s
  | .fifoWrite data => Sys2Proof.Machine.execFifoWrite data s
  | .fifoRead n => Sys2Proof.Machine.execFifoRead n s
  | .waitTxDone => Sys2Proof.Machine.execWaitTxDone s
  | .waitPayloadReady => Sys2Proof.Machine.execWaitPayloadReady s
  | .pollFlag reg bit timeout name => Sys2Proof.Machine.execPollFlag reg bit timeout name s
  | .handler => Sys2Proof.Machine.execHandler s
  | .awaitEvent timeout name => Sys2Proof.Machine.execAwaitEvent timeout name s
  | .hzToFrf hz => Sys2Proof.Machine.execHzToFrf hz s
  | .frfToHz f => Sys2Proof.Machine.execFrfToHz f s
  | .frfToHzInt f => Sys2Proof.Machine.execFrfToHzInt f s
  | .frfSplit frf => Sys2Proof.Machine.execFrfSplit frf s
  | .frfJoin m mid l => Sys2Proof.Machine.execFrfJoin m mid l s

end Sys2Proof.Machine
end

