-- ==== Sys2Proof/Machine/Fetch.lean ====
section
/-!
DEFINITION. How the next instruction reaches the controller. There is no instruction memory and no
fetch (20_memory R64): the host issues one operation at a time (00_scope R9), so what waits is a
queue of requests (log 2).
-/

namespace Sys2Proof.Machine

/-- The request at the head of the queue, and the state without it. -/
def State.nextRequest (s : State) : Option (Request × State) :=
  match s.requests with
  | [] => none
  | r :: rest => some (r, { s with requests := rest })

/-- A request put at the head of the queue. -/
def State.pushRequest (r : Request) (s : State) : State := { s with requests := r :: s.requests }

/-- The controller waits in `Idle` for the host (10_state R44) while the other agents may step. -/
def State.idleMoment (s : State) : State := s.elapse

end Sys2Proof.Machine
end

