-- ==== Sys2Proof/Machine/Step.lean ====
section
/-!
DEFINITION. One step of the machine, and the placing of one opcode-table word as the next request.
-/

namespace Sys2Proof.Machine

/-- One step: the controller takes the next request of the host, decodes it and runs it to its end;
with no request it waits one environment moment. A request that names no instruction is refused
(30_encoding R81, R82). -/
def step (s : State) : Host.Outcome State Fault Refusal :=
  match s.nextRequest with
  | none => .next s.idleMoment
  | some (r, s') =>
    match decode s.cfg r with
    | .ok i => exec i s'
    | .error why => .refused (.undecodable why)

/-- The state in which the host's next request is the one that an opcode-table word stands for. -/
def State.withFetchWord (s : State) (nbits w : Nat) : State :=
  s.pushRequest (requestOfTableWord nbits w)

end Sys2Proof.Machine
end

