-- ==== Sys2Proof/Safety.lean ====
section
/-!
DEFINITION. What counts as a sound state and a clean run, and the words the statements use: the
failures the environment reports, the commands seen on the bus, and what an operation leaves as it
was.
-/

namespace Sys2Proof.Machine

/-! ### Sound states -/

/-- The target in the form the spec gives it: 128 registers in canonical form (10_state R31), a FIFO
of at most `FIFO_WINDOW` bytes (R32). -/
def Target.sound (c : Config) (t : Target) : Prop :=
  Memory.wf t.x = true ∧ t.fifo.length ≤ c.fifoWindow

/-- The invariant of the machine: the target is sound, each scratch buffer has `SCRATCH_SIZE` bytes
(10_state R25), and no frame is open while the controller is idle (R21). -/
structure State.Inv (s : State) : Prop where
  target : s.target.sound s.cfg
  txBuf : s.txBuf.length = s.cfg.scratchSize
  rxBuf : s.rxBuf.length = s.cfg.scratchSize
  idleClosed : s.seq = .idle → s.cs = false

/-- A clean run so far: no contract broken and no error dropped (00_scope R10, 10_state R28, R29). -/
def State.clean (s : State) : Prop := s.hazard = false ∧ s.dropped = []

/-! ### What the environment reports -/

/-- The error the platform reports at the k-th call from now (10_state R37: none on the loopback
target). -/
def State.callErrorAt (s : State) (k : Nat) : Option PlatformError :=
  if s.cfg.target = .loopback then none else (s.momentAt k).err

/-- The platform reports no error at the next `n` calls. -/
def State.noFailure (s : State) (n : Nat) : Prop := ∀ k, k < n → s.callErrorAt k = none

/-- The other agents take no step before any of the next `n` calls. -/
def State.undisturbed (s : State) (n : Nat) : Prop := ∀ k, k < n → (s.momentAt k).acts = []

/-- A step of the other agents raises an edge of the interrupt line: the steps of a reference target that
"raise an edge" where their guards hold (10_state R40), and a change of the line from low to high
(45_event_channel R201). -/
def World.raisesEdge (c : Config) (lawless : Bool) (w : World) : TargetAct → Bool
  | .settle => false
  | .txComplete => decide (c.target = .reference ∧ lawless = false
      ∧ w.target.chipMode = .transmit ∧ w.target.ready = true ∧ w.target.packetSent = false)
  | .rxPacket p => decide (c.target = .reference ∧ lawless = false
      ∧ w.target.chipMode = .receive ∧ w.target.ready = true ∧ w.target.payloadReady = false
      ∧ p.length ≤ c.fifoWindow)
  | .irq level => decide (c.target ≠ .loopback) && level && !w.target.irq

/-- None of the steps `acts`, taken in order, raises an edge. -/
def World.edgeFree (c : Config) (lawless : Bool) : List TargetAct → World → Bool
  | [], _ => true
  | a :: rest, w => !w.raisesEdge c lawless a && World.edgeFree c lawless rest (w.act c lawless a)

/-- The line has no rising edge in the next `n` moments of the environment, in which nothing but the
other agents step. -/
def State.noRisingEdge : Nat → State → Prop
  | 0, _ => True
  | n + 1, s => World.edgeFree s.cfg s.lawless s.moment.acts ⟨s.target, s.evt⟩ = true
      ∧ State.noRisingEdge n s.elapse

/-! ### The bus as the target sees it -/

/-- A capability call without what the platform answered. -/
inductive BusAct where
  | select (active : Bool)
  | send (b : Byte)
  | resetLevel (level : Bool)
  | sleep (duration : Nat)
  deriving DecidableEq, Repr

/-- The command in a capability call. -/
def BusCall.act : BusCall → BusAct
  | .select active _ => .select active
  | .transfer b _ => .send b
  | .resetLevel level => .resetLevel level
  | .sleep d => .sleep d

/-- The commands of one whole frame (30_encoding R70): `CS+`, the bytes, `CS-`. -/
def frameActs (bytes : List Byte) : List BusAct :=
  .select true :: (bytes.map .send ++ [.select false])

/-- Between `s` and `t` exactly the commands `l` were issued. -/
def State.issued (s t : State) (l : List BusAct) : Prop :=
  t.trace.map BusCall.act = s.trace.map BusCall.act ++ l

/-- The capability calls made between `s` and `t`, oldest first (00_scope R15). -/
def State.calls (s t : State) : List BusCall := t.trace.drop s.trace.length

/-- The error a capability call returned (the `!` of a trace, 00_scope R15). -/
def BusCall.error : BusCall → Option PlatformError
  | .select _ e => e
  | .transfer _ (.error e) => some e
  | _ => none

/-- The first error in a run of calls: of one frame, the one its operation reports
(40_register_access R103). -/
def firstError (l : List BusCall) : Option PlatformError := l.findSome? BusCall.error

/-- The byte a capability call received, if it was an exchange that succeeded. -/
def BusCall.received : BusCall → Option Byte
  | .transfer _ (.ok r) => some r
  | _ => none

/-- The bytes received between `s` and `t`, oldest first, those of address exchanges among them. -/
def State.received (s t : State) : List Byte :=
  (s.calls t).filterMap BusCall.received

/-- Of the bytes received by a run of single read frames, the register bytes: every second one
(30_encoding R72). -/
def registerBytes : List Byte → List Byte
  | _ :: b :: rest => b :: registerBytes rest
  | _ => []

/-- The frames of a run of commands, each as the bytes the controller sent between `CS+` and `CS-`;
`cur` is the frame that is open at the start. -/
def framesFrom : Option (List Byte) → List BusAct → List (List Byte)
  | none, [] => []
  | some bs, [] => [bs]
  | _, .select true :: rest => framesFrom (some []) rest
  | some bs, .select false :: rest => bs :: framesFrom none rest
  | some bs, .send b :: rest => framesFrom (some (bs ++ [b])) rest
  | cur, _ :: rest => framesFrom cur rest

/-- The frames of a run of commands that starts with no frame open (30_encoding R70). -/
def framesOf (l : List BusAct) : List (List Byte) := framesFrom none l

/-- The frames the controller opened between `s` and `t`. -/
def State.framesIssued (s t : State) : List (List Byte) :=
  framesOf ((s.calls t).map BusCall.act)

/-- The calls of each frame of a run of calls, from its `CS+` to its `CS-`, with what the platform
answered; `cur` is the frame that is open at the start. -/
def callFramesFrom : Option (List BusCall) → List BusCall → List (List BusCall)
  | none, [] => []
  | some cs, [] => [cs]
  | _, .select true e :: rest => callFramesFrom (some [.select true e]) rest
  | some cs, .select false e :: rest => (cs ++ [.select false e]) :: callFramesFrom none rest
  | some cs, .transfer b r :: rest => callFramesFrom (some (cs ++ [.transfer b r])) rest
  | cur, _ :: rest => callFramesFrom cur rest

/-- The calls of each frame the controller opened between `s` and `t`. -/
def State.callFrames (s t : State) : List (List BusCall) := callFramesFrom none (s.calls t)

/-- The byte a capability call sent, if it was an exchange. -/
def BusCall.sent : BusCall → Option Byte
  | .transfer b _ => some b
  | _ => none

/-- The bytes sent in a run of calls, oldest first. -/
def bytesSent (l : List BusCall) : List Byte := l.filterMap BusCall.sent

/-- The calls `l` are one frame meant to send `bytes`: all of them and no error, or the bytes up to
the exchange that failed, where the first call that failed is the k-th (40_register_access R103). -/
def isFrameOf (bytes : List Byte) (l : List BusCall) : Prop :=
  (l.map BusCall.act = frameActs bytes ∧ firstError l = none)
    ∨ ∃ k e, k < bytes.length + 2 ∧ l.map BusCall.act = frameActs (bytes.take k)
        ∧ firstError (l.take k) = none ∧ (l[k]?).bind BusCall.error = some e

/-! ### What an operation leaves as it was -/

/-- Nothing but register and FIFO traffic has happened to the controller's lasting records:
configuration, environment script, waiting requests, reset line, and `dropped`. -/
structure State.SameRecords (s t : State) : Prop where
  cfg : t.cfg = s.cfg
  script : t.script = s.script
  requests : t.requests = s.requests
  rst : t.rst = s.rst
  dropped : t.dropped = s.dropped

/-- Both scratch buffers are as they were. -/
def State.SameBuffers (s t : State) : Prop := t.txBuf = s.txBuf ∧ t.rxBuf = s.rxBuf

/-- The controller's record of the mode is as it was (10_state R23, R24). -/
def State.SameMode (s t : State) : Prop :=
  t.modeCache = s.modeCache ∧ t.awaitReady = s.awaitReady

/-- Every register outside `as` reads as before, where a law ties the target at all (10_state R29,
R36), and the version byte is the same in every case (R35). -/
def State.OtherRegistersKept (s t : State) (as : List Addr) : Prop :=
  t.target.version = s.target.version ∧
    (t.lawless = false → ∀ b, b ∉ as → t.target.reg b = s.target.reg b)

/-- The mode, the flags, the interrupt line and the version of a target are as they were (10_state R33,
R34, R35). -/
structure Target.SameStatus (t u : Target) : Prop where
  chipMode : u.chipMode = t.chipMode
  ready : u.ready = t.ready
  packetSent : u.packetSent = t.packetSent
  payloadReady : u.payloadReady = t.payloadReady
  irq : u.irq = t.irq
  version : u.version = t.version

/-- The operation is over: no frame is open and the controller is back in `q`. -/
def State.endedIn (t : State) (q : SeqState) : Prop := t.cs = false ∧ t.seq = q

/-! ### Traffic of the sequences -/

/-- `n` polls of a status register with the sleeps between them (42_mode_controller R133):
`n` frames, `n - 1` sleeps. -/
def pollActs (c : Config) (reg : Addr) : Nat → List BusAct
  | 0 => []
  | 1 => frameActs (readFrameBytes c reg 1)
  | n + 2 => frameActs (readFrameBytes c reg 1) ++ .sleep c.pollInterval :: pollActs c reg (n + 1)

/-- The frame of a mode write (30_encoding R77). -/
def modeFrameActs (c : Config) (m : Mode) : List BusAct :=
  frameActs (writeFrameBytes c c.regOpmode [modeValue c m])

/-- The traffic of a completion wait that ended well, with `n` polls where it polls (44_packet_io
R173, R174; an event wait issues no frame, 45_event_channel R202). -/
def completionActs (c : Config) (dwell : Nat) (n : Nat) : List BusAct :=
  match c.waitKind with
  | .dwell => [.sleep dwell]
  | .pollStatus => pollActs c c.regIrqFlags2 n
  | .event => []

/-- The numbered steps of `Send` and `Receive` among sequencer states. -/
def SeqState.isStep : SeqState → Bool
  | .send1 | .send2 | .send3 | .send4 | .send5 | .recv1 | .recv2 | .recv3 | .recv4 => true
  | _ => false

/-- A list in which no element is followed by itself: a run of equal elements counts once. -/
def collapse : List SeqState → List SeqState
  | [] => []
  | q :: rest =>
    match collapse rest with
    | [] => [q]
    | r :: l => if q = r then r :: l else q :: r :: l

/-- The numbered steps of `Send` and `Receive` taken between `s` and `t`, in order (10_state R27); a
step that the sequencer comes back to when a frame of it closes counts once. -/
def State.stepsTaken (s t : State) : List SeqState :=
  collapse ((t.path.drop s.path.length).filter SeqState.isStep)

end Sys2Proof.Machine

namespace Sys2Proof

/-- The nine operations the host can call (00_scope R3). -/
def Instr.isHostOperation : Instr → Bool
  | .reset | .setStandbyMode | .isReady | .detectDevice | .setFrequency _ | .send _ | .receive
  | .readRegister _ | .writeRegister _ _ => true
  | _ => false

/-- The register that an instruction made of one `RD` frame reads, for a well-formed one: `RD`, its
three instances, and `ReadRegister`. -/
def Instr.readsRegister (c : Config) : Instr → Option Addr
  | .rd a => some a
  | .rdIrqFlags1 => some c.regIrqFlags1
  | .rdIrqFlags2 => some c.regIrqFlags2
  | .rdVersion => some c.regVersion
  | .readRegister addr => if c.addrInRange addr then some (addr.setWidth 7) else none
  | _ => none

/-- The register and the byte of an instruction made of one `WR` frame, for a well-formed one: `WR`,
its eight instances, `SetMode` and `WriteRegister`. -/
def Instr.writesRegister (c : Config) : Instr → Option (Addr × Byte)
  | .wr a v => some (a, v)
  | .wrOpmodeStandby => some (c.regOpmode, c.modeStandby)
  | .wrOpmodeTx => some (c.regOpmode, c.modeTx)
  | .wrOpmodeRx => some (c.regOpmode, c.modeRx)
  | .wrOpmodeSleep => some (c.regOpmode, c.modeSleep)
  | .wrOpmodeFs => some (c.regOpmode, c.modeFs)
  | .wrFrfMsb m => some (c.regFrfMsb, m)
  | .wrFrfMid i => some (c.regFrfMid, i)
  | .wrFrfLsb l => some (c.regFrfLsb, l)
  | .setMode m => some (c.regOpmode, Machine.modeValue c m)
  | .writeRegister addr value => if c.addrInRange addr then some (addr.setWidth 7, value) else none
  | _ => none

/-- The instructions that start a write frame to the mode register, or reset the record of it
(10_state R23, R24); a raw `Exchange` keeps no record (log 13). -/
def Instr.writesModeRecord (c : Config) : Instr → Bool
  | .reset | .setStandbyMode | .send _ | .receive | .setModeAndWait _ => true
  | .setFrequency _ => decide (c.regOpmode ∈ [c.regFrfMsb, c.regFrfMid, c.regFrfLsb])
  | .addrByte w a => w && decide (a = c.regOpmode)
  | i => match i.writesRegister c with
    | some (a, _) => decide (a = c.regOpmode)
    | none => false

/-- The instructions that can take an event out of the slot (10_state R26, 45_event_channel R202). -/
def Instr.consumesEvent (c : Config) : Instr → Bool
  | .awaitEvent _ _ => true
  | .send _ | .receive | .waitTxDone | .waitPayloadReady => decide (c.waitKind = .event)
  | _ => false

/-- The host operations that may be issued while readiness is awaited (70_reset_and_hazards R246): the
readiness poll, the operations that begin with a write to the mode register, a raw read of
`REG_IRQFLAGS1`, a raw write to `REG_OPMODE`, and `Reset`, which issues no frame. -/
def Instr.exemptFromReadiness (c : Config) : Instr → Bool
  | .isReady | .setStandbyMode | .reset | .send _ | .receive => true
  | .readRegister addr => decide (Machine.registerOf addr = c.regIrqFlags1)
  | .writeRegister addr _ => decide (Machine.registerOf addr = c.regOpmode)
  | _ => false

end Sys2Proof

namespace Sys2Proof.Machine

/-- The controller takes the instruction: a host operation in `Idle` (60_exceptions R225), any other
that opens a frame while none is open (20_memory R62). -/
def State.accepts (s : State) (i : Instr) : Prop :=
  (i.isHostOperation = true → s.seq = .idle) ∧ (i.isHostOperation = false → s.cs = false)

/-- Exactly when an instruction runs: a host operation in `Idle` with operands in range
(60_exceptions R215, R225), an operation that opens a frame while none is open (20_memory R62), the
frame steps in the order of 40_register_access R101 to R103 (`CloseFrame` always, log 13), and what opens
no frame always (log 24). -/
def State.takes (s : State) (i : Instr) : Bool :=
  match i with
  | .reset | .setStandbyMode | .isReady | .detectDevice | .setFrequency _ | .send _ | .receive
  | .readRegister _ | .writeRegister _ _ => decide (s.seq = .idle) && i.wellFormed s.cfg
  | .rd _ | .wr _ _ | .bwr _ | .brd _ | .wrOpmodeStandby | .wrOpmodeTx | .wrOpmodeRx
  | .wrOpmodeSleep | .wrOpmodeFs | .rdIrqFlags1 | .rdIrqFlags2 | .rdVersion | .wrFrfMsb _
  | .wrFrfMid _ | .wrFrfLsb _ | .setMode _ | .setModeAndWait _ | .fifoWrite _ | .fifoRead _
  | .pollFlag _ _ _ _ => !s.cs && i.wellFormed s.cfg
  | .addrByte _ _ => !s.cs || (s.frameErr.isNone && decide (s.seq = .frameOpen))
  | .openFrame => !s.cs
  | .exchange _ => s.cs && s.frameErr.isNone && !s.burstElsewhere
  | .waitTxDone | .waitPayloadReady => !(s.cs && decide (s.cfg.waitKind = .pollStatus))
  | .closeFrame _ | .handler | .awaitEvent _ _ | .hzToFrf _ | .frfToHz _ | .frfToHzInt _
  | .frfSplit _ | .frfJoin _ _ _ => true

/-- The host keeps the contracts of 70_reset_and_hazards R246, R247, R249 and R250 with this
operation: no register access while readiness is awaited but the exempt ones, `SetFrequency` in
Standby or Sleep only, only mode values to the mode register, and nothing into the FIFO of a reference
target, which alone counts an overrun. -/
def State.keepsContracts (s : State) (i : Instr) : Prop :=
  (s.awaitReady = false ∨ i.exemptFromReadiness s.cfg = true) ∧
  match i with
  | .setFrequency _ => s.modeCache = some .standby ∨ s.modeCache = some .sleep
  | .writeRegister addr value =>
    (registerOf addr = s.cfg.regOpmode → (modeOf s.cfg value).isSome = true)
      ∧ (registerOf addr = s.cfg.regFifo → s.cfg.target ≠ .reference)
  | .send data => data = [] ∨ s.cfg.target ≠ .reference
  | _ => True

end Sys2Proof.Machine
end

