-- ==== Sys2Proof/Certificates/Slice0/Obligations.lean ====
section
/-!
DEFINITION. The statements for the provers, in the order of the spec's files. What a statement says
of the registers of a target it says only where a law ties the target at all: of the oracle target,
and of a reference target once `hazard` is set, the spec promises nothing (10_state R29, R36).
A frame or an internal operation as an instruction of its own, ended in the sequencer state it was issued
from, is the model's presentation of the table's rows (logs 18 and 24).
-/

open Sys2Proof Sys2Proof.Machine

/-! ### Encoding (30_encoding) -/

/-- Decoding undoes encoding, for every well-formed instruction that its own words name (R70 to R77,
R82). Of rows that share their words the most particular one is named: the model's choice (logs 12 and
30); with a `DIR_BIT` other than 7 the place of the address is the model's too (log 4). -/
def Obligations.DecodingUndoesEncoding : Prop :=
  ∀ (c : Config) (i : Instr) (r : Request), i.wellFormed c = true → i.mostParticular c = true →
    encode c i = some r → decode c r = .ok i

/-- Encoding undoes decoding: whatever the decoder accepts is the encoding of what it answers, so no
reserved form is read as an instruction (R81, R82). That it answers the most particular of the rows that
share the words is the model's choice (logs 12 and 30). -/
def Obligations.EncodingUndoesDecoding : Prop :=
  ∀ (c : Config) (r : Request) (i : Instr), decode c r = .ok i →
    encode c i = some r ∧ i.mostParticular c = true

/-- The address byte (R71), with the `DIR_BIT = 7` that the rule writes out: bit 7 the direction, bits
6-0 the address, `a & 0x7F` for a read and `a | 0x80` for a write, and the rule's four examples. -/
def Obligations.AddressByteLayout : Prop :=
  ∀ c : Config, c.dirBit = 7 →
    (∀ (w : Bool) (a : Addr),
      (addressByte c w a).getLsbD 7 = w ∧ (addressByte c w a).setWidth 7 = a
        ∧ addressByteDir c (addressByte c w a) = w ∧ addressByteAddr c (addressByte c w a) = a)
      ∧ (∀ a : Byte, a.toNat ≤ 0x7F →
          addressByte c false (registerOf a) = a &&& 0x7F
            ∧ addressByte c true (registerOf a) = a ||| 0x80)
      ∧ addressByte c false 0x10 = 0x10 ∧ addressByte c true 0x01 = 0x81
      ∧ addressByte c true 0x7F = 0xFF ∧ addressByte c false 0x00 = 0x00

/-- The nine command codes and no other name an operation (R82). -/
def Obligations.CommandCodes : Prop :=
  ∀ c : Config,
    decode c (.call 0x01 .nothing) = .ok .reset
      ∧ decode c (.call 0x02 .nothing) = .ok .setStandbyMode
      ∧ decode c (.call 0x03 .nothing) = .ok .isReady
      ∧ decode c (.call 0x04 .nothing) = .ok .detectDevice
      ∧ (∀ hz, decode c (.call 0x05 (.hz hz)) = .ok (.setFrequency hz))
      ∧ (∀ data, decode c (.call 0x06 (.data data)) = .ok (.send data))
      ∧ decode c (.call 0x07 .nothing) = .ok .receive
      ∧ (∀ addr, decode c (.call 0x08 (.addr addr)) = .ok (.readRegister addr))
      ∧ (∀ addr value,
          decode c (.call 0x09 (.addrValue addr value)) = .ok (.writeRegister addr value))
      ∧ ∀ (code : Byte) (ops : Operands), code.toNat = 0 ∨ 0x0A ≤ code.toNat →
          decode c (.call code ops) = .error .noSuchCode

/-- Frames of the default addresses and mode values decode to the rows they stand for: those the spec
writes out (R71, R74, R77, R78, R86), and two it does not: `[0x00, 0x00, 0x00]`, a drain of two bytes in
the format of R75, and `[0x85]`, an address byte of R71 alone, which as the row `ADDRBYTE` is the model's
reading (log 13). Of rows that share their words the most particular one is named (log 12). -/
def Obligations.PrintedFramesDecode : Prop :=
  decode Config.default (.frame [0x81, 0x04]) = .ok .wrOpmodeStandby
    ∧ decode Config.default (.frame [0x81, 0x0C]) = .ok .wrOpmodeTx
    ∧ decode Config.default (.frame [0x81, 0x10]) = .ok .wrOpmodeRx
    ∧ decode Config.default (.frame [0x81, 0x00]) = .ok .wrOpmodeSleep
    ∧ decode Config.default (.frame [0x81, 0x08]) = .ok .wrOpmodeFs
    ∧ decode Config.default (.frame [0x87, 0xE4]) = .ok (.wrFrfMsb 0xE4)
    ∧ decode Config.default (.frame [0x88, 0xC0]) = .ok (.wrFrfMid 0xC0)
    ∧ decode Config.default (.frame [0x89, 0x00]) = .ok (.wrFrfLsb 0x00)
    ∧ decode Config.default (.frame [0x10, 0x00]) = .ok .rdVersion
    ∧ decode Config.default (.frame [0x27, 0x00]) = .ok .rdIrqFlags1
    ∧ decode Config.default (.frame [0x28, 0x00]) = .ok .rdIrqFlags2
    ∧ decode Config.default (.frame [0x80, 0x48, 0x69]) = .ok (.bwr [0x48, 0x69])
    ∧ decode Config.default (.frame [0x00, 0x00, 0x00]) = .ok (.brd 2)
    ∧ decode Config.default (.frame [0xFF, 0xFF]) = .ok (.wr 0x7F 0xFF)
    ∧ decode Config.default (.frame [0x7F, 0x00]) = .ok (.rd 0x7F)
    ∧ decode Config.default (.frame [0x85]) = .ok (.addrByte true 0x05)

/-! ### The machine -/

/-- A step runs the decoded instruction: the request at the head of the queue leaves it, and the rest
is `exec` of what it decodes to. A request that decodes to nothing is refused; with no request one
moment of the environment passes and the controller stays as it is (log 2). -/
def Obligations.StepRunsTheDecodedInstruction : Prop :=
  (∀ (s : State) (r : Request) (rest : List Request) (i : Instr), s.requests = r :: rest →
      decode s.cfg r = .ok i → step s = exec i { s with requests := rest })
    ∧ (∀ (s : State) (r : Request) (rest : List Request) (why : Reject), s.requests = r :: rest →
        decode s.cfg r = .error why → step s = .refused (.undecodable why))
    ∧ ∀ s : State, s.requests = [] → ∃ t, step s = .next t ∧ t.seq = s.seq ∧ t.cs = s.cs
        ∧ s.SameRecords t ∧ s.SameMode t ∧ s.SameBuffers t ∧ s.issued t []
        ∧ t.hazard = s.hazard ∧ t.result = s.result ∧ t.tick = s.tick + 1

/-- Every instruction, and every step, keeps the invariant: 128 registers in canonical form (10_state
R31), a FIFO within its window (R32), scratch buffers of `SCRATCH_SIZE` bytes (R25), and no frame open
in `Idle` (R21). -/
def Obligations.EveryStepKeepsTheInvariant : Prop :=
  ∀ s : State, s.Inv →
    (∀ (i : Instr) (t : State), exec i s = .next t → t.Inv) ∧ ∀ t : State, step s = .next t → t.Inv

/-- The invariant holds at reset, and of every controller created over a sound target. -/
def Obligations.CreationMeetsTheInvariant : Prop :=
  State.reset.Inv
    ∧ ∀ (c : Config) (chip : Target) (t : State), chip.sound c → create c chip none = .next t → t.Inv

/-- What no operation undoes: the configuration and the version byte are fixed (10_state R35, R45),
`hazard` is sticky (R29), time does not go back (00_scope R12), and the trace only grows. -/
def Obligations.NothingIsUndone : Prop :=
  ∀ (i : Instr) (s t : State), exec i s = .next t →
    t.cfg = s.cfg ∧ t.script = s.script ∧ t.requests = s.requests
      ∧ t.target.version = s.target.version
      ∧ (s.hazard = true → t.hazard = true) ∧ s.clock ≤ t.clock ∧ s.tick ≤ t.tick
      ∧ (∃ l, t.trace = s.trace ++ l) ∧ ∃ l, t.path = s.path ++ l


/-- Exactly when an instruction runs, for every instruction: `State.takes`. In every other case it is
refused (60_exceptions R215, R216, R225). The model's choice is when frame steps and internal operations
issued alone are refused (logs 13 and 24), the refusal of a drain of more than `SCRATCH_SIZE` bytes and of a
burst write of more than `MAX_SEND_LEN` (log 25), and of an address of `2^ADDR_BITS` or more where `ADDR_BITS`
is below 7 (log 4). No operation and no step ends in a fault: errors are results
(93_implementation_defined part 1; `SetupError` belongs to creation alone, 60_exceptions R214). -/
def Obligations.RunsExactlyWhenTaken : Prop :=
  (∀ (i : Instr) (s : State),
    ((∃ t, exec i s = .next t) ↔ s.takes i = true)
      ∧ ((∃ r, exec i s = .refused r) ↔ s.takes i = false)
      ∧ ∀ f : Fault, exec i s ≠ .fault f)
    ∧ ∀ (s : State) (f : Fault), step s ≠ .fault f

/-- The refusals of the nine exposed operations: busy, or an operand out of range; the outcome is
decided before any step is taken (60_exceptions R215, R216, R218 item 6, R225). An address is in range
below `2^ADDR_BITS` (00_scope R6); R216 refuses above `0x7F`, and that the bound follows an `ADDR_BITS`
below 7 is the model's choice (log 4). -/
def Obligations.HostRefusals : Prop :=
  ∀ (i : Instr) (s : State), i.isHostOperation = true →
    ((∃ r, exec i s = .refused r) ↔
      s.seq ≠ .idle
        ∨ (∃ addr, i = .readRegister addr ∧ 2 ^ s.cfg.addrBits ≤ addr.toNat)
        ∨ (∃ addr value, i = .writeRegister addr value ∧ 2 ^ s.cfg.addrBits ≤ addr.toNat)
        ∨ (∃ hz : Hz, i = .setFrequency hz
            ∧ s.cfg.fxoscHz * 2 ^ 24 ≤ hz.toNat * 2 ^ s.cfg.frfShift)
        ∨ ∃ data, i = .send data ∧ s.cfg.maxSendLen < data.length)

/-- What each exposed operation can answer: the columns of the table in 60_exceptions R216. -/
def Obligations.HostResults : Prop :=
  ∀ (i : Instr) (s t : State), exec i s = .next t →
    match i with
    | .reset | .setFrequency _ => t.result = .ok .unit
    | .detectDevice => ∃ b, t.result = .ok (.bool b)
    | .setStandbyMode => t.result = .ok .unit
        ∨ ∃ e, t.result = .error { kind := .transport e, context := [.setStandbyMode] }
    | .isReady => t.result = .ok .unit
        ∨ (∃ e, t.result = .error { kind := .transport e })
        ∨ t.result = .error { kind := .timeout .modeReady }
    | .send _ => t.result = .ok .unit
        ∨ (∃ e, t.result = .error { kind := .transport e })
        ∨ t.result = .error { kind := .timeout .modeReady }
        ∨ t.result = .error { kind := .timeout .packetSent }
    | .receive => (∃ l, t.result = .ok (.bytes l) ∧ l.length = s.cfg.fifoWindow)
        ∨ (∃ e, t.result = .error { kind := .transport e })
        ∨ t.result = .error { kind := .timeout .modeReady }
        ∨ t.result = .error { kind := .timeout .payloadReady }
    | .readRegister _ => (∃ b, t.result = .ok (.byte b))
        ∨ ∃ e, t.result = .error { kind := .transport e }
    | .writeRegister _ _ => t.result = .ok .unit
        ∨ ∃ e, t.result = .error { kind := .transport e }
    | _ => True

/-- Every operation closes the frames it opens and comes back to where it was called: the host's to
`Idle`, whatever went wrong (10_state R21, R27; 60_exceptions R219, R220), the others by the model's
reading of `seq` (log 18). -/
def Obligations.OperationsComeBack : Prop :=
  ∀ (i : Instr) (s t : State), s.Inv → exec i s = .next t →
    (i.isHostOperation = true → t.endedIn .idle)
      ∧ ((∀ b, i ≠ .exchange b) → (∀ w a, i ≠ .addrByte w a) → i ≠ .openFrame →
          (∀ e, i ≠ .closeFrame e) → t.seq = s.seq ∧ (s.cs = false → t.cs = false))

/-- Only `Reset` moves the reset line, which it leaves high (10_state R22), and only `SetFrequency`
adds to `dropped`, at most one transport error for each of its three writes (R28). -/
def Obligations.ResetLineAndDropped : Prop :=
  ∀ (i : Instr) (s t : State), exec i s = .next t →
    (i ≠ .reset → t.rst = s.rst) ∧ (i = .reset → t.rst = true)
      ∧ ((∀ hz, i ≠ .setFrequency hz) → t.dropped = s.dropped)
      ∧ ∃ l, t.dropped = s.dropped ++ l ∧ l.length ≤ 3
          ∧ ∀ e ∈ l, ∃ cause, e = ({ kind := .transport cause } : OpError)

/-- The controller's record of the mode changes only where a write frame to the mode register is
started, `await_ready` besides where `IsReady` sees the bit, and both in `Reset` (10_state R23, R24;
42_mode_controller R130). That a raw `Exchange` keeps no record, and that a FIFO burst keeps none where the
FIFO and the mode register are at one address, is the model's choice (logs 13 and 30). -/
def Obligations.ModeRecordWriters : Prop :=
  ∀ (i : Instr) (s t : State), exec i s = .next t → i.writesModeRecord s.cfg = false →
    t.modeCache = s.modeCache
      ∧ (i ≠ .isReady → t.awaitReady = s.awaitReady)
      ∧ (i = .isReady → t.awaitReady = (s.awaitReady && decide (t.result ≠ .ok .unit)))

/-- Only a FIFO write touches `tx_buf` and only a FIFO read touches `rx_buf` (10_state R25); that bytes
not written keep their values is the model's choice (log 17). -/
def Obligations.BufferWriters : Prop :=
  ∀ (i : Instr) (s t : State), exec i s = .next t →
    ((∀ d, i ≠ .fifoWrite d) → (∀ d, i ≠ .send d) → t.txBuf = s.txBuf)
      ∧ ((∀ n, i ≠ .fifoRead n) → i ≠ .receive → t.rxBuf = s.rxBuf)
      ∧ t.txBuf.length = s.txBuf.length ∧ t.rxBuf.length = s.rxBuf.length

/-- The event slot is emptied only by a wait for an event; a reset, among others, leaves it full
(10_state R26, 60_exceptions R217, 42_mode_controller R135). -/
def Obligations.EventSlotKept : Prop :=
  ∀ (i : Instr) (s t : State), exec i s = .next t → i.consumesEvent s.cfg = false →
    s.evt = true → t.evt = true

/-- A host that starts clean and keeps the contracts sets no hazard, whatever fails: nothing but R246,
R247, R249 and R250 of 70_reset_and_hazards sets the mark (R245). The contracts are
`State.keepsContracts`, the wait for readiness with its exemptions among them (R246), so the statement
follows a host through the boot sequence of R243. Where two named registers share an address a mode
write or a version read can be another register's access too (log 30). -/
def Obligations.KeptContractsSetNoHazard : Prop :=
  ∀ (i : Instr) (s t : State), s.cfg.registers.Nodup → i.isHostOperation = true →
    s.hazard = false → s.keepsContracts i → exec i s = .next t → t.hazard = false

/-! ### RegisterAccess (40_register_access) -/

/-- One register read in which no call fails: `RD`, its three instances and `ReadRegister` complete,
with the frame `{0, a}`, `DUMMY_BYTE` on the bus and the second byte received as the result (30_encoding
R72, 40_register_access R104), the mark of 70_reset_and_hazards R246, and nothing else changed. -/
def Obligations.SingleReadCompletes : Prop :=
  ∀ (i : Instr) (s : State) (a : Addr), i.readsRegister s.cfg = some a → s.accepts i →
    s.noFailure 4 →
    ∃ t r b, exec i s = .next t ∧ t.result = .ok (.byte b) ∧ s.received t = [r, b]
      ∧ s.issued t (frameActs [addressByte s.cfg false a, s.cfg.dummyByte])
      ∧ t.endedIn s.seq ∧ s.SameRecords t ∧ s.SameBuffers t ∧ s.SameMode t
      ∧ t.hazard = (s.hazard || (s.awaitReady && decide (a ≠ s.cfg.regIrqFlags1)))
      ∧ (s.evt = true → t.evt = true)
      ∧ (s.target.sound s.cfg → s.OtherRegistersKept t [])

/-- One register write in which no call fails: `WR`, its eight instances, `SetMode` and
`WriteRegister` complete, with the frame `{1, a}`, `v` (30_encoding R73, 40_register_access R105,
42_mode_controller R131), the mode record of 10_state R23 and R24, the marks of 70_reset_and_hazards
R246 and R249, and no register changed but the one addressed. -/
def Obligations.SingleWriteCompletes : Prop :=
  ∀ (i : Instr) (s : State) (a : Addr) (v : Byte), i.writesRegister s.cfg = some (a, v) →
    s.accepts i → s.noFailure 4 →
    ∃ t, exec i s = .next t ∧ t.result = .ok .unit
      ∧ s.issued t (frameActs [addressByte s.cfg true a, v])
      ∧ t.endedIn s.seq ∧ s.SameRecords t ∧ s.SameBuffers t
      ∧ t.modeCache = (if a = s.cfg.regOpmode then modeOf s.cfg v else s.modeCache)
      ∧ t.awaitReady = (s.awaitReady || decide (a = s.cfg.regOpmode))
      ∧ ((s.hazard || (s.awaitReady && decide (a ≠ s.cfg.regOpmode))
            || (decide (a = s.cfg.regOpmode) && (modeOf s.cfg v).isNone)) = true
          → t.hazard = true)
      ∧ (a ≠ s.cfg.regFifo → t.hazard
          = (s.hazard || (s.awaitReady && decide (a ≠ s.cfg.regOpmode))
              || (decide (a = s.cfg.regOpmode) && (modeOf s.cfg v).isNone)))
      ∧ (s.evt = true → t.evt = true)
      ∧ (s.target.sound s.cfg → s.OtherRegistersKept t [a])

/-- A register read whose first failing call is the k-th of its four (40_register_access R103, R104,
R107, R108; the failing calls of vectors V1.10 to V1.13): the bytes up to the failing exchange, one
release, the platform's error unmodified and no byte; that a failed read too leaves the addressed
register open is the model's reading (log 14). -/
def Obligations.SingleReadFails : Prop :=
  ∀ (i : Instr) (s : State) (a : Addr) (k : Nat) (e : PlatformError),
    i.readsRegister s.cfg = some a → s.accepts i → k < 4 → s.noFailure k →
    s.callErrorAt k = some e →
    ∃ t, exec i s = .next t ∧ t.result = .error { kind := .transport e }
      ∧ s.issued t (frameActs ([addressByte s.cfg false a, s.cfg.dummyByte].take k))
      ∧ t.endedIn s.seq ∧ s.SameRecords t ∧ s.SameBuffers t ∧ s.SameMode t
      ∧ (s.target.sound s.cfg → s.OtherRegistersKept t [a])

/-- A register write whose first failing call is the k-th (40_register_access R103, R105, R107, R108;
vectors V1.15 to V1.18): as for a read, and a failed write to the mode register leaves the mode
unknown and readiness awaited. -/
def Obligations.SingleWriteFails : Prop :=
  ∀ (i : Instr) (s : State) (a : Addr) (v : Byte) (k : Nat) (e : PlatformError),
    i.writesRegister s.cfg = some (a, v) → s.accepts i → k < 4 → s.noFailure k →
    s.callErrorAt k = some e →
    ∃ t, exec i s = .next t ∧ t.result = .error { kind := .transport e }
      ∧ s.issued t (frameActs ([addressByte s.cfg true a, v].take k))
      ∧ t.endedIn s.seq ∧ s.SameRecords t ∧ s.SameBuffers t
      ∧ t.modeCache = (if a = s.cfg.regOpmode then none else s.modeCache)
      ∧ t.awaitReady = (s.awaitReady || decide (a = s.cfg.regOpmode))
      ∧ (s.target.sound s.cfg → s.OtherRegistersKept t [a])

/-- `OpenFrame` (40_register_access R101): chip-select is commanded active, once; the error of
`SetSelect(true)` is the result. That an exchange issued after such an error is refused is the model's
choice (log 13), and so is the record of the state that opened the frame (log 18). -/
def Obligations.OpenFrameOpens : Prop :=
  ∀ s : State, s.cs = false →
    ∃ t, exec .openFrame s = .next t ∧ t.cs = true ∧ t.seq = .frameOpen ∧ t.opener = s.seq
      ∧ s.issued t [.select true]
      ∧ t.result = (match s.callErrorAt 0 with
          | none => .ok .unit
          | some e => .error { kind := .transport e })
      ∧ (s.callErrorAt 0 ≠ none → ∀ b, exec (.exchange b) t = .refused .exchangeAfterError)
      ∧ s.SameRecords t ∧ s.SameBuffers t ∧ s.SameMode t ∧ t.hazard = s.hazard
      ∧ (s.evt = true → t.evt = true)
      ∧ (s.target.sound s.cfg → s.OtherRegistersKept t [])

/-- `Exchange` (40_register_access R102; the refusals of a step out of order, log 13): one byte each way
in an open frame, the byte received or the platform's error; after an error no further exchange. It
changes no register: on a simulated target the byte of a register write stays with the frame, to be
delivered when the frame ends (20_memory R61). On the reference target a byte for the FIFO enters it here,
or overruns it and sets `hazard` (10_state R39, 70_reset_and_hazards R250; that this is the instant, log
29; where the FIFO shares its address, log 30). Outside a frame, and for a second data byte to an address
other than `REG_FIFO` on a simulated target (30_encoding R81; after a hazard it is not, log 31), it is
refused. -/
def Obligations.ExchangeMovesOneByte : Prop :=
  (∀ (s : State) (b : Byte), s.cs = true → s.frameErr = none → s.burstElsewhere = false →
    ∃ t, exec (.exchange b) s = .next t ∧ s.issued t [.send b]
      ∧ t.cs = true ∧ t.opener = s.opener ∧ t.seq = nextExchange s.seq
      ∧ (s.callErrorAt 0 = none → ∃ r, t.result = .ok (.byte r) ∧ s.received t = [r])
      ∧ (∀ e, s.callErrorAt 0 = some e → t.result = .error { kind := .transport e }
          ∧ s.received t = [] ∧ ∀ b', exec (.exchange b') t = .refused .exchangeAfterError)
      ∧ s.SameRecords t ∧ s.SameBuffers t ∧ s.SameMode t
      ∧ (s.hazard = true → t.hazard = true) ∧ (s.evt = true → t.evt = true)
      ∧ (s.target.sound s.cfg → s.OtherRegistersKept t [])
      ∧ (∀ f : BusFrame, s.frame = some f → f.addr = some (true, s.cfg.regFifo) →
          s.cfg.target = .reference → s.hazard = false → s.callErrorAt 0 = none →
          (∃ g, t.frame = some g ∧ g.addr = some (true, s.cfg.regFifo) ∧ g.pending = f.pending
              ∧ g.failed = f.failed)
            ∧ (s.undisturbed 1 →
                (s.target.fifo.length < s.cfg.fifoWindow →
                    t.target = { s.target with fifo := s.target.fifo ++ [b] } ∧ t.hazard = false)
                  ∧ (s.cfg.fifoWindow ≤ s.target.fifo.length → t.hazard = true)))
      ∧ ∀ (f : BusFrame) (a : Addr), s.frame = some f → f.addr = some (true, a) →
          s.cfg.target = .loopback ∨ s.cfg.target = .reference ∧ a ≠ s.cfg.regFifo →
          s.hazard = false → s.callErrorAt 0 = none →
          (∃ g, t.frame = some g ∧ g.addr = some (true, a) ∧ g.pending = some b
              ∧ g.failed = f.failed)
            ∧ t.hazard = false ∧ (s.undisturbed 1 → t.target = s.target))
    ∧ (∀ (s : State) (b : Byte), s.cs = false → exec (.exchange b) s = .refused .noFrame)
    ∧ ∀ (s : State) (b : Byte) (f : BusFrame) (w : Bool) (a : Addr), s.cs = true →
        s.frameErr = none → s.frame = some f → f.addr = some (w, a) → 0 < f.data →
        a ≠ s.cfg.regFifo → s.cfg.target ≠ .oracle → s.hazard = false →
        exec (.exchange b) s = .refused .burstElsewhere

/-- `CloseFrame` (40_register_access R103): the release is called once, chip-select is commanded
inactive whatever it answers, and the first error of the frame is the one reported. A register write
whose steps and release all succeed is delivered here, when its frame ends (20_memory R61): as plain
storage on the loopback target (10_state R37), by the table of R39 on the reference target, whatever
steps of its own the target takes just before. The marks of a mode write that is no mode value are those
of R39 and 70_reset_and_hazards R249. Two names at one address are log 30; that it runs with no frame open
too is log 13. -/
def Obligations.CloseFrameReleases : Prop :=
  ∀ (s : State) (e : Option OpError),
    ∃ t, exec (.closeFrame e) s = .next t ∧ t.cs = false ∧ s.issued t [.select false]
      ∧ t.seq = (if s.cs then s.opener else s.seq) ∧ t.frame = none ∧ t.frameErr = none
      ∧ t.result = (match e, s.callErrorAt 0 with
          | some first, _ => .error first
          | none, some last => .error { kind := .transport last }
          | none, none => .ok .unit)
      ∧ s.SameRecords t ∧ s.SameBuffers t ∧ s.SameMode t ∧ (s.evt = true → t.evt = true)
      ∧ (s.hazard = true → t.hazard = true)
      ∧ ((∀ f w v, s.frame = some f → f.addr = some (w, s.cfg.regOpmode) → f.pending = some v →
          (modeOf s.cfg v).isSome = true) → t.hazard = s.hazard)
      ∧ (∀ as : List Addr, (∀ f w a, s.frame = some f → f.addr = some (w, a) → a ∈ as) →
          s.target.sound s.cfg → s.OtherRegistersKept t as)
      ∧ ∀ (f : BusFrame) (a : Addr) (v : Byte), s.frame = some f → f.addr = some (true, a) →
          f.pending = some v → f.failed = false → s.callErrorAt 0 = none → s.hazard = false →
          s.target.sound s.cfg →
          (s.cfg.target = .loopback → t.target.reg a = v)
            ∧ (s.cfg.target = .reference → a ≠ s.cfg.regFifo →
                if a = s.cfg.regOpmode then
                  ((modeOf s.cfg v).isSome = true → t.target.reg a = v ∧ t.target.ready = false
                      ∧ t.target.packetSent = false ∧ t.target.payloadReady = false)
                    ∧ ((modeOf s.cfg v).isSome = false → t.hazard = true)
                else if a = s.cfg.regVersion ∨ a = s.cfg.regIrqFlags1 ∨ a = s.cfg.regIrqFlags2 then
                  s.OtherRegistersKept t []
                else t.target.reg a = v)

/-- `ADDRBYTE` (30_encoding R70 with no data byte, R71; 20_memory R62; the meaning of the row is the
model's, log 13): with no frame open the frame of that one byte, with the mode record of a frame to
the mode register; as the first byte of an open frame its exchange; later in a frame refused. -/
def Obligations.AddressByteFrame : Prop :=
  (∀ (w : Bool) (a : Addr) (s : State), s.cs = false → s.noFailure 3 →
      ∃ t, exec (.addrByte w a) s = .next t ∧ t.result = .ok .unit
        ∧ s.issued t (frameActs [addressByte s.cfg w a]) ∧ t.endedIn s.seq
        ∧ s.SameRecords t ∧ s.SameBuffers t
        ∧ t.modeCache = (if w && decide (a = s.cfg.regOpmode) then none else s.modeCache)
        ∧ t.awaitReady = (s.awaitReady || (w && decide (a = s.cfg.regOpmode)))
        ∧ t.hazard = (s.hazard || (s.awaitReady
            && decide (a ≠ if w then s.cfg.regOpmode else s.cfg.regIrqFlags1)))
        ∧ (s.evt = true → t.evt = true)
        ∧ (s.target.sound s.cfg → s.OtherRegistersKept t []))
    ∧ (∀ (w : Bool) (a : Addr) (s : State), s.cs = true → s.frameErr = none → s.seq = .frameOpen →
        s.noFailure 1 →
        ∃ t, exec (.addrByte w a) s = .next t ∧ t.result = .ok .unit
          ∧ s.issued t [.send (addressByte s.cfg w a)] ∧ t.seq = .frameAddr ∧ t.cs = true
          ∧ s.SameRecords t ∧ s.SameBuffers t ∧ s.SameMode t)
    ∧ ∀ (w : Bool) (a : Addr) (s : State), s.cs = true → s.frameErr = none → s.seq ≠ .frameOpen →
        exec (.addrByte w a) s = .refused .addressNotFirst

/-- A written byte is read back (40_register_access R106), with no contract broken before, no call
failing and readiness not awaited: on the loopback target at every address, on the reference target at
every register that is plain storage there (10_state R38, R39). The other registers keep their bytes. At
the mode register the read comes while readiness is awaited: it sets `hazard`, and its byte is any
(70_reset_and_hazards R246, vector V1.9); that the loopback law gives way there as on the reference
target is log 8. -/
def Obligations.WrittenBytesReadBack : Prop :=
  ∀ (s : State) (addr v : Byte), s.target.sound s.cfg → s.seq = .idle →
    s.cfg.addrInRange addr = true → s.hazard = false → s.awaitReady = false → s.noFailure 8 →
    (s.cfg.target = .loopback
      ∨ s.cfg.target = .reference
          ∧ registerOf addr ∉ [s.cfg.regFifo, s.cfg.regVersion, s.cfg.regIrqFlags1,
              s.cfg.regIrqFlags2]) →
    ∃ t u, exec (.writeRegister addr v) s = .next t ∧ t.result = .ok .unit
      ∧ exec (.readRegister addr) t = .next u
      ∧ (registerOf addr ≠ s.cfg.regOpmode → u.result = .ok (.byte v) ∧ u.hazard = false
          ∧ ∀ b : Addr, b ≠ registerOf addr → u.target.reg b = s.target.reg b)
      ∧ (registerOf addr = s.cfg.regOpmode → s.cfg.regOpmode ≠ s.cfg.regIrqFlags1 →
          u.hazard = true ∧ ∃ b, u.result = .ok (.byte b))

/-- What a read frame returns on the reference target, and what it does there, register by register
(10_state R38); during the address exchange `0x00` is received. Two flags on one bit, or two names at
one address, are read as the model chooses (logs 28 and 30). -/
def Obligations.ReferenceReads : Prop :=
  ∀ (i : Instr) (s : State) (a : Addr), i.readsRegister s.cfg = some a → s.accepts i →
    s.cfg.target = .reference → s.hazard = false →
    (s.awaitReady = false ∨ a = s.cfg.regIrqFlags1) → s.noFailure 4 → s.undisturbed 4 →
    ∃ t b, exec i s = .next t ∧ t.result = .ok (.byte b) ∧ s.received t = [0, b]
      ∧ t.hazard = false ∧ t.target.x = s.target.x ∧ s.target.SameStatus t.target
      ∧ t.target.fifo = (if a = s.cfg.regFifo then s.target.fifo.drop 1 else s.target.fifo)
      ∧ (if a = s.cfg.regFifo then ∀ head rest, s.target.fifo = head :: rest → b = head
        else if a = s.cfg.regVersion then b = s.target.version
        else if a = s.cfg.regIrqFlags1 ∨ a = s.cfg.regIrqFlags2 then
          ∀ j : Fin 8, b.getLsbD j
            = (decide (a = s.cfg.regIrqFlags1) && decide (j = s.cfg.modeReadyBit) && s.target.ready
              || decide (a = s.cfg.regIrqFlags2)
                  && (decide (j = s.cfg.packetSentBit) && s.target.packetSent
                    || decide (j = s.cfg.payloadReadyBit) && s.target.payloadReady))
        else b = s.target.reg a)

/-- What a write frame does on the reference target, register by register (10_state R39,
70_reset_and_hazards R249, R250), and what it leaves: a write to a read-only register changes nothing, its
flags and the version among them. The FIFO and the mode register are not at one address here; other names
at one address are served in the order of the table (log 30). A register takes the byte when the frame
ends (20_memory R61), the FIFO at its exchange (log 29). -/
def Obligations.ReferenceWrites : Prop :=
  ∀ (i : Instr) (s : State) (a : Addr) (v : Byte), i.writesRegister s.cfg = some (a, v) →
    s.accepts i → s.cfg.target = .reference → s.cfg.regFifo ≠ s.cfg.regOpmode →
    s.target.sound s.cfg → s.hazard = false → (s.awaitReady = false ∨ a = s.cfg.regOpmode) →
    s.noFailure 4 → s.undisturbed 4 →
    ∃ t, exec i s = .next t ∧ t.target.version = s.target.version
      ∧ (if a = s.cfg.regFifo then
          (s.target.fifo.length < s.cfg.fifoWindow →
              t.target.fifo = s.target.fifo ++ [v] ∧ t.target.x = s.target.x
                ∧ s.target.SameStatus t.target ∧ t.hazard = false)
            ∧ (s.cfg.fifoWindow ≤ s.target.fifo.length → t.hazard = true)
        else if a = s.cfg.regOpmode then
          ((modeOf s.cfg v).isSome = true → t.target.reg a = v ∧ t.target.ready = false
              ∧ t.target.packetSent = false ∧ t.target.payloadReady = false
              ∧ t.target.chipMode = s.target.chipMode ∧ t.target.fifo = s.target.fifo
              ∧ t.target.irq = s.target.irq ∧ (∀ b, b ≠ a → t.target.reg b = s.target.reg b)
              ∧ t.hazard = false)
            ∧ ((modeOf s.cfg v).isSome = false → t.hazard = true)
        else if a = s.cfg.regVersion ∨ a = s.cfg.regIrqFlags1 ∨ a = s.cfg.regIrqFlags2 then
          t.target.x = s.target.x ∧ t.target.fifo = s.target.fifo
            ∧ s.target.SameStatus t.target ∧ t.hazard = false
        else t.target.reg a = v ∧ (∀ b, b ≠ a → t.target.reg b = s.target.reg b)
          ∧ t.target.fifo = s.target.fifo ∧ s.target.SameStatus t.target ∧ t.hazard = false)

/-- The reference target's own steps (10_state R40), each seen in the one environment moment of a
controller that waits: `Settle` takes the chip to the mode of the byte in the mode register and sets
ready, where ready is false and that byte is a mode value; `TxComplete` empties the FIFO, sets packet
sent and raises an edge, where the chip transmits, is ready and has not sent; `RxPacket(p)` puts `p` into
the FIFO, sets payload ready and raises an edge, where the chip receives, is ready, holds no payload and
`p` fits the window. Where its guard does not hold a step does nothing. An edge fills the event slot
(45_event_channel R201). The environment may drive the line as well: a change from low to high is an
edge, a falling edge and a line that stays high are none (log 10). -/
def Obligations.ReferenceTargetSteps : Prop :=
  ∀ (s : State) (act : TargetAct), s.requests = [] → s.cfg.target = .reference →
    s.hazard = false → (s.momentAt 0).acts = [act] →
    ∃ t, step s = .next t ∧
      match act with
      | .settle =>
        t.evt = s.evt
          ∧ (∀ m, s.target.ready = false → s.target.reg s.cfg.regOpmode = modeValue s.cfg m →
              t.target = { s.target with chipMode := m, ready := true })
          ∧ (s.target.ready = true ∨ (∀ m, s.target.reg s.cfg.regOpmode ≠ modeValue s.cfg m) →
              t.target = s.target)
      | .txComplete =>
        if s.target.chipMode = .transmit ∧ s.target.ready = true ∧ s.target.packetSent = false then
          t.evt = true
            ∧ t.target = { s.target with fifo := [], packetSent := true, irq := true, drained := [] }
        else t.evt = s.evt ∧ t.target = s.target
      | .rxPacket p =>
        if s.target.chipMode = .receive ∧ s.target.ready = true ∧ s.target.payloadReady = false
            ∧ p.length ≤ s.cfg.fifoWindow then
          t.evt = true
            ∧ t.target = { s.target with fifo := p, payloadReady := true, irq := true, drained := [] }
        else t.evt = s.evt ∧ t.target = s.target
      | .irq level =>
        t.evt = (s.evt || (level && !s.target.irq)) ∧ t.target = { s.target with irq := level }

/-! ### The FIFO (20_memory R53, 30_encoding R74, R75, 44_packet_io R171, R172) -/

/-- The burst frames complete when no call fails: `BWR` sends the address byte and every data byte in
order, `BRD` answers the `n` bytes received after the address exchange. That `BRD` takes any `n`, and that
a burst keeps no record of the mode where the FIFO is at the address of the mode register, is the model's
choice (logs 25 and 30). -/
def Obligations.BurstFramesComplete : Prop :=
  (∀ (s : State) (d : List Byte), s.cs = false → d.length ≤ s.cfg.maxSendLen →
      s.noFailure (d.length + 3) →
      ∃ t, exec (.bwr d) s = .next t ∧ t.result = .ok .unit
        ∧ s.issued t (frameActs (addressByte s.cfg true s.cfg.regFifo :: d))
        ∧ t.endedIn s.seq ∧ s.SameRecords t ∧ s.SameBuffers t ∧ s.SameMode t
        ∧ ((s.hazard || s.awaitReady) = true → t.hazard = true)
        ∧ (s.evt = true → t.evt = true)
        ∧ (s.target.sound s.cfg → s.OtherRegistersKept t [s.cfg.regFifo]))
    ∧ ∀ (s : State) (n : Nat), s.cs = false → s.noFailure (n + 3) →
      ∃ t r l, exec (.brd n) s = .next t ∧ t.result = .ok (.bytes l) ∧ l.length = n
        ∧ s.received t = r :: l
        ∧ s.issued t (frameActs (addressByte s.cfg false s.cfg.regFifo
            :: List.replicate n s.cfg.dummyByte))
        ∧ t.endedIn s.seq ∧ s.SameRecords t ∧ s.SameBuffers t ∧ s.SameMode t
        ∧ t.hazard = (s.hazard || s.awaitReady)
        ∧ (s.evt = true → t.evt = true)
        ∧ (s.target.sound s.cfg → s.OtherRegistersKept t [])

/-- `FifoWrite` and `FifoRead` complete when no call fails (44_packet_io R171, R172): the burst frame,
with the outgoing frame in `tx_buf`, the drained bytes in `rx_buf` (10_state R25); the bound on `n` is
the model's (log 25), and so is that a burst keeps no record of the mode (log 30). -/
def Obligations.FifoOperationsComplete : Prop :=
  (∀ (s : State) (d : List Byte), s.Inv → s.cs = false → d.length ≤ s.cfg.maxSendLen →
      s.noFailure (d.length + 3) →
      ∃ t, exec (.fifoWrite d) s = .next t ∧ t.result = .ok .unit
        ∧ s.issued t (frameActs (addressByte s.cfg true s.cfg.regFifo :: d))
        ∧ t.txBuf.take (d.length + 1) = addressByte s.cfg true s.cfg.regFifo :: d
        ∧ t.rxBuf = s.rxBuf
        ∧ t.endedIn s.seq ∧ s.SameRecords t ∧ s.SameMode t
        ∧ ((s.hazard || s.awaitReady) = true → t.hazard = true)
        ∧ (s.evt = true → t.evt = true)
        ∧ s.OtherRegistersKept t [s.cfg.regFifo])
    ∧ ∀ (s : State) (n : Nat), s.Inv → s.cs = false → n ≤ s.cfg.scratchSize →
      s.noFailure (n + 3) →
      ∃ t r l, exec (.fifoRead n) s = .next t ∧ t.result = .ok (.bytes l) ∧ l.length = n
        ∧ s.received t = r :: l ∧ t.rxBuf.take n = l ∧ t.txBuf = s.txBuf
        ∧ s.issued t (frameActs (addressByte s.cfg false s.cfg.regFifo
            :: List.replicate n s.cfg.dummyByte))
        ∧ t.endedIn s.seq ∧ s.SameRecords t ∧ s.SameMode t
        ∧ t.hazard = (s.hazard || s.awaitReady)
        ∧ (s.evt = true → t.evt = true)
        ∧ s.OtherRegistersKept t []

/-- A burst frame to the FIFO that fails at its k-th call (44_packet_io R171, R172; 60_exceptions
R219): the streaming stops there, the release is made, the error is returned and no bytes. In the target
(20_memory R66) no register changes that the frame did not address; a failed write leaves any FIFO within
the window; a failed read has removed at most as many bytes from the head as exchanges were attempted,
the address exchange among them (that the removal shows when the frame ends, log 14; that a burst keeps no
record of the mode also where the FIFO is at the address of the mode register, log 30). -/
def Obligations.FifoOperationsFail : Prop :=
  (∀ (s : State) (d : List Byte) (k : Nat) (e : PlatformError), s.cs = false →
      d.length ≤ s.cfg.maxSendLen → k < d.length + 3 → s.noFailure k → s.callErrorAt k = some e →
      ∃ t, exec (.fifoWrite d) s = .next t ∧ t.result = .error { kind := .transport e }
        ∧ s.issued t (frameActs ((addressByte s.cfg true s.cfg.regFifo :: d).take k))
        ∧ t.endedIn s.seq ∧ s.SameRecords t ∧ s.SameMode t ∧ t.rxBuf = s.rxBuf
        ∧ (s.target.sound s.cfg → s.OtherRegistersKept t [s.cfg.regFifo]
            ∧ t.target.fifo.length ≤ s.cfg.fifoWindow))
    ∧ ∀ (s : State) (n k : Nat) (e : PlatformError), s.cs = false → n ≤ s.cfg.scratchSize →
      k < n + 3 → s.noFailure k → s.callErrorAt k = some e →
      ∃ t, exec (.fifoRead n) s = .next t ∧ t.result = .error { kind := .transport e }
        ∧ s.issued t (frameActs ((addressByte s.cfg false s.cfg.regFifo
            :: List.replicate n s.cfg.dummyByte).take k))
        ∧ t.endedIn s.seq ∧ s.SameRecords t ∧ s.SameMode t ∧ t.txBuf = s.txBuf
        ∧ t.hazard = (s.hazard || s.awaitReady)
        ∧ (s.target.sound s.cfg → s.OtherRegistersKept t [s.cfg.regFifo])
        ∧ (s.cfg.target = .reference → s.hazard = false → s.awaitReady = false →
            s.target.sound s.cfg → s.undisturbed (n + 3) →
            ∃ j, j ≤ k ∧ j ≤ n + 1 ∧ t.target.fifo = s.target.fifo.drop j)

/-- First in, first out (20_memory R53, 10_state R32, R38, R39): on the reference target a burst write
appends its bytes in order, and a burst read takes them from the head in order. Where another named
register is at the FIFO's address, that the FIFO counts is the model's choice (log 30). -/
def Obligations.FifoFirstInFirstOut : Prop :=
  (∀ (s : State) (d : List Byte), s.cfg.target = .reference → s.hazard = false →
      s.awaitReady = false → s.cs = false → d.length ≤ s.cfg.maxSendLen →
      s.target.fifo.length + d.length ≤ s.cfg.fifoWindow →
      s.noFailure (d.length + 3) → s.undisturbed (d.length + 3) →
      ∃ t, exec (.bwr d) s = .next t ∧ t.target.fifo = s.target.fifo ++ d ∧ t.hazard = false)
    ∧ ∀ (s : State) (n : Nat), s.cfg.target = .reference → s.hazard = false →
      s.awaitReady = false → s.cs = false → n ≤ s.target.fifo.length →
      s.noFailure (n + 3) → s.undisturbed (n + 3) →
      ∃ t, exec (.brd n) s = .next t ∧ t.result = .ok (.bytes (s.target.fifo.take n))
        ∧ t.target.fifo = s.target.fifo.drop n ∧ t.hazard = false

/-! ### DeviceIdentity (41_device_identity) -/

/-- The version test is equality of the whole byte (30_encoding R80). -/
def Obligations.VersionTestIsEquality : Prop :=
  (∀ (c : Config) (b : Byte), versionOk c b = true ↔ b = c.expectedVersion)
    ∧ versionOk Config.default 0x24 = true
    ∧ ∀ b : Byte, b ≠ 0x24 → versionOk Config.default b = false

/-- `DetectDevice` (41_device_identity R120, R121): one read of the version register; `true` exactly
if the byte read is the expected one, `false` for any other byte and for any failing call; nothing is
written. -/
def Obligations.DetectDeviceCompares : Prop :=
  ∀ s : State, s.seq = .idle →
    (s.noFailure 4 →
      ∃ t r b, exec .detectDevice s = .next t
        ∧ t.result = .ok (.bool (decide (b = s.cfg.expectedVersion)))
        ∧ s.received t = [r, b]
        ∧ s.issued t (frameActs [addressByte s.cfg false s.cfg.regVersion, s.cfg.dummyByte])
        ∧ t.endedIn .idle ∧ s.SameRecords t ∧ s.SameBuffers t ∧ s.SameMode t
        ∧ t.hazard
            = (s.hazard || (s.awaitReady && decide (s.cfg.regVersion ≠ s.cfg.regIrqFlags1)))
        ∧ (s.evt = true → t.evt = true)
        ∧ (s.target.sound s.cfg → s.OtherRegistersKept t []))
      ∧ ∀ (k : Nat) (e : PlatformError), k < 4 → s.noFailure k → s.callErrorAt k = some e →
        ∃ t, exec .detectDevice s = .next t ∧ t.result = .ok (.bool false)
          ∧ s.issued t (frameActs ([addressByte s.cfg false s.cfg.regVersion, s.cfg.dummyByte].take k))
          ∧ t.endedIn .idle ∧ s.SameRecords t ∧ s.SameBuffers t ∧ s.SameMode t

/-! ### ModeController (42_mode_controller) -/

/-- `SetStandbyMode` (42_mode_controller R132): the Standby frame, no wait; where a call fails the
error is wrapped, with class and cause kept. -/
def Obligations.SetStandbyModeWraps : Prop :=
  ∀ s : State, s.seq = .idle →
    (s.noFailure 4 →
      ∃ t, exec .setStandbyMode s = .next t ∧ t.result = .ok .unit
        ∧ s.issued t (frameActs [addressByte s.cfg true s.cfg.regOpmode, s.cfg.modeStandby])
        ∧ t.modeCache = some .standby ∧ t.awaitReady = true
        ∧ (s.cfg.regFifo ≠ s.cfg.regOpmode → t.hazard = s.hazard)
        ∧ t.endedIn .idle ∧ s.SameRecords t ∧ s.SameBuffers t ∧ (s.evt = true → t.evt = true)
        ∧ (s.target.sound s.cfg → s.OtherRegistersKept t [s.cfg.regOpmode]))
      ∧ ∀ (k : Nat) (e : PlatformError), k < 4 → s.noFailure k → s.callErrorAt k = some e →
        ∃ t, exec .setStandbyMode s = .next t
          ∧ t.result = .error { kind := .transport e, context := [.setStandbyMode] }
          ∧ s.issued t (frameActs
              ([addressByte s.cfg true s.cfg.regOpmode, s.cfg.modeStandby].take k))
          ∧ t.modeCache = none ∧ t.awaitReady = true ∧ t.endedIn .idle

/-- `IsReady` when the ready bit is set at the first poll (42_mode_controller R133): it answers at
once, after one frame and no sleep, and readiness is no longer awaited. The bit is set where the
oracle target draws it so, on a loopback target that stores it, and on a reference target that is ready
(whose status register is not at the address of the FIFO or the version, log 30). -/
def Obligations.IsReadyAtFirstPoll : Prop :=
  ∀ s : State, s.seq = .idle → s.noFailure 5 →
    (s.cfg.target = .oracle ∧ (s.momentAt 3).byte.getLsbD s.cfg.modeReadyBit.val = true
      ∨ s.cfg.target = .loopback ∧ s.hazard = false
          ∧ (s.target.reg s.cfg.regIrqFlags1).getLsbD s.cfg.modeReadyBit.val = true
      ∨ s.cfg.target = .reference ∧ s.hazard = false ∧ s.target.ready = true
          ∧ s.cfg.regIrqFlags1 ∉ [s.cfg.regFifo, s.cfg.regVersion]) →
    ∃ t, exec .isReady s = .next t ∧ t.result = .ok .unit
      ∧ s.issued t (frameActs [addressByte s.cfg false s.cfg.regIrqFlags1, s.cfg.dummyByte])
      ∧ t.awaitReady = false ∧ t.modeCache = s.modeCache ∧ t.hazard = s.hazard
      ∧ t.endedIn .idle ∧ s.SameRecords t ∧ s.SameBuffers t ∧ (s.evt = true → t.evt = true)
      ∧ (s.target.sound s.cfg → s.OtherRegistersKept t [])

/-- `PollFlag` when the bit is set at the first poll (44_packet_io R175): one frame, no sleep, and
`await_ready` is not touched. -/
def Obligations.PollFlagAtFirstPoll : Prop :=
  ∀ (s : State) (reg : Addr) (bit : Fin 8) (timeout : Nat) (name : WaitName), s.cs = false →
    s.noFailure 5 → s.cfg.target = .oracle → (s.momentAt 3).byte.getLsbD bit.val = true →
    ∃ t, exec (.pollFlag reg bit timeout name) s = .next t ∧ t.result = .ok .unit
      ∧ s.issued t (frameActs [addressByte s.cfg false reg, s.cfg.dummyByte])
      ∧ t.endedIn s.seq ∧ s.SameRecords t ∧ s.SameBuffers t ∧ s.SameMode t
      ∧ t.hazard = (s.hazard || (s.awaitReady && decide (reg ≠ s.cfg.regIrqFlags1)))
      ∧ (s.evt = true → t.evt = true) ∧ t.target.version = s.target.version

/-- Every bounded poll ends, in one of three ways (42_mode_controller R133, R134; 44_packet_io R175;
60_exceptions R212, R218 item 2): after `n` polls with a sleep between any two, `n` at most
`floor(timeout / POLL_INTERVAL) + 2`, the bit was seen at the last poll and at none before; or it was
seen at none and more than the bound has passed; or the `n`-th poll failed: the polls before it were
whole and read the bit clear, its frame stops at its first failing call, the error is the one the platform
reported there (a poll takes six moments of the environment: four calls, `Now()` and the sleep), and no
call is made after the release. -/
def Obligations.PollsAreBounded : Prop :=
  ∀ (i : Instr) (reg : Addr) (bit : Fin 8) (timeout : Nat) (name : WaitName) (s t : State),
    (i = .pollFlag reg bit timeout name
      ∨ i = .isReady ∧ reg = s.cfg.regIrqFlags1 ∧ bit = s.cfg.modeReadyBit
          ∧ timeout = s.cfg.readyTimeout ∧ name = .modeReady) →
    exec i s = .next t →
    ∃ n, 1 ≤ n ∧ n ≤ timeout / s.cfg.pollInterval + 2 ∧
      ((t.result = .ok .unit ∧ s.issued t (pollActs s.cfg reg n) ∧ firstError (s.calls t) = none
          ∧ ∃ seen last, registerBytes (s.received t) = seen ++ [last] ∧ seen.length + 1 = n
              ∧ last.getLsbD bit.val = true ∧ ∀ b ∈ seen, b.getLsbD bit.val = false)
        ∨ (t.result = .error { kind := .timeout name } ∧ s.issued t (pollActs s.cfg reg n)
            ∧ firstError (s.calls t) = none ∧ (registerBytes (s.received t)).length = n
            ∧ (∀ b ∈ registerBytes (s.received t), b.getLsbD bit.val = false)
            ∧ s.clock + timeout < t.clock)
        ∨ ∃ e whole last, t.result = .error { kind := .transport e }
            ∧ t.trace = s.trace ++ (whole ++ last)
            ∧ whole.map BusCall.act ++ frameActs (readFrameBytes s.cfg reg 1) = pollActs s.cfg reg n
            ∧ firstError whole = none
            ∧ (registerBytes (whole.filterMap BusCall.received)).length + 1 = n
            ∧ (∀ b ∈ registerBytes (whole.filterMap BusCall.received), b.getLsbD bit.val = false)
            ∧ isFrameOf (readFrameBytes s.cfg reg 1) last ∧ firstError last = some e
            ∧ last.map BusCall.error
                = (List.range last.length).map fun k => s.callErrorAt (1 + 6 * (n - 1) + k))

/-- The fuel of the poll loop is enough (42_mode_controller R134): with the number of polls the rule
gives, or any greater, the loop does the same. -/
def Obligations.PollBoundSuffices : Prop :=
  ∀ (seqOf : Nat → SeqState) (reg : Addr) (bit : Fin 8) (timeout : Nat) (name : WaitName)
    (t0 k fuel : Nat) (s : State), t0 ≤ s.clock → timeout / s.cfg.pollInterval + 2 ≤ fuel →
    State.pollLoop seqOf reg bit timeout name t0 fuel k s
      = State.pollLoop seqOf reg bit timeout name t0 (timeout / s.cfg.pollInterval + 2) k s

/-- `Reset` (42_mode_controller R135; on the target, 70_reset_and_hazards R241): the line low and high
with the two waits, no bus call, the mode record cleared and nothing else; the reference target comes
up with the bytes of `RESET_IMAGE` where it gives them, FIFO empty, both flags false and the line
low. By the model's choice (log 16) the loopback target does so likewise, and the line is low on every
target, the oracle target and a target after a hazard among them. -/
def Obligations.ResetPulsesTheLine : Prop :=
  ∀ s : State, s.seq = .idle →
    ∃ t, exec .reset s = .next t ∧ t.result = .ok .unit
      ∧ s.issued t [.resetLevel false, .sleep s.cfg.resetLowTime, .resetLevel true,
          .sleep s.cfg.resetHoldTime]
      ∧ s.clock + (s.cfg.resetLowTime + s.cfg.resetHoldTime) ≤ t.clock
      ∧ t.rst = true ∧ t.modeCache = none ∧ t.awaitReady = false ∧ t.seq = .idle
      ∧ t.cs = s.cs ∧ t.hazard = s.hazard ∧ t.dropped = s.dropped ∧ t.cfg = s.cfg
      ∧ t.requests = s.requests ∧ s.SameBuffers t ∧ (s.evt = true → t.evt = true)
      ∧ t.target.version = s.target.version ∧ t.target.irq = false
      ∧ (s.cfg.target ≠ .oracle → s.hazard = false →
          t.target.fifo = [] ∧ t.target.packetSent = false ∧ t.target.payloadReady = false
          ∧ ∀ (a : Addr) (v : Byte), s.cfg.resetImage[a.toNat]? = some (some v) →
              t.target.reg a = v)

/-- `SetModeAndWait` (44_packet_io R170) completes: the mode frame, then the readiness wait, here seen
at the first poll: on the oracle target that draws the bit, or on a clean reference target with distinct
registers (log 30) that settles after the mode frame. Where the mode frame fails at its k-th call, its
error is the answer as it is, without a context, and no poll is made; where it does not fail, the answer
and the calls are those of the readiness wait after it. -/
def Obligations.SetModeAndWaitCompletes : Prop :=
  (∀ (m : Mode) (s : State), s.cs = false → s.noFailure 9 →
    (s.cfg.target = .oracle ∧ (s.momentAt 7).byte.getLsbD s.cfg.modeReadyBit.val = true
      ∨ s.cfg.target = .reference ∧ s.hazard = false ∧ s.target.sound s.cfg
          ∧ s.cfg.registers.Nodup ∧ TargetAct.settle ∈ (s.momentAt 4).acts) →
    ∃ t, exec (.setModeAndWait m) s = .next t ∧ t.result = .ok .unit
      ∧ s.issued t (modeFrameActs s.cfg m ++ pollActs s.cfg s.cfg.regIrqFlags1 1)
      ∧ t.modeCache = some m ∧ t.awaitReady = false ∧ t.hazard = s.hazard
      ∧ t.endedIn s.seq ∧ s.SameRecords t ∧ s.SameBuffers t ∧ (s.evt = true → t.evt = true)
      ∧ (s.target.sound s.cfg → s.OtherRegistersKept t [s.cfg.regOpmode]))
    ∧ (∀ (m : Mode) (s : State) (k : Nat) (e : PlatformError), s.cs = false → k < 4 →
        s.noFailure k → s.callErrorAt k = some e →
        ∃ t, exec (.setModeAndWait m) s = .next t ∧ t.result = .error { kind := .transport e }
          ∧ s.issued t (frameActs
              ([addressByte s.cfg true s.cfg.regOpmode, modeValue s.cfg m].take k))
          ∧ t.modeCache = none ∧ t.awaitReady = true ∧ t.endedIn s.seq ∧ s.SameRecords t
          ∧ s.SameBuffers t ∧ (s.target.sound s.cfg → s.OtherRegistersKept t [s.cfg.regOpmode]))
    ∧ ∀ (m : Mode) (s : State) (r : State × Option OpError), s.cs = false → s.noFailure 4 →
        r = (s.setMode m).1.isReady →
        ∃ t, exec (.setModeAndWait m) s = .next t ∧ t.result = resultOf r.2 ∧ t.trace = r.1.trace

/-! ### FrequencySynthesizer (43_frequency_synthesizer) -/

/-- `HzToFrf` (R151) of a 32-bit `hz`: the floor of the exact quotient, computed in unbounded naturals; the
reduced formula and the example of the defaults. As an instruction it completes and changes nothing but
the result. A larger operand is `FrequencyLaws`. -/
def Obligations.HzToFrfIsTheFloor : Prop :=
  (∀ (s : State) (hz : Hz), ∃ f,
      exec (.hzToFrf hz.toNat) s = .next { s with result := .ok (.natural f) }
        ∧ f * s.cfg.fxoscHz ≤ hz.toNat * 2 ^ s.cfg.frfShift
        ∧ hz.toNat * 2 ^ s.cfg.frfShift < (f + 1) * s.cfg.fxoscHz)
    ∧ (∀ hz : Hz, hzToFrf Config.default hz.toNat = hz.toNat * 256 / 15625)
    ∧ hzToFrf Config.default 915000000 = 0xE4C000

/-- `FrfToHz` (R154): the exact rational `frf × FXOSC_HZ / 2^FRF_SHIFT`, and the rule's examples; it
completes, with no bus activity. -/
def Obligations.FrfToHzIsExact : Prop :=
  (∀ (s : State) (f : Frf), ∃ q : Ratio,
      exec (.frfToHz f) s = .next { s with result := .ok (.rational q) }
        ∧ 0 < q.den ∧ q.num * 2 ^ s.cfg.frfShift = f.toNat * s.cfg.fxoscHz * q.den)
    ∧ (frfToHz Config.default 0xE4C000).num = 915000000 * (frfToHz Config.default 0xE4C000).den
    ∧ (frfToHz Config.default 1).num * 100000000 = 6103515625 * (frfToHz Config.default 1).den

/-- `FrfToHzInt` (R155): the ceiling, and at most `HZ_LIMIT` (where that is no whole number, `FRF_SHIFT`
above 24, at most its ceiling). The rule's other sentence, which it marks as derived, holds where a step is
at least 1 Hz: it is the least whole number of Hz that encodes to the value; that a number beyond 32 bits
encodes at all is the model's choice (log 32). The rule's examples. -/
def Obligations.FrfToHzIntIsTheCeiling : Prop :=
  (∀ (s : State) (f : Frf), ∃ n, exec (.frfToHzInt f) s = .next { s with result := .ok (.natural n) }
      ∧ f.toNat * s.cfg.fxoscHz ≤ n * 2 ^ s.cfg.frfShift
      ∧ (∀ m, f.toNat * s.cfg.fxoscHz ≤ m * 2 ^ s.cfg.frfShift → n ≤ m)
      ∧ (s.cfg.frfShift ≤ 24 → n ≤ s.cfg.fxoscHz * 2 ^ (24 - s.cfg.frfShift))
      ∧ n * 2 ^ s.cfg.frfShift < s.cfg.fxoscHz * 2 ^ 24 + 2 ^ s.cfg.frfShift
      ∧ (2 ^ s.cfg.frfShift ≤ s.cfg.fxoscHz →
          hzToFrf s.cfg n = f.toNat ∧ ∀ hz, hzToFrf s.cfg hz = f.toNat → n ≤ hz))
    ∧ Config.default.fxoscHz * 2 ^ (24 - Config.default.frfShift) < 2 ^ 32
    ∧ frfToHzInt Config.default 1 = 62 ∧ frfToHzInt Config.default 0x6C7AE1 = 433919983

/-- The triplet (30_encoding R78, 20_memory R52): most significant byte first, splitting and joining
undo each other; both complete as instructions. -/
def Obligations.TripletSplitsAndJoins : Prop :=
  (∀ (s : State) (f : Frf), ∃ m i l : Byte,
      exec (.frfSplit f) s = .next { s with result := .ok (.triplet m i l) }
        ∧ f.toNat = m.toNat * 65536 + i.toNat * 256 + l.toNat ∧ frfJoin m i l = f)
    ∧ ∀ (s : State) (m i l : Byte), ∃ f : Frf,
      exec (.frfJoin m i l) s = .next { s with result := .ok (.frf f) }
        ∧ f.toNat = m.toNat * 65536 + i.toNat * 256 + l.toNat ∧ frfSplit f = (m, i, l)

/-- The four laws of R156, for every accepted frequency: the error is in `[0, FSTEP)`; in whole Hz at
most `ceil(FSTEP) - 1`, 61 with the defaults; decoding then encoding loses nothing where a step is at
least 1 Hz, a premise that the rule does not state and the defaults meet; encoding is monotone. R151 gives
`HzToFrf` for `hz` of 32 bits. That it takes any natural number, as a function and as an instruction, is the
model's choice (log 32): the floor in every case, 24 bits wide exactly below `HZ_LIMIT`, and the laws with
it. -/
def Obligations.FrequencyLaws : Prop :=
  (∀ (s : State) (hz : Nat), ∃ f, exec (.hzToFrf hz) s = .next { s with result := .ok (.natural f) }
      ∧ f * s.cfg.fxoscHz ≤ hz * 2 ^ s.cfg.frfShift
      ∧ hz * 2 ^ s.cfg.frfShift < (f + 1) * s.cfg.fxoscHz)
    ∧ (∀ hz : Nat, hzToFrf Config.default hz = hz * 256 / 15625)
    ∧ (∀ (c : Config) (hz : Nat),
        hzToFrf c hz < 2 ^ 24 ↔ hz * 2 ^ c.frfShift < c.fxoscHz * 2 ^ 24)
    ∧ (∀ (c : Config) (hz : Nat), hz * 2 ^ c.frfShift < c.fxoscHz * 2 ^ 24 →
      hzToFrf c hz < 2 ^ 24
        ∧ hzToFrf c hz * c.fxoscHz ≤ hz * 2 ^ c.frfShift
        ∧ hz * 2 ^ c.frfShift < hzToFrf c hz * c.fxoscHz + c.fxoscHz
        ∧ frfToHzInt c (BitVec.ofNat 24 (hzToFrf c hz)) ≤ hz
        ∧ hz - frfToHzInt c (BitVec.ofNat 24 (hzToFrf c hz))
            ≤ (c.fxoscHz + (2 ^ c.frfShift - 1)) / 2 ^ c.frfShift - 1)
    ∧ (∀ hz : Nat, hz < 1024000000 →
        hz - frfToHzInt Config.default (BitVec.ofNat 24 (hzToFrf Config.default hz)) ≤ 61)
    ∧ (∀ (c : Config) (f : Frf), 2 ^ c.frfShift ≤ c.fxoscHz →
        hzToFrf c (frfToHzInt c f) = f.toNat)
    ∧ ∀ (c : Config) (hz1 hz2 : Nat), hz1 ≤ hz2 → hzToFrf c hz1 ≤ hzToFrf c hz2

/-- The range (R152), for any `FXOSC_HZ` and `FRF_SHIFT` (R159): `SetFrequency` refuses `HZ_LIMIT` and
above, in `Idle` by that name; `hz` of 32 bits encodes to 24 bits exactly below it (a wider one,
`FrequencyLaws`); the limit as the rule writes it, and the ends with the defaults. Which ground a refusal
names where two hold is the model's (log 19), so the first clause names none. -/
def Obligations.FrequencyRange : Prop :=
  (∀ (s : State) (hz : Hz), s.cfg.fxoscHz * 2 ^ 24 ≤ hz.toNat * 2 ^ s.cfg.frfShift →
      (∃ r, exec (.setFrequency hz) s = .refused r)
        ∧ (s.seq = .idle → exec (.setFrequency hz) s = .refused .frequencyRange))
    ∧ (∀ (c : Config) (hz : Hz),
        hzToFrf c hz.toNat < 2 ^ 24 ↔ hz.toNat * 2 ^ c.frfShift < c.fxoscHz * 2 ^ 24)
    ∧ (∀ (c : Config) (hz : Nat), c.frfShift ≤ 24 →
        (hz * 2 ^ c.frfShift < c.fxoscHz * 2 ^ 24 ↔ hz < c.fxoscHz * 2 ^ (24 - c.frfShift)))
    ∧ Config.default.fxoscHz * 2 ^ (24 - Config.default.frfShift) = 1024000000
    ∧ hzToFrf Config.default 1023999999 = 0xFFFFFF ∧ hzToFrf Config.default 0 = 0x000000

/-- `SetFrequency` (R157) with no failing call: exactly three single write frames, most significant
byte first, to the three registers; the mark of R158 and of 70_reset_and_hazards R246; the mode record
untouched. The named registers are distinct (of others, log 30). -/
def Obligations.SetFrequencyWritesTheTriplet : Prop :=
  ∀ (s : State) (hz : Hz), s.seq = .idle → s.cfg.registers.Nodup →
    hz.toNat * 2 ^ s.cfg.frfShift < s.cfg.fxoscHz * 2 ^ 24 → s.noFailure 12 →
    ∃ t, ∃ m i l : Byte, exec (.setFrequency hz) s = .next t ∧ t.result = .ok .unit
      ∧ m.toNat * 65536 + i.toNat * 256 + l.toNat = hzToFrf s.cfg hz.toNat
      ∧ s.issued t (frameActs [addressByte s.cfg true s.cfg.regFrfMsb, m]
          ++ frameActs [addressByte s.cfg true (s.cfg.regFrfMid), i]
          ++ frameActs [addressByte s.cfg true (s.cfg.regFrfLsb), l])
      ∧ t.endedIn .idle ∧ s.SameRecords t ∧ s.SameBuffers t ∧ s.SameMode t
      ∧ t.hazard = (s.hazard || s.awaitReady
          || (decide (s.modeCache ≠ some .standby) && decide (s.modeCache ≠ some .sleep)))
      ∧ (s.evt = true → t.evt = true)
      ∧ (s.target.sound s.cfg →
          s.OtherRegistersKept t [s.cfg.regFrfMsb, s.cfg.regFrfMid, s.cfg.regFrfLsb]
          ∧ (t.lawless = false → t.target.reg s.cfg.regFrfMsb = m
              ∧ t.target.reg (s.cfg.regFrfMid) = i
              ∧ t.target.reg (s.cfg.regFrfLsb) = l))

/-- `SetFrequency` whatever fails (R157, R158; 10_state R28): it returns nothing; the calls are those of
three frames, one for each byte in order, each whole or stopped at its first failing call; what the calls
returned is what the platform reported at them; and `dropped` grows by the first error of each frame that
had one, in that order. The mode record is untouched (the three registers being other than the mode
register), and the hazard of R158 marks the call outside Standby and Sleep. -/
def Obligations.SetFrequencyDropsErrors : Prop :=
  ∀ (s : State) (hz : Hz), s.seq = .idle →
    hz.toNat * 2 ^ s.cfg.frfShift < s.cfg.fxoscHz * 2 ^ 24 →
    ∃ t l1 l2 l3, exec (.setFrequency hz) s = .next t ∧ t.result = .ok .unit
      ∧ t.trace = s.trace ++ (l1 ++ l2 ++ l3)
      ∧ isFrameOf [addressByte s.cfg true s.cfg.regFrfMsb,
          frfMsb (BitVec.ofNat 24 (hzToFrf s.cfg hz.toNat))] l1
      ∧ isFrameOf [addressByte s.cfg true s.cfg.regFrfMid,
          frfMid (BitVec.ofNat 24 (hzToFrf s.cfg hz.toNat))] l2
      ∧ isFrameOf [addressByte s.cfg true s.cfg.regFrfLsb,
          frfLsb (BitVec.ofNat 24 (hzToFrf s.cfg hz.toNat))] l3
      ∧ (l1 ++ l2 ++ l3).map BusCall.error
          = (List.range (l1 ++ l2 ++ l3).length).map s.callErrorAt
      ∧ t.dropped = s.dropped ++ ([l1, l2, l3].filterMap firstError).map
          (fun e => ({ kind := .transport e } : OpError))
      ∧ t.endedIn .idle ∧ s.SameBuffers t
      ∧ (s.cfg.regOpmode ∉ [s.cfg.regFrfMsb, s.cfg.regFrfMid, s.cfg.regFrfLsb] → s.SameMode t)
      ∧ (s.modeCache ≠ some .standby → s.modeCache ≠ some .sleep → t.hazard = true)

/-! ### PacketIO (44_packet_io) -/

/-- The two completion waits complete, in each of the three designs (R173, R174): a dwell sleeps its
time and cannot fail; a poll that sees its bit at once makes one frame; a pending event is taken
without any call and in no time. In every case a poll is `PollFlag` of `REG_IRQFLAGS2`, and an event wait
is `AwaitEvent`, with the bit, the bound and the name of the wait. That a dwell and an event wait issued
alone run while a frame is open too is the model's choice (log 24). -/
def Obligations.CompletionWaitsComplete : Prop :=
  ∀ (i : Instr) (s : State) (dwell : Nat) (bit : Fin 8) (timeout : Nat) (name : WaitName),
    (i = .waitTxDone ∧ dwell = s.cfg.txDwell ∧ bit = s.cfg.packetSentBit
        ∧ timeout = s.cfg.txTimeout ∧ name = .packetSent
      ∨ i = .waitPayloadReady ∧ dwell = s.cfg.rxDwell ∧ bit = s.cfg.payloadReadyBit
        ∧ timeout = s.cfg.rxTimeout ∧ name = .payloadReady) →
    (s.cfg.waitKind = .dwell →
      ∃ t, exec i s = .next t ∧ t.result = .ok .unit ∧ s.issued t [.sleep dwell]
        ∧ s.clock + dwell ≤ t.clock ∧ t.seq = s.seq ∧ t.cs = s.cs ∧ s.SameRecords t
        ∧ s.SameBuffers t ∧ s.SameMode t ∧ t.hazard = s.hazard ∧ (s.evt = true → t.evt = true)
        ∧ (s.target.sound s.cfg → s.OtherRegistersKept t []))
      ∧ (s.cfg.waitKind = .event → s.evt = true →
        ∃ t, exec i s = .next t ∧ t.result = .ok .unit ∧ t.evt = false ∧ s.issued t []
          ∧ t.clock = s.clock ∧ t.target = s.target ∧ t.seq = s.seq ∧ t.cs = s.cs
          ∧ s.SameRecords t ∧ s.SameBuffers t ∧ s.SameMode t ∧ t.hazard = s.hazard)
      ∧ (s.cfg.waitKind = .pollStatus → s.cs = false → s.noFailure 5 → s.cfg.target = .oracle →
        (s.momentAt 3).byte.getLsbD bit.val = true →
        ∃ t, exec i s = .next t ∧ t.result = .ok .unit
          ∧ s.issued t (pollActs s.cfg s.cfg.regIrqFlags2 1) ∧ t.endedIn s.seq
          ∧ s.SameRecords t ∧ s.SameBuffers t ∧ s.SameMode t
          ∧ t.hazard
              = (s.hazard || (s.awaitReady && decide (s.cfg.regIrqFlags2 ≠ s.cfg.regIrqFlags1)))
          ∧ (s.evt = true → t.evt = true) ∧ t.target.version = s.target.version)
      ∧ (s.cfg.waitKind = .event → exec i s = exec (.awaitEvent timeout name) s)
      ∧ (s.cfg.waitKind = .pollStatus → s.cs = false →
          exec i s = exec (.pollFlag s.cfg.regIrqFlags2 bit timeout name) s)

/-- `Send` completes (R176), in each design of the wait, on the oracle target that answers every poll
with all bits set: the eight parts of its traffic in order, the five steps, Standby as the last mode
written and readiness seen. -/
def Obligations.SendCompletes : Prop :=
  ∀ (s : State) (d : List Byte), s.Inv → s.seq = .idle → s.cfg.target = .oracle →
    d.length ≤ s.cfg.maxSendLen → s.noFailure (d.length + 35) →
    (∀ k, k < d.length + 35 → (s.momentAt k).byte = 0xFF) →
    (s.cfg.waitKind = .event → s.evt = true) →
    ∃ t, exec (.send d) s = .next t ∧ t.result = .ok .unit
      ∧ s.issued t (modeFrameActs s.cfg .standby ++ pollActs s.cfg s.cfg.regIrqFlags1 1
          ++ frameActs (writeFrameBytes s.cfg s.cfg.regFifo d)
          ++ modeFrameActs s.cfg .transmit ++ pollActs s.cfg s.cfg.regIrqFlags1 1
          ++ completionActs s.cfg s.cfg.txDwell 1
          ++ modeFrameActs s.cfg .standby ++ pollActs s.cfg s.cfg.regIrqFlags1 1)
      ∧ s.stepsTaken t = [.send1, .send2, .send3, .send4, .send5]
      ∧ t.modeCache = some .standby ∧ t.awaitReady = false
      ∧ t.hazard = s.hazard ∧ t.endedIn .idle ∧ s.SameRecords t
      ∧ t.txBuf.take (d.length + 1) = writeFrameBytes s.cfg s.cfg.regFifo d ∧ t.rxBuf = s.rxBuf
      ∧ (s.cfg.waitKind ≠ .event → s.evt = true → t.evt = true)
      ∧ t.target.version = s.target.version

/-- Whenever `Send` answers `ok`, on whatever target, its traffic is the eight parts of R176 in order,
with some number of polls in each wait, and the device was left in Standby with readiness seen. -/
def Obligations.SendOkTraffic : Prop :=
  ∀ (s t : State) (d : List Byte), exec (.send d) s = .next t → t.result = .ok .unit →
    ∃ n1 n2 n3 n4, 1 ≤ n1 ∧ 1 ≤ n2 ∧ 1 ≤ n3 ∧ 1 ≤ n4
      ∧ s.issued t (modeFrameActs s.cfg .standby ++ pollActs s.cfg s.cfg.regIrqFlags1 n1
          ++ frameActs (writeFrameBytes s.cfg s.cfg.regFifo d)
          ++ modeFrameActs s.cfg .transmit ++ pollActs s.cfg s.cfg.regIrqFlags1 n2
          ++ completionActs s.cfg s.cfg.txDwell n3
          ++ modeFrameActs s.cfg .standby ++ pollActs s.cfg s.cfg.regIrqFlags1 n4)
      ∧ t.modeCache = some .standby ∧ t.awaitReady = false

/-- The Send laws (R176, R177), for every run that is not refused, whatever fails. The steps taken are
step 1, steps 1 and 2, or all five, and the error of the earliest failing step is the one returned
(60_exceptions R218 item 4): where step 1 or step 2 returns one, no call is made after it; once step 3 is
reached step 5 is taken whatever step 3 or 4 returned, and its result counts only if steps 1 to 4 succeeded.
The last mode recorded is Standby, and unknown only where a Standby frame itself failed, which the host is
told (that a FIFO frame keeps no record of the mode also where the two share an address is log 30).
Chip-select is released, and the number of frames is bounded. Where the FIFO and the mode register are not
at one address (else the frames to the two cannot be told apart): every whole frame to the
mode register carries Standby or Transmit, and Transmit is the last of them only where the mode is unknown;
the Transmit frame is issued at most once and only after a FIFO frame that carried the whole data and
returned no error; no more than the data goes into the FIFO. -/
def Obligations.SendLaws : Prop :=
  ∀ (s t : State) (d : List Byte), exec (.send d) s = .next t →
    (s.stepsTaken t = [.send1] ∨ s.stepsTaken t = [.send1, .send2]
        ∨ s.stepsTaken t = [.send1, .send2, .send3, .send4, .send5])
      ∧ (∀ r1 r2 r3 r4 r5 : State × Option OpError,
          r1 = (s.setSeq .send1).setModeAndWait .standby →
          r2 = (r1.1.setSeq .send2).fifoWrite d →
          r3 = (r2.1.setSeq .send3).setModeAndWait .transmit →
          r4 = (if r3.2 = none then (r3.1.setSeq .send4).waitTxDone
            else (r3.1.setSeq .send4, none)) →
          r5 = (r4.1.setSeq .send5).setModeAndWait .standby →
          (∀ e, r1.2 = some e → t.result = .error e ∧ t.trace = r1.1.trace)
            ∧ (∀ e, r1.2 = none → r2.2 = some e → t.result = .error e ∧ t.trace = r2.1.trace)
            ∧ (r1.2 = none → r2.2 = none → t.trace = r5.1.trace
                ∧ (∀ e, r3.2 = some e → t.result = .error e)
                ∧ (∀ e, r3.2 = none → r4.2 = some e → t.result = .error e)
                ∧ (∀ e, r3.2 = none → r4.2 = none → r5.2 = some e → t.result = .error e)
                ∧ (r3.2 = none → r4.2 = none → r5.2 = none → t.result = .ok .unit)))
      ∧ (t.modeCache = some .standby ∨ t.modeCache = none ∧ ∃ e, t.result = .error e)
      ∧ t.endedIn .idle
      ∧ (s.framesIssued t).length
          ≤ 4 + 3 * (s.cfg.readyTimeout / s.cfg.pollInterval + 2)
            + (s.cfg.txTimeout / s.cfg.pollInterval + 2)
      ∧ (s.cfg.regFifo ≠ s.cfg.regOpmode →
        (∀ f ∈ s.framesIssued t, f.head? = some (addressByte s.cfg true s.cfg.regOpmode) →
          f = [addressByte s.cfg true s.cfg.regOpmode]
            ∨ f = [addressByte s.cfg true s.cfg.regOpmode, s.cfg.modeStandby]
            ∨ f = [addressByte s.cfg true s.cfg.regOpmode, s.cfg.modeTx])
        ∧ (((s.framesIssued t).filter fun f =>
              decide (f.head? = some (addressByte s.cfg true s.cfg.regOpmode)
                ∧ f.length = 2)).getLast?
            = some [addressByte s.cfg true s.cfg.regOpmode, s.cfg.modeTx] → t.modeCache = none)
        ∧ (s.framesIssued t).count [addressByte s.cfg true s.cfg.regOpmode, s.cfg.modeTx] ≤ 1
        ∧ (∀ before f after, s.callFrames t = before ++ f :: after →
            bytesSent f = [addressByte s.cfg true s.cfg.regOpmode, s.cfg.modeTx] →
            ∃ g ∈ before, bytesSent g = writeFrameBytes s.cfg s.cfg.regFifo d
              ∧ firstError g = none)
        ∧ ∀ f ∈ s.framesIssued t, f.head? = some (addressByte s.cfg true s.cfg.regFifo) →
            f <+: writeFrameBytes s.cfg s.cfg.regFifo d)

/-- `Receive` completes (R178), in each design of the wait, on the oracle target that answers every
exchange with all bits set: the four parts of its traffic, and exactly `FIFO_WINDOW` bytes. -/
def Obligations.ReceiveCompletes : Prop :=
  ∀ s : State, s.Inv → s.seq = .idle → s.cfg.target = .oracle →
    s.noFailure (s.cfg.fifoWindow + 17) →
    (∀ k, k < s.cfg.fifoWindow + 17 → (s.momentAt k).byte = 0xFF) →
    (s.cfg.waitKind = .event → s.evt = true) →
    ∃ t l, exec .receive s = .next t ∧ t.result = .ok (.bytes l) ∧ l.length = s.cfg.fifoWindow
      ∧ s.issued t (modeFrameActs s.cfg .receive ++ pollActs s.cfg s.cfg.regIrqFlags1 1
          ++ completionActs s.cfg s.cfg.rxDwell 1
          ++ frameActs (readFrameBytes s.cfg s.cfg.regFifo s.cfg.fifoWindow))
      ∧ s.stepsTaken t = [.recv1, .recv2, .recv3, .recv4]
      ∧ t.rxBuf.take s.cfg.fifoWindow = l ∧ t.txBuf = s.txBuf
      ∧ t.modeCache = some .receive ∧ t.awaitReady = false
      ∧ t.hazard = s.hazard ∧ t.endedIn .idle ∧ s.SameRecords t
      ∧ (s.cfg.waitKind ≠ .event → s.evt = true → t.evt = true)
      ∧ t.target.version = s.target.version

/-- The Receive laws (R178, R179), for every run that is not refused, whatever fails. An error and no
bytes, or exactly `FIFO_WINDOW` bytes, those received last, and then the traffic is the four parts of
R178. The drain frame is issued only after the wait returned ok, and then once: where the mode change or
the wait returns an error, that error is the result and no call is made after it; where both return ok,
what follows is the drain frame, whole or stopped at its first failing call, whose error is the result.
Exactly one frame is opened to write the mode register, the first of all, carrying Receive, which stays
the last mode written. Chip-select is released, and the number of frames is bounded. -/
def Obligations.ReceiveLaws : Prop :=
  ∀ s t : State, exec .receive s = .next t →
    ((∃ e, t.result = .error e)
        ∨ ∃ l, ∃ n1 n2, t.result = .ok (.bytes l) ∧ l.length = s.cfg.fifoWindow
          ∧ l <:+ s.received t ∧ 1 ≤ n1 ∧ 1 ≤ n2
          ∧ s.issued t (modeFrameActs s.cfg .receive ++ pollActs s.cfg s.cfg.regIrqFlags1 n1
              ++ completionActs s.cfg s.cfg.rxDwell n2
              ++ frameActs (readFrameBytes s.cfg s.cfg.regFifo s.cfg.fifoWindow)))
      ∧ (∀ r1 r2, r1 = (s.setSeq .recv1).setModeAndWait .receive →
          r2 = (r1.1.setSeq .recv2).waitPayloadReady →
          (∀ e, r1.2 = some e → t.result = .error e ∧ t.trace = r1.1.trace)
            ∧ (∀ e, r1.2 = none → r2.2 = some e → t.result = .error e ∧ t.trace = r2.1.trace)
            ∧ (r1.2 = none → r2.2 = none → ∃ l, t.trace = r2.1.trace ++ l
                ∧ isFrameOf (readFrameBytes s.cfg s.cfg.regFifo s.cfg.fifoWindow) l
                ∧ (firstError l = none → ∃ bs, t.result = .ok (.bytes bs))
                ∧ ∀ e, firstError l = some e → t.result = .error { kind := .transport e }))
      ∧ (s.cfg.regFifo ∉ [s.cfg.regIrqFlags1, s.cfg.regIrqFlags2] →
          (s.framesIssued t).countP (fun f =>
            decide (f.head? = some (addressByte s.cfg false s.cfg.regFifo))) ≤ 1)
      ∧ (∃ first rest, s.framesIssued t = first :: rest
          ∧ first <+: [addressByte s.cfg true s.cfg.regOpmode, s.cfg.modeRx]
          ∧ ∀ f ∈ rest, f.head? ≠ some (addressByte s.cfg true s.cfg.regOpmode))
      ∧ (t.modeCache = some .receive ∨ t.modeCache = none ∧ ∃ e, t.result = .error e)
      ∧ t.endedIn .idle
      ∧ (s.framesIssued t).length
          ≤ 2 + (s.cfg.readyTimeout / s.cfg.pollInterval + 2)
            + (s.cfg.rxTimeout / s.cfg.pollInterval + 2)

/-! ### EventChannel (45_event_channel) and creation -/

/-- `Handler` (R201): the slot is full afterwards, whether or not it was empty, and nothing else of the
machine changes. Only a change of the line from low to high is an edge and runs it; a line that stays
high, and a falling edge, leave the slot as it is; edges are not counted. The instruction stands for an
edge, and the handler runs with its edge, by the model's reading (log 10). -/
def Obligations.HandlerFillsTheSlot : Prop :=
  (∀ s : State, exec .handler s = .next { s with evt := true })
    ∧ ∀ w : World,
      (w.target.irq = false → (w.driveIrq true).evt = true)
        ∧ (w.target.irq = true → (w.driveIrq true).evt = w.evt)
        ∧ (w.driveIrq false).evt = w.evt
        ∧ ∀ level, (w.driveIrq level).target = { w.target with irq := level }

/-- `AwaitEvent` (R202): a pending event is taken at once and in no time; otherwise the wait ends with
the slot emptied, or with the named timeout after more than the bound; no call is made. With the slot
empty and no rising edge during the wait it times out, whatever else the other agents do, so that ok means
an edge since the slot was last emptied (R204); with an edge within the bound it is ok. The wait is
summarised in two moments of the environment (log 11), the handler runs with its edge (log 10), and that
it runs while a frame is open too is the model's choice (log 24). -/
def Obligations.AwaitEventEnds : Prop :=
  ∀ (s : State) (timeout : Nat) (name : WaitName),
    ∃ t, exec (.awaitEvent timeout name) s = .next t ∧ s.issued t [] ∧ t.seq = s.seq
      ∧ t.cs = s.cs ∧ s.SameRecords t ∧ s.SameBuffers t ∧ s.SameMode t ∧ t.hazard = s.hazard
      ∧ (s.evt = true → t.result = .ok .unit ∧ t.evt = false ∧ t.clock = s.clock
          ∧ t.target = s.target)
      ∧ (t.result = .ok .unit ∧ t.evt = false
          ∨ t.result = .error { kind := .timeout name } ∧ s.clock + timeout < t.clock)
      ∧ (s.evt = false → s.noRisingEdge 2 →
          t.result = .error { kind := .timeout name } ∧ t.evt = false)
      ∧ (s.evt = false → ¬ s.noRisingEdge 2 → (s.momentAt 1).delay ≤ timeout →
          t.result = .ok .unit ∧ t.evt = false)
      ∧ (s.target.sound s.cfg → s.OtherRegistersKept t [])

/-- Creation (10_state R44, 45_event_channel R203, 60_exceptions R214): the power-on values over any
target; where the registration of the handler fails, no controller. That creation is a function of its
own, with the fault `setupError`, is the model's reading (log 21). -/
def Obligations.CreationValues : Prop :=
  (∀ (c : Config) (chip : Target), ∃ t, create c chip none = .next t ∧ t.cfg = c
      ∧ t.cs = false ∧ t.rst = true ∧ t.modeCache = none ∧ t.awaitReady = false
      ∧ t.evt = false ∧ t.seq = .idle ∧ t.dropped = [] ∧ t.hazard = false ∧ t.target = chip
      ∧ t.txBuf.length = c.scratchSize ∧ t.rxBuf.length = c.scratchSize)
    ∧ ∀ (c : Config) (chip : Target) (e : PlatformError),
        create c chip (some e) = .fault (.setupError e)
end

