-- ==== Sys2Proof/Laws/State.lean ====
section
/-!
SUPPORT. One lemma per field per elementary update of the state, true by `rfl`, so that no later
proof unfolds a record update.
-/

namespace Sys2Proof.Machine

/-! ### `setSeq` -/

@[simp] theorem State.setSeq_cfg (q : SeqState) (s : State) : (s.setSeq q).cfg = s.cfg := rfl
@[simp] theorem State.setSeq_cs (q : SeqState) (s : State) : (s.setSeq q).cs = s.cs := rfl
@[simp] theorem State.setSeq_rst (q : SeqState) (s : State) : (s.setSeq q).rst = s.rst := rfl
@[simp] theorem State.setSeq_modeCache (q : SeqState) (s : State) : (s.setSeq q).modeCache = s.modeCache := rfl
@[simp] theorem State.setSeq_awaitReady (q : SeqState) (s : State) : (s.setSeq q).awaitReady = s.awaitReady := rfl
@[simp] theorem State.setSeq_txBuf (q : SeqState) (s : State) : (s.setSeq q).txBuf = s.txBuf := rfl
@[simp] theorem State.setSeq_rxBuf (q : SeqState) (s : State) : (s.setSeq q).rxBuf = s.rxBuf := rfl
@[simp] theorem State.setSeq_evt (q : SeqState) (s : State) : (s.setSeq q).evt = s.evt := rfl
@[simp] theorem State.setSeq_seq (q : SeqState) (s : State) : (s.setSeq q).seq = q := rfl
@[simp] theorem State.setSeq_dropped (q : SeqState) (s : State) : (s.setSeq q).dropped = s.dropped := rfl
@[simp] theorem State.setSeq_hazard (q : SeqState) (s : State) : (s.setSeq q).hazard = s.hazard := rfl
@[simp] theorem State.setSeq_target (q : SeqState) (s : State) : (s.setSeq q).target = s.target := rfl
@[simp] theorem State.setSeq_opener (q : SeqState) (s : State) : (s.setSeq q).opener = s.opener := rfl
@[simp] theorem State.setSeq_frameErr (q : SeqState) (s : State) : (s.setSeq q).frameErr = s.frameErr := rfl
@[simp] theorem State.setSeq_frame (q : SeqState) (s : State) : (s.setSeq q).frame = s.frame := rfl
@[simp] theorem State.setSeq_clock (q : SeqState) (s : State) : (s.setSeq q).clock = s.clock := rfl
@[simp] theorem State.setSeq_tick (q : SeqState) (s : State) : (s.setSeq q).tick = s.tick := rfl
@[simp] theorem State.setSeq_script (q : SeqState) (s : State) : (s.setSeq q).script = s.script := rfl
@[simp] theorem State.setSeq_requests (q : SeqState) (s : State) : (s.setSeq q).requests = s.requests := rfl
@[simp] theorem State.setSeq_result (q : SeqState) (s : State) : (s.setSeq q).result = s.result := rfl
@[simp] theorem State.setSeq_trace (q : SeqState) (s : State) : (s.setSeq q).trace = s.trace := rfl
@[simp] theorem State.setSeq_path (q : SeqState) (s : State) : (s.setSeq q).path = s.path ++ [q] := rfl

/-! ### `log` -/

@[simp] theorem State.log_cfg (c : BusCall) (s : State) : (s.log c).cfg = s.cfg := rfl
@[simp] theorem State.log_cs (c : BusCall) (s : State) : (s.log c).cs = s.cs := rfl
@[simp] theorem State.log_rst (c : BusCall) (s : State) : (s.log c).rst = s.rst := rfl
@[simp] theorem State.log_modeCache (c : BusCall) (s : State) : (s.log c).modeCache = s.modeCache := rfl
@[simp] theorem State.log_awaitReady (c : BusCall) (s : State) : (s.log c).awaitReady = s.awaitReady := rfl
@[simp] theorem State.log_txBuf (c : BusCall) (s : State) : (s.log c).txBuf = s.txBuf := rfl
@[simp] theorem State.log_rxBuf (c : BusCall) (s : State) : (s.log c).rxBuf = s.rxBuf := rfl
@[simp] theorem State.log_evt (c : BusCall) (s : State) : (s.log c).evt = s.evt := rfl
@[simp] theorem State.log_seq (c : BusCall) (s : State) : (s.log c).seq = s.seq := rfl
@[simp] theorem State.log_dropped (c : BusCall) (s : State) : (s.log c).dropped = s.dropped := rfl
@[simp] theorem State.log_hazard (c : BusCall) (s : State) : (s.log c).hazard = s.hazard := rfl
@[simp] theorem State.log_target (c : BusCall) (s : State) : (s.log c).target = s.target := rfl
@[simp] theorem State.log_opener (c : BusCall) (s : State) : (s.log c).opener = s.opener := rfl
@[simp] theorem State.log_frameErr (c : BusCall) (s : State) : (s.log c).frameErr = s.frameErr := rfl
@[simp] theorem State.log_frame (c : BusCall) (s : State) : (s.log c).frame = s.frame := rfl
@[simp] theorem State.log_clock (c : BusCall) (s : State) : (s.log c).clock = s.clock := rfl
@[simp] theorem State.log_tick (c : BusCall) (s : State) : (s.log c).tick = s.tick := rfl
@[simp] theorem State.log_script (c : BusCall) (s : State) : (s.log c).script = s.script := rfl
@[simp] theorem State.log_requests (c : BusCall) (s : State) : (s.log c).requests = s.requests := rfl
@[simp] theorem State.log_result (c : BusCall) (s : State) : (s.log c).result = s.result := rfl
@[simp] theorem State.log_trace (c : BusCall) (s : State) : (s.log c).trace = s.trace ++ [c] := rfl
@[simp] theorem State.log_path (c : BusCall) (s : State) : (s.log c).path = s.path := rfl

/-! ### `elapse` -/

@[simp] theorem State.elapse_cfg (s : State) : (s.elapse).cfg = s.cfg := rfl
@[simp] theorem State.elapse_cs (s : State) : (s.elapse).cs = s.cs := rfl
@[simp] theorem State.elapse_rst (s : State) : (s.elapse).rst = s.rst := rfl
@[simp] theorem State.elapse_modeCache (s : State) : (s.elapse).modeCache = s.modeCache := rfl
@[simp] theorem State.elapse_awaitReady (s : State) : (s.elapse).awaitReady = s.awaitReady := rfl
@[simp] theorem State.elapse_txBuf (s : State) : (s.elapse).txBuf = s.txBuf := rfl
@[simp] theorem State.elapse_rxBuf (s : State) : (s.elapse).rxBuf = s.rxBuf := rfl
@[simp] theorem State.elapse_evt (s : State) : (s.elapse).evt = s.worldAfter.evt := rfl
@[simp] theorem State.elapse_seq (s : State) : (s.elapse).seq = s.seq := rfl
@[simp] theorem State.elapse_dropped (s : State) : (s.elapse).dropped = s.dropped := rfl
@[simp] theorem State.elapse_hazard (s : State) : (s.elapse).hazard = s.hazard := rfl
@[simp] theorem State.elapse_opener (s : State) : (s.elapse).opener = s.opener := rfl
@[simp] theorem State.elapse_frameErr (s : State) : (s.elapse).frameErr = s.frameErr := rfl
@[simp] theorem State.elapse_frame (s : State) : (s.elapse).frame = s.frame := rfl
@[simp] theorem State.elapse_clock (s : State) : (s.elapse).clock = s.clock + s.moment.delay := rfl
@[simp] theorem State.elapse_tick (s : State) : (s.elapse).tick = s.tick + 1 := rfl
@[simp] theorem State.elapse_script (s : State) : (s.elapse).script = s.script := rfl
@[simp] theorem State.elapse_requests (s : State) : (s.elapse).requests = s.requests := rfl
@[simp] theorem State.elapse_result (s : State) : (s.elapse).result = s.result := rfl
@[simp] theorem State.elapse_trace (s : State) : (s.elapse).trace = s.trace := rfl
@[simp] theorem State.elapse_path (s : State) : (s.elapse).path = s.path := rfl

/-! ### `sleep` -/

@[simp] theorem State.sleep_cfg (d : Nat) (s : State) : (s.sleep d).cfg = s.cfg := rfl
@[simp] theorem State.sleep_cs (d : Nat) (s : State) : (s.sleep d).cs = s.cs := rfl
@[simp] theorem State.sleep_rst (d : Nat) (s : State) : (s.sleep d).rst = s.rst := rfl
@[simp] theorem State.sleep_modeCache (d : Nat) (s : State) : (s.sleep d).modeCache = s.modeCache := rfl
@[simp] theorem State.sleep_awaitReady (d : Nat) (s : State) : (s.sleep d).awaitReady = s.awaitReady := rfl
@[simp] theorem State.sleep_txBuf (d : Nat) (s : State) : (s.sleep d).txBuf = s.txBuf := rfl
@[simp] theorem State.sleep_rxBuf (d : Nat) (s : State) : (s.sleep d).rxBuf = s.rxBuf := rfl
@[simp] theorem State.sleep_evt (d : Nat) (s : State) : (s.sleep d).evt = s.worldAfter.evt := rfl
@[simp] theorem State.sleep_seq (d : Nat) (s : State) : (s.sleep d).seq = s.seq := rfl
@[simp] theorem State.sleep_dropped (d : Nat) (s : State) : (s.sleep d).dropped = s.dropped := rfl
@[simp] theorem State.sleep_hazard (d : Nat) (s : State) : (s.sleep d).hazard = s.hazard := rfl
@[simp] theorem State.sleep_target (d : Nat) (s : State) : (s.sleep d).target = s.elapse.target := rfl
@[simp] theorem State.sleep_opener (d : Nat) (s : State) : (s.sleep d).opener = s.opener := rfl
@[simp] theorem State.sleep_frameErr (d : Nat) (s : State) : (s.sleep d).frameErr = s.frameErr := rfl
@[simp] theorem State.sleep_frame (d : Nat) (s : State) : (s.sleep d).frame = s.frame := rfl
@[simp] theorem State.sleep_clock (d : Nat) (s : State) : (s.sleep d).clock = s.clock + s.moment.delay + d := rfl
@[simp] theorem State.sleep_tick (d : Nat) (s : State) : (s.sleep d).tick = s.tick + 1 := rfl
@[simp] theorem State.sleep_script (d : Nat) (s : State) : (s.sleep d).script = s.script := rfl
@[simp] theorem State.sleep_requests (d : Nat) (s : State) : (s.sleep d).requests = s.requests := rfl
@[simp] theorem State.sleep_result (d : Nat) (s : State) : (s.sleep d).result = s.result := rfl
@[simp] theorem State.sleep_trace (d : Nat) (s : State) : (s.sleep d).trace = s.trace ++ [.sleep d] := rfl
@[simp] theorem State.sleep_path (d : Nat) (s : State) : (s.sleep d).path = s.path := rfl

/-! ### `markHazard` -/

@[simp] theorem State.markHazard_cfg (p : Bool) (s : State) : (s.markHazard p).cfg = s.cfg := rfl
@[simp] theorem State.markHazard_cs (p : Bool) (s : State) : (s.markHazard p).cs = s.cs := rfl
@[simp] theorem State.markHazard_rst (p : Bool) (s : State) : (s.markHazard p).rst = s.rst := rfl
@[simp] theorem State.markHazard_modeCache (p : Bool) (s : State) : (s.markHazard p).modeCache = s.modeCache := rfl
@[simp] theorem State.markHazard_awaitReady (p : Bool) (s : State) : (s.markHazard p).awaitReady = s.awaitReady := rfl
@[simp] theorem State.markHazard_txBuf (p : Bool) (s : State) : (s.markHazard p).txBuf = s.txBuf := rfl
@[simp] theorem State.markHazard_rxBuf (p : Bool) (s : State) : (s.markHazard p).rxBuf = s.rxBuf := rfl
@[simp] theorem State.markHazard_evt (p : Bool) (s : State) : (s.markHazard p).evt = s.evt := rfl
@[simp] theorem State.markHazard_seq (p : Bool) (s : State) : (s.markHazard p).seq = s.seq := rfl
@[simp] theorem State.markHazard_dropped (p : Bool) (s : State) : (s.markHazard p).dropped = s.dropped := rfl
@[simp] theorem State.markHazard_hazard (p : Bool) (s : State) : (s.markHazard p).hazard = (s.hazard || p) := rfl
@[simp] theorem State.markHazard_target (p : Bool) (s : State) : (s.markHazard p).target = s.target := rfl
@[simp] theorem State.markHazard_opener (p : Bool) (s : State) : (s.markHazard p).opener = s.opener := rfl
@[simp] theorem State.markHazard_frameErr (p : Bool) (s : State) : (s.markHazard p).frameErr = s.frameErr := rfl
@[simp] theorem State.markHazard_frame (p : Bool) (s : State) : (s.markHazard p).frame = s.frame := rfl
@[simp] theorem State.markHazard_clock (p : Bool) (s : State) : (s.markHazard p).clock = s.clock := rfl
@[simp] theorem State.markHazard_tick (p : Bool) (s : State) : (s.markHazard p).tick = s.tick := rfl
@[simp] theorem State.markHazard_script (p : Bool) (s : State) : (s.markHazard p).script = s.script := rfl
@[simp] theorem State.markHazard_requests (p : Bool) (s : State) : (s.markHazard p).requests = s.requests := rfl
@[simp] theorem State.markHazard_result (p : Bool) (s : State) : (s.markHazard p).result = s.result := rfl
@[simp] theorem State.markHazard_trace (p : Bool) (s : State) : (s.markHazard p).trace = s.trace := rfl
@[simp] theorem State.markHazard_path (p : Bool) (s : State) : (s.markHazard p).path = s.path := rfl

/-! ### `beginFrame` -/

@[simp] theorem State.beginFrame_cfg (e : Option PlatformError) (s : State) : (s.beginFrame e).cfg = s.cfg := rfl
@[simp] theorem State.beginFrame_cs (e : Option PlatformError) (s : State) : (s.beginFrame e).cs = s.cs := rfl
@[simp] theorem State.beginFrame_rst (e : Option PlatformError) (s : State) : (s.beginFrame e).rst = s.rst := rfl
@[simp] theorem State.beginFrame_modeCache (e : Option PlatformError) (s : State) : (s.beginFrame e).modeCache = s.modeCache := rfl
@[simp] theorem State.beginFrame_awaitReady (e : Option PlatformError) (s : State) : (s.beginFrame e).awaitReady = s.awaitReady := rfl
@[simp] theorem State.beginFrame_txBuf (e : Option PlatformError) (s : State) : (s.beginFrame e).txBuf = s.txBuf := rfl
@[simp] theorem State.beginFrame_rxBuf (e : Option PlatformError) (s : State) : (s.beginFrame e).rxBuf = s.rxBuf := rfl
@[simp] theorem State.beginFrame_evt (e : Option PlatformError) (s : State) : (s.beginFrame e).evt = s.evt := rfl
@[simp] theorem State.beginFrame_seq (e : Option PlatformError) (s : State) : (s.beginFrame e).seq = s.seq := rfl
@[simp] theorem State.beginFrame_dropped (e : Option PlatformError) (s : State) : (s.beginFrame e).dropped = s.dropped := rfl
@[simp] theorem State.beginFrame_hazard (e : Option PlatformError) (s : State) : (s.beginFrame e).hazard = s.hazard := rfl
@[simp] theorem State.beginFrame_target (e : Option PlatformError) (s : State) : (s.beginFrame e).target = { s.target with drained := [] } := rfl
@[simp] theorem State.beginFrame_opener (e : Option PlatformError) (s : State) : (s.beginFrame e).opener = s.opener := rfl
@[simp] theorem State.beginFrame_frameErr (e : Option PlatformError) (s : State) : (s.beginFrame e).frameErr = s.frameErr := rfl
@[simp] theorem State.beginFrame_frame (e : Option PlatformError) (s : State) : (s.beginFrame e).frame = some { failed := e.isSome } := rfl
@[simp] theorem State.beginFrame_clock (e : Option PlatformError) (s : State) : (s.beginFrame e).clock = s.clock := rfl
@[simp] theorem State.beginFrame_tick (e : Option PlatformError) (s : State) : (s.beginFrame e).tick = s.tick := rfl
@[simp] theorem State.beginFrame_script (e : Option PlatformError) (s : State) : (s.beginFrame e).script = s.script := rfl
@[simp] theorem State.beginFrame_requests (e : Option PlatformError) (s : State) : (s.beginFrame e).requests = s.requests := rfl
@[simp] theorem State.beginFrame_result (e : Option PlatformError) (s : State) : (s.beginFrame e).result = s.result := rfl
@[simp] theorem State.beginFrame_trace (e : Option PlatformError) (s : State) : (s.beginFrame e).trace = s.trace := rfl
@[simp] theorem State.beginFrame_path (e : Option PlatformError) (s : State) : (s.beginFrame e).path = s.path := rfl

/-! ### `conclude` -/

@[simp] theorem State.conclude_cfg (q : SeqState) (r : Result) (s : State) : (s.conclude q r).cfg = s.cfg := rfl
@[simp] theorem State.conclude_cs (q : SeqState) (r : Result) (s : State) : (s.conclude q r).cs = s.cs := rfl
@[simp] theorem State.conclude_rst (q : SeqState) (r : Result) (s : State) : (s.conclude q r).rst = s.rst := rfl
@[simp] theorem State.conclude_modeCache (q : SeqState) (r : Result) (s : State) : (s.conclude q r).modeCache = s.modeCache := rfl
@[simp] theorem State.conclude_awaitReady (q : SeqState) (r : Result) (s : State) : (s.conclude q r).awaitReady = s.awaitReady := rfl
@[simp] theorem State.conclude_txBuf (q : SeqState) (r : Result) (s : State) : (s.conclude q r).txBuf = s.txBuf := rfl
@[simp] theorem State.conclude_rxBuf (q : SeqState) (r : Result) (s : State) : (s.conclude q r).rxBuf = s.rxBuf := rfl
@[simp] theorem State.conclude_evt (q : SeqState) (r : Result) (s : State) : (s.conclude q r).evt = s.evt := rfl
@[simp] theorem State.conclude_seq (q : SeqState) (r : Result) (s : State) : (s.conclude q r).seq = q := rfl
@[simp] theorem State.conclude_dropped (q : SeqState) (r : Result) (s : State) : (s.conclude q r).dropped = s.dropped := rfl
@[simp] theorem State.conclude_hazard (q : SeqState) (r : Result) (s : State) : (s.conclude q r).hazard = s.hazard := rfl
@[simp] theorem State.conclude_target (q : SeqState) (r : Result) (s : State) : (s.conclude q r).target = s.target := rfl
@[simp] theorem State.conclude_opener (q : SeqState) (r : Result) (s : State) : (s.conclude q r).opener = s.opener := rfl
@[simp] theorem State.conclude_frameErr (q : SeqState) (r : Result) (s : State) : (s.conclude q r).frameErr = s.frameErr := rfl
@[simp] theorem State.conclude_frame (q : SeqState) (r : Result) (s : State) : (s.conclude q r).frame = s.frame := rfl
@[simp] theorem State.conclude_clock (q : SeqState) (r : Result) (s : State) : (s.conclude q r).clock = s.clock := rfl
@[simp] theorem State.conclude_tick (q : SeqState) (r : Result) (s : State) : (s.conclude q r).tick = s.tick := rfl
@[simp] theorem State.conclude_script (q : SeqState) (r : Result) (s : State) : (s.conclude q r).script = s.script := rfl
@[simp] theorem State.conclude_requests (q : SeqState) (r : Result) (s : State) : (s.conclude q r).requests = s.requests := rfl
@[simp] theorem State.conclude_result (q : SeqState) (r : Result) (s : State) : (s.conclude q r).result = r := rfl
@[simp] theorem State.conclude_trace (q : SeqState) (r : Result) (s : State) : (s.conclude q r).trace = s.trace := rfl
@[simp] theorem State.conclude_path (q : SeqState) (r : Result) (s : State) : (s.conclude q r).path = s.path ++ [q] := rfl

/-! ### `pushRequest` -/

@[simp] theorem State.pushRequest_cfg (r : Request) (s : State) : (s.pushRequest r).cfg = s.cfg := rfl
@[simp] theorem State.pushRequest_cs (r : Request) (s : State) : (s.pushRequest r).cs = s.cs := rfl
@[simp] theorem State.pushRequest_rst (r : Request) (s : State) : (s.pushRequest r).rst = s.rst := rfl
@[simp] theorem State.pushRequest_modeCache (r : Request) (s : State) : (s.pushRequest r).modeCache = s.modeCache := rfl
@[simp] theorem State.pushRequest_awaitReady (r : Request) (s : State) : (s.pushRequest r).awaitReady = s.awaitReady := rfl
@[simp] theorem State.pushRequest_txBuf (r : Request) (s : State) : (s.pushRequest r).txBuf = s.txBuf := rfl
@[simp] theorem State.pushRequest_rxBuf (r : Request) (s : State) : (s.pushRequest r).rxBuf = s.rxBuf := rfl
@[simp] theorem State.pushRequest_evt (r : Request) (s : State) : (s.pushRequest r).evt = s.evt := rfl
@[simp] theorem State.pushRequest_seq (r : Request) (s : State) : (s.pushRequest r).seq = s.seq := rfl
@[simp] theorem State.pushRequest_dropped (r : Request) (s : State) : (s.pushRequest r).dropped = s.dropped := rfl
@[simp] theorem State.pushRequest_hazard (r : Request) (s : State) : (s.pushRequest r).hazard = s.hazard := rfl
@[simp] theorem State.pushRequest_target (r : Request) (s : State) : (s.pushRequest r).target = s.target := rfl
@[simp] theorem State.pushRequest_opener (r : Request) (s : State) : (s.pushRequest r).opener = s.opener := rfl
@[simp] theorem State.pushRequest_frameErr (r : Request) (s : State) : (s.pushRequest r).frameErr = s.frameErr := rfl
@[simp] theorem State.pushRequest_frame (r : Request) (s : State) : (s.pushRequest r).frame = s.frame := rfl
@[simp] theorem State.pushRequest_clock (r : Request) (s : State) : (s.pushRequest r).clock = s.clock := rfl
@[simp] theorem State.pushRequest_tick (r : Request) (s : State) : (s.pushRequest r).tick = s.tick := rfl
@[simp] theorem State.pushRequest_script (r : Request) (s : State) : (s.pushRequest r).script = s.script := rfl
@[simp] theorem State.pushRequest_requests (r : Request) (s : State) : (s.pushRequest r).requests = r :: s.requests := rfl
@[simp] theorem State.pushRequest_result (r : Request) (s : State) : (s.pushRequest r).result = s.result := rfl
@[simp] theorem State.pushRequest_trace (r : Request) (s : State) : (s.pushRequest r).trace = s.trace := rfl
@[simp] theorem State.pushRequest_path (r : Request) (s : State) : (s.pushRequest r).path = s.path := rfl

/-! ### `powerOnTarget` -/

@[simp] theorem State.powerOnTarget_cfg (s : State) : (s.powerOnTarget).cfg = s.cfg := rfl
@[simp] theorem State.powerOnTarget_cs (s : State) : (s.powerOnTarget).cs = s.cs := rfl
@[simp] theorem State.powerOnTarget_rst (s : State) : (s.powerOnTarget).rst = s.rst := rfl
@[simp] theorem State.powerOnTarget_modeCache (s : State) : (s.powerOnTarget).modeCache = s.modeCache := rfl
@[simp] theorem State.powerOnTarget_awaitReady (s : State) : (s.powerOnTarget).awaitReady = s.awaitReady := rfl
@[simp] theorem State.powerOnTarget_txBuf (s : State) : (s.powerOnTarget).txBuf = s.txBuf := rfl
@[simp] theorem State.powerOnTarget_rxBuf (s : State) : (s.powerOnTarget).rxBuf = s.rxBuf := rfl
@[simp] theorem State.powerOnTarget_evt (s : State) : (s.powerOnTarget).evt = s.evt := rfl
@[simp] theorem State.powerOnTarget_seq (s : State) : (s.powerOnTarget).seq = s.seq := rfl
@[simp] theorem State.powerOnTarget_dropped (s : State) : (s.powerOnTarget).dropped = s.dropped := rfl
@[simp] theorem State.powerOnTarget_hazard (s : State) : (s.powerOnTarget).hazard = s.hazard := rfl
@[simp] theorem State.powerOnTarget_opener (s : State) : (s.powerOnTarget).opener = s.opener := rfl
@[simp] theorem State.powerOnTarget_frameErr (s : State) : (s.powerOnTarget).frameErr = s.frameErr := rfl
@[simp] theorem State.powerOnTarget_frame (s : State) : (s.powerOnTarget).frame = s.frame := rfl
@[simp] theorem State.powerOnTarget_clock (s : State) : (s.powerOnTarget).clock = s.clock := rfl
@[simp] theorem State.powerOnTarget_tick (s : State) : (s.powerOnTarget).tick = s.tick + 1 := rfl
@[simp] theorem State.powerOnTarget_script (s : State) : (s.powerOnTarget).script = s.script := rfl
@[simp] theorem State.powerOnTarget_requests (s : State) : (s.powerOnTarget).requests = s.requests := rfl
@[simp] theorem State.powerOnTarget_result (s : State) : (s.powerOnTarget).result = s.result := rfl
@[simp] theorem State.powerOnTarget_trace (s : State) : (s.powerOnTarget).trace = s.trace := rfl
@[simp] theorem State.powerOnTarget_path (s : State) : (s.powerOnTarget).path = s.path := rfl

/-! ### `setResetLevel` -/

@[simp] theorem State.setResetLevel_cfg (l : Bool) (s : State) : (s.setResetLevel l).cfg = s.cfg := rfl
@[simp] theorem State.setResetLevel_cs (l : Bool) (s : State) : (s.setResetLevel l).cs = s.cs := rfl
@[simp] theorem State.setResetLevel_rst (l : Bool) (s : State) : (s.setResetLevel l).rst = s.rst := rfl
@[simp] theorem State.setResetLevel_modeCache (l : Bool) (s : State) : (s.setResetLevel l).modeCache = s.modeCache := rfl
@[simp] theorem State.setResetLevel_awaitReady (l : Bool) (s : State) : (s.setResetLevel l).awaitReady = s.awaitReady := rfl
@[simp] theorem State.setResetLevel_txBuf (l : Bool) (s : State) : (s.setResetLevel l).txBuf = s.txBuf := rfl
@[simp] theorem State.setResetLevel_rxBuf (l : Bool) (s : State) : (s.setResetLevel l).rxBuf = s.rxBuf := rfl
@[simp] theorem State.setResetLevel_evt (l : Bool) (s : State) : (s.setResetLevel l).evt = s.worldAfter.evt := rfl
@[simp] theorem State.setResetLevel_seq (l : Bool) (s : State) : (s.setResetLevel l).seq = s.seq := rfl
@[simp] theorem State.setResetLevel_dropped (l : Bool) (s : State) : (s.setResetLevel l).dropped = s.dropped := rfl
@[simp] theorem State.setResetLevel_hazard (l : Bool) (s : State) : (s.setResetLevel l).hazard = s.hazard := rfl
@[simp] theorem State.setResetLevel_target (l : Bool) (s : State) : (s.setResetLevel l).target = s.elapse.target := rfl
@[simp] theorem State.setResetLevel_opener (l : Bool) (s : State) : (s.setResetLevel l).opener = s.opener := rfl
@[simp] theorem State.setResetLevel_frameErr (l : Bool) (s : State) : (s.setResetLevel l).frameErr = s.frameErr := rfl
@[simp] theorem State.setResetLevel_frame (l : Bool) (s : State) : (s.setResetLevel l).frame = s.frame := rfl
@[simp] theorem State.setResetLevel_clock (l : Bool) (s : State) : (s.setResetLevel l).clock = s.clock + s.moment.delay := rfl
@[simp] theorem State.setResetLevel_tick (l : Bool) (s : State) : (s.setResetLevel l).tick = s.tick + 1 := rfl
@[simp] theorem State.setResetLevel_script (l : Bool) (s : State) : (s.setResetLevel l).script = s.script := rfl
@[simp] theorem State.setResetLevel_requests (l : Bool) (s : State) : (s.setResetLevel l).requests = s.requests := rfl
@[simp] theorem State.setResetLevel_result (l : Bool) (s : State) : (s.setResetLevel l).result = s.result := rfl
@[simp] theorem State.setResetLevel_trace (l : Bool) (s : State) : (s.setResetLevel l).trace = s.trace ++ [.resetLevel l] := rfl
@[simp] theorem State.setResetLevel_path (l : Bool) (s : State) : (s.setResetLevel l).path = s.path := rfl

end Sys2Proof.Machine
end

