-- ==== Sys2Proof/Laws/Memory.lean ====
section
/-!
SUPPORT. The register space: a read after a write, and that every operation keeps the canonical form.
-/

namespace Sys2Proof.Machine

/-! ### Reading -/

theorem Memory.read_cons (a b : Nat) (v : Byte) (rest : List Host.Cell)
    (h : a = b → v = 0 → Memory.read rest b = 0) :
    Memory.read (Memory.cons a v rest) b = if a = b then v else Memory.read rest b := by
  unfold Memory.cons
  split
  · next hv =>
    split
    · next hab => rw [h hab hv, hv]
    · rfl
  · rfl

theorem Memory.read_eq_zero_of_wfFrom {lo a : Nat} {x : List Host.Cell}
    (h : Memory.wfFrom lo x = true) (ha : a < lo) : Memory.read x a = 0 := by
  induction x generalizing lo with
  | nil => rfl
  | cons c rest ih =>
    obtain ⟨k, b⟩ := c
    simp only [Memory.wfFrom, Bool.and_eq_true, decide_eq_true_eq] at h
    have hka : k ≠ a := by omega
    simp only [Memory.read, if_neg hka]
    exact ih h.2 (by omega)

/-- What a write does to every later read of one byte, on a space in canonical form. -/
theorem Memory.read_write {lo : Nat} {x : List Host.Cell} (h : Memory.wfFrom lo x = true)
    (a b : Nat) (v : Byte) :
    Memory.read (Memory.write x a v) b = if a = b then v else Memory.read x b := by
  induction x generalizing lo with
  | nil => exact Memory.read_cons a b v [] (fun _ _ => rfl)
  | cons c rest ih =>
    obtain ⟨k, w⟩ := c
    have h' := h
    simp only [Memory.wfFrom, Bool.and_eq_true, decide_eq_true_eq] at h
    unfold Memory.write
    split
    · next hak =>
      refine Memory.read_cons a b v _ (fun hab _ => ?_)
      have hkb : k ≠ b := by omega
      simp only [Memory.read, if_neg hkb]
      exact Memory.read_eq_zero_of_wfFrom h.2 (by omega)
    · split
      · next hak =>
        subst hak
        rw [Memory.read_cons a b v rest
          (fun hab _ => Memory.read_eq_zero_of_wfFrom h.2 (by omega))]
        by_cases hab : a = b <;> simp [Memory.read, hab]
      · next hka =>
        simp only [Memory.read, ih h.2]
        by_cases hkb : k = b
        · simp [hkb, show a ≠ b by omega]
        · simp [hkb]

@[simp] theorem Memory.read_nil (a : Nat) : Memory.read [] a = 0 := rfl

/-! ### The canonical form is kept -/

theorem Memory.wfFrom_mono {lo lo' : Nat} {x : List Host.Cell} (h : Memory.wfFrom lo' x = true)
    (hl : lo ≤ lo') : Memory.wfFrom lo x = true := by
  cases x with
  | nil => rfl
  | cons c rest =>
    simp only [Memory.wfFrom, Bool.and_eq_true, decide_eq_true_eq] at h ⊢
    exact ⟨⟨⟨by omega, h.1.1.2⟩, h.1.2⟩, h.2⟩

theorem Memory.wfFrom_cons {lo a : Nat} {v : Byte} {rest : List Host.Cell} (hl : lo ≤ a)
    (ha : a < 128) (h : Memory.wfFrom (a + 1) rest = true) :
    Memory.wfFrom lo (Memory.cons a v rest) = true := by
  unfold Memory.cons
  split
  · exact Memory.wfFrom_mono h (by omega)
  · next hv =>
    simp only [Memory.wfFrom, Bool.and_eq_true, decide_eq_true_eq]
    exact ⟨⟨⟨hl, ha⟩, hv⟩, h⟩

theorem Memory.wfFrom_write {lo a : Nat} {x : List Host.Cell} (v : Byte)
    (h : Memory.wfFrom lo x = true) (hl : lo ≤ a) (ha : a < 128) :
    Memory.wfFrom lo (Memory.write x a v) = true := by
  induction x generalizing lo with
  | nil => exact Memory.wfFrom_cons hl ha rfl
  | cons c rest ih =>
    obtain ⟨k, w⟩ := c
    have h' := h
    simp only [Memory.wfFrom, Bool.and_eq_true, decide_eq_true_eq] at h
    unfold Memory.write
    split
    · next hak =>
      refine Memory.wfFrom_cons hl ha ?_
      simp only [Memory.wfFrom, Bool.and_eq_true, decide_eq_true_eq]
      exact ⟨⟨⟨by omega, h.1.1.2⟩, h.1.2⟩, h.2⟩
    · split
      · next hak => subst hak; exact Memory.wfFrom_cons hl ha h.2
      · simp only [Memory.wfFrom, Bool.and_eq_true, decide_eq_true_eq]
        exact ⟨h.1, ih h.2 (by omega)⟩

/-- A write to one of the 128 addresses keeps the canonical form. -/
theorem Memory.wf_write {x : List Host.Cell} (h : Memory.wf x = true) {a : Nat} (ha : a < 128)
    (v : Byte) : Memory.wf (Memory.write x a v) = true :=
  Memory.wfFrom_write v h (Nat.zero_le a) ha

/-- Every list of cells has a canonical form. -/
theorem Memory.wf_canon (x : List Host.Cell) : Memory.wf (Memory.canon x) = true := by
  induction x with
  | nil => rfl
  | cons c rest ih =>
    obtain ⟨k, v⟩ := c
    unfold Memory.canon
    split
    · next h => exact Memory.wf_write ih h v
    · exact ih

/-- The canonical form reads as the list does, at each of the 128 addresses. -/
theorem Memory.read_canon (x : List Host.Cell) {a : Nat} (ha : a < 128) :
    Memory.read (Memory.canon x) a = Memory.read x a := by
  induction x with
  | nil => rfl
  | cons c rest ih =>
    obtain ⟨k, v⟩ := c
    unfold Memory.canon
    split
    · rw [Memory.read_write (Memory.wf_canon rest), ih]; rfl
    · next h => rw [ih, Memory.read, if_neg (by omega)]

/-- Laying an image over a register space keeps the canonical form. -/
theorem Memory.wf_overlay (img : List (Option Byte)) (a : Nat) {x : List Host.Cell}
    (h : Memory.wf x = true) : Memory.wf (Memory.overlay img a x) = true := by
  induction img generalizing a x with
  | nil => exact h
  | cons o rest ih =>
    cases o with
    | none => exact ih (a + 1) h
    | some v =>
      refine ih (a + 1) ?_
      split
      · next ha => exact Memory.wf_write h ha v
      · exact h

theorem Memory.read_overlay_below (img : List (Option Byte)) {a b : Nat} {x : List Host.Cell}
    (h : Memory.wf x = true) (hb : b < a) :
    Memory.read (Memory.overlay img a x) b = Memory.read x b := by
  induction img generalizing a x with
  | nil => rfl
  | cons o rest ih =>
    cases o with
    | none => exact ih h (by omega)
    | some v =>
      simp only [Memory.overlay]
      split
      · next ha =>
        rw [ih (Memory.wf_write h ha v) (by omega), Memory.read_write h, if_neg (by omega)]
      · exact ih h (by omega)

/-- What a register reads under an image: the image's byte where it gives one. -/
theorem Memory.read_overlay (img : List (Option Byte)) {a b : Nat} {x : List Host.Cell}
    (h : Memory.wf x = true) (hab : a ≤ b) (hb : b < 128) :
    Memory.read (Memory.overlay img a x) b = (img.getD (b - a) none).getD (Memory.read x b) := by
  induction img generalizing a x with
  | nil => rfl
  | cons o rest ih =>
    rcases Nat.eq_or_lt_of_le hab with e | hlt
    · subst e
      cases o with
      | none => simp [Memory.overlay, Memory.read_overlay_below rest h (Nat.lt_succ_self a)]
      | some v =>
        simp [Memory.overlay, hb, Memory.read_overlay_below rest (Memory.wf_write h hb v)
          (Nat.lt_succ_self a), Memory.read_write h]
    · have e : b - a = (b - (a + 1)) + 1 := by omega
      cases o with
      | none => simp only [Memory.overlay, ih h (show a + 1 ≤ b by omega), e, List.getD_cons_succ]
      | some v =>
        have ha : a < 128 := by omega
        simp only [Memory.overlay, if_pos ha]
        rw [ih (Memory.wf_write h ha v) (show a + 1 ≤ b by omega), Memory.read_write h,
          if_neg (by omega), e, List.getD_cons_succ]

/-! ### Registers of a target -/

/-- Two addresses are the same number only if they are the same address. -/
theorem addr_toNat_ne {a b : Addr} (h : b ≠ a) : a.toNat ≠ b.toNat :=
  fun e => h (BitVec.eq_of_toNat_eq e.symm)

/-- A register read after a write to the same register. -/
theorem Target.reg_setReg_same {t : Target} (h : Memory.wf t.x = true) (a : Addr) (v : Byte) :
    (t.setReg a v).reg a = v := by
  simp only [Target.reg, Target.setReg, Memory.read_write h]; simp

/-- A write leaves every other register alone. -/
theorem Target.reg_setReg_other {t : Target} (h : Memory.wf t.x = true) {a b : Addr} (hb : b ≠ a)
    (v : Byte) : (t.setReg a v).reg b = t.reg b := by
  simp only [Target.reg, Target.setReg, Memory.read_write h, if_neg (addr_toNat_ne hb)]

/-- Writing a register keeps the canonical form. -/
theorem Target.wf_setReg {t : Target} (h : Memory.wf t.x = true) (a : Addr) (v : Byte) :
    Memory.wf (t.setReg a v).x = true :=
  Memory.wf_write h a.isLt v

end Sys2Proof.Machine
end

