-- ==== Sys2Proof/Laws/Target.lean ====
section
/-!
SUPPORT. What the other agents and the target can do: the target stays sound, its version byte is
fixed, only the addressed register changes, and a rising edge alone fills the event slot.
-/

namespace Sys2Proof.Machine

/-! ### Fixed parts of a configuration -/

theorem Params.check_true {p : Params} (h : p.check = true) :
    p.modeValues.Nodup ∧ p.regFrfMid.toNat = p.regFrfMsb.toNat + 1
      ∧ p.regFrfLsb.toNat = p.regFrfMsb.toNat + 2 ∧ 0 < p.fxoscHz
      ∧ 0 < p.pollInterval ∧ p.pollInterval ≤ p.pollIntervalMax
      ∧ p.resetLowMin ≤ p.resetLowTime ∧ p.resetHoldMin ≤ p.resetHoldTime
      ∧ p.maxSendLen ≤ p.fifoWindow ∧ p.addrBits ≤ 7 ∧ p.maxSendLen < p.scratchSize
      ∧ p.fifoWindow ≤ p.scratchSize := by
  simpa [Params.check, Bool.and_eq_true, and_assoc] using h

theorem modeOf_modeValue (c : Config) (m : Mode) : modeOf c (modeValue c m) = some m := by
  have h := (Params.check_true c.valid).1
  simp only [Params.modeValues, List.nodup_cons, List.mem_cons, List.not_mem_nil, or_false,
    not_or] at h
  obtain ⟨⟨h1, h2, h3, h4⟩, ⟨h5, h6, h7⟩, ⟨h8, h9⟩, h10, -⟩ := h
  cases m <;>
    simp only [modeOf, modeValue, if_true] <;>
    simp [Ne.symm h1, Ne.symm h2, Ne.symm h3, Ne.symm h4, Ne.symm h5, Ne.symm h6, Ne.symm h7,
      Ne.symm h8, Ne.symm h9, Ne.symm h10]

/-! ### Drawn and powered-on targets -/

theorem Target.sound_drawn (c : Config) (old free : Target) :
    (Target.drawn c old free).sound c :=
  ⟨Memory.wf_canon _, by simp [Target.drawn]⟩

theorem Target.sound_poweredOn (c : Config) (free t : Target) :
    (Target.poweredOn c free t).sound c :=
  ⟨Memory.wf_overlay _ _ (Memory.wf_canon _), Nat.zero_le _⟩

@[simp] theorem Target.drawn_version (c : Config) (old free : Target) :
    (Target.drawn c old free).version = old.version := rfl

@[simp] theorem Target.drawn_fifo_length (c : Config) (old free : Target) :
    (Target.drawn c old free).fifo.length ≤ c.fifoWindow := by simp [Target.drawn]

/-! ### The other agents' steps -/

/-- What a step of the other agents leaves as it was, and the order it keeps. -/
structure World.Law (c : Config) (w w' : World) : Prop where
  x : w'.target.x = w.target.x
  version : w'.target.version = w.target.version
  fifo : w.target.fifo.length ≤ c.fifoWindow → w'.target.fifo.length ≤ c.fifoWindow
  evt : w.evt = true → w'.evt = true

theorem World.Law.refl (c : Config) (w : World) : World.Law c w w := ⟨rfl, rfl, id, id⟩

theorem World.Law.trans {c : Config} {w w' w'' : World} (h : World.Law c w w')
    (h' : World.Law c w' w'') : World.Law c w w'' :=
  ⟨h'.x.trans h.x, h'.version.trans h.version, h'.fifo ∘ h.fifo, h'.evt ∘ h.evt⟩

@[simp] theorem World.handler_evt (w : World) : w.handler.evt = true := by
  unfold World.handler; split <;> simp_all

@[simp] theorem World.handler_target (w : World) : w.handler.target = w.target := by
  unfold World.handler; split <;> rfl

/-- A rising edge makes the line high and fills the slot, whether or not it was empty
(45_event_channel R201). -/
theorem World.risingEdge_eq (w : World) :
    w.risingEdge = ⟨{ w.target with irq := true }, true⟩ := by
  have ht := World.handler_target { w with target := { w.target with irq := true } }
  have he := World.handler_evt { w with target := { w.target with irq := true } }
  unfold World.risingEdge
  cases h : World.handler { w with target := { w.target with irq := true } }
  rw [h] at ht he
  exact congr (congrArg World.mk ht) he

/-- A step of the target, the line or the handler changes no register and not the version, keeps
the FIFO within its window, and never empties the event slot. -/
theorem World.law_act (c : Config) (l : Bool) (w : World) (a : TargetAct) :
    World.Law c w (w.act c l a) := by
  cases a with
  | settle =>
    simp only [World.act]; split
    · unfold World.settle; split
      · exact ⟨rfl, rfl, id, id⟩
      · exact .refl c w
    · exact .refl c w
  | txComplete =>
    simp only [World.act]; split
    · unfold World.txComplete; split
      · rw [World.risingEdge_eq]; exact ⟨rfl, rfl, fun _ => Nat.zero_le _, fun _ => rfl⟩
      · exact .refl c w
    · exact .refl c w
  | rxPacket p =>
    simp only [World.act]; split
    · unfold World.rxPacket; split
      · next h => rw [World.risingEdge_eq]; exact ⟨rfl, rfl, fun _ => h.2.2.2, fun _ => rfl⟩
      · exact .refl c w
    · exact .refl c w
  | irq level =>
    simp only [World.act]; split
    · exact .refl c w
    · unfold World.driveIrq; split
      · rw [World.risingEdge_eq]; exact ⟨rfl, rfl, id, fun _ => rfl⟩
      · exact ⟨rfl, rfl, id, id⟩

theorem World.law_foldl (c : Config) (l : Bool) (as : List TargetAct) (w : World) :
    World.Law c w (as.foldl (World.act c l) w) := by
  induction as generalizing w with
  | nil => exact .refl c w
  | cons a rest ih => exact (World.law_act c l w a).trans (ih _)

/-- All that the other agents can have done before the next call. -/
theorem State.worldAfter_law (s : State) :
    World.Law s.cfg ⟨s.target, s.evt⟩ s.worldAfter :=
  World.law_foldl s.cfg s.lawless s.moment.acts _

/-- Where no other agent steps, target and event slot are as they were. -/
theorem State.worldAfter_target_of_no_acts {s : State} (h : s.moment.acts = []) :
    s.worldAfter = ⟨s.target, s.evt⟩ := by
  simp [State.worldAfter, h]

/-! ### One elapsed moment -/

theorem State.elapse_target_sound {s : State} (h : s.target.sound s.cfg) :
    s.elapse.target.sound s.cfg := by
  simp only [State.elapse]
  split
  · exact Target.sound_drawn _ _ _
  · have l := s.worldAfter_law
    exact ⟨by rw [l.x]; exact h.1, l.fifo h.2⟩

theorem State.elapse_target_version (s : State) :
    s.elapse.target.version = s.target.version := by
  simp only [State.elapse]
  split <;> exact s.worldAfter_law.version

theorem State.elapse_target_x {s : State} (h : s.lawless = false) :
    s.elapse.target.x = s.target.x := by
  simp only [State.elapse, h]
  exact s.worldAfter_law.x

theorem State.elapse_evt_of_true {s : State} (h : s.evt = true) : s.elapse.evt = true :=
  s.worldAfter_law.evt h

@[simp] theorem State.elapse_lawless (s : State) : s.elapse.lawless = s.lawless := rfl

/-! ### Data exchanges -/

theorem Target.sound_setReg {c : Config} {t : Target} (h : t.sound c) (a : Addr) (v : Byte) :
    (t.setReg a v).sound c :=
  ⟨Target.wf_setReg h.1 a v, h.2⟩

theorem Target.sound_readData {c : Config} {t : Target} (h : t.sound c) (d : Byte) (a : Addr) :
    (Target.readData c d a t).1.sound c := by
  unfold Target.readData
  split
  · split
    · next b rest hf =>
      refine ⟨h.1, ?_⟩
      have h2 := h.2
      rw [hf, List.length_cons] at h2
      exact Nat.le_of_succ_le h2
    · exact h
  · split_ifs <;> exact h

theorem Target.sound_pushFifo {c : Config} {t free : Target} (h : t.sound c)
    (hf : free.fifo.length ≤ c.fifoWindow) (v : Byte) :
    (Target.pushFifo c free v t).1.sound c := by
  unfold Target.pushFifo
  split
  · next hl => exact ⟨h.1, by simpa using hl⟩
  · exact ⟨h.1, hf⟩

theorem Target.sound_writeRegister {c : Config} {t : Target} (h : t.sound c) (free : Target)
    (a : Addr) (v : Byte) : (Target.writeRegister c free a v t).1.sound c := by
  have hs := Target.sound_setReg h a v
  unfold Target.writeRegister
  split
  · dsimp only; split <;> exact hs
  · split
    · exact h
    · exact hs

theorem Target.sound_deliver {c : Config} {t : Target} (h : t.sound c) (free : Target)
    (a : Addr) (v : Byte) : (Target.deliver c free a v t).1.sound c := by
  unfold Target.deliver
  split
  · exact Target.sound_writeRegister h free a v
  · exact Target.sound_setReg h a v

theorem Target.sound_afterFailure {c : Config} {t free : Target} (h : t.sound c)
    (hf : free.fifo.length ≤ c.fifoWindow) (m : Moment) (w : Bool) (a : Addr) (n : Nat) :
    (Target.afterFailure c m free w a n t).sound c := by
  unfold Target.afterFailure
  split
  · split
    · exact ⟨h.1, hf⟩
    · exact ⟨h.1, by simp⟩
  · split
    · have hs := Target.sound_setReg h a m.byte
      exact ⟨hs.1, hs.2⟩
    · exact Target.sound_setReg h a m.byte

@[simp] theorem Target.readData_x (c : Config) (d : Byte) (a : Addr) (t : Target) :
    (Target.readData c d a t).1.x = t.x := by
  unfold Target.readData
  split
  · split <;> rfl
  · split_ifs <;> rfl

@[simp] theorem Target.readData_version (c : Config) (d : Byte) (a : Addr) (t : Target) :
    (Target.readData c d a t).1.version = t.version := by
  unfold Target.readData
  split
  · split <;> rfl
  · split_ifs <;> rfl

@[simp] theorem Target.pushFifo_version (c : Config) (free : Target) (v : Byte) (t : Target) :
    (Target.pushFifo c free v t).1.version = t.version := by
  unfold Target.pushFifo
  split <;> rfl

@[simp] theorem Target.pushFifo_x (c : Config) (free : Target) (v : Byte) (t : Target) :
    (Target.pushFifo c free v t).1.x = t.x := by
  unfold Target.pushFifo
  split <;> rfl

@[simp] theorem Target.writeRegister_version (c : Config) (free : Target) (a : Addr) (v : Byte)
    (t : Target) : (Target.writeRegister c free a v t).1.version = t.version := by
  unfold Target.writeRegister
  split
  · dsimp only; split <;> rfl
  · split <;> rfl

@[simp] theorem Target.deliver_version (c : Config) (free : Target) (a : Addr) (v : Byte)
    (t : Target) : (Target.deliver c free a v t).1.version = t.version := by
  unfold Target.deliver
  split
  · exact Target.writeRegister_version ..
  · rfl

@[simp] theorem Target.afterFailure_version (c : Config) (m : Moment) (free : Target) (w : Bool)
    (a : Addr) (n : Nat) (t : Target) :
    (Target.afterFailure c m free w a n t).version = t.version := by
  unfold Target.afterFailure
  split
  · split <;> rfl
  · split <;> rfl

/-- The delivery of a register write changes no register but the one addressed. -/
theorem Target.deliver_reg_other {c : Config} {t : Target} (h : Memory.wf t.x = true)
    {a b : Addr} (hb : b ≠ a) (free : Target) (v : Byte) :
    (Target.deliver c free a v t).1.reg b = t.reg b := by
  have key := Target.reg_setReg_other h hb v
  unfold Target.deliver
  split
  · unfold Target.writeRegister
    split
    · dsimp only; split <;> exact key
    · split
      · rfl
      · exact key
  · exact key

theorem Target.afterFailure_reg_other {c : Config} {t free : Target} (h : Memory.wf t.x = true)
    {a b : Addr} (hb : b ≠ a) (m : Moment) (w : Bool) (n : Nat) :
    (Target.afterFailure c m free w a n t).reg b = t.reg b := by
  have key := Target.reg_setReg_other h hb m.byte
  unfold Target.afterFailure
  split
  · split <;> rfl
  · split <;> exact key

/-! ### The event slot and the edges of the line -/

/-- A step of the other agents fills the event slot exactly if it raises an edge. -/
theorem World.act_evt (c : Config) (lawless : Bool) (w : World) (a : TargetAct) :
    (w.act c lawless a).evt = (w.evt || w.raisesEdge c lawless a) := by
  cases a with
  | settle =>
    simp only [World.act, World.raisesEdge, Bool.or_false]
    split
    · unfold World.settle; split <;> rfl
    · rfl
  | txComplete =>
    simp only [World.act, World.raisesEdge, World.txComplete]
    split <;> [split; skip] <;> simp_all [World.risingEdge]
  | rxPacket p =>
    simp only [World.act, World.raisesEdge, World.rxPacket]
    split <;> [split; skip] <;> simp_all [World.risingEdge]
  | irq level =>
    simp only [World.act, World.raisesEdge, World.driveIrq]
    split
    · simp_all
    · split <;> simp_all [World.risingEdge]

/-- The slot is full after a run of steps exactly if it was full or one of them raised an edge. -/
theorem World.acts_evt (c : Config) (lawless : Bool) (acts : List TargetAct) (w : World) :
    (acts.foldl (World.act c lawless) w).evt = (w.evt || !World.edgeFree c lawless acts w) := by
  induction acts generalizing w with
  | nil => simp [World.edgeFree]
  | cons a rest ih =>
    simp only [List.foldl_cons, ih, World.act_evt, World.edgeFree]
    cases w.evt <;> cases w.raisesEdge c lawless a <;> simp

/-- The slot after one moment of the environment. -/
theorem State.elapse_evt_eq (s : State) :
    s.elapse.evt
      = (s.evt || !World.edgeFree s.cfg s.lawless s.moment.acts ⟨s.target, s.evt⟩) :=
  World.acts_evt ..

end Sys2Proof.Machine
end

