-- ==== Sys2Proof/Laws/Bus.lean ====
section
/-!
SUPPORT. What bus traffic can do, said once: two relations between a state and a later one, closed
under composition, and for each capability, frame step and whole frame the lemma that it stands in
them.
-/

namespace Sys2Proof.Machine

/-! ### The relations -/

/-- What holds between a state and any later state of the same controller: configuration, script and
waiting requests are fixed; `hazard` is sticky, the clock and the count of calls do not go back, the
records only grow; the version byte is fixed and a sound target stays sound. -/
structure State.Extends (s t : State) : Prop where
  cfg : t.cfg = s.cfg
  script : t.script = s.script
  requests : t.requests = s.requests
  hazard : s.hazard = true → t.hazard = true
  clock : s.clock ≤ t.clock
  tick : s.tick ≤ t.tick
  trace : ∃ l, t.trace = s.trace ++ l
  path : ∃ l, t.path = s.path ++ l
  version : t.target.version = s.target.version
  sound : s.target.sound s.cfg → t.target.sound s.cfg

theorem State.Extends.refl (s : State) : s.Extends s :=
  ⟨rfl, rfl, rfl, id, Nat.le_refl _, Nat.le_refl _, ⟨[], by simp⟩, ⟨[], by simp⟩, rfl, id⟩

theorem State.Extends.trans {s t u : State} (h : s.Extends t) (h' : t.Extends u) : s.Extends u where
  cfg := h'.cfg.trans h.cfg
  script := h'.script.trans h.script
  requests := h'.requests.trans h.requests
  hazard := h'.hazard ∘ h.hazard
  clock := h.clock.trans h'.clock
  tick := h.tick.trans h'.tick
  trace := by
    obtain ⟨l, hl⟩ := h.trace
    obtain ⟨l', hl'⟩ := h'.trace
    exact ⟨l ++ l', by rw [hl', hl, List.append_assoc]⟩
  path := by
    obtain ⟨l, hl⟩ := h.path
    obtain ⟨l', hl'⟩ := h'.path
    exact ⟨l ++ l', by rw [hl', hl, List.append_assoc]⟩
  version := h'.version.trans h.version
  sound := fun hs => by
    have := h'.sound (by rw [h.cfg]; exact h.sound hs)
    rwa [h.cfg] at this

/-- What frames leave alone besides: the reset line, the mode record, both buffers, `dropped` and the
last result; and no frame empties the event slot. -/
structure State.Bus (s t : State) : Prop extends State.Extends s t where
  rst : t.rst = s.rst
  modeCache : t.modeCache = s.modeCache
  awaitReady : t.awaitReady = s.awaitReady
  txBuf : t.txBuf = s.txBuf
  rxBuf : t.rxBuf = s.rxBuf
  dropped : t.dropped = s.dropped
  result : t.result = s.result
  evt : s.evt = true → t.evt = true

theorem State.Bus.refl (s : State) : s.Bus s :=
  ⟨.refl s, rfl, rfl, rfl, rfl, rfl, rfl, rfl, id⟩

theorem State.Bus.trans {s t u : State} (h : s.Bus t) (h' : t.Bus u) : s.Bus u :=
  ⟨h.toExtends.trans h'.toExtends, h'.rst.trans h.rst, h'.modeCache.trans h.modeCache,
    h'.awaitReady.trans h.awaitReady, h'.txBuf.trans h.txBuf, h'.rxBuf.trans h.rxBuf,
    h'.dropped.trans h.dropped, h'.result.trans h.result, h'.evt ∘ h.evt⟩

/-- A target that no law ties at first is tied by none later. -/
theorem State.Extends.lawless {s t : State} (h : s.Extends t) (hs : t.lawless = false) :
    s.lawless = false := by
  have hz := h.hazard
  simp only [State.lawless, Bool.or_eq_false_iff, h.cfg] at hs ⊢
  refine ⟨hs.1, ?_⟩
  cases hh : s.hazard with
  | false => rfl
  | true => rw [hz hh] at hs; exact absurd hs.2 (by simp)

/-! ### Elementary steps -/

theorem State.bus_setSeq (q : SeqState) (s : State) : s.Bus (s.setSeq q) :=
  ⟨⟨rfl, rfl, rfl, id, Nat.le_refl _, Nat.le_refl _, ⟨[], by simp⟩, ⟨[q], rfl⟩, rfl, id⟩,
    rfl, rfl, rfl, rfl, rfl, rfl, rfl, id⟩

theorem State.bus_log (c : BusCall) (s : State) : s.Bus (s.log c) :=
  ⟨⟨rfl, rfl, rfl, id, Nat.le_refl _, Nat.le_refl _, ⟨[c], rfl⟩, ⟨[], by simp⟩, rfl, id⟩,
    rfl, rfl, rfl, rfl, rfl, rfl, rfl, id⟩

theorem State.bus_elapse (s : State) : s.Bus s.elapse :=
  ⟨⟨rfl, rfl, rfl, id, Nat.le_add_right _ _, Nat.le_succ _, ⟨[], by simp⟩, ⟨[], by simp⟩,
      s.elapse_target_version, State.elapse_target_sound⟩,
    rfl, rfl, rfl, rfl, rfl, rfl, rfl, State.elapse_evt_of_true⟩

theorem State.bus_markHazard (p : Bool) (s : State) : s.Bus (s.markHazard p) :=
  ⟨⟨rfl, rfl, rfl, fun h => by simp [h], Nat.le_refl _, Nat.le_refl _, ⟨[], by simp⟩,
      ⟨[], by simp⟩, rfl, id⟩,
    rfl, rfl, rfl, rfl, rfl, rfl, rfl, id⟩

theorem State.bus_markRead (a : Addr) (s : State) : s.Bus (s.markRead a) := s.bus_markHazard _

theorem State.bus_markWrite (a : Addr) (s : State) : s.Bus (s.markWrite a) := s.bus_markHazard _

theorem State.bus_markBurst (s : State) : s.Bus s.markBurst := s.bus_markHazard _

theorem State.bus_markFrequency (s : State) : s.Bus s.markFrequency := s.bus_markHazard _

theorem State.bus_now (s : State) : s.Bus s.now.1 := s.bus_elapse

theorem State.bus_sleep (d : Nat) (s : State) : s.Bus (s.sleep d) :=
  ⟨⟨rfl, rfl, rfl, id, by simp; omega, Nat.le_succ _, ⟨[.sleep d], rfl⟩, ⟨[], by simp⟩,
      s.elapse_target_version, State.elapse_target_sound⟩,
    rfl, rfl, rfl, rfl, rfl, rfl, rfl, State.elapse_evt_of_true⟩

theorem State.bus_setResetLevel (l : Bool) (s : State) : s.Bus (s.setResetLevel l) :=
  s.bus_elapse.trans (State.bus_log _ _)

theorem State.bus_beginFrame (e : Option PlatformError) (s : State) : s.Bus (s.beginFrame e) :=
  ⟨⟨rfl, rfl, rfl, id, Nat.le_refl _, Nat.le_refl _, ⟨[], by simp⟩, ⟨[], by simp⟩, rfl, id⟩,
    rfl, rfl, rfl, rfl, rfl, rfl, rfl, id⟩

/-! ### The target's side -/

/-- A state that differs from `s` at most in the target, the frame and a rise of `hazard`. -/
theorem State.bus_of_target {s : State} (t : Target) (f : Option BusFrame) (h : Bool)
    (hv : t.version = s.target.version) (hs : s.target.sound s.cfg → t.sound s.cfg)
    (hh : s.hazard = true → h = true) : s.Bus { s with target := t, frame := f, hazard := h } :=
  ⟨⟨rfl, rfl, rfl, hh, Nat.le_refl _, Nat.le_refl _, ⟨[], by simp⟩, ⟨[], by simp⟩, hv, hs⟩,
    rfl, rfl, rfl, rfl, rfl, rfl, rfl, id⟩

theorem State.afterFrame_version (m : Moment) (free : Target) (e : Option PlatformError)
    (s : State) : (s.afterFrame m free e).1.version = s.target.version := by
  unfold State.afterFrame
  split
  · split
    · rfl
    · split
      · exact Target.afterFailure_version ..
      · split
        · exact Target.deliver_version ..
        · rfl
  · rfl

theorem State.afterFrame_sound {s : State} (h : s.target.sound s.cfg) {free : Target}
    (hf : free.fifo.length ≤ s.cfg.fifoWindow) (m : Moment) (e : Option PlatformError) :
    (s.afterFrame m free e).1.sound s.cfg := by
  unfold State.afterFrame
  split
  · split
    · exact h
    · split
      · exact Target.sound_afterFailure h hf _ _ _ _
      · split
        · exact Target.sound_deliver h free _ _
        · exact h
  · exact h

theorem State.bus_endFrame (m : Moment) (free : Target) (e : Option PlatformError) (s : State)
    (hf : free.fifo.length ≤ s.cfg.fifoWindow) : s.Bus (s.endFrame m free e) :=
  State.bus_of_target _ none _ (s.afterFrame_version m free e)
    (fun h => State.afterFrame_sound h hf m e) (fun h => by simp [h])

theorem State.dataAnswer_target (m : Moment) (free : Target) (f : BusFrame) (w : Bool) (a : Addr)
    (b : Byte) (s : State) (hf : free.fifo.length ≤ s.cfg.fifoWindow) :
    (s.dataAnswer m free f w a b).target.version = s.target.version
      ∧ (s.target.sound s.cfg → (s.dataAnswer m free f w a b).target.sound s.cfg) := by
  unfold State.dataAnswer
  dsimp only
  split
  · exact ⟨rfl, id⟩
  · split
    · exact ⟨rfl, id⟩
    · exact ⟨rfl, id⟩
    · split
      · exact ⟨Target.pushFifo_version .., fun h => Target.sound_pushFifo h hf b⟩
      · exact ⟨rfl, id⟩
    · exact ⟨Target.readData_version .., fun h => Target.sound_readData h _ a⟩

theorem State.answer_target (m : Moment) (free : Target) (b : Byte) (s : State)
    (hf : free.fifo.length ≤ s.cfg.fifoWindow) :
    (s.answer m free b).target.version = s.target.version
      ∧ (s.target.sound s.cfg → (s.answer m free b).target.sound s.cfg) := by
  unfold State.answer
  split
  · exact ⟨rfl, id⟩
  · split
    · exact ⟨rfl, id⟩
    · exact State.dataAnswer_target m free _ _ _ b s hf

theorem State.bus_withAnswer (m : Moment) (free : Target) (b : Byte) (s : State)
    (hf : free.fifo.length ≤ s.cfg.fifoWindow) : s.Bus (s.withAnswer (s.answer m free b)) :=
  State.bus_of_target _ _ _ (State.answer_target m free b s hf).1
    (State.answer_target m free b s hf).2 (fun h => by simp [h])

theorem State.bus_failInFrame (b : Byte) (s : State) : s.Bus (s.failInFrame b) :=
  State.bus_of_target s.target _ s.hazard rfl id id

/-! ### Capabilities -/

theorem State.free_fifo (s : State) : s.free.fifo.length ≤ s.cfg.fifoWindow := by
  simp [State.free, Target.drawn]

theorem State.bus_setSelect (active : Bool) (s : State) : s.Bus (s.setSelect active).1 := by
  cases active with
  | true => exact (s.bus_elapse.trans (State.bus_beginFrame _ _)).trans (State.bus_log _ _)
  | false =>
    exact (s.bus_elapse.trans (State.bus_endFrame _ _ _ _ s.free_fifo)).trans (State.bus_log _ _)

theorem State.bus_transfer (b : Byte) (s : State) : s.Bus (s.transfer b).1 := by
  unfold State.transfer
  split
  · exact (s.bus_elapse.trans (State.bus_failInFrame _ _)).trans (State.bus_log _ _)
  · exact (s.bus_elapse.trans (State.bus_withAnswer _ _ _ _ s.free_fifo)).trans
      (State.bus_log _ _)

/-! ### Frame steps and whole frames -/

/-- The controller's own notes on the open frame are no bus traffic. -/
theorem State.bus_frameNotes (s : State) (q : SeqState) (e : Option OpError) (c : Bool) :
    s.Bus { s with opener := q, frameErr := e, cs := c } :=
  ⟨⟨rfl, rfl, rfl, id, Nat.le_refl _, Nat.le_refl _, ⟨[], by simp⟩, ⟨[], by simp⟩, rfl, id⟩,
    rfl, rfl, rfl, rfl, rfl, rfl, rfl, id⟩

theorem State.bus_openFrame (s : State) : s.Bus s.openFrame.1 :=
  (((s.bus_setSeq _).trans (State.bus_frameNotes _ _ _ _)).trans
    (State.bus_setSelect _ _)).trans (State.bus_frameNotes _ _ _ _)

theorem State.bus_exchange (b : Byte) (s : State) : s.Bus (s.exchange b).1 :=
  ((s.bus_setSeq _).trans (State.bus_transfer _ _)).trans (State.bus_frameNotes _ _ _ _)

theorem State.bus_closeFrame (e : Option OpError) (s : State) : s.Bus (s.closeFrame e).1 :=
  ((((s.bus_setSeq _).trans (State.bus_frameNotes _ _ _ _)).trans
    (State.bus_setSelect _ _)).trans (State.bus_setSeq _ _)).trans (State.bus_frameNotes _ _ _ _)

theorem State.bus_exchangeAll (bs : List Byte) (s : State) : s.Bus (State.exchangeAll bs s).1 := by
  induction bs generalizing s with
  | nil => exact .refl s
  | cons b rest ih =>
    unfold State.exchangeAll
    dsimp only
    split
    · exact s.bus_exchange b
    · exact (s.bus_exchange b).trans (ih _)

theorem State.bus_runFrame (bs : List Byte) (s : State) : s.Bus (s.runFrame bs).1 := by
  unfold State.runFrame
  dsimp only
  refine State.Bus.trans ?_ (State.bus_closeFrame _ _)
  split
  · exact s.bus_openFrame.trans (State.bus_exchangeAll _ _)
  · exact s.bus_openFrame

theorem State.bus_readFrame (a : Addr) (n : Nat) (s : State) : s.Bus (s.readFrame a n).1 :=
  s.bus_runFrame _

theorem State.bus_writeFrame (a : Addr) (d : List Byte) (s : State) : s.Bus (s.writeFrame a d).1 :=
  s.bus_runFrame _

theorem State.bus_burstWrite (d : List Byte) (s : State) : s.Bus (s.burstWrite d).1 :=
  s.bus_markBurst.trans (State.bus_writeFrame _ _ _)

theorem State.bus_burstRead (n : Nat) (s : State) : s.Bus (s.burstRead n).1 :=
  s.bus_markBurst.trans (State.bus_readFrame _ _ _)

/-- Reading a register is bus traffic and nothing else. -/
theorem State.bus_readReg (a : Addr) (s : State) : s.Bus (s.readReg a).1 :=
  (s.bus_markRead a).trans (State.bus_readFrame _ _ _)

/-! ### The end of a frame: chip-select is released and the sequencer is back -/

@[simp] theorem State.setSelect_seq (active : Bool) (s : State) :
    (s.setSelect active).1.seq = s.seq := by cases active <;> rfl

@[simp] theorem State.setSelect_cs (active : Bool) (s : State) :
    (s.setSelect active).1.cs = s.cs := by cases active <;> rfl

@[simp] theorem State.setSelect_path (active : Bool) (s : State) :
    (s.setSelect active).1.path = s.path := by cases active <;> rfl

theorem State.transfer_keeps (b : Byte) (s : State) :
    (s.transfer b).1.cs = s.cs ∧ (s.transfer b).1.opener = s.opener
      ∧ (s.transfer b).1.seq = s.seq ∧ (s.transfer b).1.path = s.path := by
  unfold State.transfer
  split <;> exact ⟨rfl, rfl, rfl, rfl⟩

theorem State.openFrame_cs (s : State) : s.openFrame.1.cs = true := rfl

theorem State.openFrame_opener (s : State) : s.openFrame.1.opener = s.seq := rfl

theorem State.exchange_keeps (b : Byte) (s : State) :
    (s.exchange b).1.cs = s.cs ∧ (s.exchange b).1.opener = s.opener :=
  have h := State.transfer_keeps b (s.setSeq (nextExchange s.seq))
  ⟨h.1, h.2.1⟩

theorem State.exchangeAll_keeps (bs : List Byte) (s : State) :
    (State.exchangeAll bs s).1.cs = s.cs ∧ (State.exchangeAll bs s).1.opener = s.opener := by
  induction bs generalizing s with
  | nil => exact ⟨rfl, rfl⟩
  | cons b rest ih =>
    have h := s.exchange_keeps b
    unfold State.exchangeAll
    dsimp only
    split
    · exact h
    · exact ⟨(ih _).1.trans h.1, (ih _).2.trans h.2⟩

@[simp] theorem State.closeFrame_cs (e : Option OpError) (s : State) :
    (s.closeFrame e).1.cs = false := by
  simp [State.closeFrame]

theorem State.closeFrame_seq (e : Option OpError) (s : State) :
    (s.closeFrame e).1.seq = if s.cs then s.opener else s.seq := rfl

/-- Every frame is closed, and the sequencer is back in the state that opened it. -/
theorem State.runFrame_ends (bs : List Byte) (s : State) : (s.runFrame bs).1.endedIn s.seq := by
  have hk := State.exchangeAll_keeps bs s.openFrame.1
  refine ⟨by simp [State.runFrame], ?_⟩
  unfold State.runFrame
  dsimp only
  rw [State.closeFrame_seq]
  split
  · rw [hk.1, hk.2]; rfl
  · rfl

theorem State.readReg_ends (a : Addr) (s : State) : (s.readReg a).1.endedIn s.seq :=
  State.runFrame_ends _ (s.markRead a)

theorem State.burstWrite_ends (d : List Byte) (s : State) : (s.burstWrite d).1.endedIn s.seq :=
  State.runFrame_ends _ s.markBurst

theorem State.burstRead_ends (n : Nat) (s : State) : (s.burstRead n).1.endedIn s.seq :=
  State.runFrame_ends _ s.markBurst

end Sys2Proof.Machine
end

