-- ==== Sys2Proof/Laws/Frames.lean ====
section
/-!
SUPPORT. What a whole frame does, said once: the calls it makes, the commands it issues and the
error it ends with, as the errors the platform reports decide; and which register it can change.
-/

namespace Sys2Proof.Machine

/-! ### Counting calls -/

@[simp] theorem State.setSelect_tick (active : Bool) (s : State) :
    (s.setSelect active).1.tick = s.tick + 1 := by cases active <;> rfl

@[simp] theorem State.transfer_tick (b : Byte) (s : State) :
    (s.transfer b).1.tick = s.tick + 1 := by
  unfold State.transfer; split <;> rfl

@[simp] theorem State.openFrame_tick (s : State) : s.openFrame.1.tick = s.tick + 1 := rfl

@[simp] theorem State.exchange_tick (b : Byte) (s : State) :
    (s.exchange b).1.tick = s.tick + 1 := State.transfer_tick b _

@[simp] theorem State.closeFrame_tick (e : Option OpError) (s : State) :
    (s.closeFrame e).1.tick = s.tick + 1 := rfl

/-- The environment's later choices are those counted from the earlier state. -/
theorem State.momentAt_later {s t : State} (h : s.Extends t) {n : Nat} (ht : t.tick = s.tick + n)
    (k : Nat) : t.momentAt k = s.momentAt (n + k) := by
  unfold State.momentAt
  rw [h.script, ht, Nat.add_assoc]

theorem State.callErrorAt_later {s t : State} (h : s.Extends t) {n : Nat}
    (ht : t.tick = s.tick + n) (k : Nat) : t.callErrorAt k = s.callErrorAt (n + k) := by
  unfold State.callErrorAt
  rw [h.cfg, State.momentAt_later h ht]

theorem State.callError_eq (s : State) : s.callError = s.callErrorAt 0 := rfl

theorem State.noFailure_later {s t : State} (h : s.Extends t) {n m : Nat}
    (ht : t.tick = s.tick + n) (hf : s.noFailure (n + m)) : t.noFailure m := by
  intro k hk
  rw [State.callErrorAt_later h ht]
  exact hf _ (by omega)

theorem State.noFailure_mono {s : State} {n m : Nat} (h : s.noFailure n) (hm : m ≤ n) :
    s.noFailure m := fun k hk => h k (by omega)

/-! ### Commands issued -/

theorem State.issued_refl (s : State) : s.issued s [] := by simp [State.issued]

theorem State.issued_trans {s t u : State} {l l' : List BusAct} (h : s.issued t l)
    (h' : t.issued u l') : s.issued u (l ++ l') := by
  unfold State.issued at *
  rw [h', h, List.append_assoc]

@[simp] theorem State.setSelect_trace (active : Bool) (s : State) :
    (s.setSelect active).1.trace = s.trace ++ [.select active s.callError] := by
  cases active <;> rfl

theorem State.transfer_trace (b : Byte) (s : State) :
    (s.transfer b).1.trace = s.trace ++ [.transfer b (s.transfer b).2] := by
  unfold State.transfer; split <;> rfl

theorem State.openFrame_issued (s : State) : s.issued s.openFrame.1 [.select true] := by
  show List.map BusCall.act (s.trace ++ [.select true _]) = _
  simp [BusCall.act]

theorem State.exchange_issued (b : Byte) (s : State) : s.issued (s.exchange b).1 [.send b] := by
  have h := State.transfer_trace b (s.setSeq (nextExchange s.seq))
  show List.map BusCall.act (State.transfer b (s.setSeq (nextExchange s.seq))).1.trace = _
  rw [h]
  simp [BusCall.act]

theorem State.closeFrame_issued (e : Option OpError) (s : State) :
    s.issued (s.closeFrame e).1 [.select false] := by
  show List.map BusCall.act (State.setSelect false _).1.trace = _
  simp [BusCall.act]

/-! ### Errors of the steps -/

theorem State.openFrame_error (s : State) :
    s.openFrame.2 = (s.callErrorAt 0).map transportError := rfl

theorem State.closeFrame_error (e : Option OpError) (s : State) :
    (s.closeFrame e).2 = e.or ((s.callErrorAt 0).map transportError) := rfl

/-- An exchange fails exactly when the platform reports an error, and with that error. -/
theorem State.exchange_of_error {s : State} {e : PlatformError} (h : s.callErrorAt 0 = some e)
    (b : Byte) : (s.exchange b).2 = .error (transportError e) := by
  have h' : (s.setSeq (nextExchange s.seq)).callError = some e := h
  unfold State.exchange State.transfer
  simp only [h']
  rfl

theorem State.exchange_of_none {s : State} (h : s.callErrorAt 0 = none) (b : Byte) :
    ∃ r, (s.exchange b).2 = .ok r := by
  have h' : (s.setSeq (nextExchange s.seq)).callError = none := h
  unfold State.exchange State.transfer
  simp only [h']
  exact ⟨_, rfl⟩

/-! ### A run of exchanges -/

/-- Exchanges without a failure: all bytes are sent and as many are received. -/
theorem State.exchangeAll_ok (bs : List Byte) {s : State} (h : s.noFailure bs.length) :
    (State.exchangeAll bs s).2.2 = none ∧ (State.exchangeAll bs s).2.1.length = bs.length
      ∧ (State.exchangeAll bs s).1.tick = s.tick + bs.length
      ∧ s.issued (State.exchangeAll bs s).1 (bs.map .send) := by
  induction bs generalizing s with
  | nil => exact ⟨rfl, rfl, rfl, s.issued_refl⟩
  | cons b rest ih =>
    obtain ⟨r, hr⟩ := State.exchange_of_none (h 0 (by simp)) b
    have hb := s.bus_exchange b
    have hf : (s.exchange b).1.noFailure rest.length :=
      State.noFailure_later hb.toExtends (State.exchange_tick b s)
        (State.noFailure_mono h (by simp [Nat.add_comm]))
    obtain ⟨h1, h2, h3, h4⟩ := ih hf
    unfold State.exchangeAll
    simp only [hr]
    refine ⟨h1, by simp [h2], ?_, ?_⟩
    · rw [h3, State.exchange_tick]; simp; omega
    · exact State.issued_trans (s.exchange_issued b) h4

/-- Exchanges up to the first failure: the bytes up to the failing one are sent. -/
theorem State.exchangeAll_fails (bs : List Byte) {s : State} {k : Nat} {e : PlatformError}
    (hk : k < bs.length) (h : s.noFailure k) (he : s.callErrorAt k = some e) :
    (State.exchangeAll bs s).2.2 = some (transportError e)
      ∧ (State.exchangeAll bs s).1.tick = s.tick + (k + 1)
      ∧ s.issued (State.exchangeAll bs s).1 ((bs.take (k + 1)).map .send) := by
  induction bs generalizing s k with
  | nil => simp at hk
  | cons b rest ih =>
    have hb := s.bus_exchange b
    cases k with
    | zero =>
      have hr := State.exchange_of_error he b
      unfold State.exchangeAll
      simp only [hr]
      exact ⟨trivial, State.exchange_tick b s, by simpa using s.exchange_issued b⟩
    | succ k =>
      obtain ⟨r, hr⟩ := State.exchange_of_none (h 0 (by omega)) b
      have hf : (s.exchange b).1.noFailure k :=
        State.noFailure_later hb.toExtends (State.exchange_tick b s)
          (State.noFailure_mono h (by omega))
      have he' : (s.exchange b).1.callErrorAt k = some e := by
        rw [State.callErrorAt_later hb.toExtends (State.exchange_tick b s), Nat.add_comm]
        exact he
      obtain ⟨h1, h2, h3⟩ := ih (by simpa using hk) hf he'
      unfold State.exchangeAll
      simp only [hr]
      refine ⟨h1, ?_, ?_⟩
      · rw [h2, State.exchange_tick]; omega
      · exact State.issued_trans (s.exchange_issued b) h3

/-! ### A whole frame -/

/-- A frame without a failure: every byte is sent, as many are received, no error. -/
theorem State.runFrame_ok (bs : List Byte) {s : State} (h : s.noFailure (bs.length + 2)) :
    (s.runFrame bs).2.2 = none ∧ (s.runFrame bs).2.1.length = bs.length
      ∧ (s.runFrame bs).1.tick = s.tick + (bs.length + 2)
      ∧ s.issued (s.runFrame bs).1 (frameActs bs) := by
  have ho : s.openFrame.2 = none := by rw [State.openFrame_error, h 0 (by omega)]; rfl
  have hb := s.bus_openFrame
  have hf : s.openFrame.1.noFailure (bs.length + 1) :=
    State.noFailure_later hb.toExtends (State.openFrame_tick s)
      (State.noFailure_mono h (by omega))
  obtain ⟨h1, h2, h3, h4⟩ := State.exchangeAll_ok bs (State.noFailure_mono hf (by omega))
  have hc : (State.exchangeAll bs s.openFrame.1).1.callErrorAt 0 = none := by
    rw [State.callErrorAt_later (State.bus_exchangeAll bs _).toExtends h3]
    exact hf _ (by omega)
  unfold State.runFrame
  simp only [ho, Option.isNone_none, if_true]
  refine ⟨by rw [State.closeFrame_error, h1, hc]; rfl, h2, ?_, ?_⟩
  · rw [State.closeFrame_tick, h3, State.openFrame_tick]; omega
  · exact State.issued_trans s.openFrame_issued
      (State.issued_trans h4 (State.closeFrame_issued _ _))

/-- A frame whose first failing call is the k-th: the error of that call, the bytes up to the failing
exchange, and the release (40_register_access R103). -/
theorem State.runFrame_fails (bs : List Byte) {s : State} {k : Nat} {e : PlatformError}
    (hk : k < bs.length + 2) (h : s.noFailure k) (he : s.callErrorAt k = some e) :
    (s.runFrame bs).2.2 = some (transportError e)
      ∧ s.issued (s.runFrame bs).1 (frameActs (bs.take k)) := by
  have hb := s.bus_openFrame
  cases k with
  | zero =>
    have ho : s.openFrame.2 = some (transportError e) := by
      rw [State.openFrame_error, he]; rfl
    unfold State.runFrame
    simp only [ho, Option.isNone_some, Bool.false_eq_true, if_false]
    exact ⟨by rw [State.closeFrame_error]; rfl,
      State.issued_trans s.openFrame_issued (State.closeFrame_issued _ _)⟩
  | succ k =>
    have ho : s.openFrame.2 = none := by rw [State.openFrame_error, h 0 (by omega)]; rfl
    have hf : s.openFrame.1.noFailure k :=
      State.noFailure_later hb.toExtends (State.openFrame_tick s)
        (State.noFailure_mono h (by omega))
    have he' : s.openFrame.1.callErrorAt k = some e := by
      rw [State.callErrorAt_later hb.toExtends (State.openFrame_tick s), Nat.add_comm]; exact he
    unfold State.runFrame
    simp only [ho, Option.isNone_none, if_true]
    rcases Nat.lt_or_ge k bs.length with hlt | hge
    · obtain ⟨h1, -, h3⟩ := State.exchangeAll_fails bs hlt hf he'
      exact ⟨by rw [State.closeFrame_error, h1]; rfl,
        State.issued_trans s.openFrame_issued
          (State.issued_trans h3 (State.closeFrame_issued _ _))⟩
    · have hkl : k = bs.length := by omega
      subst hkl
      obtain ⟨h1, -, h3, h4⟩ := State.exchangeAll_ok bs hf
      have hc : (State.exchangeAll bs s.openFrame.1).1.callErrorAt 0 = some e := by
        rw [State.callErrorAt_later (State.bus_exchangeAll bs _).toExtends h3]
        exact he'
      refine ⟨by rw [State.closeFrame_error, h1, hc]; rfl, ?_⟩
      rw [List.take_of_length_le (by omega)]
      exact State.issued_trans s.openFrame_issued
        (State.issued_trans h4 (State.closeFrame_issued _ _))

/-- Every frame ends with no error or with one the platform returned. -/
theorem State.runFrame_error (bs : List Byte) (s : State) :
    s.noFailure (bs.length + 2) ∨ ∃ k e, k < bs.length + 2 ∧ s.noFailure k
      ∧ s.callErrorAt k = some e := by
  induction bs.length + 2 with
  | zero => exact .inl (fun k hk => absurd hk (Nat.not_lt_zero k))
  | succ n ih =>
    rcases ih with hn | ⟨k, e, hk, h⟩
    · cases hc : s.callErrorAt n with
      | none =>
        refine .inl (fun k hk => ?_)
        rcases Nat.lt_succ_iff_lt_or_eq.mp hk with h | h
        · exact hn k h
        · rw [h]; exact hc
      | some e => exact .inr ⟨n, e, Nat.lt_succ_self n, hn, hc⟩
    · exact .inr ⟨k, e, Nat.lt_succ_of_lt hk, h⟩

end Sys2Proof.Machine
end

