-- ==== Sys2Proof/Laws/Registers.lean ====
section
/-!
SUPPORT. Which registers of the target a frame can change: at most the one it addresses, and none by
a read frame that did not fail.
-/

namespace Sys2Proof.Machine

/-- Between `s` and `t` no register outside `as` changed, where a law ties the target at all. -/
def State.RegsKept (as : List Addr) (s t : State) : Prop :=
  s.target.sound s.cfg → t.lawless = false → ∀ b, b ∉ as → t.target.reg b = s.target.reg b

theorem State.RegsKept.trans {as : List Addr} {s t u : State} (e : s.Extends t)
    (h : State.RegsKept as s t) (e' : t.Extends u) (h' : State.RegsKept as t u) :
    State.RegsKept as s u := fun hs hl b hb => by
  have ht : t.target.sound t.cfg := by rw [e.cfg]; exact e.sound hs
  rw [h' ht hl b hb, h hs (e'.lawless hl) b hb]

theorem State.RegsKept.mono {as bs : List Addr} {s t : State} (h : State.RegsKept as s t)
    (hab : ∀ b, b ∈ as → b ∈ bs) : State.RegsKept bs s t :=
  fun hs hl b hb => h hs hl b (fun hm => hb (hab b hm))

/-- A state with the same target keeps every register. -/
theorem State.regsKept_of_target {s t : State} (as : List Addr) (h : t.target = s.target) :
    State.RegsKept as s t := fun _ _ b _ => by rw [h]

theorem State.regsKept_elapse (as : List Addr) (s : State) : State.RegsKept as s s.elapse :=
  fun _ hl b _ => by
    rw [State.elapse_lawless] at hl
    unfold Target.reg
    rw [State.elapse_target_x hl]

theorem State.regsKept_now (as : List Addr) (s : State) : State.RegsKept as s s.now.1 :=
  s.regsKept_elapse as

theorem State.regsKept_sleep (as : List Addr) (d : Nat) (s : State) :
    State.RegsKept as s (s.sleep d) := s.regsKept_elapse as

/-! ### The frame on the bus -/

/-- The frame on the bus has been addressed to register `a` in direction `w`. -/
def State.addressedTo (s : State) (w : Bool) (a : Addr) : Prop :=
  ∃ f, s.frame = some f ∧ f.addr = some (w, a)

/-- The same, no step of the frame has failed, and only where `p` holds does it carry a byte to
deliver. -/
def State.soundFrameTo (s : State) (w : Bool) (a : Addr) (p : Bool) : Prop :=
  ∃ f, s.frame = some f ∧ f.addr = some (w, a) ∧ f.failed = false
    ∧ (p = false → f.pending = none)

/-- The registers a frame at `a` that did not fail can change, where `p` says whether it carries a byte
to deliver. -/
def frameRegisters (p : Bool) (a : Addr) : List Addr := if p then [a] else []

theorem insertDirection_spec : ∀ (d : Fin 8) (w : Bool) (a : Addr),
    (insertDirection d w a).getLsbD d.val = w
      ∧ removeDirection d (insertDirection d w a) = a := by decide +kernel

theorem insertDirection_removeDirection : ∀ (d : Fin 8) (b : Byte),
    insertDirection d (b.getLsbD d.val) (removeDirection d b) = b := by decide +kernel

@[simp] theorem addressByteDir_addressByte (c : Config) (w : Bool) (a : Addr) :
    addressByteDir c (addressByte c w a) = w := (insertDirection_spec c.dirBit w a).1

@[simp] theorem addressByteAddr_addressByte (c : Config) (w : Bool) (a : Addr) :
    addressByteAddr c (addressByte c w a) = a := (insertDirection_spec c.dirBit w a).2

/-- Every byte is the address byte of its direction and address. -/
@[simp] theorem addressByte_eta (c : Config) (b : Byte) :
    addressByte c (addressByteDir c b) (addressByteAddr c b) = b :=
  insertDirection_removeDirection c.dirBit b

/-- A data exchange counts, and only in a write it leaves a byte with the frame. -/
theorem State.dataAnswer_frame (m : Moment) (free : Target) (f : BusFrame) (w : Bool) (a : Addr)
    (b : Byte) (s : State) : ∃ q, (s.dataAnswer m free f w a b).frame
      = some { f with data := f.data + 1, attempted := f.attempted + 1, pending := q }
        ∧ (w = false → q = f.pending) ∧ (q = f.pending ∨ q = some b) := by
  unfold State.dataAnswer
  dsimp only
  split
  · exact ⟨_, rfl, fun _ => rfl, .inl rfl⟩
  · split
    · exact ⟨_, rfl, nofun, .inr rfl⟩
    · exact ⟨_, rfl, fun _ => rfl, .inl rfl⟩
    · split
      · exact ⟨_, rfl, fun _ => rfl, .inl rfl⟩
      · exact ⟨_, rfl, nofun, .inr rfl⟩
    · exact ⟨_, rfl, fun _ => rfl, .inl rfl⟩

/-- A data exchange changes no register: a byte for the FIFO goes there, and a byte for a register is
delivered when the frame ends. -/
theorem State.dataAnswer_x (m : Moment) (free : Target) (f : BusFrame) (w : Bool) (a : Addr)
    (b : Byte) (s : State) : (s.dataAnswer m free f w a b).target.x = s.target.x := by
  unfold State.dataAnswer
  dsimp only
  split
  · rfl
  · split
    · rfl
    · rfl
    · split
      · exact Target.pushFifo_x ..
      · rfl
    · exact Target.readData_x ..

/-- What the target answers to a frame's first byte. -/
theorem State.answer_address {s : State} {f : BusFrame} (hf : s.frame = some f)
    (ha : f.addr = none) (m : Moment) (free : Target) (b : Byte) :
    s.answer m free b = ⟨s.target,
      some { f with
        addr := some (addressByteDir s.cfg b, addressByteAddr s.cfg b), attempted := f.attempted + 1 },
      false, if s.lawless then m.byte else 0⟩ := by
  unfold State.answer
  rw [hf]
  simp only [ha]

/-- What the target answers to a later byte. -/
theorem State.answer_data {s : State} {f : BusFrame} (hf : s.frame = some f) {w : Bool} {a : Addr}
    (ha : f.addr = some (w, a)) (m : Moment) (free : Target) (b : Byte) :
    s.answer m free b = s.dataAnswer m free f w a b := by
  unfold State.answer
  rw [hf]
  simp only [ha]

theorem State.transfer_of_error {s : State} {e : PlatformError} (h : s.callErrorAt 0 = some e)
    (b : Byte) :
    s.transfer b = ((s.elapse.failInFrame b).log (.transfer b (.error e)), .error e) := by
  unfold State.transfer
  rw [State.callError_eq, h]

theorem State.transfer_of_none {s : State} (h : s.callErrorAt 0 = none) (b : Byte) :
    s.transfer b = ((s.elapse.withAnswer (s.elapse.answer s.moment s.free b)).log
        (.transfer b (.ok (s.elapse.answer s.moment s.free b).byte)),
      .ok (s.elapse.answer s.moment s.free b).byte) := by
  unfold State.transfer
  rw [State.callError_eq, h]

/-- The exchange of the address byte: the frame is addressed, failed or not, and no register
changes. -/
theorem State.transfer_address {s : State} {f : BusFrame} (hf : s.frame = some f)
    (ha : f.addr = none) (w : Bool) (a : Addr) :
    (s.transfer (addressByte s.cfg w a)).1.addressedTo w a
      ∧ State.RegsKept [] s (s.transfer (addressByte s.cfg w a)).1 := by
  have hfe : s.elapse.frame = some f := hf
  have hk := s.regsKept_elapse []
  cases hc : s.callErrorAt 0 with
  | some e =>
    rw [State.transfer_of_error hc]
    refine ⟨⟨_, congrArg (Option.map (BusFrame.fail s.cfg (addressByte s.cfg w a))) hfe, ?_⟩,
      fun hs hl b hb => hk hs hl b hb⟩
    simp [BusFrame.fail, ha]
  | none =>
    refine ⟨?_, fun hs hl b hb => ?_⟩
    · rw [State.transfer_of_none hc, State.answer_address hfe ha]
      exact ⟨_, rfl, by simp⟩
    · have hl' := (s.bus_transfer _).toExtends.lawless hl
      rw [State.transfer_of_none hc, State.answer_address hfe ha]
      exact hk hs hl' b hb

theorem State.transfer_address_ok {s : State} {f : BusFrame} (hf : s.frame = some f)
    (ha : f.addr = none) (hg : f.failed = false) (hp : f.pending = none)
    (hc : s.callErrorAt 0 = none) (w : Bool) (a : Addr) (p : Bool) :
    (s.transfer (addressByte s.cfg w a)).1.soundFrameTo w a p := by
  have hfe : s.elapse.frame = some f := hf
  rw [State.transfer_of_none hc, State.answer_address hfe ha]
  exact ⟨_, rfl, by simp, hg, fun _ => hp⟩

/-- A data exchange: the frame stays addressed, and no register changes. -/
theorem State.transfer_data {s : State} {w : Bool} {a : Addr} (h : s.addressedTo w a) (b : Byte) :
    (s.transfer b).1.addressedTo w a ∧ State.RegsKept [] s (s.transfer b).1 := by
  obtain ⟨f, hf, ha⟩ := h
  have hfe : s.elapse.frame = some f := hf
  have hk := s.regsKept_elapse []
  cases hc : s.callErrorAt 0 with
  | some e =>
    rw [State.transfer_of_error hc]
    refine ⟨⟨_, congrArg (Option.map (BusFrame.fail s.cfg b)) hfe, ?_⟩,
      fun hs hl r hr => hk hs hl r hr⟩
    simp [BusFrame.fail, ha]
  | none =>
    have hw := State.bus_withAnswer s.moment s.free b s.elapse s.free_fifo
    rw [State.transfer_of_none hc]
    refine ⟨?_, State.RegsKept.trans s.bus_elapse.toExtends hk
        (hw.trans (State.bus_log _ _)).toExtends ?_⟩
    · obtain ⟨q, hq, -⟩ := s.elapse.dataAnswer_frame s.moment s.free f w a b
      refine ⟨{ f with data := f.data + 1, attempted := f.attempted + 1, pending := q }, ?_, ha⟩
      show (s.elapse.answer s.moment s.free b).frame = _
      rw [State.answer_data hfe ha, hq]
    · intro _ _ r _
      show (s.elapse.answer s.moment s.free b).target.reg r = _
      rw [State.answer_data hfe ha]
      unfold Target.reg
      rw [State.dataAnswer_x]

theorem State.transfer_data_ok {s : State} {w : Bool} {a : Addr} {p : Bool}
    (h : s.soundFrameTo w a p) (hp : w = true → p = true) (hc : s.callErrorAt 0 = none) (b : Byte) :
    (s.transfer b).1.soundFrameTo w a p := by
  obtain ⟨f, hf, ha, hg, hq⟩ := h
  have hfe : s.elapse.frame = some f := hf
  obtain ⟨q, hfr, hqr, -⟩ := s.elapse.dataAnswer_frame s.moment s.free f w a b
  rw [State.transfer_of_none hc]
  refine ⟨{ f with data := f.data + 1, attempted := f.attempted + 1, pending := q }, ?_, ha, hg,
    fun hpf => ?_⟩
  · show (s.elapse.answer s.moment s.free b).frame = _
    rw [State.answer_data hfe ha, hfr]
  · cases w with
    | true => rw [hp rfl] at hpf; cases hpf
    | false => exact (hqr rfl).trans (hq hpf)

theorem State.exchange_data {s : State} {w : Bool} {a : Addr} (h : s.addressedTo w a) (b : Byte) :
    (s.exchange b).1.addressedTo w a ∧ State.RegsKept [] s (s.exchange b).1 :=
  State.transfer_data (s := s.setSeq (nextExchange s.seq)) h b

theorem State.exchange_data_ok {s : State} {w : Bool} {a : Addr} {p : Bool}
    (h : s.soundFrameTo w a p) (hp : w = true → p = true) (hc : s.callErrorAt 0 = none) (b : Byte) :
    (s.exchange b).1.soundFrameTo w a p :=
  State.transfer_data_ok (s := s.setSeq (nextExchange s.seq)) h hp hc b

theorem State.exchangeAll_data {s : State} {w : Bool} {a : Addr} (h : s.addressedTo w a)
    (bs : List Byte) :
    (State.exchangeAll bs s).1.addressedTo w a
      ∧ State.RegsKept [] s (State.exchangeAll bs s).1 := by
  induction bs generalizing s with
  | nil => exact ⟨h, State.regsKept_of_target _ rfl⟩
  | cons b rest ih =>
    have hb := State.exchange_data h b
    unfold State.exchangeAll
    dsimp only
    split
    · exact hb
    · exact ⟨(ih hb.1).1, State.RegsKept.trans (s.bus_exchange b).toExtends hb.2
        (State.bus_exchangeAll _ _).toExtends (ih hb.1).2⟩

theorem State.exchangeAll_data_ok {s : State} {w : Bool} {a : Addr} {p : Bool}
    (h : s.soundFrameTo w a p) (bs : List Byte) (hp : bs ≠ [] → w = true → p = true)
    (hn : s.noFailure bs.length) : (State.exchangeAll bs s).1.soundFrameTo w a p := by
  induction bs generalizing s with
  | nil => exact h
  | cons b rest ih =>
    have hb := State.exchange_data_ok h (hp (by simp)) (hn 0 (by simp)) b
    obtain ⟨r, hr⟩ := State.exchange_of_none (hn 0 (by simp)) b
    have hn' : (s.exchange b).1.noFailure rest.length :=
      State.noFailure_later (s.bus_exchange b).toExtends (State.exchange_tick b s)
        (State.noFailure_mono hn (by simp [Nat.add_comm]))
    unfold State.exchangeAll
    simp only [hr]
    exact ih hb (fun _ => hp (by simp)) hn'

/-- The state in which the `SetSelect(false)` of a close is called. -/
def State.closing (s : State) : State := { s.setSeq .frameClose with cs := false }

theorem State.closeFrame_target (e : Option OpError) (s : State) :
    (s.closeFrame e).1.target
      = (s.closing.elapse.afterFrame s.closing.moment s.closing.free s.closing.callError).1 := rfl

/-- What `CS-` does to the registers is what the end of the frame does to them. -/
theorem State.closeFrame_regsKept {as : List Addr} {s : State} {e : Option OpError}
    (h : s.closing.elapse.target.sound s.cfg → ∀ b, b ∉ as →
      (s.closing.elapse.afterFrame s.closing.moment s.closing.free
        s.closing.callError).1.reg b = s.closing.elapse.target.reg b) :
    State.RegsKept as s (s.closeFrame e).1 := fun hs hl b hb => by
  have hl' : s.closing.lawless = false := (State.bus_closeFrame e s).toExtends.lawless hl
  rw [State.closeFrame_target, h (State.elapse_target_sound (s := s.closing) hs) b hb]
  exact s.closing.regsKept_elapse as hs hl' b hb

/-- `CS-`: at most the register the frame addressed changes. -/
theorem State.closeFrame_regs {s : State} {w : Bool} {a : Addr} (h : s.addressedTo w a)
    (e : Option OpError) : State.RegsKept [a] s (s.closeFrame e).1 := by
  obtain ⟨f, hf, ha⟩ := h
  have hf' : s.closing.elapse.frame = some f := hf
  obtain ⟨fa, fd, ft, ff, fp⟩ := f
  obtain rfl : fa = some (w, a) := ha
  refine State.closeFrame_regsKept fun hs b hb => ?_
  have hb' : b ≠ a := by simpa using hb
  unfold State.afterFrame
  rw [hf']
  dsimp only
  split
  · rfl
  · split
    · exact Target.afterFailure_reg_other hs.1 hb' _ _ _
    · split
      · exact Target.deliver_reg_other hs.1 hb' _ _
      · rfl

/-- `CS-` of a frame in which nothing failed changes a register only where the frame carries a byte to
deliver. -/
theorem State.closeFrame_regs_ok {s : State} {w : Bool} {a : Addr} {p : Bool}
    (h : s.soundFrameTo w a p) (hc : s.callErrorAt 0 = none) (e : Option OpError) :
    State.RegsKept (frameRegisters p a) s (s.closeFrame e).1 := by
  obtain ⟨f, hf, ha, hg, hp⟩ := h
  cases p with
  | true => exact State.closeFrame_regs ⟨f, hf, ha⟩ e
  | false =>
    have hf' : s.closing.elapse.frame = some f := hf
    have hc' : s.closing.callError = none := hc
    obtain ⟨fa, fd, ft, ff, fp⟩ := f
    obtain rfl : fa = some (w, a) := ha
    obtain rfl : ff = false := hg
    obtain rfl : fp = none := hp rfl
    refine State.closeFrame_regsKept fun _ b _ => ?_
    unfold State.afterFrame
    rw [hf', hc']
    dsimp only
    split <;> rfl

/-- `CS-` of a frame that was never addressed changes no register (30_encoding R81). -/
theorem State.closeFrame_regs_unaddressed {s : State}
    (h : ∀ f, s.frame = some f → f.addr = none) (e : Option OpError) :
    State.RegsKept [] s (s.closeFrame e).1 := by
  refine State.closeFrame_regsKept fun _ b _ => ?_
  have h' : ∀ f, s.closing.elapse.frame = some f → f.addr = none := h
  unfold State.afterFrame
  split
  · next hfr => exact absurd (h' _ hfr) (by simp)
  · rfl

/-! ### Whole frames -/

theorem State.openFrame_frame (s : State) :
    s.openFrame.1.frame = some { failed := (s.callErrorAt 0).isSome } := rfl

theorem State.openFrame_regs (s : State) : State.RegsKept [] s s.openFrame.1 :=
  s.regsKept_elapse []

/-- A frame changes no register but the one it addresses. -/
theorem State.runFrame_regs (w : Bool) (a : Addr) (d : List Byte) (s : State) :
    State.RegsKept [a] s (s.runFrame (addressByte s.cfg w a :: d)).1 := by
  have hopen := s.openFrame_regs.mono (bs := [a]) (by simp)
  unfold State.runFrame
  dsimp only
  split
  · refine State.RegsKept.trans s.bus_openFrame.toExtends hopen
      ((State.bus_exchangeAll _ _).trans (State.bus_closeFrame _ _)).toExtends ?_
    have hx := State.transfer_address
      (s := s.openFrame.1.setSeq (nextExchange s.openFrame.1.seq)) s.openFrame_frame rfl w a
    have hx2 : State.RegsKept [] s.openFrame.1 (s.openFrame.1.exchange (addressByte s.cfg w a)).1 :=
      hx.2
    have hx1 : (s.openFrame.1.exchange (addressByte s.cfg w a)).1.addressedTo w a := hx.1
    unfold State.exchangeAll
    dsimp only
    split
    · exact State.RegsKept.trans (State.bus_exchange _ _).toExtends (hx2.mono (by simp))
        (State.bus_closeFrame _ _).toExtends (State.closeFrame_regs hx1 _)
    · have hd := State.exchangeAll_data hx1 d
      refine State.RegsKept.trans (State.bus_exchange _ _).toExtends (hx2.mono (by simp))
        ((State.bus_exchangeAll _ _).trans (State.bus_closeFrame _ _)).toExtends ?_
      refine State.RegsKept.trans (State.bus_exchangeAll _ _).toExtends
        (hd.2.mono (by simp))
        (State.bus_closeFrame _ _).toExtends (State.closeFrame_regs hd.1 _)
  · refine State.RegsKept.trans s.bus_openFrame.toExtends hopen
      (State.bus_closeFrame _ _).toExtends ?_
    exact (State.closeFrame_regs_unaddressed (by rw [s.openFrame_frame]; simp) _).mono (by simp)

/-- A frame in which no step failed changes a register only if it is a write with data, and then only
the one it addresses. -/
theorem State.runFrame_regs_ok (w : Bool) (a : Addr) (d : List Byte) {s : State}
    (hn : s.noFailure (d.length + 3)) :
    State.RegsKept (frameRegisters (w && !d.isEmpty) a) s
      (s.runFrame (addressByte s.cfg w a :: d)).1 := by
  have hc : s.callErrorAt 0 = none := hn 0 (by omega)
  have ho : s.openFrame.2 = none := by rw [State.openFrame_error, hc]; rfl
  have hopen := s.openFrame_regs.mono (bs := frameRegisters (w && !d.isEmpty) a) (by simp)
  have hn1 : s.openFrame.1.noFailure (d.length + 2) :=
    State.noFailure_later s.bus_openFrame.toExtends (State.openFrame_tick s)
      (State.noFailure_mono hn (by omega))
  have hx := State.transfer_address
    (s := s.openFrame.1.setSeq (nextExchange s.openFrame.1.seq)) s.openFrame_frame rfl w a
  have hx2 : State.RegsKept [] s.openFrame.1 (s.openFrame.1.exchange (addressByte s.cfg w a)).1 := hx.2
  have hx1 : (s.openFrame.1.exchange (addressByte s.cfg w a)).1.addressedTo w a := hx.1
  have hg : (s.openFrame.1.exchange (addressByte s.cfg w a)).1.soundFrameTo w a
      (w && !d.isEmpty) :=
    State.transfer_address_ok (s := s.openFrame.1.setSeq (nextExchange s.openFrame.1.seq))
      s.openFrame_frame rfl (by rw [hc]; rfl) rfl (hn1 0 (by omega)) w a _
  have hn2 : (s.openFrame.1.exchange (addressByte s.cfg w a)).1.noFailure (d.length + 1) :=
    State.noFailure_later (State.bus_exchange _ _).toExtends (State.exchange_tick _ _)
      (State.noFailure_mono hn1 (by omega))
  obtain ⟨r, hr⟩ := State.exchange_of_none (hn1 0 (by omega)) (addressByte s.cfg w a)
  have hd := State.exchangeAll_data hx1 d
  have hf := State.exchangeAll_data_ok hg d (fun hd hw => by simp [hw, hd])
    (State.noFailure_mono hn2 (by omega))
  have ht := (State.exchangeAll_ok d (State.noFailure_mono hn2 (Nat.le_succ _))).2.2.1
  have hce : (State.exchangeAll d (s.openFrame.1.exchange (addressByte s.cfg w a)).1).1.callErrorAt 0
      = none := by
    rw [State.callErrorAt_later (State.bus_exchangeAll d _).toExtends ht]
    exact hn2 _ (by omega)
  unfold State.runFrame
  simp only [ho, Option.isNone_none, if_true]
  unfold State.exchangeAll
  simp only [hr]
  refine State.RegsKept.trans s.bus_openFrame.toExtends hopen
    (((State.bus_exchange _ _).trans (State.bus_exchangeAll _ _)).trans
      (State.bus_closeFrame _ _)).toExtends ?_
  refine State.RegsKept.trans (State.bus_exchange _ _).toExtends (hx2.mono (by simp))
    ((State.bus_exchangeAll _ _).trans (State.bus_closeFrame _ _)).toExtends ?_
  exact State.RegsKept.trans (State.bus_exchangeAll _ _).toExtends (hd.2.mono (by simp))
    (State.bus_closeFrame _ _).toExtends (State.closeFrame_regs_ok hf hce _)

end Sys2Proof.Machine
end

