-- ==== Sys2Proof/Laws/Operations.lean ====
section
/-!
SUPPORT. What the operations above a frame can do, said once each: two relations weaker than bus
traffic, the end of every operation, and the inversion of the three forms an operation's outcome
takes.
-/

namespace Sys2Proof.Machine

/-! ### The relations -/

/-- What holds between a state and one after an operation other than `Reset` and `SetFrequency`: a
later state, with the reset line, `dropped` and the last result as they were. -/
structure State.Work (s t : State) : Prop extends State.Extends s t where
  rst : t.rst = s.rst
  dropped : t.dropped = s.dropped
  result : t.result = s.result

theorem State.Work.refl (s : State) : s.Work s := ⟨.refl s, rfl, rfl, rfl⟩

theorem State.Work.trans {s t u : State} (h : s.Work t) (h' : t.Work u) : s.Work u :=
  ⟨h.toExtends.trans h'.toExtends, h'.rst.trans h.rst, h'.dropped.trans h.dropped,
    h'.result.trans h.result⟩

/-- Work that leaves both scratch buffers alone. -/
structure State.Quiet (s t : State) : Prop extends State.Work s t where
  txBuf : t.txBuf = s.txBuf
  rxBuf : t.rxBuf = s.rxBuf

theorem State.Quiet.refl (s : State) : s.Quiet s := ⟨.refl s, rfl, rfl⟩

theorem State.Quiet.trans {s t u : State} (h : s.Quiet t) (h' : t.Quiet u) : s.Quiet u :=
  ⟨h.toWork.trans h'.toWork, h'.txBuf.trans h.txBuf, h'.rxBuf.trans h.rxBuf⟩

theorem State.Bus.quiet {s t : State} (h : s.Bus t) : s.Quiet t :=
  ⟨⟨h.toExtends, h.rst, h.dropped, h.result⟩, h.txBuf, h.rxBuf⟩

/-- Only the mode record and `hazard` differ, and `hazard` can only have risen. -/
theorem State.quiet_modeRecord (s : State) (m : Option Mode) (a h : Bool)
    (hh : s.hazard = true → h = true) :
    s.Quiet { s with modeCache := m, awaitReady := a, hazard := h } :=
  ⟨⟨⟨rfl, rfl, rfl, hh, Nat.le_refl _, Nat.le_refl _, ⟨[], by simp⟩, ⟨[], by simp⟩, rfl, id⟩,
    rfl, rfl, rfl⟩, rfl, rfl⟩

/-- Only the event slot differs, and the clock may have gone on. -/
theorem State.quiet_event (s : State) (e : Bool) (c : Nat) (hc : s.clock ≤ c) :
    s.Quiet { s with evt := e, clock := c } :=
  ⟨⟨⟨rfl, rfl, rfl, id, hc, Nat.le_refl _, ⟨[], by simp⟩, ⟨[], by simp⟩, rfl, id⟩,
    rfl, rfl, rfl⟩, rfl, rfl⟩

/-! ### Mode writes -/

theorem State.beginModeWrite_of_ne {s : State} {a : Addr} (h : a ≠ s.cfg.regOpmode) (v : Byte) :
    s.beginModeWrite a v = s := by simp [State.beginModeWrite, h]

theorem State.beginModeWrite_opmode (s : State) (v : Byte) :
    s.beginModeWrite s.cfg.regOpmode v
      = { s with awaitReady := true, hazard := s.hazard || (modeOf s.cfg v).isNone } := by
  simp [State.beginModeWrite]

theorem State.endModeWrite_of_ne {s : State} {a : Addr} (h : a ≠ s.cfg.regOpmode) (v : Byte)
    (e : Option OpError) : s.endModeWrite a v e = s := by simp [State.endModeWrite, h]

theorem State.endModeWrite_opmode (s : State) (v : Byte) (e : Option OpError) :
    s.endModeWrite s.cfg.regOpmode v e
      = { s with modeCache := if e.isNone then modeOf s.cfg v else none } := by
  simp [State.endModeWrite]

theorem State.quiet_beginModeWrite (a : Addr) (v : Byte) (s : State) :
    s.Quiet (s.beginModeWrite a v) := by
  unfold State.beginModeWrite
  split
  · exact s.quiet_modeRecord s.modeCache true _ (fun h => by simp [h])
  · exact .refl s

theorem State.quiet_endModeWrite (a : Addr) (v : Byte) (e : Option OpError) (s : State) :
    s.Quiet (s.endModeWrite a v e) := by
  unfold State.endModeWrite
  split
  · exact s.quiet_modeRecord _ s.awaitReady s.hazard id
  · exact .refl s

/-- Writing a register is quiet work. -/
theorem State.quiet_writeReg (a : Addr) (v : Byte) (s : State) : s.Quiet (s.writeReg a v).1 :=
  (((s.bus_markWrite a).quiet.trans (State.quiet_beginModeWrite a v _)).trans
    (State.bus_writeFrame _ _ _).quiet).trans (State.quiet_endModeWrite _ _ _ _)

@[simp] theorem State.beginModeWrite_seq (a : Addr) (v : Byte) (s : State) :
    (s.beginModeWrite a v).seq = s.seq := by
  unfold State.beginModeWrite; split <;> rfl

@[simp] theorem State.beginModeWrite_cfg (a : Addr) (v : Byte) (s : State) :
    (s.beginModeWrite a v).cfg = s.cfg := by
  unfold State.beginModeWrite; split <;> rfl

@[simp] theorem State.beginModeWrite_target (a : Addr) (v : Byte) (s : State) :
    (s.beginModeWrite a v).target = s.target := by
  unfold State.beginModeWrite; split <;> rfl

theorem State.endModeWrite_ends {s : State} {q : SeqState} (h : s.endedIn q) (a : Addr) (v : Byte)
    (e : Option OpError) : (s.endModeWrite a v e).endedIn q := by
  unfold State.endModeWrite; split <;> exact h

theorem State.writeReg_ends (a : Addr) (v : Byte) (s : State) :
    (s.writeReg a v).1.endedIn s.seq := by
  have h := State.runFrame_ends
    (writeFrameBytes ((s.markWrite a).beginModeWrite a v).cfg a [v])
    ((s.markWrite a).beginModeWrite a v)
  rw [State.beginModeWrite_seq] at h
  exact State.endModeWrite_ends h a v _

/-- The frame of a register write, from the state its marks leave. -/
def State.writeRegFrame (a : Addr) (v : Byte) (s : State) : State × Option OpError :=
  ((s.markWrite a).beginModeWrite a v).writeFrame a [v]

theorem State.writeReg_eq (a : Addr) (v : Byte) (s : State) :
    s.writeReg a v = ((s.writeRegFrame a v).1.endModeWrite a v (s.writeRegFrame a v).2,
      (s.writeRegFrame a v).2) := rfl

/-- The marks do not touch the configuration, so the frame is that of the state before them. -/
theorem State.writeRegFrame_eq (a : Addr) (v : Byte) (s : State) :
    s.writeRegFrame a v
      = ((((s.markWrite a).beginModeWrite a v).runFrame (writeFrameBytes s.cfg a [v])).1,
        (((s.markWrite a).beginModeWrite a v).runFrame (writeFrameBytes s.cfg a [v])).2.2) := by
  unfold State.writeRegFrame State.writeFrame
  rw [State.beginModeWrite_cfg]
  rfl

theorem State.bus_writeRegFrame (a : Addr) (v : Byte) (s : State) :
    ((s.markWrite a).beginModeWrite a v).Bus (s.writeRegFrame a v).1 :=
  State.bus_writeFrame _ _ _

@[simp] theorem State.writeRegFrame_cfg (a : Addr) (v : Byte) (s : State) :
    (s.writeRegFrame a v).1.cfg = s.cfg := by
  rw [(s.bus_writeRegFrame a v).cfg, State.beginModeWrite_cfg]; rfl

/-- The mode record after a write (10_state R23, R24). -/
theorem State.writeReg_mode (a : Addr) (v : Byte) (s : State) :
    (s.writeReg a v).1.modeCache
        = (if a = s.cfg.regOpmode
            then (if (s.writeReg a v).2.isNone then modeOf s.cfg v else none) else s.modeCache)
      ∧ (s.writeReg a v).1.awaitReady = (s.awaitReady || decide (a = s.cfg.regOpmode)) := by
  have hf := s.bus_writeRegFrame a v
  have hm : (s.markWrite a).cfg = s.cfg := rfl
  rw [State.writeReg_eq]
  unfold State.endModeWrite
  rw [State.writeRegFrame_cfg]
  by_cases h : a = s.cfg.regOpmode
  · rw [if_pos h, if_pos h]
    refine ⟨rfl, ?_⟩
    show (s.writeRegFrame a v).1.awaitReady = _
    rw [hf.awaitReady]
    unfold State.beginModeWrite
    rw [hm, if_pos h]
    simp [h]
  · rw [if_neg h, if_neg h]
    have hb : (s.markWrite a).beginModeWrite a v = s.markWrite a :=
      State.beginModeWrite_of_ne (by rw [hm]; exact h) v
    refine ⟨hf.modeCache.trans (by rw [hb]; rfl), hf.awaitReady.trans ?_⟩
    rw [hb]
    simp [h, State.markWrite]

theorem State.quiet_setMode (m : Mode) (s : State) : s.Quiet (s.setMode m).1 :=
  s.quiet_writeReg _ _

theorem State.setMode_ends (m : Mode) (s : State) : (s.setMode m).1.endedIn s.seq :=
  s.writeReg_ends _ _

/-- The mode record after `SetMode(m)` (42_mode_controller R131). -/
theorem State.setMode_mode (m : Mode) (s : State) :
    (s.setMode m).1.modeCache = (if (s.setMode m).2.isNone then some m else none)
      ∧ (s.setMode m).1.awaitReady = true := by
  have h := s.writeReg_mode s.cfg.regOpmode (modeValue s.cfg m)
  rw [if_pos rfl, modeOf_modeValue] at h
  exact ⟨h.1, h.2.trans (by simp)⟩

/-! ### Waits -/

/-- Polling is bus traffic. -/
theorem State.bus_pollLoop (seqOf : Nat → SeqState) (reg : Addr) (bit : Fin 8) (timeout : Nat)
    (name : WaitName) (t0 fuel k : Nat) (s : State) :
    s.Bus (State.pollLoop seqOf reg bit timeout name t0 fuel k s).1 := by
  induction fuel generalizing k s with
  | zero => exact .refl s
  | succ n ih =>
    have h := (s.bus_setSeq (seqOf k)).trans (State.bus_readReg reg _)
    unfold State.pollLoop
    dsimp only
    split
    · exact h
    · split
      · exact h
      · split
        · exact h.trans (State.bus_now _)
        · exact ((h.trans (State.bus_now _)).trans (State.bus_sleep _ _)).trans (ih _ _)

theorem State.pollLoop_cs (seqOf : Nat → SeqState) (reg : Addr) (bit : Fin 8) (timeout : Nat)
    (name : WaitName) (t0 fuel k : Nat) (s : State) (hs : fuel = 0 → s.cs = false) :
    (State.pollLoop seqOf reg bit timeout name t0 fuel k s).1.cs = false := by
  induction fuel generalizing k s with
  | zero => exact hs rfl
  | succ n ih =>
    have h : ((s.setSeq (seqOf k)).readReg reg).1.cs = false :=
      (State.readReg_ends reg (s.setSeq (seqOf k))).1
    unfold State.pollLoop
    dsimp only
    split
    · exact h
    · split
      · exact h
      · split
        · exact h
        · exact ih _ _ (fun _ => h)

theorem State.bus_pollFor (seqOf : Nat → SeqState) (reg : Addr) (bit : Fin 8) (timeout : Nat)
    (name : WaitName) (s : State) : s.Bus (s.pollFor seqOf reg bit timeout name).1 :=
  s.bus_now.trans (State.bus_pollLoop ..)

theorem State.pollFor_cs (seqOf : Nat → SeqState) (reg : Addr) (bit : Fin 8) (timeout : Nat)
    (name : WaitName) (s : State) : (s.pollFor seqOf reg bit timeout name).1.cs = false :=
  State.pollLoop_cs _ _ _ _ _ _ _ _ _ (fun h => absurd h (by simp [pollBound]))

theorem State.bus_pollFlag (reg : Addr) (bit : Fin 8) (timeout : Nat) (name : WaitName)
    (s : State) : s.Bus (s.pollFlag reg bit timeout name).1 := s.bus_pollFor ..

theorem State.pollFlag_cs (reg : Addr) (bit : Fin 8) (timeout : Nat) (name : WaitName)
    (s : State) : (s.pollFlag reg bit timeout name).1.cs = false := s.pollFor_cs ..

/-- The wait inside `IsReady`. -/
def State.readyWait (s : State) : State × Option OpError :=
  s.pollFor .readyPoll s.cfg.regIrqFlags1 s.cfg.modeReadyBit s.cfg.readyTimeout .modeReady

theorem State.isReady_of_none {s : State} (h : s.readyWait.2 = none) :
    s.isReady = ({ s.readyWait.1 with awaitReady := false }, none) := by
  unfold State.readyWait at *
  unfold State.isReady
  simp only [h]

theorem State.isReady_of_some {s : State} {e : OpError} (h : s.readyWait.2 = some e) :
    s.isReady = (s.readyWait.1, some e) := by
  unfold State.readyWait at *
  unfold State.isReady
  simp only [h]

theorem State.bus_readyWait (s : State) : s.Bus s.readyWait.1 := s.bus_pollFor ..

/-- `IsReady` changes no more than bus traffic does, but that it clears `await_ready`. -/
theorem State.quiet_isReady (s : State) : s.Quiet s.isReady.1 := by
  have h := s.bus_readyWait.quiet
  cases hr : s.readyWait.2 with
  | none =>
    rw [State.isReady_of_none hr]
    exact h.trans (State.quiet_modeRecord _ _ false _ id)
  | some e => rw [State.isReady_of_some hr]; exact h

theorem State.isReady_cs (s : State) : s.isReady.1.cs = false := by
  have h : s.readyWait.1.cs = false := s.pollFor_cs ..
  cases hr : s.readyWait.2 with
  | none => rw [State.isReady_of_none hr]; exact h
  | some e => rw [State.isReady_of_some hr]; exact h

/-- The mode record after `IsReady` (42_mode_controller R133). -/
theorem State.isReady_mode (s : State) :
    s.isReady.1.modeCache = s.modeCache
      ∧ s.isReady.1.awaitReady = (if s.isReady.2.isNone then false else s.awaitReady) := by
  have h := s.bus_readyWait
  cases hr : s.readyWait.2 with
  | none => rw [State.isReady_of_none hr]; exact ⟨h.modeCache, rfl⟩
  | some e => rw [State.isReady_of_some hr]; exact ⟨h.modeCache, h.awaitReady⟩

theorem State.quiet_awaitEvent (timeout : Nat) (name : WaitName) (s : State) :
    s.Quiet (s.awaitEvent timeout name).1 := by
  have h0 := (s.bus_setSeq .eventWait).quiet
  have h1 := h0.trans (State.bus_now _).quiet
  have h2 := h1.trans (State.bus_elapse _).quiet
  unfold State.awaitEvent
  dsimp only
  split
  · exact h0.trans (State.quiet_event _ false _ (Nat.le_refl _))
  · split
    · exact h1.trans (State.quiet_event _ false _ (Nat.le_refl _))
    · split
      · exact h2.trans (State.quiet_event _ false _ (Nat.le_refl _))
      · exact h2.trans (State.quiet_event _ _ _ (Nat.le_max_left _ _))

/-- Waiting for an event touches neither chip-select nor the mode record, and issues nothing. -/
theorem State.awaitEvent_keeps (timeout : Nat) (name : WaitName) (s : State) :
    (s.awaitEvent timeout name).1.cs = s.cs
      ∧ (s.awaitEvent timeout name).1.modeCache = s.modeCache
      ∧ (s.awaitEvent timeout name).1.awaitReady = s.awaitReady
      ∧ (s.awaitEvent timeout name).1.trace = s.trace
      ∧ (s.awaitEvent timeout name).1.hazard = s.hazard := by
  unfold State.awaitEvent
  dsimp only
  split
  · exact ⟨rfl, rfl, rfl, rfl, rfl⟩
  · split
    · exact ⟨rfl, rfl, rfl, rfl, rfl⟩
    · split <;> exact ⟨rfl, rfl, rfl, rfl, rfl⟩

theorem State.bus_dwell (d : Nat) (s : State) : s.Bus (s.dwell d) :=
  (s.bus_setSeq _).trans (State.bus_sleep _ _)

theorem State.quiet_completionWait (dwell : Nat) (bit : Fin 8) (timeout : Nat) (name : WaitName)
    (s : State) : s.Quiet (s.completionWait dwell bit timeout name).1 := by
  unfold State.completionWait
  split
  · exact (s.bus_dwell dwell).quiet
  · exact (s.bus_pollFlag ..).quiet
  · exact s.quiet_awaitEvent ..

/-- A completion wait leaves no frame open that was not, and the mode record alone. -/
theorem State.completionWait_keeps (dwell : Nat) (bit : Fin 8) (timeout : Nat) (name : WaitName)
    (s : State) :
    (s.cs = false → (s.completionWait dwell bit timeout name).1.cs = false)
      ∧ (s.completionWait dwell bit timeout name).1.modeCache = s.modeCache
      ∧ (s.completionWait dwell bit timeout name).1.awaitReady = s.awaitReady := by
  unfold State.completionWait
  split
  · exact ⟨id, (s.bus_dwell dwell).modeCache, (s.bus_dwell dwell).awaitReady⟩
  · exact ⟨fun _ => s.pollFlag_cs .., (s.bus_pollFlag ..).modeCache,
      (s.bus_pollFlag ..).awaitReady⟩
  · have h := s.awaitEvent_keeps timeout name
    exact ⟨fun hc => h.1.trans hc, h.2.1, h.2.2.1⟩

/-- A completion wait in the form the sequences use it leaves chip-select as the bus does. -/
theorem State.completionWait_cs_eq (dwell : Nat) (bit : Fin 8) (timeout : Nat) (name : WaitName)
    (s : State) (h : s.cfg.waitKind ≠ .pollStatus) :
    (s.completionWait dwell bit timeout name).1.cs = s.cs := by
  unfold State.completionWait
  split
  · rfl
  · next hk => exact absurd hk h
  · exact (s.awaitEvent_keeps timeout name).1

/-! ### Sequences -/

theorem State.setModeAndWait_of_some {m : Mode} {s : State} {e : OpError}
    (h : (s.setMode m).2 = some e) : s.setModeAndWait m = ((s.setMode m).1, some e) := by
  unfold State.setModeAndWait
  rw [h]

theorem State.setModeAndWait_of_none {m : Mode} {s : State} (h : (s.setMode m).2 = none) :
    s.setModeAndWait m = (s.setMode m).1.isReady := by
  unfold State.setModeAndWait
  rw [h]

theorem State.quiet_setModeAndWait (m : Mode) (s : State) : s.Quiet (s.setModeAndWait m).1 := by
  cases h : (s.setMode m).2 with
  | some e => rw [State.setModeAndWait_of_some h]; exact s.quiet_setMode m
  | none =>
    rw [State.setModeAndWait_of_none h]
    exact (s.quiet_setMode m).trans (State.quiet_isReady _)

theorem State.setModeAndWait_cs (m : Mode) (s : State) : (s.setModeAndWait m).1.cs = false := by
  cases h : (s.setMode m).2 with
  | some e => rw [State.setModeAndWait_of_some h]; exact (s.setMode_ends m).1
  | none => rw [State.setModeAndWait_of_none h]; exact State.isReady_cs _

/-- The mode record after `SetModeAndWait(m)`: the last mode written is `m`, unless the write itself
failed; `await_ready` falls exactly where the whole answers no error (44_packet_io R170). -/
theorem State.setModeAndWait_mode (m : Mode) (s : State) :
    ((s.setModeAndWait m).1.modeCache = some m
        ∨ ((s.setModeAndWait m).1.modeCache = none ∧ (s.setModeAndWait m).2.isSome = true))
      ∧ (s.setModeAndWait m).1.awaitReady = (s.setModeAndWait m).2.isSome := by
  have hm := s.setMode_mode m
  cases h : (s.setMode m).2 with
  | some e =>
    rw [h] at hm
    rw [State.setModeAndWait_of_some h]
    exact ⟨.inr ⟨hm.1, rfl⟩, hm.2⟩
  | none =>
    rw [h] at hm
    rw [State.setModeAndWait_of_none h]
    have hr := (s.setMode m).1.isReady_mode
    refine ⟨.inl (hr.1.trans hm.1), hr.2.trans ?_⟩
    rw [hm.2]
    cases (s.setMode m).1.isReady.2 <;> rfl

theorem State.quiet_waitTxDone (s : State) : s.Quiet s.waitTxDone.1 :=
  s.quiet_completionWait ..

theorem State.quiet_waitPayloadReady (s : State) : s.Quiet s.waitPayloadReady.1 :=
  s.quiet_completionWait ..

@[simp] theorem bufferWith_length (l buf : List Byte) : (bufferWith l buf).length = buf.length := by
  simp [bufferWith]; omega

/-- The first bytes of a buffer after bytes that fit have been put there. -/
theorem bufferWith_take {l buf : List Byte} (h : l.length ≤ buf.length) :
    (bufferWith l buf).take l.length = l := by
  simp [bufferWith, List.take_take, Nat.min_eq_left h]

/-- Loading the transmit buffer is work that leaves the receive buffer alone. -/
theorem State.work_txBuf (s : State) (b : List Byte) : s.Work { s with txBuf := b } :=
  ⟨⟨rfl, rfl, rfl, id, Nat.le_refl _, Nat.le_refl _, ⟨[], by simp⟩, ⟨[], by simp⟩, rfl, id⟩,
    rfl, rfl, rfl⟩

theorem State.work_rxBuf (s : State) (b : List Byte) : s.Work { s with rxBuf := b } :=
  ⟨⟨rfl, rfl, rfl, id, Nat.le_refl _, Nat.le_refl _, ⟨[], by simp⟩, ⟨[], by simp⟩, rfl, id⟩,
    rfl, rfl, rfl⟩

theorem State.work_fifoWrite (d : List Byte) (s : State) : s.Work (s.fifoWrite d).1 :=
  (s.work_txBuf _).trans (State.bus_burstWrite d _).quiet.toWork

theorem State.fifoWrite_ends (d : List Byte) (s : State) : (s.fifoWrite d).1.endedIn s.seq :=
  State.burstWrite_ends d _

theorem State.fifoWrite_buffers (d : List Byte) (s : State) :
    (s.fifoWrite d).1.txBuf = bufferWith (writeFrameBytes s.cfg s.cfg.regFifo d) s.txBuf
      ∧ (s.fifoWrite d).1.rxBuf = s.rxBuf :=
  ⟨(State.bus_burstWrite d _).txBuf, (State.bus_burstWrite d _).rxBuf⟩

theorem State.fifoWrite_mode (d : List Byte) (s : State) :
    (s.fifoWrite d).1.modeCache = s.modeCache ∧ (s.fifoWrite d).1.awaitReady = s.awaitReady :=
  ⟨(State.bus_burstWrite d _).modeCache, (State.bus_burstWrite d _).awaitReady⟩

theorem State.work_fifoRead (n : Nat) (s : State) : s.Work (s.fifoRead n).1 :=
  (s.bus_burstRead n).quiet.toWork.trans (State.work_rxBuf _ _)

theorem State.fifoRead_ends (n : Nat) (s : State) : (s.fifoRead n).1.endedIn s.seq :=
  s.burstRead_ends n

theorem State.fifoRead_buffers (n : Nat) (s : State) :
    (s.fifoRead n).1.txBuf = s.txBuf
      ∧ (s.fifoRead n).1.rxBuf = bufferWith (s.burstRead n).2.1 s.rxBuf :=
  ⟨(s.bus_burstRead n).txBuf, by
    show bufferWith _ (s.burstRead n).1.rxBuf = _
    rw [(s.bus_burstRead n).rxBuf]⟩

theorem State.fifoRead_mode (n : Nat) (s : State) :
    (s.fifoRead n).1.modeCache = s.modeCache ∧ (s.fifoRead n).1.awaitReady = s.awaitReady :=
  ⟨(s.bus_burstRead n).modeCache, (s.bus_burstRead n).awaitReady⟩

/-! The states between the steps of `Send` and `Receive`. -/

/-- `Send` after step 3, `Transmit` asked for. -/
def State.afterSend3 (s : State) : State × Option OpError :=
  (s.setSeq .send3).setModeAndWait .transmit

/-- `Send` after step 4; the wait is left out where step 3 failed. -/
def State.afterSend4 (s : State) : State × Option OpError :=
  if s.afterSend3.2.isNone then (s.afterSend3.1.setSeq .send4).waitTxDone
  else (s.afterSend3.1.setSeq .send4, s.afterSend3.2)

theorem State.transmitAndReturn_eq (s : State) :
    s.transmitAndReturn
      = (((s.afterSend4.1.setSeq .send5).setModeAndWait .standby).1,
        s.afterSend4.2.or ((s.afterSend4.1.setSeq .send5).setModeAndWait .standby).2) := rfl

theorem State.quiet_afterSend3 (s : State) : s.Quiet s.afterSend3.1 :=
  (s.bus_setSeq .send3).quiet.trans (State.quiet_setModeAndWait .transmit _)

theorem State.quiet_afterSend4 (s : State) : s.Quiet s.afterSend4.1 := by
  have h := s.quiet_afterSend3.trans (State.bus_setSeq .send4 _).quiet
  unfold State.afterSend4
  split
  · exact h.trans (State.quiet_waitTxDone _)
  · exact h

theorem State.quiet_transmitAndReturn (s : State) : s.Quiet s.transmitAndReturn.1 :=
  (s.quiet_afterSend4.trans (State.bus_setSeq .send5 _).quiet).trans
    (State.quiet_setModeAndWait .standby _)

theorem State.transmitAndReturn_cs (s : State) : s.transmitAndReturn.1.cs = false :=
  State.setModeAndWait_cs _ _

/-- `Send` after step 1, Standby forced. -/
def State.afterSend1 (s : State) : State × Option OpError :=
  (s.setSeq .send1).setModeAndWait .standby

/-- `Send` after step 2, the FIFO loaded. -/
def State.afterSend2 (d : List Byte) (s : State) : State × Option OpError :=
  (s.afterSend1.1.setSeq .send2).fifoWrite d

theorem State.send_of_error1 {d : List Byte} {s : State} {e : OpError}
    (h : s.afterSend1.2 = some e) : s.send d = (s.afterSend1.1, some e) := by
  unfold State.afterSend1 at *
  unfold State.send
  simp only [h]

theorem State.send_of_error2 {d : List Byte} {s : State} {e : OpError}
    (h1 : s.afterSend1.2 = none) (h2 : (s.afterSend2 d).2 = some e) :
    s.send d = ((s.afterSend2 d).1, some e) := by
  unfold State.afterSend2 State.afterSend1 at *
  unfold State.send
  simp only [h1, h2]

theorem State.send_of_loaded {d : List Byte} {s : State} (h1 : s.afterSend1.2 = none)
    (h2 : (s.afterSend2 d).2 = none) : s.send d = (s.afterSend2 d).1.transmitAndReturn := by
  unfold State.afterSend2 State.afterSend1 at *
  unfold State.send
  simp only [h1, h2]

/-- The three ways `Send` goes (44_packet_io R176). -/
theorem State.send_cases (d : List Byte) (s : State) :
    (∃ e, s.afterSend1.2 = some e ∧ s.send d = (s.afterSend1.1, some e))
      ∨ (∃ e, s.afterSend1.2 = none ∧ (s.afterSend2 d).2 = some e
          ∧ s.send d = ((s.afterSend2 d).1, some e))
      ∨ (s.afterSend1.2 = none ∧ (s.afterSend2 d).2 = none
          ∧ s.send d = (s.afterSend2 d).1.transmitAndReturn) := by
  cases h1 : s.afterSend1.2 with
  | some e => exact .inl ⟨e, rfl, State.send_of_error1 h1⟩
  | none =>
    cases h2 : (s.afterSend2 d).2 with
    | some e => exact .inr (.inl ⟨e, rfl, rfl, State.send_of_error2 h1 h2⟩)
    | none => exact .inr (.inr ⟨rfl, rfl, State.send_of_loaded h1 h2⟩)

theorem State.quiet_afterSend1 (s : State) : s.Quiet s.afterSend1.1 :=
  (s.bus_setSeq .send1).quiet.trans (State.quiet_setModeAndWait .standby _)

theorem State.work_afterSend2 (d : List Byte) (s : State) : s.Work (s.afterSend2 d).1 :=
  (s.quiet_afterSend1.trans (State.bus_setSeq .send2 _).quiet).toWork.trans
    (State.work_fifoWrite d _)

theorem State.afterSend2_buffers (d : List Byte) (s : State) :
    (s.afterSend2 d).1.txBuf = bufferWith (writeFrameBytes s.cfg s.cfg.regFifo d) s.txBuf
      ∧ (s.afterSend2 d).1.rxBuf = s.rxBuf := by
  have h := s.quiet_afterSend1
  have hb := State.fifoWrite_buffers d (s.afterSend1.1.setSeq .send2)
  refine ⟨hb.1.trans ?_, hb.2.trans h.rxBuf⟩
  show bufferWith (writeFrameBytes s.afterSend1.1.cfg s.afterSend1.1.cfg.regFifo d) s.afterSend1.1.txBuf = _
  rw [h.cfg, h.txBuf]

theorem State.work_send (d : List Byte) (s : State) : s.Work (s.send d).1 := by
  rcases s.send_cases d with ⟨e, -, he⟩ | ⟨e, -, -, he⟩ | ⟨-, -, he⟩ <;> rw [he]
  · exact s.quiet_afterSend1.toWork
  · exact s.work_afterSend2 d
  · exact (s.work_afterSend2 d).trans (State.quiet_transmitAndReturn _).toWork

theorem State.send_cs (d : List Byte) (s : State) : (s.send d).1.cs = false := by
  rcases s.send_cases d with ⟨e, -, he⟩ | ⟨e, -, -, he⟩ | ⟨-, -, he⟩ <;> rw [he]
  · exact State.setModeAndWait_cs _ _
  · exact (State.fifoWrite_ends d _).1
  · exact State.transmitAndReturn_cs _

theorem State.send_buffers (d : List Byte) (s : State) :
    (s.send d).1.rxBuf = s.rxBuf ∧ (s.send d).1.txBuf.length = s.txBuf.length := by
  have h1 := s.quiet_afterSend1
  have h2 := s.afterSend2_buffers d
  rcases s.send_cases d with ⟨e, -, he⟩ | ⟨e, -, -, he⟩ | ⟨-, -, he⟩ <;> rw [he]
  · exact ⟨h1.rxBuf, congrArg _ h1.txBuf⟩
  · exact ⟨h2.2, by rw [h2.1, bufferWith_length]⟩
  · have h3 := (s.afterSend2 d).1.quiet_transmitAndReturn
    exact ⟨h3.rxBuf.trans h2.2, by rw [h3.txBuf, h2.1, bufferWith_length]⟩

/-- `Receive` after step 1, `Receive` mode asked for. -/
def State.afterRecv1 (s : State) : State × Option OpError :=
  (s.setSeq .recv1).setModeAndWait .receive

/-- `Receive` after step 2, the wait. -/
def State.afterRecv2 (s : State) : State × Option OpError :=
  (s.afterRecv1.1.setSeq .recv2).waitPayloadReady

/-- `Receive` after step 3, the drain. -/
def State.afterRecv3 (s : State) : State × Except OpError (List Byte) :=
  (s.afterRecv2.1.setSeq .recv3).fifoRead s.cfg.fifoWindow

/-- The four ways `Receive` goes (44_packet_io R178). -/
theorem State.receive_cases (s : State) :
    (∃ e, s.afterRecv1.2 = some e ∧ s.receive = (s.afterRecv1.1, .error e))
      ∨ (∃ e, s.afterRecv1.2 = none ∧ s.afterRecv2.2 = some e
          ∧ s.receive = (s.afterRecv2.1, .error e))
      ∨ (∃ e, s.afterRecv1.2 = none ∧ s.afterRecv2.2 = none ∧ s.afterRecv3.2 = .error e
          ∧ s.receive = (s.afterRecv3.1, .error e))
      ∨ (∃ l, s.afterRecv1.2 = none ∧ s.afterRecv2.2 = none ∧ s.afterRecv3.2 = .ok l
          ∧ s.receive = (s.afterRecv3.1.setSeq .recv4, .ok l)) := by
  unfold State.afterRecv3 State.afterRecv2 State.afterRecv1
  unfold State.receive
  cases h1 : ((s.setSeq .recv1).setModeAndWait .receive).2 with
  | some e => exact .inl ⟨e, rfl, by simp only [h1]⟩
  | none =>
    cases h2 : (((s.setSeq .recv1).setModeAndWait .receive).1.setSeq .recv2).waitPayloadReady.2 with
    | some e => exact .inr (.inl ⟨e, rfl, rfl, by simp only [h1, h2]⟩)
    | none =>
      cases h3 : (State.fifoRead s.cfg.fifoWindow ((((s.setSeq .recv1).setModeAndWait
          .receive).1.setSeq .recv2).waitPayloadReady.1.setSeq .recv3)).2 with
      | error e => exact .inr (.inr (.inl ⟨e, rfl, rfl, rfl, by simp only [h1, h2, h3]⟩))
      | ok l => exact .inr (.inr (.inr ⟨l, rfl, rfl, rfl, by simp only [h1, h2, h3]⟩))

theorem State.quiet_afterRecv1 (s : State) : s.Quiet s.afterRecv1.1 :=
  (s.bus_setSeq .recv1).quiet.trans (State.quiet_setModeAndWait .receive _)

theorem State.quiet_afterRecv2 (s : State) : s.Quiet s.afterRecv2.1 :=
  (s.quiet_afterRecv1.trans (State.bus_setSeq .recv2 _).quiet).trans
    (State.quiet_waitPayloadReady _)

theorem State.work_afterRecv3 (s : State) : s.Work s.afterRecv3.1 :=
  (s.quiet_afterRecv2.trans (State.bus_setSeq .recv3 _).quiet).toWork.trans
    (State.work_fifoRead _ _)

theorem State.afterRecv2_cs (s : State) : s.afterRecv2.1.cs = false :=
  (State.completionWait_keeps _ _ _ _ (s.afterRecv1.1.setSeq .recv2)).1
    (State.setModeAndWait_cs .receive (s.setSeq .recv1))

theorem State.work_receive (s : State) : s.Work s.receive.1 := by
  rcases s.receive_cases with ⟨e, -, he⟩ | ⟨e, -, -, he⟩ | ⟨e, -, -, -, he⟩ | ⟨l, -, -, -, he⟩ <;>
    rw [he]
  · exact s.quiet_afterRecv1.toWork
  · exact s.quiet_afterRecv2.toWork
  · exact s.work_afterRecv3
  · exact s.work_afterRecv3.trans (State.bus_setSeq .recv4 _).quiet.toWork

theorem State.afterRecv3_cs (s : State) : s.afterRecv3.1.cs = false :=
  (State.fifoRead_ends s.cfg.fifoWindow (s.afterRecv2.1.setSeq .recv3)).1

theorem State.receive_cs (s : State) : s.receive.1.cs = false := by
  rcases s.receive_cases with ⟨e, -, he⟩ | ⟨e, -, -, he⟩ | ⟨e, -, -, -, he⟩ | ⟨l, -, -, -, he⟩ <;>
    rw [he]
  · exact State.setModeAndWait_cs _ _
  · exact s.afterRecv2_cs
  · exact s.afterRecv3_cs
  · exact s.afterRecv3_cs

theorem State.receive_buffers (s : State) :
    s.receive.1.txBuf = s.txBuf ∧ s.receive.1.rxBuf.length = s.rxBuf.length := by
  have h1 := s.quiet_afterRecv1
  have h2 := s.quiet_afterRecv2
  have h3 : s.afterRecv3.1.txBuf = s.txBuf ∧ s.afterRecv3.1.rxBuf.length = s.rxBuf.length := by
    have hb := State.fifoRead_buffers s.cfg.fifoWindow (s.afterRecv2.1.setSeq .recv3)
    refine ⟨hb.1.trans h2.txBuf, ?_⟩
    show (State.fifoRead _ _).1.rxBuf.length = _
    rw [hb.2, bufferWith_length]
    exact congrArg _ h2.rxBuf
  rcases s.receive_cases with ⟨e, -, he⟩ | ⟨e, -, -, he⟩ | ⟨e, -, -, -, he⟩ | ⟨l, -, -, -, he⟩ <;>
    rw [he]
  · exact ⟨h1.txBuf, congrArg _ h1.rxBuf⟩
  · exact ⟨h2.txBuf, congrArg _ h2.rxBuf⟩
  · exact h3
  · exact h3

/-! ### `SetFrequency`, `Reset`, and the frame of the address byte -/

/-- What one of the three frequency writes can do. -/
theorem State.extends_writeDropping (a : Addr) (v : Byte) (s : State) :
    s.Extends (s.writeDropping a v)
      ∧ (s.writeDropping a v).rst = s.rst ∧ (s.writeDropping a v).result = s.result
      ∧ s.SameBuffers (s.writeDropping a v)
      ∧ (s.writeDropping a v).dropped = s.dropped ++ (s.writeReg a v).2.toList
      ∧ (s.writeDropping a v).endedIn s.seq := by
  have h := s.quiet_writeReg a v
  refine ⟨⟨h.cfg, h.script, h.requests, h.hazard, h.clock, h.tick, h.trace, h.path, h.version,
    h.sound⟩, h.rst, h.result, ⟨h.txBuf, h.rxBuf⟩, ?_, s.writeReg_ends a v⟩
  show (s.writeReg a v).1.dropped ++ _ = _
  rw [h.dropped]

theorem State.extends_setFrequency (hz : Hz) (s : State) :
    s.Extends (s.setFrequency hz) ∧ (s.setFrequency hz).rst = s.rst
      ∧ (s.setFrequency hz).result = s.result ∧ s.SameBuffers (s.setFrequency hz)
      ∧ (s.setFrequency hz).endedIn s.seq := by
  have h0 := s.bus_markFrequency
  have h1 := State.extends_writeDropping s.cfg.regFrfMsb (frfSplit (frfOfHz s.cfg hz)).1
    s.markFrequency
  have h2 := State.extends_writeDropping s.cfg.regFrfMid (frfSplit (frfOfHz s.cfg hz)).2.1
    (s.markFrequency.writeDropping s.cfg.regFrfMsb (frfSplit (frfOfHz s.cfg hz)).1)
  have h3 := State.extends_writeDropping s.cfg.regFrfLsb (frfSplit (frfOfHz s.cfg hz)).2.2
    ((s.markFrequency.writeDropping s.cfg.regFrfMsb (frfSplit (frfOfHz s.cfg hz)).1).writeDropping
      s.cfg.regFrfMid (frfSplit (frfOfHz s.cfg hz)).2.1)
  refine ⟨((h0.toExtends.trans h1.1).trans h2.1).trans h3.1,
    h3.2.1.trans (h2.2.1.trans (h1.2.1.trans h0.rst)),
    h3.2.2.1.trans (h2.2.2.1.trans (h1.2.2.1.trans h0.result)),
    ⟨h3.2.2.2.1.1.trans (h2.2.2.2.1.1.trans (h1.2.2.2.1.1.trans h0.txBuf)),
      h3.2.2.2.1.2.trans (h2.2.2.2.1.2.trans (h1.2.2.2.1.2.trans h0.rxBuf))⟩,
    h3.2.2.2.2.2.1, ?_⟩
  refine h3.2.2.2.2.2.2.trans ?_
  refine h2.2.2.2.2.2.2.trans ?_
  exact h1.2.2.2.2.2.2

theorem State.extends_powerOnTarget (s : State) : s.Extends s.powerOnTarget := by
  refine ⟨rfl, rfl, rfl, id, Nat.le_refl _, Nat.le_succ _, ⟨[], by simp [State.powerOnTarget]⟩,
    ⟨[], by simp [State.powerOnTarget]⟩, ?_, fun _ => ?_⟩
  · unfold State.powerOnTarget
    dsimp only
    split <;> rfl
  · unfold State.powerOnTarget
    dsimp only
    split
    · exact ⟨(Target.sound_drawn s.cfg s.target s.moment.target).1,
        (Target.sound_drawn s.cfg s.target s.moment.target).2⟩
    · exact Target.sound_poweredOn _ _ _

theorem State.sleep_clock_le (d : Nat) (s : State) : s.clock + d ≤ (s.sleep d).clock := by
  show s.clock + d ≤ s.elapse.clock + d
  have := s.bus_elapse.clock
  omega

/-- `Reset` when the line has been low for its time. -/
def State.resetLowEnd (s : State) : State :=
  (State.setResetLevel false { s.setSeq .resetLow with rst := false }).sleep s.cfg.resetLowTime

/-- `Reset` when the line has been high for its time. -/
def State.resetHoldEnd (s : State) : State :=
  ((State.setResetLevel true { s.resetLowEnd with rst := true }).setSeq .resetHold).sleep
    s.cfg.resetHoldTime

theorem State.resetPulse_eq (s : State) :
    s.resetPulse = { s.resetHoldEnd.powerOnTarget with modeCache := none, awaitReady := false } :=
  rfl

theorem State.extends_setRst (s : State) (l : Bool) : s.Extends { s with rst := l } :=
  ⟨rfl, rfl, rfl, id, Nat.le_refl _, Nat.le_refl _, ⟨[], by simp⟩, ⟨[], by simp⟩, rfl, id⟩

theorem State.resetLowEnd_spec (s : State) :
    s.Extends s.resetLowEnd ∧ s.clock + s.cfg.resetLowTime ≤ s.resetLowEnd.clock := by
  have h : s.Extends (State.setResetLevel false { s.setSeq .resetLow with rst := false }) :=
    ((s.bus_setSeq .resetLow).toExtends.trans (State.extends_setRst _ false)).trans
      (State.bus_setResetLevel false _).toExtends
  refine ⟨h.trans (State.bus_sleep _ _).toExtends, ?_⟩
  exact (Nat.add_le_add_right h.clock _).trans (State.sleep_clock_le _ _)

theorem State.resetHoldEnd_spec (s : State) :
    s.Extends s.resetHoldEnd
      ∧ s.clock + (s.cfg.resetLowTime + s.cfg.resetHoldTime) ≤ s.resetHoldEnd.clock := by
  have h0 := s.resetLowEnd_spec
  have h : s.resetLowEnd.Extends
      ((State.setResetLevel true { s.resetLowEnd with rst := true }).setSeq .resetHold) :=
    (State.extends_setRst _ true).trans
      ((State.bus_setResetLevel true _).trans (State.bus_setSeq _ _)).toExtends
  refine ⟨(h0.1.trans h).trans (State.bus_sleep _ _).toExtends, ?_⟩
  have h1 := (Nat.add_le_add_right h.clock s.cfg.resetHoldTime).trans
    (State.sleep_clock_le s.cfg.resetHoldTime _)
  have h2 := h0.2
  unfold State.resetHoldEnd
  omega

/-- The reset pulse (42_mode_controller R135): what it leaves, and what it does not touch. -/
theorem State.resetPulse_spec (s : State) :
    s.Extends s.resetPulse ∧ s.resetPulse.rst = true ∧ s.resetPulse.cs = s.cs
      ∧ s.resetPulse.modeCache = none ∧ s.resetPulse.awaitReady = false
      ∧ s.resetPulse.hazard = s.hazard ∧ s.resetPulse.dropped = s.dropped
      ∧ s.resetPulse.result = s.result ∧ s.SameBuffers s.resetPulse
      ∧ s.clock + (s.cfg.resetLowTime + s.cfg.resetHoldTime) ≤ s.resetPulse.clock := by
  have h := s.resetHoldEnd_spec
  have hc : s.resetPulse.clock = s.resetHoldEnd.clock := rfl
  have he : s.Extends s.resetPulse :=
    (h.1.trans (State.extends_powerOnTarget _)).trans
      (State.quiet_modeRecord s.resetHoldEnd.powerOnTarget none false
        s.resetHoldEnd.powerOnTarget.hazard id).toExtends
  refine ⟨he, ?_, ?_, ?_, ?_, ?_, ?_, ?_, ⟨?_, ?_⟩, by rw [hc]; exact h.2⟩ <;>
    rw [State.resetPulse_eq] <;>
    simp [State.resetHoldEnd, State.resetLowEnd, State.powerOnTarget]

theorem State.addressFrame_read (a : Addr) (s : State) :
    s.addressFrame false a
      = (((s.markRead a).readFrame a 0).1, ((s.markRead a).readFrame a 0).2.2) := rfl

theorem State.addressFrame_write_of_ne {a : Addr} {s : State} (h : a ≠ s.cfg.regOpmode) :
    s.addressFrame true a = (s.markWrite a).writeFrame a [] := by
  simp [State.addressFrame, h]

theorem State.addressFrame_opmode (s : State) :
    s.addressFrame true s.cfg.regOpmode
      = ({ (State.writeFrame s.cfg.regOpmode []
            { s.markWrite s.cfg.regOpmode with awaitReady := true }).1 with modeCache := none },
          (State.writeFrame s.cfg.regOpmode []
            { s.markWrite s.cfg.regOpmode with awaitReady := true }).2) := by
  simp [State.addressFrame]

theorem State.quiet_addressFrame (w : Bool) (a : Addr) (s : State) :
    s.Quiet (s.addressFrame w a).1 := by
  cases w with
  | false =>
    rw [State.addressFrame_read]
    exact ((s.bus_markRead a).trans (State.bus_readFrame a 0 _)).quiet
  | true =>
    by_cases h : a = s.cfg.regOpmode
    · subst h
      rw [State.addressFrame_opmode]
      exact (((s.bus_markWrite _).quiet.trans (State.quiet_modeRecord _ _ true _ id)).trans
        (State.bus_writeFrame _ [] _).quiet).trans (State.quiet_modeRecord _ none _ _ id)
    · rw [State.addressFrame_write_of_ne h]
      exact ((s.bus_markWrite a).trans (State.bus_writeFrame a [] _)).quiet

theorem State.addressFrame_ends (w : Bool) (a : Addr) (s : State) :
    (s.addressFrame w a).1.endedIn s.seq := by
  cases w with
  | false =>
    rw [State.addressFrame_read]
    exact State.runFrame_ends _ (s.markRead a)
  | true =>
    by_cases h : a = s.cfg.regOpmode
    · subst h
      rw [State.addressFrame_opmode]
      exact State.runFrame_ends (writeFrameBytes s.cfg s.cfg.regOpmode [])
        { s.markWrite s.cfg.regOpmode with awaitReady := true }
    · rw [State.addressFrame_write_of_ne h]
      exact State.runFrame_ends _ (s.markWrite a)

/-! ### Outcomes -/

/-- An operation of the host that answers a next state was accepted in `Idle`, and this is it. -/
theorem hostOperation_next {body : State → State × Result} {s t : State}
    (h : hostOperation body s = .next t) :
    s.seq = .idle ∧ t = (body s).1.conclude .idle (body s).2 := by
  unfold hostOperation at h
  split at h
  · next hi => exact ⟨hi, (Host.Outcome.next.inj h).symm⟩
  · cases h

theorem internalOperation_next {body : State → State × Result} {s t : State}
    (h : internalOperation body s = .next t) : t = (body s).1.conclude s.seq (body s).2 :=
  (Host.Outcome.next.inj h).symm

theorem framedOperation_next {body : State → State × Result} {s t : State}
    (h : framedOperation body s = .next t) :
    s.cs = false ∧ t = (body s).1.conclude s.seq (body s).2 := by
  unfold framedOperation at h
  split at h
  · cases h
  · next hc => exact ⟨by simpa using hc, internalOperation_next h⟩

/-- What the end of an operation adds: the sequencer state, its path and the result. -/
theorem State.extends_conclude (q : SeqState) (r : Result) (s : State) :
    s.Extends (s.conclude q r) :=
  ⟨rfl, rfl, rfl, id, Nat.le_refl _, Nat.le_refl _, ⟨[], by simp [State.conclude]⟩, ⟨[q], rfl⟩,
    rfl, id⟩

end Sys2Proof.Machine
end

