-- ==== Sys2Proof/Laws/Hazard.lean ====
section
/-!
SUPPORT. Which frames set the mark of a broken contract: a frame sets `hazard` beyond the mark at its
start only where the reference target is given a byte it has no room or no meaning for.
-/

namespace Sys2Proof.Machine

/-- A data byte `b` in direction `w` at `a` that no target marks (70_reset_and_hazards R249, R250): a
read, a target that counts nothing, or neither a FIFO byte nor a byte that is no mode value. -/
def harmless (c : Config) (w : Bool) (a : Addr) (b : Byte) : Prop :=
  w = false ∨ c.target ≠ .reference
    ∨ a ≠ c.regFifo ∧ (a = c.regOpmode → (modeOf c b).isSome = true)

/-- The delivery of a harmless byte of a register write marks nothing. -/
theorem Target.deliver_harmless {c : Config} {free t : Target} {a : Addr} {v : Byte}
    (h : harmless c true a v) : (Target.deliver c free a v t).2 = false := by
  unfold Target.deliver
  split
  · next ht =>
    unfold Target.writeRegister
    split
    · next ha =>
      rcases h with h | h | h
      · cases h
      · exact absurd ht h
      · obtain ⟨m, hm⟩ := Option.isSome_iff_exists.mp (h.2 ha)
        simp [hm]
    · split <;> rfl
  · rfl

theorem State.dataAnswer_hazard {m : Moment} {free : Target} {f : BusFrame} {w : Bool} {a : Addr}
    {b : Byte} {s : State} (h : harmless s.cfg w a b) :
    (s.dataAnswer m free f w a b).hazard = false := by
  unfold State.dataAnswer
  dsimp only
  split
  · rfl
  · split
    · rfl
    · rfl
    · rename_i hl _ _ _
      split
      · next ha =>
        rcases h with h | h | h
        · cases h
        · cases hc : s.cfg.target with
          | oracle => simp [State.lawless, hc] at hl
          | loopback => simp [hc] at *
          | reference => exact absurd hc h
        · exact absurd ha h.1
      · rfl
    · rfl

/-- A call marks nothing but through the target's answer. -/
theorem State.transfer_hazard (b : Byte) (s : State) :
    (s.transfer b).1.hazard = s.hazard
      ∨ (s.transfer b).1.hazard = (s.hazard || (s.elapse.answer s.moment s.free b).hazard) := by
  cases hc : s.callErrorAt 0 with
  | some e => rw [State.transfer_of_error hc]; exact .inl rfl
  | none => rw [State.transfer_of_none hc]; exact .inr rfl

theorem State.transfer_address_hazard {s : State} {f : BusFrame} (hf : s.frame = some f)
    (ha : f.addr = none) (w : Bool) (a : Addr) :
    (s.transfer (addressByte s.cfg w a)).1.hazard = s.hazard := by
  have hfe : s.elapse.frame = some f := hf
  rcases s.transfer_hazard (addressByte s.cfg w a) with h | h <;> rw [h]
  rw [State.answer_address hfe ha, Bool.or_false]

theorem State.exchange_data_hazard {s : State} {w : Bool} {a : Addr} (h : s.addressedTo w a)
    {b : Byte} (hb : harmless s.cfg w a b) : (s.exchange b).1.hazard = s.hazard := by
  obtain ⟨f, hf, ha⟩ := h
  let s' := s.setSeq (nextExchange s.seq)
  have hfe : s'.elapse.frame = some f := hf
  have hs : (s.exchange b).1.hazard = (s'.transfer b).1.hazard := rfl
  rw [hs]
  rcases s'.transfer_hazard b with h | h <;> rw [h]
  · rfl
  · rw [State.answer_data hfe ha, State.dataAnswer_hazard (s := s'.elapse) hb, Bool.or_false]; rfl

theorem State.exchangeAll_hazard {s : State} {w : Bool} {a : Addr} (h : s.addressedTo w a)
    {bs : List Byte} (hb : ∀ b ∈ bs, harmless s.cfg w a b) :
    (State.exchangeAll bs s).1.hazard = s.hazard := by
  induction bs generalizing s with
  | nil => rfl
  | cons b rest ih =>
    have h1 := State.exchange_data_hazard h (hb b (by simp))
    have hc : (s.exchange b).1.cfg = s.cfg := (s.bus_exchange b).cfg
    unfold State.exchangeAll
    dsimp only
    split
    · exact h1
    · exact (ih (State.exchange_data h b).1 (fun x hx => hc ▸ hb x (by simp [hx]))).trans h1

theorem State.openFrame_hazard (s : State) : s.openFrame.1.hazard = s.hazard := rfl

/-- The frame on the bus is addressed to register `a` in direction `w`, and a byte that it carries to
deliver is harmless. -/
def State.carriesHarmless (s : State) (w : Bool) (a : Addr) : Prop :=
  ∃ f, s.frame = some f ∧ f.addr = some (w, a)
    ∧ ∀ v, f.pending = some v → harmless s.cfg true a v

theorem State.transfer_address_carries {s : State} {f : BusFrame} (hf : s.frame = some f)
    (ha : f.addr = none) (hp : f.pending = none) (w : Bool) (a : Addr) :
    (s.transfer (addressByte s.cfg w a)).1.carriesHarmless w a := by
  have hfe : s.elapse.frame = some f := hf
  cases hc : s.callErrorAt 0 with
  | some e =>
    rw [State.transfer_of_error hc]
    refine ⟨_, congrArg (Option.map (BusFrame.fail s.cfg (addressByte s.cfg w a))) hfe, ?_, ?_⟩
    · simp [BusFrame.fail, ha]
    · simp [BusFrame.fail, hp]
  | none =>
    rw [State.transfer_of_none hc, State.answer_address hfe ha]
    exact ⟨_, rfl, by simp, by simp [hp]⟩

theorem State.exchange_carries {s : State} {w : Bool} {a : Addr} (h : s.carriesHarmless w a)
    {b : Byte} (hb : harmless s.cfg w a b) : (s.exchange b).1.carriesHarmless w a := by
  obtain ⟨f, hf, ha, hp⟩ := h
  let s' := s.setSeq (nextExchange s.seq)
  have hfe : s'.elapse.frame = some f := hf
  have hcfg : (s.exchange b).1.cfg = s.cfg := (s.bus_exchange b).cfg
  have hs : (s.exchange b).1.frame = (s'.transfer b).1.frame := rfl
  unfold State.carriesHarmless
  rw [hs, hcfg]
  cases hc : s'.callErrorAt 0 with
  | some e =>
    rw [State.transfer_of_error hc]
    refine ⟨_, congrArg (Option.map (BusFrame.fail s.cfg b)) hfe, ?_, hp⟩
    simp [BusFrame.fail, ha]
  | none =>
    obtain ⟨q, hq, hqw, hqb⟩ := s'.elapse.dataAnswer_frame s'.moment s'.free f w a b
    rw [State.transfer_of_none hc]
    refine ⟨{ f with data := f.data + 1, attempted := f.attempted + 1, pending := q }, ?_, ha, ?_⟩
    · show (s'.elapse.answer s'.moment s'.free b).frame = _
      rw [State.answer_data hfe ha, hq]
    · intro v hv
      have hv' : q = some v := hv
      cases w with
      | false => exact hp v ((hqw rfl).symm.trans hv')
      | true =>
        rcases hqb with h | h
        · exact hp v (h.symm.trans hv')
        · obtain rfl : b = v := by simpa using h.symm.trans hv'
          exact hb

theorem State.exchangeAll_carries {s : State} {w : Bool} {a : Addr} (h : s.carriesHarmless w a)
    {bs : List Byte} (hb : ∀ b ∈ bs, harmless s.cfg w a b) :
    (State.exchangeAll bs s).1.carriesHarmless w a := by
  induction bs generalizing s with
  | nil => exact h
  | cons b rest ih =>
    have h1 := State.exchange_carries h (hb b (by simp))
    have hc : (s.exchange b).1.cfg = s.cfg := (s.bus_exchange b).cfg
    unfold State.exchangeAll
    dsimp only
    split
    · exact h1
    · exact ih h1 (fun x hx => hc ▸ hb x (by simp [hx]))

/-- The release of a frame that carries nothing but a harmless byte marks nothing. -/
theorem State.closeFrame_hazard {s : State}
    (h : ∀ f w a v, s.frame = some f → f.addr = some (w, a) → f.pending = some v →
      harmless s.cfg true a v) (e : Option OpError) :
    (s.closeFrame e).1.hazard = s.hazard := by
  have hq : (s.closing.elapse.afterFrame s.closing.moment s.closing.free
      s.closing.callError).2 = false := by
    unfold State.afterFrame
    split
    · rename_i hfr
      split
      · rfl
      · split
        · rfl
        · split
          · exact Target.deliver_harmless (h _ _ _ _ hfr rfl rfl)
          · rfl
    · rfl
  show (s.hazard || (s.closing.elapse.afterFrame s.closing.moment s.closing.free
    s.closing.callError).2) = s.hazard
  rw [hq, Bool.or_false]

theorem State.closeFrame_hazard_of_carries {s : State} {w : Bool} {a : Addr}
    (h : s.carriesHarmless w a) (e : Option OpError) : (s.closeFrame e).1.hazard = s.hazard := by
  obtain ⟨f, hf, ha, hp⟩ := h
  refine State.closeFrame_hazard (fun f' w' a' v hf' ha' hv => ?_) e
  obtain rfl : f = f' := by simpa using hf.symm.trans hf'
  obtain ⟨rfl, rfl⟩ : w = w' ∧ a = a' := by simpa using ha.symm.trans ha'
  exact hp v hv

/-- A frame of harmless bytes sets no mark. -/
theorem State.runFrame_hazard {w : Bool} {a : Addr} {d : List Byte} {s : State}
    (hd : ∀ b ∈ d, harmless s.cfg w a b) :
    (s.runFrame (addressByte s.cfg w a :: d)).1.hazard = s.hazard := by
  unfold State.runFrame
  dsimp only
  split
  · have hx := State.transfer_address
      (s := s.openFrame.1.setSeq (nextExchange s.openFrame.1.seq)) s.openFrame_frame rfl w a
    have hx1 : (s.openFrame.1.exchange (addressByte s.cfg w a)).1.addressedTo w a := hx.1
    have hy : (s.openFrame.1.exchange (addressByte s.cfg w a)).1.carriesHarmless w a :=
      State.transfer_address_carries
        (s := s.openFrame.1.setSeq (nextExchange s.openFrame.1.seq)) s.openFrame_frame rfl rfl w a
    have hh : (s.openFrame.1.exchange (addressByte s.cfg w a)).1.hazard = s.hazard :=
      State.transfer_address_hazard
        (s := s.openFrame.1.setSeq (nextExchange s.openFrame.1.seq)) s.openFrame_frame rfl w a
    have hc : (s.openFrame.1.exchange (addressByte s.cfg w a)).1.cfg = s.cfg :=
      (s.bus_openFrame.trans (State.bus_exchange _ _)).cfg
    have hd' : ∀ b ∈ d, harmless (s.openFrame.1.exchange (addressByte s.cfg w a)).1.cfg w a b :=
      fun b hb => by rw [hc]; exact hd b hb
    unfold State.exchangeAll
    dsimp only
    split
    · exact (State.closeFrame_hazard_of_carries hy _).trans hh
    · exact (State.closeFrame_hazard_of_carries (State.exchangeAll_carries hy hd') _).trans
        ((State.exchangeAll_hazard hx1 hd').trans hh)
  · refine (State.closeFrame_hazard (fun f _ _ v hf _ hv => ?_) _).trans s.openFrame_hazard
    rw [s.openFrame_frame] at hf
    obtain rfl := Option.some.inj hf
    cases hv

/-- The mark of a register read (40_register_access R104). -/
theorem State.readReg_hazard (a : Addr) (s : State) :
    (s.readReg a).1.hazard = (s.hazard || (s.awaitReady && decide (a ≠ s.cfg.regIrqFlags1))) :=
  State.runFrame_hazard (s := s.markRead a) (w := false) (a := a)
    (d := List.replicate 1 s.cfg.dummyByte) fun _ _ => .inl rfl

/-- The mark of a burst read (44_packet_io R172). -/
theorem State.burstRead_hazard (n : Nat) (s : State) :
    (s.burstRead n).1.hazard = (s.hazard || s.awaitReady) :=
  State.runFrame_hazard (s := s.markBurst) (w := false) (a := s.cfg.regFifo)
    (d := List.replicate n s.cfg.dummyByte) fun _ _ => .inl rfl

/-- The mark of a burst write, where no target counts its bytes (44_packet_io R171). -/
theorem State.burstWrite_hazard {d : List Byte} {s : State}
    (h : d = [] ∨ s.cfg.target ≠ .reference) :
    (s.burstWrite d).1.hazard = (s.hazard || s.awaitReady) := by
  refine State.runFrame_hazard (s := s.markBurst) (w := true) (a := s.cfg.regFifo) (d := d) ?_
  rcases h with rfl | h
  · simp
  · exact fun _ _ => .inr (.inl h)

/-- The marks of a register write whose byte no target counts (40_register_access R105). -/
theorem State.writeReg_hazard {a : Addr} {v : Byte} (s : State) (h : harmless s.cfg true a v) :
    (s.writeReg a v).1.hazard
      = (s.hazard || (s.awaitReady && decide (a ≠ s.cfg.regOpmode))
          || (decide (a = s.cfg.regOpmode) && (modeOf s.cfg v).isNone)) := by
  have he : ∀ (t : State) (e : Option OpError), (t.endModeWrite a v e).hazard = t.hazard := by
    intro t e; unfold State.endModeWrite; split <;> rfl
  have hb : ((s.markWrite a).beginModeWrite a v).hazard
      = (s.hazard || (s.awaitReady && decide (a ≠ s.cfg.regOpmode))
          || (decide (a = s.cfg.regOpmode) && (modeOf s.cfg v).isNone)) := by
    have hm : (s.markWrite a).cfg = s.cfg := rfl
    unfold State.beginModeWrite
    rw [hm]
    by_cases ha : a = s.cfg.regOpmode
    · rw [if_pos ha]; simp [State.markWrite, ha]
    · rw [if_neg ha]; simp [State.markWrite, ha]
  have hc : ((s.markWrite a).beginModeWrite a v).cfg = s.cfg := State.beginModeWrite_cfg a v _
  rw [State.writeReg_eq, he, State.writeRegFrame_eq, ← hb, ← hc]
  refine State.runFrame_hazard (d := [v]) fun b hm => ?_
  obtain rfl := List.mem_singleton.mp hm
  rw [hc]
  exact h

/-- A mode value written to the mode register sets no mark (42_mode_controller R131), unless the FIFO
of a reference target is at the same address. -/
theorem State.setMode_hazard (m : Mode) {s : State}
    (hne : s.cfg.target ≠ .reference ∨ s.cfg.regOpmode ≠ s.cfg.regFifo) :
    (s.setMode m).1.hazard = s.hazard := by
  have hv : (modeOf s.cfg (modeValue s.cfg m)).isSome = true := by rw [modeOf_modeValue]; rfl
  have hf := s.writeReg_hazard (a := s.cfg.regOpmode) (v := modeValue s.cfg m)
    (.inr (hne.imp id fun h => ⟨h, fun _ => hv⟩))
  refine hf.trans ?_
  simp [Option.isNone_eq_false_iff.mpr hv]

/-! ### Waits -/

/-- Polls of `REG_IRQFLAGS1`, and any polls while readiness is not awaited, set no mark. -/
theorem State.pollLoop_hazard (seqOf : Nat → SeqState) (reg : Addr) (bit : Fin 8) (timeout : Nat)
    (name : WaitName) (t0 fuel k : Nat) {s : State}
    (h : s.awaitReady = false ∨ reg = s.cfg.regIrqFlags1) :
    (State.pollLoop seqOf reg bit timeout name t0 fuel k s).1.hazard = s.hazard := by
  induction fuel generalizing k s with
  | zero => rfl
  | succ n ih =>
    have hb := (s.bus_setSeq (seqOf k)).trans (State.bus_readReg reg _)
    have h1 : ((s.setSeq (seqOf k)).readReg reg).1.hazard = s.hazard := by
      rw [State.readReg_hazard]
      rcases h with h | h <;> simp [h]
    unfold State.pollLoop
    dsimp only
    split
    · exact h1
    · split
      · exact h1
      · split
        · exact h1
        · refine (ih _ ?_).trans h1
          exact h.imp (fun h => hb.awaitReady.trans h)
            (fun h => h.trans (congrArg (·.regIrqFlags1) hb.cfg.symm))

theorem State.isReady_hazard (s : State) : s.isReady.1.hazard = s.hazard := by
  have h : s.readyWait.1.hazard = s.hazard :=
    State.pollLoop_hazard _ _ _ _ _ _ _ _ (s := s.now.1) (.inr rfl)
  cases hr : s.readyWait.2 with
  | none => rw [State.isReady_of_none hr]; exact h
  | some e => rw [State.isReady_of_some hr]; exact h

theorem State.setModeAndWait_hazard (m : Mode) {s : State}
    (hne : s.cfg.target ≠ .reference ∨ s.cfg.regOpmode ≠ s.cfg.regFifo) :
    (s.setModeAndWait m).1.hazard = s.hazard := by
  have h := State.setMode_hazard m hne
  cases hm : (s.setMode m).2 with
  | some e => rw [State.setModeAndWait_of_some hm]; exact h
  | none => rw [State.setModeAndWait_of_none hm]; exact (State.isReady_hazard _).trans h

theorem State.awaitEvent_hazard (timeout : Nat) (name : WaitName) (s : State) :
    (s.awaitEvent timeout name).1.hazard = s.hazard := by
  unfold State.awaitEvent
  dsimp only
  split
  · rfl
  · split
    · rfl
    · split <;> rfl

/-- A completion wait made when readiness was seen sets no mark (44_packet_io R173, R174). -/
theorem State.completionWait_hazard (dwell : Nat) (bit : Fin 8) (timeout : Nat) (name : WaitName)
    {s : State} (h : s.awaitReady = false) :
    (s.completionWait dwell bit timeout name).1.hazard = s.hazard := by
  unfold State.completionWait
  split
  · rfl
  · exact State.pollLoop_hazard _ _ _ _ _ _ _ _ (s := s.now.1) (.inl h)
  · exact s.awaitEvent_hazard timeout name

end Sys2Proof.Machine
end

