-- ==== Sys2Proof/Laws/PerInstr.lean ====
section
/-!
SUPPORT. Statements made per instruction: which rows have words of their own (30_encoding R70 to R83).
-/

namespace Sys2Proof.Laws.EncodableHasWord

/-- The seventeen internal operations, which have no encoding (30_encoding R83). -/
def internal : Instr → Bool
  | .rd _ => false
  | .wr _ _ => false
  | .bwr _ => false
  | .brd _ => false
  | .addrByte _ _ => false
  | .wrOpmodeStandby => false
  | .wrOpmodeTx => false
  | .wrOpmodeRx => false
  | .wrOpmodeSleep => false
  | .wrOpmodeFs => false
  | .rdIrqFlags1 => false
  | .rdIrqFlags2 => false
  | .rdVersion => false
  | .wrFrfMsb _ => false
  | .wrFrfMid _ => false
  | .wrFrfLsb _ => false
  | .reset => false
  | .setStandbyMode => false
  | .isReady => false
  | .detectDevice => false
  | .setFrequency _ => false
  | .send _ => false
  | .receive => false
  | .readRegister _ => false
  | .writeRegister _ _ => false
  | .openFrame => true
  | .exchange _ => true
  | .closeFrame _ => true
  | .setMode _ => true
  | .setModeAndWait _ => true
  | .fifoWrite _ => true
  | .fifoRead _ => true
  | .waitTxDone => true
  | .waitPayloadReady => true
  | .pollFlag _ _ _ _ => true
  | .handler => true
  | .awaitEvent _ _ => true
  | .hzToFrf _ => true
  | .frfToHz _ => true
  | .frfToHzInt _ => true
  | .frfSplit _ => true
  | .frfJoin _ _ _ => true

/-- Under every configuration an instruction has a word exactly if it is no internal operation (30_encoding R70, R82, R83). -/
def Statement (i : Instr) : Prop :=
  ∀ c : Config, (encode c i).isSome = !internal i

theorem rd (a : Addr) : Statement (.rd a) := fun _ => rfl

theorem wr (a : Addr) (v : Byte) : Statement (.wr a v) := fun _ => rfl

theorem bwr (d : List Byte) : Statement (.bwr d) := fun _ => rfl

theorem brd (n : Nat) : Statement (.brd n) := fun _ => rfl

theorem addrByte (w : Bool) (a : Addr) : Statement (.addrByte w a) := fun _ => rfl

theorem wrOpmodeStandby : Statement (.wrOpmodeStandby) := fun _ => rfl

theorem wrOpmodeTx : Statement (.wrOpmodeTx) := fun _ => rfl

theorem wrOpmodeRx : Statement (.wrOpmodeRx) := fun _ => rfl

theorem wrOpmodeSleep : Statement (.wrOpmodeSleep) := fun _ => rfl

theorem wrOpmodeFs : Statement (.wrOpmodeFs) := fun _ => rfl

theorem rdIrqFlags1 : Statement (.rdIrqFlags1) := fun _ => rfl

theorem rdIrqFlags2 : Statement (.rdIrqFlags2) := fun _ => rfl

theorem rdVersion : Statement (.rdVersion) := fun _ => rfl

theorem wrFrfMsb (m : Byte) : Statement (.wrFrfMsb m) := fun _ => rfl

theorem wrFrfMid (i : Byte) : Statement (.wrFrfMid i) := fun _ => rfl

theorem wrFrfLsb (l : Byte) : Statement (.wrFrfLsb l) := fun _ => rfl

theorem reset : Statement (.reset) := fun _ => rfl

theorem setStandbyMode : Statement (.setStandbyMode) := fun _ => rfl

theorem isReady : Statement (.isReady) := fun _ => rfl

theorem detectDevice : Statement (.detectDevice) := fun _ => rfl

theorem setFrequency (hz : Hz) : Statement (.setFrequency hz) := fun _ => rfl

theorem send (data : List Byte) : Statement (.send data) := fun _ => rfl

theorem receive : Statement (.receive) := fun _ => rfl

theorem readRegister (addr : Byte) : Statement (.readRegister addr) := fun _ => rfl

theorem writeRegister (addr : Byte) (value : Byte) : Statement (.writeRegister addr value) := fun _ => rfl

theorem openFrame : Statement (.openFrame) := fun _ => rfl

theorem exchange (b : Byte) : Statement (.exchange b) := fun _ => rfl

theorem closeFrame (ePrev : Option OpError) : Statement (.closeFrame ePrev) := fun _ => rfl

theorem setMode (m : Mode) : Statement (.setMode m) := fun _ => rfl

theorem setModeAndWait (m : Mode) : Statement (.setModeAndWait m) := fun _ => rfl

theorem fifoWrite (data : List Byte) : Statement (.fifoWrite data) := fun _ => rfl

theorem fifoRead (n : Nat) : Statement (.fifoRead n) := fun _ => rfl

theorem waitTxDone : Statement (.waitTxDone) := fun _ => rfl

theorem waitPayloadReady : Statement (.waitPayloadReady) := fun _ => rfl

theorem pollFlag (reg : Addr) (bit : Fin 8) (timeout : Nat) (name : WaitName) : Statement (.pollFlag reg bit timeout name) := fun _ => rfl

theorem handler : Statement (.handler) := fun _ => rfl

theorem awaitEvent (timeout : Nat) (name : WaitName) : Statement (.awaitEvent timeout name) := fun _ => rfl

theorem hzToFrf (hz : Nat) : Statement (.hzToFrf hz) := fun _ => rfl

theorem frfToHz (f : Frf) : Statement (.frfToHz f) := fun _ => rfl

theorem frfToHzInt (f : Frf) : Statement (.frfToHzInt f) := fun _ => rfl

theorem frfSplit (frf : Frf) : Statement (.frfSplit frf) := fun _ => rfl

theorem frfJoin (m : Byte) (i : Byte) (l : Byte) : Statement (.frfJoin m i l) := fun _ => rfl

end Sys2Proof.Laws.EncodableHasWord
end

