-- ==== Sys2Proof/Laws/Traffic.lean ====
section
/-!
SUPPORT. What stands in the trace: the bytes received, the frames of a run of commands, and for each
operation made of one frame the commands it issues, the bytes it receives and the error it answers;
and the calls of a frame with what the platform answered to each.
-/

namespace Sys2Proof.Machine

/-! ### The trace since a state -/

theorem State.since_trans {s t u : State} (h : s.Extends t) (h' : t.Extends u) :
    u.trace.drop s.trace.length
      = t.trace.drop s.trace.length ++ u.trace.drop t.trace.length := by
  obtain ⟨l, hl⟩ := h.trace
  obtain ⟨l', hl'⟩ := h'.trace
  rw [hl', hl]
  simp

theorem State.received_trans {s t u : State} (h : s.Extends t) (h' : t.Extends u) :
    s.received u = s.received t ++ t.received u := by
  unfold State.received State.calls
  rw [State.since_trans h h', List.filterMap_append]

/-- Two states with the same trace and a common later one. -/
theorem State.received_of_trace {s t u : State} (h : t.trace = s.trace) :
    s.received u = t.received u := by unfold State.received State.calls; rw [h]

theorem State.received_of_trace_right {s t u : State} (h : u.trace = t.trace) :
    s.received u = s.received t := by unfold State.received State.calls; rw [h]

theorem State.issued_of_trace {s t u : State} {l : List BusAct} (h : t.trace = s.trace)
    (hi : t.issued u l) : s.issued u l := by unfold State.issued at *; rw [← h]; exact hi

theorem State.issued_of_trace_right {s t u : State} {l : List BusAct} (h : u.trace = t.trace)
    (hi : s.issued t l) : s.issued u l := by unfold State.issued at *; rw [h]; exact hi

/-- The commands since a state are the commands issued. -/
theorem State.since_of_issued {s t : State} {l : List BusAct} (h : s.issued t l) :
    (t.trace.drop s.trace.length).map BusCall.act = l := by
  unfold State.issued at h
  rw [List.map_drop, h]
  have := List.length_map (as := s.trace) BusCall.act
  rw [← this]
  simp

theorem State.framesIssued_of_issued {s t : State} {l : List BusAct} (h : s.issued t l) :
    s.framesIssued t = framesOf l := by
  unfold State.framesIssued State.calls
  rw [State.since_of_issued h]

/-! ### Frames of a run of commands -/

theorem framesFrom_sends (bs cur : List Byte) (l : List BusAct) :
    framesFrom (some cur) (bs.map .send ++ .select false :: l) = (cur ++ bs) :: framesFrom none l := by
  induction bs generalizing cur with
  | nil => simp [framesFrom]
  | cons b rest ih => simp [framesFrom, ih]

@[simp] theorem framesOf_nil : framesOf [] = [] := rfl

/-- A whole frame in front is the first frame. -/
theorem framesOf_frame (bs : List Byte) (l : List BusAct) :
    framesOf (frameActs bs ++ l) = bs :: framesOf l := by
  simp [framesOf, frameActs, framesFrom, framesFrom_sends]

@[simp] theorem framesOf_one (bs : List Byte) : framesOf (frameActs bs) = [bs] := by
  have h := framesOf_frame bs []
  simpa using h

@[simp] theorem framesOf_sleep (d : Nat) (l : List BusAct) :
    framesOf (.sleep d :: l) = framesOf l := by
  cases l <;> rfl

/-- The frames of a run of polls. -/
theorem framesOf_polls (c : Config) (reg : Addr) (n : Nat) (l : List BusAct) :
    framesOf (pollActs c reg n ++ l)
      = List.replicate n (readFrameBytes c reg 1) ++ framesOf l := by
  induction n with
  | zero => rfl
  | succ n ih =>
    cases n with
    | zero => simp [pollActs, framesOf_frame]
    | succ n =>
      simp only [pollActs, List.append_assoc, List.cons_append, framesOf_frame, framesOf_sleep]
      rw [ih]
      simp [List.replicate_succ]

/-! ### Bytes received -/

theorem State.received_self (s : State) : s.received s = [] := by simp [State.received, State.calls]

theorem State.openFrame_received (s : State) : s.received s.openFrame.1 = [] := by
  unfold State.received State.calls
  show List.filterMap _ (List.drop _ (s.trace ++ [.select true _])) = _
  simp [BusCall.received]

theorem State.exchange_received (b : Byte) (s : State) :
    s.received (s.exchange b).1 = (match (s.exchange b).2 with | .ok r => [r] | .error _ => []) := by
  have h : (s.exchange b).1.trace
      = s.trace ++ [.transfer b (State.transfer b (s.setSeq (nextExchange s.seq))).2] :=
    State.transfer_trace b (s.setSeq (nextExchange s.seq))
  have h2 : (s.exchange b).2
      = (State.transfer b (s.setSeq (nextExchange s.seq))).2.mapError transportError := rfl
  unfold State.received State.calls
  rw [h, h2]
  cases (State.transfer b (s.setSeq (nextExchange s.seq))).2 <;>
    simp [BusCall.received, Except.mapError]

theorem State.closeFrame_received (e : Option OpError) (s : State) :
    s.received (s.closeFrame e).1 = [] := by
  unfold State.received State.calls
  show List.filterMap _ (List.drop _ (State.setSelect false s.closing).1.trace) = _
  rw [State.setSelect_trace]
  simp [State.closing, BusCall.received]

theorem State.exchangeAll_received (bs : List Byte) (s : State) :
    s.received (State.exchangeAll bs s).1 = (State.exchangeAll bs s).2.1 := by
  induction bs generalizing s with
  | nil => exact s.received_self
  | cons b rest ih =>
    have hb := s.exchange_received b
    cases hr : (s.exchange b).2 with
    | error e =>
      unfold State.exchangeAll
      simp only [hr]
      rw [hb, hr]
    | ok r =>
      unfold State.exchangeAll
      simp only [hr]
      rw [State.received_trans (s.bus_exchange b).toExtends
        (State.bus_exchangeAll rest _).toExtends, hb, hr, ih]
      rfl

/-- The bytes a frame answers are the bytes received on the bus. -/
theorem State.runFrame_received (bs : List Byte) (s : State) :
    s.received (s.runFrame bs).1 = (s.runFrame bs).2.1 := by
  unfold State.runFrame
  dsimp only
  split
  · rw [State.received_trans s.bus_openFrame.toExtends
        ((State.bus_exchangeAll bs _).trans (State.bus_closeFrame _ _)).toExtends,
      State.received_trans (State.bus_exchangeAll bs _).toExtends
        (State.bus_closeFrame _ _).toExtends,
      State.openFrame_received, State.exchangeAll_received, State.closeFrame_received]
    simp
  · rw [State.received_trans s.bus_openFrame.toExtends (State.bus_closeFrame _ _).toExtends,
      State.openFrame_received, State.closeFrame_received]
    rfl

/-- Every frame issues `CS+`, the bytes up to the failing one, and `CS-`, and all of them where it
answers no error. -/
theorem State.runFrame_issued (bs : List Byte) (s : State) :
    ∃ k, s.issued (s.runFrame bs).1 (frameActs (bs.take k))
      ∧ ((s.runFrame bs).2.2 = none → bs.take k = bs)
      ∧ ∀ e, (s.runFrame bs).2.2 = some e → ∃ cause, e = transportError cause := by
  rcases s.runFrame_error bs with h | ⟨k, e, hk, hn, he⟩
  · obtain ⟨h1, -, -, h4⟩ := State.runFrame_ok bs h
    refine ⟨bs.length, ?_, fun _ => by simp, fun e he => by rw [h1] at he; cases he⟩
    rwa [List.take_length]
  · obtain ⟨h1, h2⟩ := State.runFrame_fails bs hk hn he
    refine ⟨k, h2, fun hne => ?_, fun e' he' => ⟨e, ?_⟩⟩
    · rw [h1] at hne; cases hne
    · rw [h1] at he'; exact (Option.some.inj he').symm

/-! ### One register -/

theorem State.markRead_trace (a : Addr) (s : State) : (s.markRead a).trace = s.trace := rfl

@[simp] theorem readFrameBytes_length (c : Config) (a : Addr) (n : Nat) :
    (readFrameBytes c a n).length = n + 1 := by simp [readFrameBytes]

@[simp] theorem writeFrameBytes_length (c : Config) (a : Addr) (d : List Byte) :
    (writeFrameBytes c a d).length = d.length + 1 := by simp [writeFrameBytes]

/-- A register read in which no call fails. -/
theorem State.readReg_ok (a : Addr) {s : State} (h : s.noFailure 4) :
    ∃ r b, (s.readReg a).2 = .ok b ∧ s.received (s.readReg a).1 = [r, b]
      ∧ s.issued (s.readReg a).1 (frameActs (readFrameBytes s.cfg a 1))
      ∧ (s.readReg a).1.tick = s.tick + 4 := by
  have hf : (s.markRead a).noFailure ((readFrameBytes s.cfg a 1).length + 2) := h
  obtain ⟨h1, h2, h3, h4⟩ := State.runFrame_ok (readFrameBytes s.cfg a 1) hf
  have h5 := State.runFrame_received (readFrameBytes s.cfg a 1) (s.markRead a)
  obtain ⟨r, b, hb⟩ : ∃ r b, ((s.markRead a).runFrame (readFrameBytes s.cfg a 1)).2.1 = [r, b] :=
    List.length_eq_two.mp h2
  refine ⟨r, b, ?_, h5.trans hb, h4, h3⟩
  unfold State.readReg State.readFrame
  dsimp only
  show (match ((s.markRead a).runFrame (readFrameBytes s.cfg a 1)).2.2 with
    | some e => Except.error e
    | none => Except.ok ((((s.markRead a).runFrame (readFrameBytes s.cfg a 1)).2.1.drop 1).headD 0))
      = _
  rw [h1, hb]
  rfl

/-- A register read whose first failing call is the k-th. -/
theorem State.readReg_fails (a : Addr) {s : State} {k : Nat} {e : PlatformError} (hk : k < 4)
    (h : s.noFailure k) (he : s.callErrorAt k = some e) :
    (s.readReg a).2 = .error (transportError e)
      ∧ s.issued (s.readReg a).1 (frameActs ((readFrameBytes s.cfg a 1).take k)) := by
  obtain ⟨h1, h2⟩ := State.runFrame_fails (s := s.markRead a) (readFrameBytes s.cfg a 1)
    (k := k) (e := e) (by simpa using hk) h he
  refine ⟨?_, h2⟩
  unfold State.readReg State.readFrame
  dsimp only
  show (match ((s.markRead a).runFrame (readFrameBytes s.cfg a 1)).2.2 with
    | some e => Except.error e
    | none => Except.ok ((((s.markRead a).runFrame (readFrameBytes s.cfg a 1)).2.1.drop 1).headD 0))
      = _
  rw [h1]

/-- A register read either answers the byte received, or the platform's error after a part of its
frame. -/
theorem State.readReg_cases (a : Addr) (s : State) :
    (∃ r b, (s.readReg a).2 = .ok b ∧ s.received (s.readReg a).1 = [r, b]
        ∧ s.issued (s.readReg a).1 (frameActs (readFrameBytes s.cfg a 1)))
      ∨ ∃ e k, (s.readReg a).2 = .error (transportError e)
        ∧ s.issued (s.readReg a).1 (frameActs ((readFrameBytes s.cfg a 1).take k)) := by
  rcases s.runFrame_error (readFrameBytes s.cfg a 1) with h | ⟨k, e, hk, hn, he⟩
  · obtain ⟨r, b, h1, h2, h3, -⟩ := State.readReg_ok a (s := s) h
    exact .inl ⟨r, b, h1, h2, h3⟩
  · exact .inr ⟨e, k, State.readReg_fails a (by simpa using hk) hn he⟩

/-- A register write in which no call fails. -/
theorem State.writeReg_ok (a : Addr) (v : Byte) {s : State} (h : s.noFailure 4) :
    (s.writeReg a v).2 = none ∧ (s.received (s.writeReg a v).1).length = 2
      ∧ s.issued (s.writeReg a v).1 (frameActs (writeFrameBytes s.cfg a [v]))
      ∧ (s.writeReg a v).1.tick = s.tick + 4 := by
  have hq := (State.quiet_beginModeWrite a v (s.markWrite a))
  have htr : ((s.markWrite a).beginModeWrite a v).trace = s.trace := by
    unfold State.beginModeWrite; split <;> rfl
  have htk : ((s.markWrite a).beginModeWrite a v).tick = s.tick := by
    unfold State.beginModeWrite; split <;> rfl
  have hf : ((s.markWrite a).beginModeWrite a v).noFailure ((writeFrameBytes s.cfg a [v]).length + 2) :=
    State.noFailure_later (n := 0) ((s.bus_markWrite a).toExtends.trans hq.toExtends) htk
      (State.noFailure_mono h (by simp))
  obtain ⟨h1, h2, h3, h4⟩ := State.runFrame_ok (writeFrameBytes s.cfg a [v]) hf
  have h5 := State.runFrame_received (writeFrameBytes s.cfg a [v]) ((s.markWrite a).beginModeWrite a v)
  have ht : ∀ e, ((s.writeRegFrame a v).1.endModeWrite a v e).trace
      = (((s.markWrite a).beginModeWrite a v).runFrame (writeFrameBytes s.cfg a [v])).1.trace := by
    intro e; rw [State.writeRegFrame_eq]; unfold State.endModeWrite; split <;> rfl
  have hk : ∀ e, ((s.writeRegFrame a v).1.endModeWrite a v e).tick
      = (((s.markWrite a).beginModeWrite a v).runFrame (writeFrameBytes s.cfg a [v])).1.tick := by
    intro e; rw [State.writeRegFrame_eq]; unfold State.endModeWrite; split <;> rfl
  have he : (s.writeRegFrame a v).2
      = (((s.markWrite a).beginModeWrite a v).runFrame (writeFrameBytes s.cfg a [v])).2.2 :=
    congrArg Prod.snd (State.writeRegFrame_eq a v s)
  rw [State.writeReg_eq]
  refine ⟨he.trans h1, ?_, State.issued_of_trace_right (ht _) (State.issued_of_trace htr h4),
    (hk _).trans (by rw [h3, htk]; simp)⟩
  rw [State.received_of_trace_right (ht _), State.received_of_trace htr, h5, h2]
  rfl

/-- A register write whose first failing call is the k-th. -/
theorem State.writeReg_fails (a : Addr) (v : Byte) {s : State} {k : Nat} {e : PlatformError}
    (hk : k < 4) (h : s.noFailure k) (he : s.callErrorAt k = some e) :
    (s.writeReg a v).2 = some (transportError e)
      ∧ s.issued (s.writeReg a v).1 (frameActs ((writeFrameBytes s.cfg a [v]).take k)) := by
  have hq := (State.quiet_beginModeWrite a v (s.markWrite a))
  have htr : ((s.markWrite a).beginModeWrite a v).trace = s.trace := by
    unfold State.beginModeWrite; split <;> rfl
  have htk : ((s.markWrite a).beginModeWrite a v).tick = s.tick + 0 := by
    unfold State.beginModeWrite; split <;> rfl
  have hx := (s.bus_markWrite a).toExtends.trans hq.toExtends
  have hf : ((s.markWrite a).beginModeWrite a v).noFailure k :=
    State.noFailure_later hx htk (State.noFailure_mono h (by omega))
  have he' : ((s.markWrite a).beginModeWrite a v).callErrorAt k = some e := by
    rw [State.callErrorAt_later hx htk, Nat.zero_add]; exact he
  obtain ⟨h1, h2⟩ := State.runFrame_fails (writeFrameBytes s.cfg a [v]) (by simpa using hk) hf he'
  have ht : ∀ e, ((s.writeRegFrame a v).1.endModeWrite a v e).trace
      = (((s.markWrite a).beginModeWrite a v).runFrame (writeFrameBytes s.cfg a [v])).1.trace := by
    intro e; rw [State.writeRegFrame_eq]; unfold State.endModeWrite; split <;> rfl
  have hw : (s.writeRegFrame a v).2
      = (((s.markWrite a).beginModeWrite a v).runFrame (writeFrameBytes s.cfg a [v])).2.2 :=
    congrArg Prod.snd (State.writeRegFrame_eq a v s)
  rw [State.writeReg_eq]
  exact ⟨hw.trans h1, State.issued_of_trace_right (ht _) (State.issued_of_trace htr h2)⟩

/-- A register write answers nothing, or the platform's error after a part of its frame. -/
theorem State.writeReg_cases (a : Addr) (v : Byte) (s : State) :
    ((s.writeReg a v).2 = none
        ∧ s.issued (s.writeReg a v).1 (frameActs (writeFrameBytes s.cfg a [v])))
      ∨ ∃ e k, (s.writeReg a v).2 = some (transportError e)
        ∧ s.issued (s.writeReg a v).1 (frameActs ((writeFrameBytes s.cfg a [v]).take k)) := by
  rcases s.runFrame_error (writeFrameBytes s.cfg a [v]) with h | ⟨k, e, hk, hn, he⟩
  · obtain ⟨h1, -, h3, -⟩ := State.writeReg_ok a v (s := s) h
    exact .inl ⟨h1, h3⟩
  · exact .inr ⟨e, k, State.writeReg_fails a v (by simpa using hk) hn he⟩

/-! ### Bursts -/

/-- A burst write in which no call fails. -/
theorem State.burstWrite_ok (d : List Byte) {s : State} (h : s.noFailure (d.length + 3)) :
    (s.burstWrite d).2 = none
      ∧ s.issued (s.burstWrite d).1 (frameActs (writeFrameBytes s.cfg s.cfg.regFifo d))
      ∧ (s.burstWrite d).1.tick = s.tick + (d.length + 3) := by
  have hf : s.markBurst.noFailure ((writeFrameBytes s.cfg s.cfg.regFifo d).length + 2) := by
    rw [writeFrameBytes_length]; exact h
  obtain ⟨h1, -, h3, h4⟩ := State.runFrame_ok (writeFrameBytes s.cfg s.cfg.regFifo d) hf
  refine ⟨h1, h4, h3.trans ?_⟩
  rw [writeFrameBytes_length]
  rfl

/-- A burst write answers nothing, or the platform's error after a part of its frame. -/
theorem State.burstWrite_cases (d : List Byte) (s : State) :
    ∃ k, s.issued (s.burstWrite d).1 (frameActs ((writeFrameBytes s.cfg s.cfg.regFifo d).take k))
      ∧ ((s.burstWrite d).2 = none
          → (writeFrameBytes s.cfg s.cfg.regFifo d).take k = writeFrameBytes s.cfg s.cfg.regFifo d)
      ∧ ∀ e, (s.burstWrite d).2 = some e → ∃ cause, e = transportError cause :=
  s.markBurst.runFrame_issued (writeFrameBytes s.cfg s.cfg.regFifo d)

/-- A burst read in which no call fails: the bytes answered are the last `n` received. -/
theorem State.burstRead_ok (n : Nat) {s : State} (h : s.noFailure (n + 3)) :
    (s.burstRead n).2.2 = none ∧ (s.burstRead n).2.1.length = n
      ∧ (∃ r, s.received (s.burstRead n).1 = r :: (s.burstRead n).2.1)
      ∧ s.issued (s.burstRead n).1 (frameActs (readFrameBytes s.cfg s.cfg.regFifo n))
      ∧ (s.burstRead n).1.tick = s.tick + (n + 3) := by
  have hf : s.markBurst.noFailure ((readFrameBytes s.cfg s.cfg.regFifo n).length + 2) := by
    rw [readFrameBytes_length]; exact h
  obtain ⟨h1, h2, h3, h4⟩ := State.runFrame_ok (readFrameBytes s.cfg s.cfg.regFifo n) hf
  have h5 := State.runFrame_received (readFrameBytes s.cfg s.cfg.regFifo n) s.markBurst
  have hd : (s.burstRead n).2.1
      = (s.markBurst.runFrame (readFrameBytes s.cfg s.cfg.regFifo n)).2.1.drop 1 := rfl
  refine ⟨h1, ?_, ?_, h4, h3.trans ?_⟩
  · rw [hd, List.length_drop, h2, readFrameBytes_length]; omega
  · rw [hd]
    have h6 : s.received (s.burstRead n).1
        = (s.markBurst.runFrame (readFrameBytes s.cfg s.cfg.regFifo n)).2.1 := h5
    rw [h6]
    cases hb : (s.markBurst.runFrame (readFrameBytes s.cfg s.cfg.regFifo n)).2.1 with
    | nil => rw [hb, readFrameBytes_length] at h2; simp at h2
    | cons r l => exact ⟨r, by simp⟩
  · rw [readFrameBytes_length]
    rfl

/-- A burst read answers nothing wrong, or the platform's error after a part of its frame. -/
theorem State.burstRead_cases (n : Nat) (s : State) :
    ∃ k, s.issued (s.burstRead n).1 (frameActs ((readFrameBytes s.cfg s.cfg.regFifo n).take k))
      ∧ ((s.burstRead n).2.2 = none → (readFrameBytes s.cfg s.cfg.regFifo n).take k
          = readFrameBytes s.cfg s.cfg.regFifo n)
      ∧ ∀ e, (s.burstRead n).2.2 = some e → ∃ cause, e = transportError cause :=
  s.markBurst.runFrame_issued (readFrameBytes s.cfg s.cfg.regFifo n)

/-! ### The calls of a frame, with what the platform answered -/

/-- Between `s` and `t` exactly the calls `l` were made, each answered as the platform reports it. -/
structure State.Called (s t : State) (l : List BusCall) : Prop where
  trace : t.trace = s.trace ++ l
  tick : t.tick = s.tick + l.length
  errors : l.map BusCall.error = (List.range l.length).map s.callErrorAt

theorem State.Called.trans {s t u : State} {l l' : List BusCall} (hx : s.Extends t)
    (h : s.Called t l) (h' : t.Called u l') : s.Called u (l ++ l') where
  trace := by rw [h'.trace, h.trace, List.append_assoc]
  tick := by rw [h'.tick, h.tick, List.length_append]; omega
  errors := by
    have he : t.callErrorAt = fun k => s.callErrorAt (l.length + k) :=
      funext fun k => State.callErrorAt_later hx h.tick k
    rw [List.map_append, h.errors, h'.errors, he, List.length_append, List.range_add,
      List.map_append, List.map_map]
    rfl

theorem State.Called.calls {s t : State} {l : List BusCall} (h : s.Called t l) : s.calls t = l := by
  simp [State.calls, h.trace]

theorem State.Called.issued {s t : State} {l : List BusCall} (h : s.Called t l) :
    s.issued t (l.map BusCall.act) := by simp [State.issued, h.trace]

/-- The first error of the calls made is the first that the platform reports. -/
theorem State.Called.firstError_take {s t : State} {l : List BusCall} (h : s.Called t l) {k : Nat}
    (hk : s.noFailure k) : firstError (l.take k) = none := by
  unfold firstError
  rw [List.findSome?_eq_none_iff]
  intro c hc
  obtain ⟨j, hj, rfl⟩ := List.mem_iff_getElem.mp hc
  rw [List.length_take] at hj
  have := congrArg (·[j]?) h.errors
  simp only [List.getElem?_map] at this
  rw [List.getElem?_eq_getElem (by omega), List.getElem?_range (by omega)] at this
  simp only [Option.map_some, Option.some.injEq] at this
  rw [List.getElem_take, this]
  exact hk j (by omega)

theorem State.Called.error_getElem? {s t : State} {l : List BusCall} (h : s.Called t l) {k : Nat}
    (hk : k < l.length) : (l[k]?).bind BusCall.error = s.callErrorAt k := by
  have := congrArg (·[k]?) h.errors
  simp only [List.getElem?_map] at this
  rw [List.getElem?_eq_getElem hk, List.getElem?_range hk] at this
  rw [List.getElem?_eq_getElem hk]
  simpa using this

theorem State.transfer_error (b : Byte) (s : State) :
    BusCall.error (.transfer b (s.transfer b).2) = s.callErrorAt 0 := by
  rw [← State.callError_eq]
  unfold State.transfer
  cases s.callError <;> rfl

theorem State.openFrame_called (s : State) :
    s.Called s.openFrame.1 [.select true (s.callErrorAt 0)] := ⟨rfl, rfl, rfl⟩

theorem State.exchange_called (b : Byte) (s : State) :
    ∃ c, s.Called (s.exchange b).1 [c] :=
  ⟨.transfer b (State.transfer b (s.setSeq (nextExchange s.seq))).2,
    State.transfer_trace b (s.setSeq (nextExchange s.seq)), State.exchange_tick b s,
    congrArg (fun e => [e]) (State.transfer_error b (s.setSeq (nextExchange s.seq)))⟩

theorem State.closeFrame_called (e : Option OpError) (s : State) :
    s.Called (s.closeFrame e).1 [.select false (s.callErrorAt 0)] := ⟨rfl, rfl, rfl⟩

theorem State.exchangeAll_called (bs : List Byte) (s : State) :
    ∃ l, s.Called (State.exchangeAll bs s).1 l := by
  induction bs generalizing s with
  | nil => exact ⟨[], by simp [State.exchangeAll], rfl, rfl⟩
  | cons b rest ih =>
    obtain ⟨c, hc⟩ := s.exchange_called b
    cases hr : (s.exchange b).2 with
    | error e => exact ⟨[c], by unfold State.exchangeAll; simp only [hr]; exact hc⟩
    | ok r =>
      obtain ⟨l, hl⟩ := ih (s.exchange b).1
      exact ⟨[c] ++ l, by
        unfold State.exchangeAll; simp only [hr]
        exact hc.trans (s.bus_exchange b).toExtends hl⟩

theorem firstError_append (l l' : List BusCall) :
    firstError (l ++ l') = (firstError l).or (firstError l') := by
  simp [firstError, List.findSome?_append]

theorem frameActs_length (bs : List Byte) : (frameActs bs).length = bs.length + 2 := by
  simp [frameActs]

/-- All that a frame does on the bus (40_register_access R103): its calls are one frame meant to send
`bs`, whole or stopped at the first failing call, and the error it answers is the first of them. -/
theorem State.runFrame_called (bs : List Byte) (s : State) :
    ∃ l, s.Called (s.runFrame bs).1 l ∧ isFrameOf bs l
      ∧ (s.runFrame bs).2.2 = (firstError l).map transportError := by
  obtain ⟨l, hl⟩ : ∃ l, s.Called (s.runFrame bs).1 l := by
    obtain ⟨l, hl⟩ := State.exchangeAll_called bs s.openFrame.1
    unfold State.runFrame
    dsimp only
    split
    · exact ⟨_, s.openFrame_called.trans s.bus_openFrame.toExtends
        (hl.trans (State.bus_exchangeAll bs _).toExtends (State.closeFrame_called _ _))⟩
    · exact ⟨_, s.openFrame_called.trans s.bus_openFrame.toExtends (State.closeFrame_called _ _)⟩
  have hact : ∀ {as}, s.issued (s.runFrame bs).1 as → l.map BusCall.act = as := fun h =>
    List.append_cancel_left (hl.issued.symm.trans h)
  rcases s.runFrame_error bs with h | ⟨k, e, hk, hn, he⟩
  · obtain ⟨h1, -, -, h4⟩ := State.runFrame_ok bs h
    have ha := hact h4
    have hlen : l.length = bs.length + 2 := by
      rw [← List.length_map (as := l) BusCall.act, ha, frameActs_length]
    have hf : firstError l = none := by
      have := hl.firstError_take h
      rwa [← hlen, List.take_length] at this
    exact ⟨l, hl, .inl ⟨ha, hf⟩, by rw [h1, hf]; rfl⟩
  · obtain ⟨h1, h2⟩ := State.runFrame_fails bs hk hn he
    have ha := hact h2
    have hlen : k < l.length := by
      rw [← List.length_map (as := l) BusCall.act, ha, frameActs_length, List.length_take]; omega
    have hc := hl.firstError_take hn
    have hk' : (l[k]?).bind BusCall.error = some e := by rw [hl.error_getElem? hlen, he]
    have hf : firstError l = some e := by
      rw [← List.take_append_drop k l, firstError_append, hc, Option.none_or]
      rw [List.getElem?_eq_getElem hlen] at hk'
      unfold firstError
      rw [List.drop_eq_getElem_cons hlen, List.findSome?_cons]
      have hk2 : BusCall.error l[k] = some e := hk'
      rw [hk2]
    exact ⟨l, hl, .inr ⟨k, e, hk, ha, hc, hk'⟩, by rw [h1, hf]; rfl⟩

/-- The same calls between states with the same record of them. -/
theorem State.Called.of_same {s s' t t' : State} {l : List BusCall} (h : s'.Called t' l)
    (hs : s'.trace = s.trace) (hk : s'.tick = s.tick) (he : s'.callErrorAt = s.callErrorAt)
    (ht : t.trace = t'.trace) (htk : t.tick = t'.tick) : s.Called t l :=
  ⟨by rw [ht, h.trace, hs], by rw [htk, h.tick, hk], by rw [h.errors, he]⟩

/-- All that a register write does on the bus. -/
theorem State.writeReg_called (a : Addr) (v : Byte) (s : State) :
    ∃ l, s.Called (s.writeReg a v).1 l ∧ isFrameOf (writeFrameBytes s.cfg a [v]) l
      ∧ (s.writeReg a v).2 = (firstError l).map transportError := by
  obtain ⟨l, hl, hf, he⟩ := State.runFrame_called (writeFrameBytes s.cfg a [v])
    ((s.markWrite a).beginModeWrite a v)
  have hx := (s.bus_markWrite a).toExtends.trans (State.quiet_beginModeWrite a v _).toExtends
  have htr : ((s.markWrite a).beginModeWrite a v).trace = s.trace := by
    unfold State.beginModeWrite; split <;> rfl
  have htk : ((s.markWrite a).beginModeWrite a v).tick = s.tick + 0 := by
    unfold State.beginModeWrite; split <;> rfl
  have hc : ((s.markWrite a).beginModeWrite a v).callErrorAt = s.callErrorAt :=
    funext fun k => by rw [State.callErrorAt_later hx htk, Nat.zero_add]
  refine ⟨l, hl.of_same htr htk hc ?_ ?_, hf, ?_⟩
  · rw [State.writeReg_eq, State.writeRegFrame_eq]; unfold State.endModeWrite; split <;> rfl
  · rw [State.writeReg_eq, State.writeRegFrame_eq]; unfold State.endModeWrite; split <;> rfl
  · rw [State.writeReg_eq]; exact (congrArg Prod.snd (State.writeRegFrame_eq a v s)).trans he

/-- All that a register read does on the bus; a failed read answers its first error. -/
theorem State.readReg_called (a : Addr) (s : State) :
    ∃ l, s.Called (s.readReg a).1 l ∧ isFrameOf (readFrameBytes s.cfg a 1) l
      ∧ ∀ e, (s.readReg a).2 = .error e → (firstError l).map transportError = some e := by
  obtain ⟨l, hl, hf, he⟩ := State.runFrame_called (readFrameBytes s.cfg a 1) (s.markRead a)
  refine ⟨l, hl.of_same rfl rfl rfl rfl rfl, hf, fun e h => ?_⟩
  rw [← he]
  unfold State.readReg State.readFrame at h
  dsimp only at h
  split at h
  · next h' => cases h; exact h'
  · cases h

/-! ### The frames of a run of calls -/

theorem callFramesFrom_bytes (cur : Option (List BusCall)) (l : List BusCall) :
    (callFramesFrom cur l).map bytesSent = framesFrom (cur.map bytesSent) (l.map BusCall.act) := by
  induction l generalizing cur with
  | nil => cases cur <;> rfl
  | cons c rest ih =>
    cases c with
    | select active e =>
      cases active <;> cases cur <;>
        simp [callFramesFrom, framesFrom, BusCall.act, ih, bytesSent, BusCall.sent, List.filterMap]
    | transfer b r =>
      cases cur <;> simp [callFramesFrom, framesFrom, BusCall.act, ih, bytesSent, BusCall.sent]
    | resetLevel level => cases cur <;> simp [callFramesFrom, framesFrom, BusCall.act, ih]
    | sleep d => cases cur <;> simp [callFramesFrom, framesFrom, BusCall.act, ih]

/-- The frames issued are the bytes sent in the frames of the calls. -/
theorem State.framesIssued_eq (s t : State) :
    s.framesIssued t = (s.callFrames t).map bytesSent := (callFramesFrom_bytes none _).symm

theorem callFramesFrom_sends {l : List BusCall} {bs : List Byte} (cur rest : List BusCall)
    (h : l.map BusCall.act = bs.map .send ++ [.select false]) :
    callFramesFrom (some cur) (l ++ rest) = (cur ++ l) :: callFramesFrom none rest := by
  induction bs generalizing l cur with
  | nil =>
    match l, h with
    | [.select false e], _ => simp [callFramesFrom]
  | cons b bs ih =>
    match l, h with
    | .transfer x r :: l', h =>
      simp only [List.map_cons, List.cons_append, List.cons.injEq] at h
      simp [callFramesFrom, ih _ h.2]

/-- The calls of a whole frame in front are the first frame. -/
theorem callFrames_frame {l : List BusCall} {bs : List Byte} (rest : List BusCall)
    (h : l.map BusCall.act = frameActs bs) :
    callFramesFrom none (l ++ rest) = l :: callFramesFrom none rest := by
  match l, h with
  | .select true e :: l', h =>
    simp only [frameActs, List.map_cons, List.cons.injEq] at h
    simp [callFramesFrom, callFramesFrom_sends _ _ h.2]

/-- The calls meant as one frame are one frame. -/
theorem callFrames_of_isFrameOf {l : List BusCall} {bs : List Byte} (rest : List BusCall)
    (h : isFrameOf bs l) : callFramesFrom none (l ++ rest) = l :: callFramesFrom none rest := by
  rcases h with ⟨h, -⟩ | ⟨k, e, -, h, -⟩ <;> exact callFrames_frame rest h

end Sys2Proof.Machine
end

