-- ==== Sys2Proof/Tests/Slice0.lean ====
section
/-!
SUPPORT. Tests, each by the kernel on fixed values: ill-formed terms refused, words written out from
the spec's encodings, the vectors of 95_test_vectors part 2 (one operation each, on a machine with a
script of its own), and for every statement with hypotheses a witness that meets them.
-/

namespace Sys2Proof.Tests

open Sys2Proof.Machine

/-! ### Well-formedness (30_encoding R81, 43 R152, 44 R171 and R176, 10_state R25) -/

theorem test_wf_read_register :
    (Instr.readRegister 0x7F).wellFormed Config.default = true
      ∧ (Instr.readRegister 0x80).wellFormed Config.default = false := by decide

theorem test_wf_write_register :
    (Instr.writeRegister 0x7F 0xFF).wellFormed Config.default = true
      ∧ (Instr.writeRegister 0x80 0x01).wellFormed Config.default = false
      ∧ (Instr.writeRegister 0xFF 0x00).wellFormed Config.default = false := by decide

/-- Vectors V4.17 and V4.18. -/
theorem test_wf_set_frequency :
    (Instr.setFrequency 1023999999).wellFormed Config.default = true
      ∧ (Instr.setFrequency 1024000000).wellFormed Config.default = false := by decide

theorem test_wf_payload_length :
    (Instr.send (List.replicate 66 0)).wellFormed Config.default = true
      ∧ (Instr.send (List.replicate 67 0)).wellFormed Config.default = false
      ∧ (Instr.bwr (List.replicate 67 0)).wellFormed Config.default = false
      ∧ (Instr.fifoWrite (List.replicate 67 0)).wellFormed Config.default = false := by decide

theorem test_wf_drain_length :
    (Instr.fifoRead 256).wellFormed Config.default = true
      ∧ (Instr.fifoRead 257).wellFormed Config.default = false := by decide

/-- Each constraint on the parameters refuses a choice that breaks it (00_scope R7, R8; log 4). -/
theorem test_params_refused :
    ∀ p ∈ ([{ modeFs := 0x04 }, { regFrfMid := 0x09 }, { regFrfLsb := 0x08 }, { fxoscHz := 0 },
        { regFrfMsb := 0x7E, regFrfMid := 0x7F, regFrfLsb := 0x00 }, { pollInterval := 0 },
        { pollInterval := 1001 }, { resetLowTime := 99999 }, { resetHoldTime := 99999 },
        { maxSendLen := 67 }, { addrBits := 8 }, { scratchSize := 66 }] : List Params),
      p.check = false := by decide

/-- Choices the constraints allow (00_scope R7): both status registers at one address, two flags on one
bit, a shift above 24, other minima, another direction bit. -/
theorem test_params_accepted :
    ∀ p ∈ ([{ regIrqFlags2 := 0x27 }, { packetSentBit := 2 }, { frfShift := 40 },
        { resetLowMin := 5, resetLowTime := 5 }, { pollIntervalMax := 7, pollInterval := 7 },
        { dirBit := 0 }, { addrBits := 5 }] : List Params), p.check = true := by decide

/-! ### Decoding: words written out bit by bit (30_encoding R71 to R78, R82) -/

/-- Bit 7 clear, address `0x7F`; one data exchange. -/
theorem test_decode_rd :
    decode Config.default (.frame [0b01111111, 0b00000000]) = .ok (.rd 0b1111111) := by decide

theorem test_decode_wr :
    decode Config.default (.frame [0b11111111, 0b11111111]) = .ok (.wr 0b1111111 0xFF) := by decide

/-- The `FifoWrite` of vector V5.1: "Hi". -/
theorem test_decode_bwr :
    decode Config.default (.frame [0b10000000, 0b01001000, 0b01101001])
      = .ok (.bwr [0x48, 0x69]) := by decide

theorem test_decode_brd :
    decode Config.default (.frame [0b00000000, 0b00000000, 0b00000000]) = .ok (.brd 2) := by decide

theorem test_decode_addr_byte :
    decode Config.default (.frame [0b10000101]) = .ok (.addrByte true 5)
      ∧ decode Config.default (.frame [0b00010000]) = .ok (.addrByte false 0x10) := by decide

/-- The direction bit moves with `DIR_BIT` (00_scope R6). -/
theorem test_direction_bit :
    addressByte { toParams := { dirBit := 0 }, valid := by decide } true 0x40 = 0b10000001
      ∧ addressByte Config.default true 0x40 = 0b11000000 := by decide

/-- The five mode values (30_encoding R77). -/
theorem test_decode_mode_writes :
    decode Config.default (.frame [0b10000001, 0b00000100]) = .ok .wrOpmodeStandby
      ∧ decode Config.default (.frame [0b10000001, 0b00001100]) = .ok .wrOpmodeTx
      ∧ decode Config.default (.frame [0b10000001, 0b00010000]) = .ok .wrOpmodeRx
      ∧ decode Config.default (.frame [0b10000001, 0b00000000]) = .ok .wrOpmodeSleep
      ∧ decode Config.default (.frame [0b10000001, 0b00001000]) = .ok .wrOpmodeFs
      ∧ decode Config.default (.frame [0b10000001, 0b00000101]) = .ok (.wr 1 5) := by decide

theorem test_decode_named_reads :
    decode Config.default (.frame [0b00100111, 0b00000000]) = .ok .rdIrqFlags1
      ∧ decode Config.default (.frame [0b00101000, 0b00000000]) = .ok .rdIrqFlags2
      ∧ decode Config.default (.frame [0b00010000, 0b00000000]) = .ok .rdVersion := by decide

/-- 915 MHz is `0xE4C000` (vector V4.12). -/
theorem test_decode_triplet_writes :
    decode Config.default (.frame [0b10000111, 0b11100100]) = .ok (.wrFrfMsb 0xE4)
      ∧ decode Config.default (.frame [0b10001000, 0b11000000]) = .ok (.wrFrfMid 0xC0)
      ∧ decode Config.default (.frame [0b10001001, 0b00000000]) = .ok (.wrFrfLsb 0x00) := by decide

theorem test_decode_commands :
    decode Config.default (.call 1 .nothing) = .ok .reset
      ∧ decode Config.default (.call 2 .nothing) = .ok .setStandbyMode
      ∧ decode Config.default (.call 3 .nothing) = .ok .isReady
      ∧ decode Config.default (.call 4 .nothing) = .ok .detectDevice
      ∧ decode Config.default (.call 5 (.hz 915000000)) = .ok (.setFrequency 915000000)
      ∧ decode Config.default (.call 6 (.data [0x48, 0x69])) = .ok (.send [0x48, 0x69])
      ∧ decode Config.default (.call 7 .nothing) = .ok .receive
      ∧ decode Config.default (.call 8 (.addr 0x10)) = .ok (.readRegister 0x10)
      ∧ decode Config.default (.call 9 (.addrValue 1 4)) = .ok (.writeRegister 1 4) := by decide

/-- Reserved codes and undefined frames name nothing (30_encoding R81, R82). -/
theorem test_decode_rejects :
    decode Config.default (.call 0x00 .nothing) = .error .noSuchCode
      ∧ decode Config.default (.call 0x0A .nothing) = .error .noSuchCode
      ∧ decode Config.default (.call 0xFF (.addr 0)) = .error .noSuchCode
      ∧ decode Config.default (.call 0x01 (.addr 0)) = .error .wrongOperands
      ∧ decode Config.default (.frame []) = .error .emptyFrame
      ∧ decode Config.default (.frame [0x85, 1, 2]) = .error .burstElsewhere
      ∧ decode Config.default (.frame [0x10, 1]) = .error .notDummy
      ∧ decode Config.default (.frame (0x80 :: List.replicate 67 0)) = .error .burstTooLong := by
  decide

/-- The internal operations have no word (30_encoding R83). -/
theorem test_no_word : encode Config.default .openFrame = none ∧ encode Config.default .handler = none
    ∧ encode Config.default (.frfSplit 0xE4C000) = none := by decide

/-- Words as spec/opcode_table.json numbers them. -/
theorem test_table_words :
    decodeTableWord 16 0x8104 = some .wrOpmodeStandby ∧ decodeTableWord 16 0x2700 = some .rdIrqFlags1
      ∧ decodeTableWord 8 0x80 = some (.wr 0 0) ∧ decodeTableWord 8 0x05 = some (.setFrequency 0)
      ∧ decodeTableWord 8 0x09 = some (.writeRegister 0 0) := by decide

/-! ### Machines to test on -/

/-- The defaults with the reference target (95_test_vectors, conventions). -/
def refConfig : Config := { toParams := { target := .reference }, valid := by decide }

/-- The defaults with the loopback target. -/
def loopConfig : Config := { toParams := { target := .loopback }, valid := by decide }

/-- The oracle target with a completion wait of each kind. -/
def oracleConfig (w : WaitKind) : Config :=
  { toParams := { waitKind := w }, valid := by cases w <;> decide }

/-- A moment in which nothing happens. -/
def quiet : Moment := {}

/-- A machine just created, whose first moments are `ms` and then `n` in which nothing happens. -/
def machine (c : Config) (ms : List Moment) (n : Nat) : State :=
  { State.reset with cfg := c, script := ms ++ List.replicate n quiet }

/-- The reference target, nothing happening. -/
def calm : State := machine refConfig [] 90

/-- The reference target with `e` reported at call `k`, counted from 0. -/
def failing (k : Nat) (e : PlatformError) : State :=
  machine refConfig (List.replicate k quiet ++ [{ err := some e }]) 20

/-- The reference target settling before every call. -/
def settling : State := machine refConfig (List.replicate 60 { acts := [.settle] }) 0

/-- The oracle target that answers every exchange with `0xFF`. -/
def answering (w : WaitKind) : State :=
  { machine (oracleConfig w) (List.replicate 120 { byte := 0xFF }) 0 with evt := true }

/-- A value of the state an outcome goes on in. -/
def seen {α : Type} (f : State → α) : Host.Outcome State Fault Refusal → Option α
  | .next t => some (f t)
  | _ => none

/-- Trace and result. -/
def shown (o : Host.Outcome State Fault Refusal) : Option (List BusCall × Result) :=
  seen (fun t => (t.trace, t.result)) o

/-- A frame in which no step fails, as pairs of the byte sent and the byte received. -/
def frame (l : List (Byte × Byte)) : List BusCall :=
  .select true none :: (l.map (fun p => .transfer p.1 (.ok p.2)) ++ [.select false none])

/-! ### Vectors: registers (V1) -/

/-- Vector V1.1. -/
theorem test_read_register :
    shown (exec (.readRegister 0x10) calm)
      = some (frame [(0x10, 0x00), (0x00, 0x24)], .ok (.byte 0x24)) := by decide

/-- Vector V1.13: a failed release discards the byte. -/
theorem test_read_register_release_fails :
    shown (exec (.readRegister 0x10) (failing 3 7))
      = some ([.select true none, .transfer 0x10 (.ok 0x00), .transfer 0x00 (.ok 0x24),
          .select false (some 7)], .error { kind := .transport 7 }) := by decide

/-- Vector V1.4. -/
theorem test_write_register :
    seen (fun t => (t.trace.map BusCall.act, t.result, t.awaitReady, t.modeCache))
        (exec (.writeRegister 0x01 0x04) calm)
      = some (frameActs [0x81, 0x04], .ok .unit, true, some .standby) := by decide

/-- Vector V1.16. -/
theorem test_write_register_fails :
    seen (fun t => (t.trace, t.result, t.awaitReady, t.modeCache))
        (exec (.writeRegister 0x01 0x04) (failing 1 7))
      = some ([.select true none, .transfer 0x81 (.error 7), .select false none],
          .error { kind := .transport 7 }, true, none) := by decide

/-- Vector V1.5: a read of the FIFO pops. -/
theorem test_rd_fifo :
    seen (fun t => (t.result, t.target.fifo))
        (exec (.rd 0x00) { calm with target := { fifo := [0x11, 0x22] } })
      = some (.ok (.byte 0x11), [0x22]) := by decide

/-- Vector V1.3. -/
theorem test_wr :
    seen (fun t => (t.trace.map BusCall.act, t.target.reg 0x7F)) (exec (.wr 0x7F 0xFF) (machine loopConfig [] 9))
      = some (frameActs [0xFF, 0xFF], 0xFF) := by decide

theorem test_bwr :
    seen (fun t => (t.trace.map BusCall.act, t.target.fifo)) (exec (.bwr [0x48, 0x69]) calm)
      = some (frameActs [0x80, 0x48, 0x69], [0x48, 0x69]) := by decide

theorem test_brd :
    shown (exec (.brd 2) { calm with target := { fifo := [0x11, 0x22, 0x33] } })
      = some (frame [(0x00, 0x00), (0x00, 0x11), (0x00, 0x22)], .ok (.bytes [0x11, 0x22])) := by
  decide

theorem test_addr_byte :
    shown (exec (.addrByte true 0x05) calm) = some (frame [(0x85, 0x00)], .ok .unit) := by decide

theorem test_mode_frames :
    (seen (fun t => t.modeCache) (exec .wrOpmodeStandby calm) = some (some .standby))
      ∧ seen (fun t => t.modeCache) (exec .wrOpmodeTx calm) = some (some .transmit)
      ∧ seen (fun t => t.modeCache) (exec .wrOpmodeRx calm) = some (some .receive)
      ∧ seen (fun t => t.modeCache) (exec .wrOpmodeSleep calm) = some (some .sleep)
      ∧ seen (fun t => t.modeCache) (exec .wrOpmodeFs calm) = some (some .frequencySynthesis) := by
  decide

theorem test_flag_frames :
    seen (·.result) (exec .rdIrqFlags1 { calm with target := { ready := true } })
        = some (.ok (.byte 0x80))
      ∧ seen (·.result) (exec .rdIrqFlags2 { calm with target := { packetSent := true } })
        = some (.ok (.byte 0x08))
      ∧ seen (·.result) (exec .rdIrqFlags2 { calm with target := { payloadReady := true } })
        = some (.ok (.byte 0x04))
      ∧ seen (·.result) (exec .rdVersion calm) = some (.ok (.byte 0x24)) := by decide

theorem test_triplet_frames :
    seen (fun t => t.target.reg 0x07) (exec (.wrFrfMsb 0xE4) calm) = some 0xE4
      ∧ seen (fun t => t.target.reg 0x08) (exec (.wrFrfMid 0xC0) calm) = some 0xC0
      ∧ seen (fun t => t.target.reg 0x09) (exec (.wrFrfLsb 0x33) calm) = some 0x33 := by decide

/-- The three frame steps, one byte at a time (40_register_access R101 to R103). -/
theorem test_open_frame :
    seen (fun t => (t.cs, t.seq, t.trace)) (exec .openFrame calm)
      = some (true, .frameOpen, [.select true none]) := by decide

/-- The state after `OpenFrame`. -/
def opened : State := { calm with cs := true, seq := .frameOpen, frame := some {} }

theorem test_exchange :
    seen (fun t => (t.seq, t.result)) (exec (.exchange 0x81) opened)
      = some (.frameAddr, .ok (.byte 0x00)) := by decide

theorem test_close_frame :
    seen (fun t => (t.cs, t.seq, t.trace)) (exec (.closeFrame none) opened)
      = some (false, .idle, [.select false none]) := by decide

/-! ### Vectors: identity (V2) and modes (V3) -/

/-- Vectors V2.1 and V2.5. -/
theorem test_detect_device :
    seen (·.result) (exec .detectDevice calm) = some (.ok (.bool true))
      ∧ seen (·.result) (exec .detectDevice { calm with target := { version := 0xA4 } })
        = some (.ok (.bool false)) := by decide

/-- Vector V2.7. -/
theorem test_detect_device_release_fails :
    seen (·.result) (exec .detectDevice (failing 3 7)) = some (.ok (.bool false)) := by decide

/-- Vector V3.2: ready between the third and the fourth poll; 4 polls, 3 sleeps, 3 ms. -/
theorem test_is_ready :
    seen (fun t => (t.trace.map BusCall.act, t.result, t.clock, t.awaitReady))
        (exec .isReady
          { machine refConfig (List.replicate 19 quiet ++ [{ acts := [.settle] }]) 5 with
            awaitReady := true, target := { x := [(1, 0x04)] } })
      = some (pollActs refConfig 0x27 4, .ok .unit, 3000, false) := by decide

/-- Vector V3.7: with a bound of 0 the wait ends after two polls. -/
theorem test_is_ready_times_out :
    seen (fun t => (t.trace.map BusCall.act, t.result, t.awaitReady))
        (exec .isReady
          { machine { toParams := { target := .reference, readyTimeout := 0 }, valid := by decide } [] 20
            with awaitReady := true })
      = some (pollActs refConfig 0x27 2, .error { kind := .timeout .modeReady }, true) := by decide

/-- Vector V3.8. -/
theorem test_reset :
    seen (fun t => (t.trace, t.rst, t.modeCache, t.awaitReady, t.clock))
        (exec .reset { calm with awaitReady := true, modeCache := some .receive })
      = some ([.resetLevel false, .sleep 100000, .resetLevel true, .sleep 100000], true, none,
          false, 200000) := by decide

/-- Vector V3.9. -/
theorem test_set_standby_mode :
    seen (fun t => (t.trace.map BusCall.act, t.result, t.awaitReady)) (exec .setStandbyMode calm)
      = some (frameActs [0x81, 0x04], .ok .unit, true) := by decide

/-- Vector V3.10. -/
theorem test_set_standby_mode_fails :
    seen (fun t => (t.result, t.modeCache)) (exec .setStandbyMode (failing 2 7))
      = some (.error { kind := .transport 7, context := [.setStandbyMode] }, none) := by decide

/-- Vectors V3.11 and V3.12. -/
theorem test_set_mode :
    seen (fun t => (t.trace.map BusCall.act, t.modeCache)) (exec (.setMode .transmit) calm)
        = some (frameActs [0x81, 0x0C], some .transmit)
      ∧ seen (fun t => (t.trace.map BusCall.act, t.modeCache)) (exec (.setMode .receive) calm)
        = some (frameActs [0x81, 0x10], some .receive) := by decide

/-- 44_packet_io R170 on a target that settles at once. -/
theorem test_set_mode_and_wait :
    seen (fun t => (t.result, t.target.chipMode, t.awaitReady))
        (exec (.setModeAndWait .transmit) settling)
      = some (.ok .unit, .transmit, false) := by decide

/-! ### Vectors: frequency (V4) -/

/-- Vectors V4.8 and V4.13. -/
theorem test_hz_to_frf :
    seen (·.result) (exec (.hzToFrf 433920000) calm) = some (.ok (.natural 0x6C7AE1))
      ∧ seen (·.result) (exec (.hzToFrf 915000061) calm) = some (.ok (.natural 0xE4C000)) := by decide

/-- Vector V4.8: 433919982.91015625 Hz. -/
theorem test_frf_to_hz :
    seen (·.result) (exec (.frfToHz 0x6C7AE1) calm)
      = some (.ok (.rational { num := 0x6C7AE1 * 32000000, den := 524288 }))
      ∧ 0x6C7AE1 * 32000000 * 100000000 = 43391998291015625 * 524288 := by decide

/-- Vectors V4.8 and V4.14. -/
theorem test_frf_to_hz_int :
    seen (·.result) (exec (.frfToHzInt 0x6C7AE1) calm) = some (.ok (.natural 433919983))
      ∧ seen (·.result) (exec (.frfToHzInt 0xE4C001) calm) = some (.ok (.natural 915000062)) := by
  decide

theorem test_frf_split_join :
    seen (·.result) (exec (.frfSplit 0x6C7AE1) calm) = some (.ok (.triplet 0x6C 0x7A 0xE1))
      ∧ seen (·.result) (exec (.frfJoin 0x6C 0x7A 0xE1) calm) = some (.ok (.frf 0x6C7AE1)) := by decide

/-- Vector V4.11, from Standby. -/
theorem test_set_frequency :
    seen (fun t => (t.trace.map BusCall.act, t.result, t.hazard))
        (exec (.setFrequency 868300000) { calm with modeCache := some .standby })
      = some (frameActs [0x87, 0xD9] ++ frameActs [0x88, 0x13] ++ frameActs [0x89, 0x33], .ok .unit,
          false) := by decide

/-- A failed second write is dropped and the third still made (43_frequency_synthesizer R157). -/
theorem test_set_frequency_drops :
    seen (fun t => (t.trace.map BusCall.act, t.result, t.dropped))
        (exec (.setFrequency 868300000) { failing 6 7 with modeCache := some .standby })
      = some (frameActs [0x87, 0xD9] ++ frameActs [0x88, 0x13] ++ frameActs [0x89, 0x33], .ok .unit,
          [{ kind := .transport 7 }]) := by decide

/-! ### Vectors: packets (V5, V6) and events (V7) -/

/-- Settling and completing transmissions before every call. -/
def sending : State :=
  machine refConfig (List.replicate 60 { acts := [.settle, .txComplete] }) 0

/-- Vector V5.1: "Hi". -/
theorem test_send :
    seen (fun t => (t.trace.map BusCall.act, t.result, t.modeCache, t.hazard))
        (exec (.send [0x48, 0x69]) sending)
      = some (frameActs [0x81, 0x04] ++ frameActs [0x27, 0x00] ++ frameActs [0x80, 0x48, 0x69]
          ++ frameActs [0x81, 0x0C] ++ frameActs [0x27, 0x00] ++ frameActs [0x28, 0x00]
          ++ frameActs [0x81, 0x04] ++ frameActs [0x27, 0x00], .ok .unit, some .standby, false) := by decide +kernel

/-- A failed mode write ends `Send` at step 1, and nothing is put into the FIFO. -/
theorem test_send_fails :
    seen (fun t => (t.trace.map BusCall.act, t.result)) (exec (.send [0x48]) (failing 2 7))
      = some (frameActs [0x81, 0x04], .error { kind := .transport 7 }) := by decide

/-- A machine whose window is two bytes, on which a packet of two bytes arrives. -/
def receiving : State :=
  machine { toParams := { target := .reference, fifoWindow := 2, maxSendLen := 2 }, valid := by decide }
    (List.replicate 40 { acts := [.settle, .rxPacket [0xAA, 0xBB]] }) 0

/-- 44_packet_io R178 with a window of 2. -/
theorem test_receive :
    seen (fun t => (t.trace.map BusCall.act, t.result, t.modeCache)) (exec .receive receiving)
      = some (frameActs [0x81, 0x10] ++ frameActs [0x27, 0x00] ++ frameActs [0x28, 0x00]
          ++ frameActs [0x00, 0x00, 0x00], .ok (.bytes [0xAA, 0xBB]), some .receive) := by decide +kernel

theorem test_fifo_write :
    seen (fun t => (t.target.fifo, t.txBuf.take 3)) (exec (.fifoWrite [0x48, 0x69]) calm)
      = some ([0x48, 0x69], [0x80, 0x48, 0x69]) := by decide +kernel

theorem test_fifo_read :
    seen (fun t => (t.result, t.rxBuf.take 2))
        (exec (.fifoRead 2) { calm with target := { fifo := [0xAA, 0xBB] } })
      = some (.ok (.bytes [0xAA, 0xBB]), [0xAA, 0xBB]) := by decide +kernel

/-- The poll of `PacketSent`: bit 3 of `REG_IRQFLAGS2`. -/
theorem test_wait_tx_done :
    seen (fun t => (t.trace.map BusCall.act, t.result))
        (exec .waitTxDone { calm with target := { packetSent := true } })
      = some (frameActs [0x28, 0x00], .ok .unit) := by decide

/-- The poll of `PayloadReady`: bit 2 of `REG_IRQFLAGS2`. -/
theorem test_wait_payload_ready :
    seen (fun t => (t.trace.map BusCall.act, t.result))
        (exec .waitPayloadReady { calm with target := { payloadReady := true } })
      = some (frameActs [0x28, 0x00], .ok .unit) := by decide

theorem test_poll_flag :
    seen (fun t => (t.trace.map BusCall.act, t.result))
        (exec (.pollFlag 0x28 3 0 .packetSent) calm)
      = some (pollActs refConfig 0x28 2, .error { kind := .timeout .packetSent }) := by decide

/-- Vectors V7.1 and V7.2. -/
theorem test_handler :
    seen (·.evt) (exec .handler calm) = some true
      ∧ seen (·.evt) (exec .handler { calm with evt := true }) = some true := by decide

/-- Vector V7.3: three edges with no consumer; the first wait takes the event, the second times out. -/
theorem test_three_edges :
    (seen (·.evt) (step (machine refConfig [{ acts := [.irq true, .irq false, .irq true, .irq false,
          .irq true] }] 9)) = some true)
      ∧ seen (fun t => (t.evt, seen (·.result) (exec (.awaitEvent 10 .packetSent) t)))
          (exec (.awaitEvent 10 .packetSent) { calm with evt := true, target := { irq := true } })
        = some (false, some (.error { kind := .timeout .packetSent })) := by decide

theorem test_await_event :
    seen (fun t => (t.evt, t.result, t.clock)) (exec (.awaitEvent 10 .packetSent) { calm with evt := true })
      = some (false, .ok .unit, 0) := by decide

theorem test_await_event_times_out :
    seen (fun t => (t.result, t.clock)) (exec (.awaitEvent 10 .packetSent) calm)
      = some (.error { kind := .timeout .packetSent }, 11) := by decide

/-- A step takes the request at the head of the queue. -/
theorem test_step :
    seen (fun t => (t.result, t.requests)) (step (calm.withFetchWord 16 0x1000))
      = some (.ok (.byte 0x24), []) := by decide

/-! ### Witnesses: for every statement with hypotheses, values that meet all of them together -/

/-- Every operand at an end of its range. -/
theorem witness_DecodingUndoesEncoding :
    ∀ i ∈ ([.wr 0x7F 0xFF, .rd 0, .brd 0, .bwr (List.replicate 66 0xFF), .addrByte false 0x7F,
        .wrOpmodeFs, .setFrequency 1023999999, .send [], .writeRegister 0x7F 0xFF] : List Instr),
      i.wellFormed Config.default = true ∧ i.mostParticular Config.default = true
        ∧ ∃ r, encode Config.default i = some r := by
  simp only [List.forall_mem_cons]
  exact ⟨⟨by decide, by decide, _, rfl⟩, ⟨by decide, by decide, _, rfl⟩,
    ⟨by decide, by decide, _, rfl⟩, ⟨by decide, by decide, _, rfl⟩, ⟨by decide, by decide, _, rfl⟩,
    ⟨by decide, by decide, _, rfl⟩, ⟨by decide, by decide, _, rfl⟩, ⟨by decide, by decide, _, rfl⟩,
    ⟨by decide, by decide, _, rfl⟩, by simp⟩

theorem witness_EncodingUndoesDecoding :
    decode Config.default (.frame [0x80]) = .ok (.bwr [])
      ∧ decode Config.default (.call 0x09 (.addrValue 0xFF 0)) = .ok (.writeRegister 0xFF 0) := by decide

theorem witness_AddressByteLayout : Config.default.dirBit = 7 ∧ (0x7F : Byte).toNat ≤ 0x7F
    ∧ (0 : Byte).toNat ≤ 0x7F := by decide

theorem witness_CommandCodes :
    (0x00 : Byte).toNat = 0 ∧ 0x0A ≤ (0x0A : Byte).toNat ∧ 0x0A ≤ (0xFF : Byte).toNat := by decide

/-- A request that decodes, one that does not, and none. -/
theorem witness_StepRunsTheDecodedInstruction :
    { calm with requests := [.call 4 .nothing] }.requests = .call 4 .nothing :: []
      ∧ decode calm.cfg (.call 4 .nothing) = .ok .detectDevice
      ∧ decode calm.cfg (.call 0 .nothing) = .error .noSuchCode ∧ calm.requests = [] := by decide

theorem calm_inv : calm.Inv :=
  ⟨⟨by decide, by decide⟩, List.length_replicate .., List.length_replicate .., by decide⟩

theorem witness_EveryStepKeepsTheInvariant :
    calm.Inv ∧ (∃ t, exec (.send [0x48]) calm = .next t) ∧ ∃ t, step calm = .next t :=
  ⟨calm_inv, ⟨_, rfl⟩, ⟨_, rfl⟩⟩

theorem witness_CreationMeetsTheInvariant :
    ({} : Target).sound refConfig ∧ ∃ t, create refConfig {} none = .next t :=
  ⟨⟨by decide, by decide⟩, _, rfl⟩

theorem witness_NothingIsUndone :
    { calm with hazard := true }.hazard = true
      ∧ ∃ t, exec .receive { calm with hazard := true } = .next t := ⟨rfl, _, rfl⟩

theorem witness_HostRefusals : ∀ i ∈ ([.reset, .setStandbyMode, .isReady, .detectDevice,
      .setFrequency 1024000000, .send (List.replicate 67 0), .receive, .readRegister 0x80,
      .writeRegister 0xFF 0] : List Instr), i.isHostOperation = true := by decide

/-- Each operation that has a clause of its own ends in a next state. -/
theorem witness_HostResults :
    ∀ i ∈ ([.reset, .setStandbyMode, .isReady, .detectDevice, .setFrequency 0, .send [], .receive,
        .readRegister 0x7F, .writeRegister 0x7F 0] : List Instr), ∃ t, exec i calm = .next t := by
  simp only [List.forall_mem_cons]
  exact ⟨⟨_, rfl⟩, ⟨_, rfl⟩, ⟨_, rfl⟩, ⟨_, rfl⟩, ⟨_, rfl⟩, ⟨_, rfl⟩, ⟨_, rfl⟩, ⟨_, rfl⟩, ⟨_, rfl⟩,
    by simp⟩

theorem witness_OperationsComeBack :
    calm.Inv ∧ (∃ t, exec .receive calm = .next t) ∧ (∃ t, exec (.fifoRead 256) calm = .next t)
      ∧ calm.cs = false := ⟨calm_inv, ⟨_, rfl⟩, ⟨_, rfl⟩, rfl⟩

theorem witness_ResetLineAndDropped :
    (∃ t, exec .reset calm = .next t) ∧ (∃ t, exec (.setFrequency 1023999999) calm = .next t)
      ∧ ∃ t, exec .handler calm = .next t := ⟨⟨_, rfl⟩, ⟨_, rfl⟩, ⟨_, rfl⟩⟩

theorem witness_ModeRecordWriters :
    (∃ t, exec .isReady calm = .next t) ∧ (∃ t, exec (.wr 0x02 0) calm = .next t)
      ∧ Instr.isReady.writesModeRecord calm.cfg = false
      ∧ (Instr.wr 0x02 0).writesModeRecord calm.cfg = false := ⟨⟨_, rfl⟩, ⟨_, rfl⟩, by decide, by decide⟩

theorem witness_BufferWriters :
    (∃ t, exec (.fifoWrite []) calm = .next t) ∧ ∃ t, exec (.fifoRead 0) calm = .next t :=
  ⟨⟨_, rfl⟩, ⟨_, rfl⟩⟩

theorem witness_EventSlotKept :
    (∃ t, exec .reset { calm with evt := true } = .next t)
      ∧ Instr.reset.consumesEvent calm.cfg = false ∧ { calm with evt := true }.evt = true :=
  ⟨⟨_, rfl⟩, by decide, rfl⟩

/-- A controller in Standby, readiness not awaited. -/
def standing : State := { calm with modeCache := some .standby }

/-- A controller after a mode write, readiness awaited. -/
def awaiting : State := { calm with awaitReady := true }

theorem witness_KeptContractsSetNoHazard :
    standing.hazard = false ∧ standing.cfg.registers.Nodup
      ∧ standing.keepsContracts (.setFrequency 0) ∧ standing.keepsContracts (.writeRegister 1 0x10)
      ∧ standing.keepsContracts (.send []) ∧ standing.keepsContracts .receive
      ∧ (machine loopConfig [] 0).keepsContracts (.send [1])
      ∧ (machine loopConfig [] 0).keepsContracts (.writeRegister 0 1)
      ∧ (∃ t, exec (.setFrequency 0) standing = .next t)
      ∧ (∃ t, exec (.writeRegister 1 0x10) standing = .next t)
      ∧ (∃ t, exec (.send []) standing = .next t) ∧ ∃ t, exec .receive standing = .next t :=
  ⟨rfl, by decide, ⟨.inl rfl, .inl rfl⟩, ⟨.inl rfl, by decide, by decide⟩, ⟨.inl rfl, .inl rfl⟩,
    ⟨.inl rfl, trivial⟩, ⟨.inl rfl, .inr (by decide)⟩, ⟨.inl rfl, by decide, by decide⟩,
    ⟨_, rfl⟩, ⟨_, rfl⟩, ⟨_, rfl⟩, ⟨_, rfl⟩⟩

/-- The operations that may be issued while readiness is awaited, and one that may not. -/
theorem witness_KeptContractsWhileReadinessIsAwaited :
    (∀ i ∈ ([.isReady, .setStandbyMode, .reset, .send [], .receive, .readRegister 0x27,
        .writeRegister 0x01 0x04] : List Instr), i.exemptFromReadiness awaiting.cfg = true)
      ∧ awaiting.hazard = false ∧ awaiting.keepsContracts .isReady
      ∧ awaiting.keepsContracts (.writeRegister 0x01 0x04)
      ∧ ¬ awaiting.keepsContracts .detectDevice
      ∧ (∃ t, exec .isReady awaiting = .next t)
      ∧ ∃ t, exec (.writeRegister 0x01 0x04) awaiting = .next t :=
  ⟨by decide, rfl, ⟨.inr rfl, trivial⟩, ⟨.inr (by decide), by decide, by decide⟩,
    fun h => by simp [State.keepsContracts, awaiting, Instr.exemptFromReadiness] at h,
    ⟨_, rfl⟩, ⟨_, rfl⟩⟩

/-! Witnesses: registers -/

theorem witness_SingleReadCompletes :
    ∀ p ∈ ([(.rd 0x7F, 0x7F), (.rdIrqFlags1, 0x27), (.rdIrqFlags2, 0x28), (.rdVersion, 0x10),
        (.readRegister 0x00, 0x00), (.readRegister 0x7F, 0x7F)] : List (Instr × Addr)),
      p.1.readsRegister calm.cfg = some p.2 ∧ calm.accepts p.1 ∧ calm.noFailure 4 := by
  unfold State.accepts State.noFailure; decide

/-- One form of each row made of a write frame. -/
def writeForms : List (Instr × Addr × Byte) :=
  [(.wr 0x7F 0xFF, 0x7F, 0xFF), (.wrOpmodeStandby, 1, 0x04), (.wrOpmodeTx, 1, 0x0C),
    (.wrOpmodeRx, 1, 0x10), (.wrOpmodeSleep, 1, 0x00), (.wrOpmodeFs, 1, 0x08),
    (.wrFrfMsb 0xE4, 7, 0xE4), (.wrFrfMid 0xC0, 8, 0xC0), (.wrFrfLsb 0x00, 9, 0x00),
    (.setMode .transmit, 1, 0x0C), (.writeRegister 0x00 0x11, 0x00, 0x11),
    (.writeRegister 0x7F 0xFF, 0x7F, 0xFF)]

theorem witness_SingleWriteCompletes :
    ∀ p ∈ writeForms,
      p.1.writesRegister calm.cfg = some p.2 ∧ calm.accepts p.1 ∧ calm.noFailure 4
        ∧ calm.target.sound calm.cfg := by
  unfold State.accepts State.noFailure Target.sound; decide

theorem witness_SingleReadFails :
    ∀ k < 4, (Instr.rd 0x7F).readsRegister (failing k 7).cfg = some 0x7F
      ∧ (failing k 7).accepts (.rd 0x7F) ∧ (failing k 7).noFailure k
      ∧ (failing k 7).callErrorAt k = some 7 := by
  unfold State.accepts State.noFailure; decide

theorem witness_SingleWriteFails :
    ∀ k < 4, Instr.wrOpmodeTx.writesRegister (failing k 7).cfg = some (1, 0x0C)
      ∧ (failing k 7).accepts .wrOpmodeTx ∧ (failing k 7).noFailure k
      ∧ (failing k 7).callErrorAt k = some 7 := by
  unfold State.accepts State.noFailure; decide

theorem witness_OpenFrameOpens :
    calm.cs = false ∧ (failing 0 7).cs = false ∧ (failing 0 7).callErrorAt 0 ≠ none := by decide

/-- An open frame to register `a` whose data byte 0 has been exchanged. -/
def inFrame (c : Config) (w : Bool) (a : Addr) : State :=
  { machine c [] 9 with
    cs := true, seq := .frameData 0, frame := some { addr := some (w, a), data := 1, attempted := 2 } }

/-- An open frame to register `a` that awaits its data byte 0. -/
def addressed (c : Config) (w : Bool) (a : Addr) : State :=
  { machine c [] 9 with
    cs := true, seq := .frameAddr, frame := some { addr := some (w, a), attempted := 1 } }

/-- An open write frame that has the byte `v` to deliver to register `a`. -/
def carrying (c : Config) (l : List Moment) (a : Addr) (v : Byte) : State :=
  { machine c l 9 with
    cs := true
    seq := .frameData 0
    frame := some { addr := some (true, a), data := 1, attempted := 2, pending := some v } }

/-- Each clause: a call that succeeds and one that fails in an open frame, no frame, and a burst to
another register on either simulated target. -/
theorem witness_ExchangeMovesOneByte :
    (opened.cs = true ∧ opened.frameErr = none ∧ opened.burstElsewhere = false
        ∧ opened.callErrorAt 0 = none)
      ∧ ({ failing 0 7 with cs := true }.frameErr = none
        ∧ { failing 0 7 with cs := true }.burstElsewhere = false
        ∧ { failing 0 7 with cs := true }.callErrorAt 0 = some 7)
      ∧ (inFrame refConfig true 0).burstElsewhere = false
      ∧ calm.cs = false
      ∧ ((inFrame refConfig true 5).cs = true ∧ (inFrame refConfig true 5).frameErr = none
        ∧ (5 : Addr) ≠ refConfig.regFifo ∧ refConfig.target = .reference
        ∧ (inFrame refConfig true 5).hazard = false ∧ loopConfig.target ≠ .oracle
        ∧ (inFrame loopConfig true 5).hazard = false) := by decide

/-- The delivery clause of `ExchangeMovesOneByte`: the first data byte of a frame to the mode register,
on either simulated target. -/
theorem witness_ExchangeMovesOneByte_write :
    ∀ c ∈ [loopConfig, refConfig], (addressed c true 1).cs = true ∧ (addressed c true 1).frameErr = none
      ∧ (addressed c true 1).burstElsewhere = false ∧ (addressed c true 1).frame.isSome = true
      ∧ (c.target = .loopback ∨ c.target = .reference ∧ (1 : Addr) ≠ c.regFifo)
      ∧ (addressed c true 1).hazard = false ∧ (addressed c true 1).callErrorAt 0 = none
      ∧ (addressed c true 1).undisturbed 1 ∧ (addressed c true 1).target.sound c := by
  unfold State.undisturbed Target.sound; decide

/-- The FIFO clause of `ExchangeMovesOneByte`: an empty FIFO, and one that is full. -/
theorem witness_ExchangeMovesOneByte_fifo :
    ∀ t ∈ [({} : Target), { fifo := List.replicate refConfig.fifoWindow 7 }],
      let s := { addressed refConfig true 0 with target := t }
      s.cs = true ∧ s.frameErr = none ∧ s.burstElsewhere = false
        ∧ s.frame = some { addr := some (true, s.cfg.regFifo), attempted := 1 }
        ∧ s.cfg.target = .reference ∧ s.hazard = false ∧ s.callErrorAt 0 = none ∧ s.undisturbed 1
        ∧ (t.fifo.length < s.cfg.fifoWindow ∨ s.cfg.fifoWindow ≤ t.fifo.length) := by
  unfold State.undisturbed; decide

/-- Each clause: a frame that carries nothing, and one with a byte to deliver to the mode register (a
mode value or none), to a read-only register and to the last register, on either simulated target. -/
theorem witness_CloseFrameReleases :
    (∀ f w a, (inFrame refConfig true 5).frame = some f → f.addr = some (w, a) → a ∈ [(5 : Addr)])
      ∧ (inFrame refConfig true 5).target.sound refConfig
      ∧ (∀ c ∈ [loopConfig, refConfig], ∀ a ∈ [(0x01 : Addr), 0x10, 0x7F],
          (carrying c [] a 0x0C).hazard = false ∧ (carrying c [] a 0x0C).callErrorAt 0 = none
            ∧ (carrying c [] a 0x0C).target.sound c ∧ a ≠ c.regFifo)
      ∧ (modeOf refConfig 0x0C).isSome = true ∧ (modeOf refConfig 0x0D).isSome = false :=
  ⟨by rintro _ w a ⟨⟩ ⟨⟩; decide, by unfold Target.sound; decide,
    by unfold Target.sound; decide, by decide, by decide⟩

/-- A mode write is delivered when its frame ends (20_memory R61): `Settle` just before the release
completes the old mode, sleep, and readiness is false afterwards. -/
theorem test_mode_write_delivered_at_release :
    seen (fun t => (t.target.chipMode, t.target.ready, t.target.reg 1))
        (exec (.closeFrame none) (carrying refConfig [{ acts := [.settle] }] 1 0x0C))
      = some (.sleep, false, 0x0C) := by decide

theorem witness_AddressByteFrame :
    (calm.cs = false ∧ calm.noFailure 3)
      ∧ (opened.cs = true ∧ opened.frameErr = none ∧ opened.seq = .frameOpen ∧ opened.noFailure 1)
      ∧ ((inFrame refConfig true 5).cs = true ∧ (inFrame refConfig true 5).frameErr = none
        ∧ (inFrame refConfig true 5).seq ≠ .frameOpen) := by
  unfold State.noFailure; decide

/-- Either target, at the last address and at the mode register. -/
theorem witness_WrittenBytesReadBack :
    (∀ c ∈ [loopConfig, refConfig], (machine c [] 9).target.sound c ∧ (machine c [] 9).seq = .idle
        ∧ (machine c [] 9).hazard = false ∧ (machine c [] 9).awaitReady = false
        ∧ (machine c [] 9).noFailure 8
        ∧ c.addrInRange 0x7F = true ∧ c.addrInRange 0x01 = true
        ∧ registerOf 0x7F ≠ c.regOpmode ∧ registerOf 0x01 = c.regOpmode
        ∧ c.regOpmode ≠ c.regIrqFlags1
        ∧ registerOf 0x7F ∉ [c.regFifo, c.regVersion, c.regIrqFlags1, c.regIrqFlags2]
        ∧ registerOf 0x01 ∉ [c.regFifo, c.regVersion, c.regIrqFlags1, c.regIrqFlags2])
      ∧ loopConfig.target = .loopback ∧ refConfig.target = .reference := by
  unfold State.noFailure Target.sound; decide

/-- While readiness is awaited a read on the loopback target returns the byte drawn, and not the one
stored (70_reset_and_hazards R246); before, it returns the one stored. -/
theorem test_loopback_read_before_ready :
    seen (fun t => (t.result, t.hazard)) (exec (.readRegister 0x10)
        { machine loopConfig (List.replicate 5 { byte := 0xAB }) 0 with
          awaitReady := true, target := { x := [(0x10, 0x5A)] } })
      = some (.ok (.byte 0xAB), true)
    ∧ seen (fun t => (t.result, t.hazard)) (exec (.readRegister 0x10)
        { machine loopConfig (List.replicate 5 { byte := 0xAB }) 0 with
          target := { x := [(0x10, 0x5A)] } })
      = some (.ok (.byte 0x5A), false) := by decide

/-- Each clause of the reads, the mode flags while readiness is awaited among them. -/
theorem witness_ReferenceReads :
    (∀ p ∈ ([(.rd 0, 0), (.rdVersion, 0x10), (.rdIrqFlags1, 0x27), (.rdIrqFlags2, 0x28),
        (.rd 0x7F, 0x7F)] : List (Instr × Addr)),
      p.1.readsRegister calm.cfg = some p.2 ∧ calm.accepts p.1) ∧ calm.cfg.target = .reference
      ∧ calm.hazard = false ∧ calm.awaitReady = false ∧ calm.noFailure 4 ∧ calm.undisturbed 4 := by
  unfold State.accepts State.noFailure State.undisturbed; decide

/-- A reference target whose FIFO holds `n` bytes. -/
def holding (n : Nat) : State := { calm with target := { fifo := List.replicate n 0x55 } }

/-- Each clause of the writes: a FIFO with room for one byte and a full one, a mode value and another
byte, a read-only register, a plain one. -/
theorem witness_ReferenceWrites :
    (∀ p ∈ (.wr 0 0x11, 0, 0x11) :: (.wr 1 5, 1, 5) :: (.wr 0x10 5, 0x10, 5) :: writeForms,
      p.1.writesRegister calm.cfg = some p.2 ∧ calm.accepts p.1) ∧ calm.cfg.target = .reference
      ∧ calm.hazard = false ∧ calm.awaitReady = false ∧ calm.noFailure 4 ∧ calm.undisturbed 4
      ∧ (holding 65).target.fifo.length < refConfig.fifoWindow
      ∧ refConfig.fifoWindow ≤ (holding 66).target.fifo.length
      ∧ (modeOf refConfig 0x0C).isSome = true ∧ (modeOf refConfig 5).isSome = false
      ∧ calm.cfg.regFifo ≠ calm.cfg.regOpmode ∧ calm.target.sound calm.cfg := by
  unfold State.accepts State.noFailure State.undisturbed Target.sound; decide

/-- A reference target in the mode `m`, ready, before one step `a` of the other agents. -/
def stepping (m : Mode) (a : TargetAct) : State :=
  { machine refConfig [{ acts := [a] }] 0 with target := { chipMode := m, ready := true } }

/-- Each step with its guard met, a packet as long as the window among them, and the line driven high. -/
theorem witness_ReferenceTargetSteps :
    (∀ p ∈ ([(.transmit, .txComplete), (.receive, .rxPacket (List.replicate 66 0x11)),
          (.sleep, .irq true)] : List (Mode × TargetAct)),
        (stepping p.1 p.2).requests = [] ∧ (stepping p.1 p.2).cfg.target = .reference
          ∧ (stepping p.1 p.2).hazard = false ∧ ((stepping p.1 p.2).momentAt 0).acts = [p.2]
          ∧ (stepping p.1 p.2).target.chipMode = p.1 ∧ (stepping p.1 p.2).target.ready = true
          ∧ (stepping p.1 p.2).target.packetSent = false
          ∧ (stepping p.1 p.2).target.payloadReady = false)
      ∧ (List.replicate 66 (0x11 : Byte)).length ≤ refConfig.fifoWindow
      ∧ ((machine refConfig [{ acts := [.settle] }] 0).momentAt 0).acts = [.settle]
      ∧ (machine refConfig [{ acts := [.settle] }] 0).target.ready = false
      ∧ (machine refConfig [{ acts := [.settle] }] 0).target.reg refConfig.regOpmode
          = modeValue refConfig .sleep := by decide

/-! Witnesses: the FIFO -/

/-- The longest and the shortest payload, and a drain of the whole window. -/
theorem witness_BurstFramesComplete :
    calm.cs = false ∧ (List.replicate 66 (0 : Byte)).length ≤ calm.cfg.maxSendLen
      ∧ calm.noFailure 69 ∧ calm.target.sound calm.cfg := by
  unfold State.noFailure Target.sound; decide

theorem witness_FifoOperationsComplete :
    calm.Inv ∧ calm.cs = false ∧ (List.replicate 66 (0 : Byte)).length ≤ calm.cfg.maxSendLen
      ∧ calm.noFailure 69 ∧ 256 ≤ calm.cfg.scratchSize ∧ (machine loopConfig [] 0).Inv
      ∧ (machine loopConfig [] 0).noFailure 259 := by
  refine ⟨calm_inv, by decide, by decide, by unfold State.noFailure; decide, by decide,
    ⟨⟨by decide, by decide⟩, List.length_replicate .., List.length_replicate .., by decide⟩,
    fun k _ => ?_⟩
  simp [State.callErrorAt, machine, loopConfig]

/-- The first and the last call of a burst of one byte. -/
theorem witness_FifoOperationsFail :
    ∀ k ∈ [0, 3], (failing k 7).cfg.target = .reference ∧ (failing k 7).hazard = false
      ∧ (failing k 7).awaitReady = false ∧ (failing k 7).target.sound (failing k 7).cfg
      ∧ (failing k 7).undisturbed (1 + 3) ∧ (failing k 7).cs = false
      ∧ [(0x11 : Byte)].length ≤ (failing k 7).cfg.maxSendLen
      ∧ 1 ≤ (failing k 7).cfg.scratchSize ∧ k < 1 + 3 ∧ (failing k 7).noFailure k
      ∧ (failing k 7).callErrorAt k = some 7 := by
  unfold State.noFailure State.undisturbed Target.sound; decide

/-- A failed drain gives back all it took but what the target says it lost (20_memory R66). -/
theorem test_fifo_read_fails :
    seen (fun t => (t.result, t.target.fifo)) (exec (.fifoRead 2)
        { machine refConfig [quiet, quiet, quiet, { err := some 7 }, { count := 1 }] 9 with
          target := { fifo := [0x11, 0x22, 0x33] } })
      = some (.error { kind := .transport 7 }, [0x22, 0x33]) := by decide +kernel

/-- A write that fills the FIFO to its window, and a read that empties it. -/
theorem witness_FifoFirstInFirstOut :
    (holding 64).cfg.target = .reference ∧ (holding 64).hazard = false
      ∧ (holding 64).awaitReady = false ∧ (holding 64).cs = false
      ∧ (holding 64).target.fifo.length + [(1 : Byte), 2].length ≤ (holding 64).cfg.fifoWindow
      ∧ 64 ≤ (holding 64).target.fifo.length ∧ (holding 64).noFailure 67
      ∧ (holding 64).undisturbed 67 := by
  unfold State.noFailure State.undisturbed; decide

/-! Witnesses: identity, modes, waits -/

theorem witness_VersionTestIsEquality : (0x25 : Byte) ≠ 0x24 ∧ (0xA4 : Byte) ≠ 0x24 := by decide

theorem witness_DetectDeviceCompares :
    calm.seq = .idle ∧ calm.noFailure 4 ∧ calm.target.sound calm.cfg
      ∧ ∀ k ∈ [0, 3], (failing k 7).seq = .idle ∧ (failing k 7).noFailure k
          ∧ (failing k 7).callErrorAt k = some 7 := by
  unfold State.noFailure Target.sound; decide

theorem witness_SetStandbyModeWraps :
    calm.seq = .idle ∧ calm.noFailure 4 ∧ calm.target.sound calm.cfg
      ∧ ∀ k ∈ [0, 3], (failing k 7).seq = .idle ∧ (failing k 7).noFailure k
          ∧ (failing k 7).callErrorAt k = some 7 := by
  unfold State.noFailure Target.sound; decide

/-- The oracle target that answers, and a reference target that is ready. -/
theorem witness_IsReadyAtFirstPoll :
    ((answering .pollStatus).seq = .idle ∧ (answering .pollStatus).noFailure 5
        ∧ (answering .pollStatus).cfg.target = .oracle
        ∧ ((answering .pollStatus).momentAt 3).byte.getLsbD 7 = true)
      ∧ ({ calm with target := { ready := true } }.seq = .idle ∧ calm.noFailure 5
        ∧ calm.cfg.target = .reference ∧ calm.hazard = false
        ∧ calm.cfg.regIrqFlags1 ∉ [calm.cfg.regFifo, calm.cfg.regVersion])
      ∧ ((machine loopConfig [] 9).seq = .idle ∧ (machine loopConfig [] 9).noFailure 5
        ∧ (machine loopConfig [] 9).cfg.target = .loopback
        ∧ (({ x := [(0x27, 0x80)] } : Target).reg loopConfig.regIrqFlags1).getLsbD 7 = true) := by
  unfold State.noFailure; decide

theorem witness_PollFlagAtFirstPoll :
    (answering .pollStatus).cs = false ∧ (answering .pollStatus).noFailure 5
      ∧ (answering .pollStatus).cfg.target = .oracle
      ∧ ((answering .pollStatus).momentAt 3).byte.getLsbD 0 = true := by
  unfold State.noFailure; decide

theorem witness_PollsAreBounded :
    (∃ t, exec .isReady calm = .next t)
      ∧ ∃ t, exec (.pollFlag 0x28 3 0 .packetSent) calm = .next t := ⟨⟨_, rfl⟩, ⟨_, rfl⟩⟩

/-- A wait whose second poll fails at its address exchange (42_mode_controller R133): the error of that
call, after one whole poll, and nothing after the release. -/
theorem witness_PollsAreBounded_fails :
    seen (fun t => (t.result, t.trace.map BusCall.act)) (exec .isReady (failing 8 7))
      = some (.error { kind := .transport 7 },
          frameActs [0x27, 0x00] ++ .sleep 1000 :: frameActs [0x27]) := by decide

theorem witness_PollBoundSuffices :
    0 ≤ calm.clock ∧ 10000 / calm.cfg.pollInterval + 2 ≤ 12
      ∧ 999 / calm.cfg.pollInterval + 2 ≤ 1000 := by decide

/-- A reset image that gives the second register alone. -/
def imaged : State :=
  machine { toParams := { target := .reference, resetImage := [none, some 0x04] }, valid := by decide }
    [] 20

theorem witness_ResetPulsesTheLine :
    imaged.seq = .idle ∧ imaged.cfg.target ≠ .oracle ∧ imaged.hazard = false
      ∧ imaged.cfg.resetImage[(1 : Addr).toNat]? = some (some 0x04) := by decide

theorem witness_SetModeAndWaitCompletes :
    ((answering .pollStatus).cs = false ∧ (answering .pollStatus).noFailure 9
        ∧ (answering .pollStatus).cfg.target = .oracle
        ∧ ((answering .pollStatus).momentAt 7).byte.getLsbD 7 = true)
      ∧ (settling.cs = false ∧ settling.noFailure 9 ∧ settling.cfg.target = .reference
        ∧ settling.hazard = false ∧ settling.cfg.registers.Nodup ∧ settling.target.sound settling.cfg
        ∧ TargetAct.settle ∈ (settling.momentAt 4).acts)
      ∧ (∀ k ∈ [0, 3], (failing k 7).cs = false ∧ (failing k 7).noFailure k
        ∧ (failing k 7).callErrorAt k = some 7 ∧ (failing k 7).target.sound (failing k 7).cfg) := by
  unfold State.noFailure Target.sound; decide

/-! Witnesses: frequency -/

/-- With the defaults a step is at least 1 Hz, and 1023999999 is the last frequency accepted. -/
theorem witness_FrequencyLaws :
    1023999999 * 2 ^ Config.default.frfShift < Config.default.fxoscHz * 2 ^ 24 ∧ 2 ^ Config.default.frfShift ≤ Config.default.fxoscHz
      ∧ 61 ≤ 62 := by decide

theorem witness_FrfToHzIntIsTheCeiling : calm.cfg.frfShift ≤ 24 ∧ 2 ^ calm.cfg.frfShift ≤ calm.cfg.fxoscHz
    ∧ (0xFFFFFF : Frf).toNat * calm.cfg.fxoscHz ≤ 1024000000 * 2 ^ calm.cfg.frfShift
    ∧ hzToFrf calm.cfg 1024000000 = 0x1000000 ∧ hzToFrf calm.cfg 62 = (1 : Frf).toNat := by decide

theorem witness_FrequencyRange :
    calm.cfg.fxoscHz * 2 ^ 24 ≤ (1024000000 : Hz).toNat * 2 ^ calm.cfg.frfShift ∧ calm.seq = .idle
      ∧ Config.default.frfShift ≤ 24 := by decide

/-- A shift above 24: a step of 2^-16 Hz, so that every whole number of Hz from 256 on is refused
(43_frequency_synthesizer R152, R159). -/
theorem test_large_shift :
    let c : Config := { toParams := { fxoscHz := 65536, frfShift := 32 }, valid := by decide }
    seen (·.result) (exec (.setFrequency 255) (machine c [] 20)) = some (.ok .unit)
      ∧ hzToFrf c 255 = 0xFF0000 ∧ exec (.setFrequency 256) (machine c [] 20)
        = .refused .frequencyRange := ⟨by decide +kernel, by decide, by rfl⟩

theorem witness_SetFrequencyWritesTheTriplet :
    standing.seq = .idle ∧ standing.cfg.registers.Nodup
      ∧ (1023999999 : Hz).toNat * 2 ^ standing.cfg.frfShift < standing.cfg.fxoscHz * 2 ^ 24
      ∧ standing.noFailure 12
      ∧ standing.target.sound standing.cfg := by
  unfold State.noFailure Target.sound; decide

theorem witness_SetFrequencyDropsErrors :
    calm.seq = .idle ∧ (0 : Hz).toNat * 2 ^ calm.cfg.frfShift < calm.cfg.fxoscHz * 2 ^ 24
      ∧ calm.cfg.regOpmode ∉ [calm.cfg.regFrfMsb, calm.cfg.regFrfMid, calm.cfg.regFrfLsb]
      ∧ calm.modeCache ≠ some .standby ∧ calm.modeCache ≠ some .sleep := by decide

/-! Witnesses: packets and events -/

/-- Both instructions in each design of the wait. -/
theorem witness_CompletionWaitsComplete :
    ((answering .dwell).cfg.waitKind = .dwell ∧ (answering .dwell).cfg.txDwell = 5000
        ∧ (answering .dwell).cfg.rxTimeout = 10000)
      ∧ ((answering .event).cfg.waitKind = .event ∧ (answering .event).evt = true)
      ∧ ((answering .pollStatus).cfg.waitKind = .pollStatus ∧ (answering .pollStatus).cs = false
        ∧ (answering .pollStatus).noFailure 5 ∧ (answering .pollStatus).cfg.target = .oracle
        ∧ ((answering .pollStatus).momentAt 3).byte.getLsbD 3 = true
        ∧ ((answering .pollStatus).momentAt 3).byte.getLsbD 2 = true) := by
  unfold State.noFailure; decide

theorem answering_inv (w : WaitKind) : (answering w).Inv := by
  cases w <;>
    exact ⟨⟨by decide, by decide⟩, List.length_replicate .., List.length_replicate .., by decide⟩

/-- The longest payload, in each design of the wait. -/
theorem witness_SendCompletes : ∀ w : WaitKind, (answering w).Inv ∧ (answering w).seq = .idle
    ∧ (answering w).cfg.target = .oracle
    ∧ (List.replicate 66 (0 : Byte)).length ≤ (answering w).cfg.maxSendLen
    ∧ (answering w).noFailure (66 + 35)
    ∧ (∀ k, k < 66 + 35 → ((answering w).momentAt k).byte = 0xFF) ∧ (answering w).evt = true := by
  intro w
  refine ⟨answering_inv w, rfl, by cases w <;> rfl, by cases w <;> decide, ?_, ?_, rfl⟩ <;>
    [unfold State.noFailure; skip] <;> cases w <;> decide

theorem witness_SendOkTraffic : ∃ t, exec (.send [0x48]) sending = .next t ∧ t.result = .ok .unit :=
  ⟨_, rfl, by decide +kernel⟩

theorem witness_SendLaws : (∃ t, exec (.send [0x48]) calm = .next t)
    ∧ calm.cfg.regFifo ≠ calm.cfg.regOpmode := ⟨⟨_, rfl⟩, by decide⟩

/-- `sending` with two calls that fail. -/
def sendFailing : State :=
  let m : Moment := { acts := [.settle, .txComplete] }
  machine refConfig
    (List.replicate 15 m ++ [{ m with err := some 3 }, m, { m with err := some 5 }]
      ++ List.replicate 20 m) 0

/-- With the Transmit frame failing at its value and the Standby frame after it at its `CS+`: the error
of step 3 is the one returned, not that of step 5 (60_exceptions R218 item 4). -/
theorem witness_SendLaws_earliest :
    seen (fun t => (sendFailing.stepsTaken t, t.result, t.modeCache))
        (exec (.send [0x48]) sendFailing)
      = some ([.send1, .send2, .send3, .send4, .send5], .error { kind := .transport 3 }, none) := by
  decide +kernel

/-- In a run that completes the Transmit frame comes after the FIFO frame, without an error. -/
theorem witness_SendLaws_transmit :
    seen (fun t => (((sending.callFrames t).drop 2).take 2).map fun f => (bytesSent f, firstError f))
        (exec (.send [0x48]) sending)
      = some [([0x80, 0x48], none), ([0x81, 0x0C], none)] := by decide +kernel

theorem witness_ReceiveCompletes : ∀ w : WaitKind, (answering w).Inv ∧ (answering w).seq = .idle
    ∧ (answering w).cfg.target = .oracle
    ∧ (answering w).noFailure ((answering w).cfg.fifoWindow + 17)
    ∧ (∀ k, k < (answering w).cfg.fifoWindow + 17 → ((answering w).momentAt k).byte = 0xFF)
    ∧ (answering w).evt = true := by
  intro w
  refine ⟨answering_inv w, rfl, by cases w <;> rfl, ?_, ?_, rfl⟩ <;>
    [unfold State.noFailure; skip] <;> cases w <;> decide

/-- A run that times out in the mode change, and one that gets to the drain. -/
theorem witness_ReceiveLaws : (∃ t, exec .receive calm = .next t)
    ∧ calm.cfg.regFifo ∉ [calm.cfg.regIrqFlags1, calm.cfg.regIrqFlags2]
    ∧ (((calm.setSeq .recv1).setModeAndWait .receive).2.isSome = true)
    ∧ ((receiving.setSeq .recv1).setModeAndWait .receive).2 = none
    ∧ (((receiving.setSeq .recv1).setModeAndWait .receive).1.setSeq .recv2).waitPayloadReady.2
      = none := ⟨⟨_, rfl⟩, by decide, by decide +kernel, by decide +kernel, by decide +kernel⟩

theorem witness_HandlerFillsTheSlot :
    ({ target := {}, evt := false } : World).target.irq = false
      ∧ ({ target := { irq := true }, evt := false } : World).target.irq = true := by
  decide

/-- A line that falls and a mode that settles are no rising edge; one that rises is. -/
theorem witness_AwaitEventEnds : { calm with evt := true }.evt = true ∧ calm.evt = false
    ∧ { machine refConfig [{ acts := [.irq false, .settle] }, { acts := [.txComplete] }] 9 with
        target := { irq := true } }.noRisingEdge 2
    ∧ ¬ (machine refConfig [quiet, { acts := [.irq true] }] 9).noRisingEdge 2
    ∧ ((machine refConfig [quiet, { acts := [.irq true] }] 9).momentAt 1).delay ≤ 0
    ∧ calm.target.sound calm.cfg := by
  simp only [State.noRisingEdge, Target.sound]; decide

end Sys2Proof.Tests
end

/-!
PROOFS of the statements of 00_scope: which requests are taken, and what a step makes of the next one.
-/

namespace Sys2Proof.Machine

/-! ### When a host operation is refused -/

theorem hostOperation_refused_iff (body : State → State × Result) (s : State) :
    (∃ r, hostOperation body s = .refused r) ↔ s.seq ≠ .idle := by
  unfold hostOperation
  by_cases h : s.seq = .idle <;> simp [h]

/-- The shape of all nine host operations: an operand out of range is refused on a ground of its own,
decided first (log 19); else the operation runs as `hostOperation` does. -/
theorem exec_eq_of_isHostOperation {i : Instr} (hi : i.isHostOperation = true) (s : State) :
    ∃ body why, exec i s =
      if i.wellFormed s.cfg = true then hostOperation body s else .refused why := by
  cases i with
  | reset | setStandbyMode | isReady | detectDevice | receive => exact ⟨_, .busy, rfl⟩
  | setFrequency hz => exact ⟨_, .frequencyRange, rfl⟩
  | send data => exact ⟨_, .sendTooLong, rfl⟩
  | readRegister addr => exact ⟨_, .addressRange, rfl⟩
  | writeRegister addr value => exact ⟨_, .addressRange, rfl⟩
  | _ => cases hi

theorem exec_refused_iff_of_isHostOperation {i : Instr} (hi : i.isHostOperation = true) (s : State) :
    (∃ r, exec i s = .refused r) ↔ s.seq ≠ .idle ∨ i.wellFormed s.cfg = false := by
  obtain ⟨body, why, h⟩ := exec_eq_of_isHostOperation hi s
  rw [h]
  cases i.wellFormed s.cfg with
  | true => simpa using hostOperation_refused_iff body s
  | false => simp

/-- Out of range is at or above `HZ_LIMIT` (43_frequency_synthesizer R152), without its fraction. -/
theorem Params.hzInRange_eq_false_iff (p : Params) (hz : Hz) :
    p.hzInRange hz = false ↔ p.fxoscHz * 2 ^ 24 ≤ hz.toNat * 2 ^ p.frfShift :=
  decide_eq_false_iff_not.trans Nat.not_lt

/-- The operands of a host operation that are out of range (00_scope R6, 60_exceptions R215). -/
theorem wellFormed_eq_false_iff_of_isHostOperation {i : Instr} (hi : i.isHostOperation = true)
    (c : Config) :
    i.wellFormed c = false ↔
      (∃ addr, i = .readRegister addr ∧ 2 ^ c.addrBits ≤ addr.toNat)
        ∨ (∃ addr value, i = .writeRegister addr value ∧ 2 ^ c.addrBits ≤ addr.toNat)
        ∨ (∃ hz : Hz, i = .setFrequency hz ∧ c.fxoscHz * 2 ^ 24 ≤ hz.toNat * 2 ^ c.frfShift)
        ∨ ∃ data, i = .send data ∧ c.maxSendLen < data.length := by
  cases i with
  | reset | setStandbyMode | isReady | detectDevice | receive => simp [Instr.wellFormed]
  | setFrequency hz => simp [Instr.wellFormed, Params.hzInRange_eq_false_iff]
  | send data => simp [Instr.wellFormed, Params.sendLenOk]
  | readRegister addr => simp [Instr.wellFormed, Params.addrInRange]
  | writeRegister addr value => simp [Instr.wellFormed, Params.addrInRange]
  | _ => cases hi

/-- Settles O11: a host operation is refused when busy or ill-formed, and its ill-formed operands are
the ones listed. -/
theorem hostRefusals : Obligations.HostRefusals := by
  intro i s hi
  rw [exec_refused_iff_of_isHostOperation hi, wellFormed_eq_false_iff_of_isHostOperation hi]

/-! ### One step, by the queue of requests -/

theorem step_of_decode_ok {s : State} {r : Request} {rest : List Request} {i : Instr}
    (hq : s.requests = r :: rest) (hd : decode s.cfg r = .ok i) :
    step s = exec i { s with requests := rest } := by
  simp [step, State.nextRequest, hq, hd]

theorem step_of_decode_error {s : State} {r : Request} {rest : List Request} {why : Reject}
    (hq : s.requests = r :: rest) (hd : decode s.cfg r = .error why) :
    step s = .refused (.undecodable why) := by
  simp [step, State.nextRequest, hq, hd]

theorem step_of_no_request {s : State} (hq : s.requests = []) : step s = .next s.elapse := by
  simp [step, State.nextRequest, State.idleMoment, hq]

theorem State.sameRecords_elapse (s : State) : s.SameRecords s.elapse :=
  ⟨s.elapse_cfg, s.elapse_script, s.elapse_requests, s.elapse_rst, s.elapse_dropped⟩

theorem State.elapse_issued (s : State) : s.issued s.elapse [] := by simp [State.issued]

/-- Settles O6, by the head of the queue; with no request the next state is `s.elapse`. -/
theorem stepRunsTheDecodedInstruction : Obligations.StepRunsTheDecodedInstruction := by
  refine ⟨fun _ _ _ _ => step_of_decode_ok, fun _ _ _ _ => step_of_decode_error, fun s hq => ?_⟩
  exact ⟨s.elapse, step_of_no_request hq, s.elapse_seq, s.elapse_cs, s.sameRecords_elapse,
    ⟨s.elapse_modeCache, s.elapse_awaitReady⟩, ⟨s.elapse_txBuf, s.elapse_rxBuf⟩, s.elapse_issued,
    s.elapse_hazard, s.elapse_result, s.elapse_tick⟩

end Sys2Proof.Machine

/-!
PROOFS of the statements of 10_state: creation; what an instruction that runs can have done, said once
(`exec_ran`), and what follows from it for every instruction; single frames on a reference target that
nothing disturbs (`State.Calm`), and its own steps.
-/

namespace Sys2Proof.Machine

/-! ### Creation -/

/-- Settles O60: creation is `State.reset` over the given configuration and target. -/
theorem creationValues : Obligations.CreationValues :=
  ⟨fun _ _ => ⟨_, rfl, rfl, rfl, rfl, rfl, rfl, rfl, rfl, rfl, rfl, rfl,
    List.length_replicate, List.length_replicate⟩, fun _ _ _ => rfl⟩

theorem State.reset_inv : State.reset.Inv :=
  ⟨⟨rfl, Nat.zero_le _⟩, List.length_replicate, List.length_replicate, fun _ => rfl⟩

/-- Settles O8: both buffers are made with `SCRATCH_SIZE` bytes, and chip-select is inactive. -/
theorem creationMeetsTheInvariant : Obligations.CreationMeetsTheInvariant := by
  refine ⟨State.reset_inv, fun c chip t hchip h => ?_⟩
  obtain rfl := Host.Outcome.next.inj h
  exact ⟨hchip, List.length_replicate, List.length_replicate, fun _ => rfl⟩

/-! ### What an instruction that runs has done -/

/-- Instruction `i` has done its work from `s` and only its end, `State.conclude`, is left: the state
then, and the result. The frame steps, the handler and the pure functions have no such end. -/
inductive State.Worked (s : State) : Instr → State × Result → Prop
  | read {i : Instr} {a : Addr} (ha : i.readsRegister s.cfg = some a) :
      Worked s i ((s.readReg a).1, resultWith .byte (s.readReg a).2)
  | write {i : Instr} {a : Addr} {v : Byte} (ha : i.writesRegister s.cfg = some (a, v)) :
      Worked s i ((s.writeReg a v).1, resultOf (s.writeReg a v).2)
  | burstWrite (d : List Byte) :
      Worked s (.bwr d) ((s.burstWrite d).1, resultOf (s.burstWrite d).2)
  | burstRead (n : Nat) : Worked s (.brd n) ((s.burstRead n).1, burstResult (s.burstRead n).2)
  | addressFrame (w : Bool) (a : Addr) :
      Worked s (.addrByte w a) ((s.addressFrame w a).1, resultOf (s.addressFrame w a).2)
  | detectDevice :
      Worked s .detectDevice ((s.readReg s.cfg.regVersion).1,
        .ok (.bool (identityVerdict s.cfg (s.readReg s.cfg.regVersion).2)))
  | setStandbyMode : Worked s .setStandbyMode (s.setStandbyMode.1, resultOf s.setStandbyMode.2)
  | isReady : Worked s .isReady (s.isReady.1, resultOf s.isReady.2)
  | reset : Worked s .reset (s.resetPulse, .ok .unit)
  | setFrequency (hz : Hz) : Worked s (.setFrequency hz) (s.setFrequency hz, .ok .unit)
  | setModeAndWait (m : Mode) :
      Worked s (.setModeAndWait m) ((s.setModeAndWait m).1, resultOf (s.setModeAndWait m).2)
  | fifoWrite (d : List Byte) :
      Worked s (.fifoWrite d) ((s.fifoWrite d).1, resultOf (s.fifoWrite d).2)
  | fifoRead (n : Nat) :
      Worked s (.fifoRead n) ((s.fifoRead n).1, resultWith .bytes (s.fifoRead n).2)
  | waitTxDone : Worked s .waitTxDone (s.waitTxDone.1, resultOf s.waitTxDone.2)
  | waitPayloadReady :
      Worked s .waitPayloadReady (s.waitPayloadReady.1, resultOf s.waitPayloadReady.2)
  | pollFlag (reg : Addr) (bit : Fin 8) (timeout : Nat) (name : WaitName) :
      Worked s (.pollFlag reg bit timeout name)
        ((s.pollFlag reg bit timeout name).1, resultOf (s.pollFlag reg bit timeout name).2)
  | awaitEvent (timeout : Nat) (name : WaitName) :
      Worked s (.awaitEvent timeout name)
        ((s.awaitEvent timeout name).1, resultOf (s.awaitEvent timeout name).2)
  | send (d : List Byte) : Worked s (.send d) ((s.send d).1, resultOf (s.send d).2)
  | receive : Worked s .receive (s.receive.1, resultWith .bytes s.receive.2)

/-- Instruction `i` went on from `s` to `t`: an operation worked and came back to the sequencer state it
was called in, a host operation being called in `Idle`; or it was a frame step, the handler, or a pure
function. -/
inductive State.Ran (s : State) : Instr → State → Prop
  | concluded {i : Instr} {p : State × Result} (hw : s.Worked i p)
      (hi : i.isHostOperation = true → s.seq = .idle) : Ran s i (p.1.conclude s.seq p.2)
  | openFrame (r : Result) : Ran s .openFrame { s.openFrame.1 with result := r }
  | exchange (b : Byte) (r : Result) : Ran s (.exchange b) { (s.exchange b).1 with result := r }
  | addressExchange (w : Bool) (a : Addr) (r : Result) :
      Ran s (.addrByte w a) { (s.exchange (addressByte s.cfg w a)).1 with result := r }
  | closeFrame (e : Option OpError) (r : Result) :
      Ran s (.closeFrame e) { (s.closeFrame e).1 with result := r }
  | handler : Ran s .handler s.runHandler
  | pure {i : Instr} (r : Result) (hi : i.isHostOperation = false) :
      Ran s i { s with result := r }

/-- An operation refused on a ground of its own goes on only where the ground does not hold. -/
theorem guarded_next {p : Bool} {o : Host.Outcome State Fault Refusal} {why : Refusal} {t : State}
    (h : (if p then o else .refused why) = .next t) : p = true ∧ o = .next t := by
  cases p with
  | true => exact ⟨rfl, h⟩
  | false => cases h

theorem State.Ran.of_host {body : State → State × Result} {i : Instr} {s t : State}
    (hw : s.Worked i (body s))
    (h : hostOperation body s = .next t) : s.Ran i t := by
  obtain ⟨hs, rfl⟩ := hostOperation_next h
  have hr := State.Ran.concluded hw (fun _ => hs)
  rwa [hs] at hr

theorem State.Ran.of_internal {body : State → State × Result} {i : Instr} {s t : State}
    (hw : s.Worked i (body s)) (hi : i.isHostOperation = false)
    (h : internalOperation body s = .next t) : s.Ran i t := by
  obtain rfl := internalOperation_next h
  exact .concluded hw (fun hh => by rw [hi] at hh; cases hh)

theorem State.Ran.of_framed {body : State → State × Result} {i : Instr} {s t : State}
    (hw : s.Worked i (body s)) (hi : i.isHostOperation = false)
    (h : framedOperation body s = .next t) : s.Ran i t := by
  obtain ⟨-, rfl⟩ := framedOperation_next h
  exact .concluded hw (fun hh => by rw [hi] at hh; cases hh)

theorem State.Ran.of_pure {v : Value} {i : Instr} {s t : State}
    (h : pureOperation v s = .next t) (hi : i.isHostOperation = false) : s.Ran i t := by
  obtain rfl := Host.Outcome.next.inj h
  exact .pure _ hi

theorem readsRegister_readRegister {c : Config} {addr : Byte} (h : c.addrInRange addr = true) :
    (Instr.readRegister addr).readsRegister c = some (registerOf addr) := if_pos h

theorem writesRegister_writeRegister {c : Config} {addr : Byte} (h : c.addrInRange addr = true)
    (v : Byte) : (Instr.writeRegister addr v).writesRegister c = some (registerOf addr, v) :=
  if_pos h

theorem execReadRegister_ran {addr : Byte} {s t : State}
    (h : execReadRegister addr s = .next t) : s.Ran (.readRegister addr) t := by
  obtain ⟨hp, h⟩ := guarded_next h
  exact .of_host (.read (readsRegister_readRegister hp)) h

theorem execWriteRegister_ran {addr v : Byte} {s t : State}
    (h : execWriteRegister addr v s = .next t) : s.Ran (.writeRegister addr v) t := by
  obtain ⟨hp, h⟩ := guarded_next h
  exact .of_host (.write (writesRegister_writeRegister hp v)) h

theorem execOpenFrame_ran {s t : State} (h : execOpenFrame s = .next t) : s.Ran .openFrame t := by
  unfold execOpenFrame at h
  split at h
  · cases h
  · obtain rfl := Host.Outcome.next.inj h
    exact .openFrame _

theorem execExchange_ran {b : Byte} {s t : State} (h : execExchange b s = .next t) :
    s.Ran (.exchange b) t := by
  unfold execExchange at h
  split at h
  · cases h
  · split at h
    · cases h
    · split at h
      · cases h
      · obtain rfl := Host.Outcome.next.inj h
        exact .exchange b _

theorem execAddrByte_ran {w : Bool} {a : Addr} {s t : State} (h : execAddrByte w a s = .next t) :
    s.Ran (.addrByte w a) t := by
  unfold execAddrByte at h
  split at h
  · split at h
    · cases h
    · split at h
      · obtain rfl := Host.Outcome.next.inj h
        exact .addressExchange w a _
      · cases h
  · exact .of_internal (.addressFrame w a) rfl h

theorem execWait_ran {body : State → State × Result} {i : Instr} {s t : State}
    (hw : s.Worked i (body s)) (hi : i.isHostOperation = false)
    (h : (if s.waitNeedsBus then .refused .frameOpen else internalOperation body s) = .next t) :
    s.Ran i t := by
  split at h
  · cases h
  · exact .of_internal hw hi h

/-- The inversion of `exec`, arm by arm. -/
theorem exec_ran {i : Instr} {s t : State} (h : exec i s = .next t) : s.Ran i t := by
  cases i with
  | rd | rdIrqFlags1 | rdIrqFlags2 | rdVersion => exact .of_framed (.read rfl) rfl h
  | wr | wrOpmodeStandby | wrOpmodeTx | wrOpmodeRx | wrOpmodeSleep | wrOpmodeFs | wrFrfMsb
  | wrFrfMid | wrFrfLsb | setMode => exact .of_framed (.write rfl) rfl h
  | bwr d => exact .of_framed (.burstWrite d) rfl (guarded_next h).2
  | brd n => exact .of_framed (.burstRead n) rfl h
  | addrByte => exact execAddrByte_ran h
  | reset => exact .of_host .reset (show execReset s = .next t from h)
  | setStandbyMode => exact .of_host .setStandbyMode (show execSetStandbyMode s = .next t from h)
  | isReady => exact .of_host .isReady (show execIsReady s = .next t from h)
  | detectDevice => exact .of_host .detectDevice (show execDetectDevice s = .next t from h)
  | setFrequency hz => exact .of_host (.setFrequency hz) (guarded_next h).2
  | send d => exact .of_host (.send d) (guarded_next h).2
  | receive => exact .of_host .receive (show execReceive s = .next t from h)
  | readRegister => exact execReadRegister_ran h
  | writeRegister => exact execWriteRegister_ran h
  | openFrame => exact execOpenFrame_ran h
  | exchange => exact execExchange_ran h
  | closeFrame e =>
    obtain rfl := Host.Outcome.next.inj h
    exact .closeFrame e _
  | setModeAndWait m => exact .of_framed (.setModeAndWait m) rfl h
  | fifoWrite d => exact .of_framed (.fifoWrite d) rfl (guarded_next h).2
  | fifoRead n => exact .of_framed (.fifoRead n) rfl (guarded_next h).2
  | waitTxDone => exact execWait_ran .waitTxDone rfl h
  | waitPayloadReady => exact execWait_ran .waitPayloadReady rfl h
  | pollFlag reg bit timeout name => exact .of_framed (.pollFlag reg bit timeout name) rfl h
  | handler =>
    obtain rfl := Host.Outcome.next.inj h
    exact .handler
  | awaitEvent timeout name =>
    exact .of_internal (.awaitEvent timeout name) rfl
      (show execAwaitEvent timeout name s = .next t from h)
  | hzToFrf | frfToHz | frfToHzInt | frfSplit | frfJoin => exact .of_pure h rfl

/-- The handler fills the slot and touches nothing else (45_event_channel R201). -/
theorem State.bus_runHandler (s : State) : s.Bus s.runHandler :=
  ⟨⟨rfl, rfl, rfl, id, Nat.le_refl _, Nat.le_refl _, ⟨[], by simp [State.runHandler]⟩,
      ⟨[], by simp [State.runHandler]⟩, rfl, id⟩,
    rfl, rfl, rfl, rfl, rfl, rfl, rfl, fun _ => World.handler_evt _⟩

/-- An instruction either worked and was concluded, or it did no more than bus traffic does and left a
result; the handler's step and a pure function are such too. -/
theorem State.Ran.concluded_or_bus {i : Instr} {s t : State} (h : s.Ran i t) :
    (∃ p, s.Worked i p ∧ t = p.1.conclude s.seq p.2)
      ∨ ∃ u r, s.Bus u ∧ i.isHostOperation = false ∧ t = { u with result := r } := by
  cases h with
  | concluded hw => exact .inl ⟨_, hw, rfl⟩
  | openFrame r => exact .inr ⟨_, r, s.bus_openFrame, rfl, rfl⟩
  | exchange b r => exact .inr ⟨_, r, s.bus_exchange b, rfl, rfl⟩
  | addressExchange w a r => exact .inr ⟨_, r, s.bus_exchange _, rfl, rfl⟩
  | closeFrame e r => exact .inr ⟨_, r, s.bus_closeFrame e, rfl, rfl⟩
  | handler => exact .inr ⟨_, s.result, s.bus_runHandler, rfl, rfl⟩
  | pure r hi => exact .inr ⟨s, r, .refl s, hi, rfl⟩

theorem ne_of_isHostOperation {i j : Instr} (hi : i.isHostOperation = false)
    (hj : j.isHostOperation = true) : i ≠ j := fun h => by
  rw [h, hj] at hi
  cases hi

/-! ### What every instruction keeps -/

theorem State.extends_result (r : Result) (s : State) : s.Extends { s with result := r } :=
  ⟨rfl, rfl, rfl, id, Nat.le_refl _, Nat.le_refl _, ⟨[], by simp⟩, ⟨[], by simp⟩, rfl, id⟩

/-- All work but that of `Reset` and `SetFrequency` leaves the reset line and `dropped` alone. -/
theorem State.Worked.work {i : Instr} {s : State} {p : State × Result} (h : s.Worked i p) :
    s.Work p.1 ∨ (i = .reset ∧ p.1 = s.resetPulse)
      ∨ ∃ hz, i = .setFrequency hz ∧ p.1 = s.setFrequency hz := by
  cases h with
  | @read _ a => exact .inl (s.bus_readReg a).quiet.toWork
  | @write _ a v => exact .inl (s.quiet_writeReg a v).toWork
  | burstWrite d => exact .inl (s.bus_burstWrite d).quiet.toWork
  | burstRead n => exact .inl (s.bus_burstRead n).quiet.toWork
  | addressFrame w a => exact .inl (s.quiet_addressFrame w a).toWork
  | detectDevice => exact .inl (s.bus_readReg _).quiet.toWork
  | setStandbyMode => exact .inl (s.quiet_setMode _).toWork
  | isReady => exact .inl s.quiet_isReady.toWork
  | reset => exact .inr (.inl ⟨rfl, rfl⟩)
  | setFrequency hz => exact .inr (.inr ⟨hz, rfl, rfl⟩)
  | setModeAndWait m => exact .inl (s.quiet_setModeAndWait m).toWork
  | fifoWrite d => exact .inl (s.work_fifoWrite d)
  | fifoRead n => exact .inl (s.work_fifoRead n)
  | waitTxDone => exact .inl s.quiet_waitTxDone.toWork
  | waitPayloadReady => exact .inl s.quiet_waitPayloadReady.toWork
  | pollFlag => exact .inl (s.bus_pollFlag ..).quiet.toWork
  | awaitEvent => exact .inl (s.quiet_awaitEvent ..).toWork
  | send d => exact .inl (s.work_send d)
  | receive => exact .inl s.work_receive

theorem State.Worked.toExtends {i : Instr} {s : State} {p : State × Result} (h : s.Worked i p) :
    s.Extends p.1 := by
  rcases h.work with hw | ⟨-, hp⟩ | ⟨hz, -, hp⟩
  · exact hw.toExtends
  · rw [hp]; exact s.resetPulse_spec.1
  · rw [hp]; exact (s.extends_setFrequency hz).1

theorem exec_extends {i : Instr} {s t : State} (h : exec i s = .next t) : s.Extends t := by
  rcases (exec_ran h).concluded_or_bus with ⟨p, hw, rfl⟩ | ⟨u, r, hb, -, rfl⟩
  · exact hw.toExtends.trans (State.extends_conclude _ _ _)
  · exact hb.toExtends.trans (State.extends_result r u)

/-- Settles O9: every instruction goes on to a later state of the same controller, in the sense of
`State.Extends`. -/
theorem nothingIsUndone : Obligations.NothingIsUndone := by
  intro i s t h
  have he := exec_extends h
  exact ⟨he.cfg, he.script, he.requests, he.version, he.hazard, he.clock, he.tick, he.trace, he.path⟩

/-! ### Chip-select and the sequencer -/

/-- No work leaves a frame open that was not. -/
theorem State.Worked.closed {i : Instr} {s : State} {p : State × Result} (h : s.Worked i p)
    (hc : s.cs = false) : p.1.cs = false := by
  cases h with
  | @read _ a => exact (s.readReg_ends a).1
  | @write _ a v => exact (s.writeReg_ends a v).1
  | burstWrite d => exact (s.burstWrite_ends d).1
  | burstRead n => exact (s.burstRead_ends n).1
  | addressFrame w a => exact (s.addressFrame_ends w a).1
  | detectDevice => exact (s.readReg_ends _).1
  | setStandbyMode => exact (s.setMode_ends _).1
  | isReady => exact s.isReady_cs
  | reset =>
    obtain ⟨-, -, hcs, -⟩ := s.resetPulse_spec
    exact hcs.trans hc
  | setFrequency hz =>
    obtain ⟨-, -, -, -, hcs, -⟩ := s.extends_setFrequency hz
    exact hcs
  | setModeAndWait m => exact s.setModeAndWait_cs m
  | fifoWrite d => exact (s.fifoWrite_ends d).1
  | fifoRead n => exact (s.fifoRead_ends n).1
  | waitTxDone | waitPayloadReady => exact (s.completionWait_keeps ..).1 hc
  | pollFlag => exact s.pollFlag_cs ..
  | awaitEvent => exact (s.awaitEvent_keeps ..).1.trans hc
  | send d => exact s.send_cs d
  | receive => exact s.receive_cs

/-- Settles O13: the frame steps apart, an instruction ends in the sequencer state it was issued from,
and for a host operation that is `Idle`, where the invariant has chip-select inactive. -/
theorem operationsComeBack : Obligations.OperationsComeBack := by
  intro i s t hinv h
  cases exec_ran h with
  | concluded hw hi =>
    refine ⟨fun hh => ⟨?_, hi hh⟩, fun _ _ _ _ => ⟨rfl, hw.closed⟩⟩
    exact hw.closed (hinv.idleClosed (hi hh))
  | openFrame => exact ⟨nofun, fun _ _ ho _ => absurd rfl ho⟩
  | exchange b => exact ⟨nofun, fun hx _ _ _ => absurd rfl (hx b)⟩
  | addressExchange w a => exact ⟨nofun, fun _ ha _ _ => absurd rfl (ha w a)⟩
  | closeFrame e => exact ⟨nofun, fun _ _ _ hc => absurd rfl (hc e)⟩
  | handler => exact ⟨nofun, fun _ _ _ _ => ⟨rfl, id⟩⟩
  | pure r hi => exact ⟨fun hh => absurd hh (by simp [hi]), fun _ _ _ _ => ⟨rfl, id⟩⟩

theorem nextExchange_ne_idle (q : SeqState) : nextExchange q ≠ .idle := by
  cases q <;> exact nofun

theorem State.exchange_seq (b : Byte) (s : State) : (s.exchange b).1.seq = nextExchange s.seq :=
  (State.transfer_keeps b (s.setSeq (nextExchange s.seq))).2.2.1

/-- An instruction ends in `Idle` only with no frame open, if that held of the state it was issued in. -/
theorem State.Ran.idleClosed {i : Instr} {s t : State} (h : s.Ran i t)
    (hs : s.seq = .idle → s.cs = false) (ht : t.seq = .idle) : t.cs = false := by
  cases h with
  | concluded hw => exact hw.closed (hs ht)
  | openFrame => cases ht
  | exchange b | addressExchange =>
    exact absurd ((State.exchange_seq _ s).symm.trans ht) (nextExchange_ne_idle _)
  | closeFrame e => exact State.closeFrame_cs e s
  | handler | pure => exact hs ht

/-! ### The scratch buffers -/

/-- From `s` to `t` instruction `i` wrote no scratch buffer but its own, and kept both lengths: `tx_buf`
is that of `FifoWrite` and `Send`, `rx_buf` that of `FifoRead` and `Receive` (10_state R25). -/
def State.WritesOwnBuffer (i : Instr) (s t : State) : Prop :=
  ((∀ d, i ≠ .fifoWrite d) → (∀ d, i ≠ .send d) → t.txBuf = s.txBuf)
    ∧ ((∀ n, i ≠ .fifoRead n) → i ≠ .receive → t.rxBuf = s.rxBuf)
    ∧ t.txBuf.length = s.txBuf.length ∧ t.rxBuf.length = s.rxBuf.length

theorem State.SameBuffers.writesOwnBuffer {s t : State} (h : s.SameBuffers t) (i : Instr) :
    State.WritesOwnBuffer i s t :=
  ⟨fun _ _ => h.1, fun _ _ => h.2, congrArg _ h.1, congrArg _ h.2⟩

theorem State.Quiet.writesOwnBuffer {s t : State} (h : s.Quiet t) (i : Instr) :
    State.WritesOwnBuffer i s t :=
  State.SameBuffers.writesOwnBuffer ⟨h.txBuf, h.rxBuf⟩ i

theorem State.Worked.buffers {i : Instr} {s : State} {p : State × Result} (h : s.Worked i p) :
    State.WritesOwnBuffer i s p.1 := by
  cases h with
  | @read _ a => exact (s.bus_readReg a).quiet.writesOwnBuffer _
  | @write _ a v => exact (s.quiet_writeReg a v).writesOwnBuffer _
  | burstWrite d => exact (s.bus_burstWrite d).quiet.writesOwnBuffer _
  | burstRead n => exact (s.bus_burstRead n).quiet.writesOwnBuffer _
  | addressFrame w a => exact (s.quiet_addressFrame w a).writesOwnBuffer _
  | detectDevice => exact (s.bus_readReg _).quiet.writesOwnBuffer _
  | setStandbyMode => exact (s.quiet_setMode _).writesOwnBuffer _
  | isReady => exact s.quiet_isReady.writesOwnBuffer _
  | reset =>
    obtain ⟨-, -, -, -, -, -, -, -, hbuf, -⟩ := s.resetPulse_spec
    exact State.SameBuffers.writesOwnBuffer hbuf _
  | setFrequency hz =>
    obtain ⟨-, -, -, hbuf, -⟩ := s.extends_setFrequency hz
    exact State.SameBuffers.writesOwnBuffer hbuf _
  | setModeAndWait m => exact (s.quiet_setModeAndWait m).writesOwnBuffer _
  | waitTxDone => exact s.quiet_waitTxDone.writesOwnBuffer _
  | waitPayloadReady => exact s.quiet_waitPayloadReady.writesOwnBuffer _
  | pollFlag => exact (s.bus_pollFlag ..).quiet.writesOwnBuffer _
  | awaitEvent => exact (s.quiet_awaitEvent ..).writesOwnBuffer _
  | fifoWrite d =>
    obtain ⟨htx, hrx⟩ := s.fifoWrite_buffers d
    exact ⟨fun hne _ => absurd rfl (hne d), fun _ _ => hrx, by rw [htx, bufferWith_length],
      congrArg _ hrx⟩
  | fifoRead n =>
    obtain ⟨htx, hrx⟩ := s.fifoRead_buffers n
    exact ⟨fun _ _ => htx, fun hne _ => absurd rfl (hne n), congrArg _ htx,
      by rw [hrx, bufferWith_length]⟩
  | send d =>
    obtain ⟨hrx, htx⟩ := s.send_buffers d
    exact ⟨fun _ hne => absurd rfl (hne d), fun _ _ => hrx, htx, congrArg _ hrx⟩
  | receive =>
    obtain ⟨htx, hrx⟩ := s.receive_buffers
    exact ⟨fun _ _ => htx, fun _ hne => absurd rfl hne, congrArg _ htx, hrx⟩

/-- Settles O16: what the end of an operation adds is in neither buffer, and bus traffic touches none. -/
theorem bufferWriters : Obligations.BufferWriters := by
  intro i s t h
  rcases (exec_ran h).concluded_or_bus with ⟨p, hw, rfl⟩ | ⟨u, r, hb, -, rfl⟩
  · exact hw.buffers
  · exact hb.quiet.writesOwnBuffer i

/-! ### The invariant -/

theorem exec_inv {i : Instr} {s t : State} (hinv : s.Inv) (h : exec i s = .next t) : t.Inv := by
  have he := exec_extends h
  obtain ⟨-, -, htx, hrx⟩ := bufferWriters i s t h
  exact {
    target := by rw [he.cfg]; exact he.sound hinv.target
    txBuf := by rw [htx, he.cfg]; exact hinv.txBuf
    rxBuf := by rw [hrx, he.cfg]; exact hinv.rxBuf
    idleClosed := (exec_ran h).idleClosed hinv.idleClosed }

/-- A step takes a request and runs what it decodes to, or lets one moment of the environment pass. -/
theorem step_next {s t : State} (h : step s = .next t) :
    t = s.elapse ∨ ∃ i rest, exec i { s with requests := rest } = .next t := by
  cases hq : s.requests with
  | nil =>
    rw [step_of_no_request hq] at h
    exact .inl (Host.Outcome.next.inj h).symm
  | cons r rest =>
    cases hd : decode s.cfg r with
    | error why => rw [step_of_decode_error hq hd] at h; cases h
    | ok i => rw [step_of_decode_ok hq hd] at h; exact .inr ⟨i, rest, h⟩

theorem State.elapse_inv {s : State} (h : s.Inv) : s.elapse.Inv :=
  ⟨State.elapse_target_sound h.target, h.txBuf, h.rxBuf, h.idleClosed⟩

/-- Settles O7: every instruction keeps the invariant, and a step is one instruction or one moment of
the environment. -/
theorem everyStepKeepsTheInvariant : Obligations.EveryStepKeepsTheInvariant := by
  refine fun s hinv => ⟨fun i t h => exec_inv hinv h, fun t h => ?_⟩
  rcases step_next h with rfl | ⟨i, rest, h⟩
  · exact State.elapse_inv hinv
  · exact exec_inv (s := { s with requests := rest })
      ⟨hinv.target, hinv.txBuf, hinv.rxBuf, hinv.idleClosed⟩ h

/-! ### The reset line and the dropped errors -/

/-- From `s` to `t` at most `n` errors were dropped, each a transport error without context
(10_state R28). -/
def State.Drops (n : Nat) (s t : State) : Prop :=
  ∃ l, t.dropped = s.dropped ++ l ∧ l.length ≤ n ∧ ∀ e ∈ l, ∃ cause, e = transportError cause

theorem State.Drops.of_eq {s t : State} (n : Nat) (h : t.dropped = s.dropped) : State.Drops n s t :=
  ⟨[], by simp [h], Nat.zero_le n, by simp⟩

theorem State.Drops.trans {n m : Nat} {s t u : State} (h : State.Drops n s t)
    (h' : State.Drops m t u) : State.Drops (n + m) s u := by
  obtain ⟨l, hl, hn, hc⟩ := h
  obtain ⟨l', hl', hm, hc'⟩ := h'
  refine ⟨l ++ l', by rw [hl', hl, List.append_assoc], by rw [List.length_append]; omega, ?_⟩
  intro e he
  rcases List.mem_append.mp he with he | he
  · exact hc e he
  · exact hc' e he

theorem State.drops_writeDropping (a : Addr) (v : Byte) (s : State) :
    State.Drops 1 s (s.writeDropping a v) := by
  obtain ⟨-, -, -, -, hd, -⟩ := State.extends_writeDropping a v s
  refine ⟨_, hd, ?_⟩
  rcases s.writeReg_cases a v with ⟨he, -⟩ | ⟨cause, -, he, -⟩
  · simp [he]
  · simp [he]

/-- The three writes of `SetFrequency` (43_frequency_synthesizer R157). -/
theorem State.drops_setFrequency (hz : Hz) (s : State) : State.Drops 3 s (s.setFrequency hz) :=
  (((State.Drops.of_eq 0 s.bus_markFrequency.dropped).trans (State.drops_writeDropping ..)).trans
    (State.drops_writeDropping ..)).trans (State.drops_writeDropping ..)

/-- The work of `Reset` is the reset pulse. -/
theorem State.Worked.reset_eq {s : State} {p : State × Result} (h : s.Worked .reset p) :
    p.1 = s.resetPulse := by
  cases h with
  | read ha | write ha => cases ha
  | reset => rfl

/-- Settles O14: all work but that of `Reset` and `SetFrequency` is `State.Work`. -/
theorem resetLineAndDropped : Obligations.ResetLineAndDropped := by
  intro i s t h
  rcases (exec_ran h).concluded_or_bus with ⟨p, hw, rfl⟩ | ⟨u, r, hb, hi, rfl⟩
  · refine ⟨fun hne => ?_, fun he => ?_, fun hne => ?_, ?_⟩
    · rcases hw.work with hk | ⟨he, -⟩ | ⟨hz, -, hp⟩
      · exact hk.rst
      · exact absurd he hne
      · obtain ⟨-, hrst, -⟩ := s.extends_setFrequency hz
        exact (congrArg State.rst hp).trans hrst
    · subst he
      obtain ⟨-, hrst, -⟩ := s.resetPulse_spec
      exact (congrArg State.rst hw.reset_eq).trans hrst
    · rcases hw.work with hk | ⟨-, hp⟩ | ⟨hz, he, -⟩
      · exact hk.dropped
      · obtain ⟨-, -, -, -, -, -, hd, -⟩ := s.resetPulse_spec
        exact (congrArg State.dropped hp).trans hd
      · exact absurd he (hne hz)
    · have hdrops : State.Drops 3 s p.1 := by
        rcases hw.work with hk | ⟨-, hp⟩ | ⟨hz, -, hp⟩
        · exact .of_eq 3 hk.dropped
        · obtain ⟨-, -, -, -, -, -, hd, -⟩ := s.resetPulse_spec
          exact .of_eq 3 ((congrArg State.dropped hp).trans hd)
        · rw [hp]; exact s.drops_setFrequency hz
      exact hdrops
  · exact ⟨fun _ => hb.rst, fun he => absurd he (ne_of_isHostOperation hi rfl), fun _ => hb.dropped,
      State.Drops.of_eq 3 hb.dropped⟩

/-! ### The record of the mode -/

theorem State.sameMode_trans {s t u : State} (h : s.SameMode t) (h' : t.SameMode u) :
    s.SameMode u := ⟨h'.1.trans h.1, h'.2.trans h.2⟩

theorem State.Bus.sameMode {s t : State} (h : s.Bus t) : s.SameMode t := ⟨h.modeCache, h.awaitReady⟩

/-- A write to another register keeps the record of the mode (10_state R23, R24). -/
theorem State.writeReg_sameMode {a : Addr} {s : State} (h : a ≠ s.cfg.regOpmode) (v : Byte) :
    s.SameMode (s.writeReg a v).1 := by
  obtain ⟨hm, ha⟩ := s.writeReg_mode a v
  rw [if_neg h] at hm
  exact ⟨hm, by rw [ha]; simp [h]⟩

theorem State.writeDropping_sameMode {a : Addr} {s : State} (h : a ≠ s.cfg.regOpmode) (v : Byte) :
    s.SameMode (s.writeDropping a v) := State.writeReg_sameMode h v

@[simp] theorem State.writeDropping_cfg (a : Addr) (v : Byte) (s : State) :
    (s.writeDropping a v).cfg = s.cfg := (State.extends_writeDropping a v s).1.cfg

theorem State.setFrequency_sameMode {s : State} (hz : Hz)
    (h : s.cfg.regOpmode ∉ [s.cfg.regFrfMsb, s.cfg.regFrfMid, s.cfg.regFrfLsb]) :
    s.SameMode (s.setFrequency hz) := by
  simp only [List.mem_cons, List.not_mem_nil, or_false, not_or] at h
  obtain ⟨hmsb, hmid, hlsb⟩ := h
  have hc : s.markFrequency.cfg = s.cfg := s.bus_markFrequency.cfg
  refine State.sameMode_trans (State.sameMode_trans (State.sameMode_trans
    s.bus_markFrequency.sameMode (State.writeDropping_sameMode ?_ _))
    (State.writeDropping_sameMode ?_ _)) (State.writeDropping_sameMode ?_ _)
  · rw [hc]; exact Ne.symm hmsb
  · rw [State.writeDropping_cfg, hc]; exact Ne.symm hmid
  · rw [State.writeDropping_cfg, State.writeDropping_cfg, hc]; exact Ne.symm hlsb

theorem State.addressFrame_sameMode {w : Bool} {a : Addr} {s : State}
    (h : (w && decide (a = s.cfg.regOpmode)) = false) : s.SameMode (s.addressFrame w a).1 := by
  cases w with
  | false =>
    rw [State.addressFrame_read]
    exact ((s.bus_markRead a).trans (State.bus_readFrame a 0 _)).sameMode
  | true =>
    have hne : a ≠ s.cfg.regOpmode := by simpa using h
    rw [State.addressFrame_write_of_ne hne]
    exact ((s.bus_markWrite a).trans (State.bus_writeFrame a [] _)).sameMode

/-- The one write frame of an instruction that does not write the mode record is to another register. -/
theorem ne_opmode_of_writesRegister {c : Config} {i : Instr} {a : Addr} {v : Byte}
    (ha : i.writesRegister c = some (a, v)) (hm : i.writesModeRecord c = false) :
    a ≠ c.regOpmode := by
  unfold Instr.writesModeRecord at hm
  -- `h_8` is the arm of the one-frame writes; no instruction of another arm is one.
  split at hm
  case h_8 => simpa [ha] using hm
  all_goals cases ha

/-- Work that starts no write frame to the mode register keeps the record of the mode, but that
`IsReady` clears `await_ready` where it sees the bit. -/
theorem State.Worked.sameMode {i : Instr} {s : State} {p : State × Result} (h : s.Worked i p)
    (hm : i.writesModeRecord s.cfg = false) :
    s.SameMode p.1 ∨ i = .isReady ∧ p = (s.isReady.1, resultOf s.isReady.2) := by
  cases h with
  | @read _ a => exact .inl (s.bus_readReg a).sameMode
  | @write _ a v ha => exact .inl (State.writeReg_sameMode (ne_opmode_of_writesRegister ha hm) v)
  | burstWrite d => exact .inl (s.bus_burstWrite d).sameMode
  | burstRead n => exact .inl (s.bus_burstRead n).sameMode
  | addressFrame w a => exact .inl (State.addressFrame_sameMode hm)
  | detectDevice => exact .inl (s.bus_readReg _).sameMode
  | isReady => exact .inr ⟨rfl, rfl⟩
  | setFrequency hz => exact .inl (State.setFrequency_sameMode hz (of_decide_eq_false hm))
  | fifoWrite d => exact .inl (s.fifoWrite_mode d)
  | fifoRead n => exact .inl (s.fifoRead_mode n)
  | waitTxDone | waitPayloadReady => exact .inl (s.completionWait_keeps ..).2
  | pollFlag => exact .inl (s.bus_pollFlag ..).sameMode
  | awaitEvent timeout name =>
    obtain ⟨-, hc, ha, -⟩ := s.awaitEvent_keeps timeout name
    exact .inl ⟨hc, ha⟩
  | setStandbyMode | reset | setModeAndWait | send | receive => cases hm

theorem await_unless_ok (b : Bool) (e : Option OpError) :
    (if e.isNone then false else b) = (b && decide (resultOf e ≠ .ok .unit)) := by
  cases e <;> simp [resultOf]

/-- The work of `IsReady` (42_mode_controller R133). -/
theorem State.Worked.isReady_eq {s : State} {p : State × Result} (h : s.Worked .isReady p) :
    p = (s.isReady.1, resultOf s.isReady.2) := by
  cases h with
  | read ha | write ha => cases ha
  | isReady => rfl

/-- `await_ready` falls exactly where `IsReady` answers ok (42_mode_controller R133). -/
theorem State.isReady_awaitReady (s : State) :
    s.isReady.1.awaitReady = (s.awaitReady && decide (resultOf s.isReady.2 ≠ .ok .unit)) :=
  s.isReady_mode.2.trans (await_unless_ok _ _)

/-- Settles O15: what is no write frame to the mode register keeps the record, `IsReady` apart. -/
theorem modeRecordWriters : Obligations.ModeRecordWriters := by
  intro i s t h hm
  rcases (exec_ran h).concluded_or_bus with ⟨p, hw, rfl⟩ | ⟨u, r, hb, hi, rfl⟩
  · refine ⟨?_, fun hne => ?_, fun he => ?_⟩
    · rcases hw.sameMode hm with hs | ⟨-, rfl⟩
      · exact hs.1
      · exact s.isReady_mode.1
    · rcases hw.sameMode hm with hs | ⟨he, -⟩
      · exact hs.2
      · exact absurd he hne
    · subst he
      obtain rfl := hw.isReady_eq
      exact s.isReady_awaitReady
  · exact ⟨hb.modeCache, fun _ => hb.awaitReady, fun he => absurd he (ne_of_isHostOperation hi rfl)⟩

/-! ### The event slot -/

/-- An operation between `s` and `t` does not empty the event slot (10_state R26). -/
def State.KeepsEvent (s t : State) : Prop := s.evt = true → t.evt = true

theorem State.KeepsEvent.trans {s t u : State} (h : s.KeepsEvent t) (h' : t.KeepsEvent u) :
    s.KeepsEvent u := h' ∘ h

theorem State.Bus.keepsEvent {s t : State} (h : s.Bus t) : s.KeepsEvent t := h.evt

@[simp] theorem State.beginModeWrite_evt (a : Addr) (v : Byte) (s : State) :
    (s.beginModeWrite a v).evt = s.evt := by
  unfold State.beginModeWrite; split <;> rfl

@[simp] theorem State.endModeWrite_evt (a : Addr) (v : Byte) (e : Option OpError) (s : State) :
    (s.endModeWrite a v e).evt = s.evt := by
  unfold State.endModeWrite; split <;> rfl

theorem State.keepsEvent_writeReg (a : Addr) (v : Byte) (s : State) :
    s.KeepsEvent (s.writeReg a v).1 := fun h => by
  rw [State.writeReg_eq, State.endModeWrite_evt]
  refine (s.bus_writeRegFrame a v).evt ?_
  rw [State.beginModeWrite_evt]
  exact h

theorem State.keepsEvent_addressFrame (w : Bool) (a : Addr) (s : State) :
    s.KeepsEvent (s.addressFrame w a).1 := by
  cases w with
  | false =>
    rw [State.addressFrame_read]
    exact ((s.bus_markRead a).trans (State.bus_readFrame a 0 _)).keepsEvent
  | true =>
    by_cases h : a = s.cfg.regOpmode
    · subst h
      rw [State.addressFrame_opmode]
      exact (State.bus_writeFrame s.cfg.regOpmode []
        { s.markWrite s.cfg.regOpmode with awaitReady := true }).evt
    · rw [State.addressFrame_write_of_ne h]
      exact ((s.bus_markWrite a).trans (State.bus_writeFrame a [] _)).keepsEvent

theorem State.keepsEvent_isReady (s : State) : s.KeepsEvent s.isReady.1 := by
  have h := s.bus_readyWait.keepsEvent
  cases hr : s.readyWait.2 with
  | none => rw [State.isReady_of_none hr]; exact h
  | some e => rw [State.isReady_of_some hr]; exact h

theorem State.keepsEvent_setModeAndWait (m : Mode) (s : State) :
    s.KeepsEvent (s.setModeAndWait m).1 := by
  have h : s.KeepsEvent (s.setMode m).1 := s.keepsEvent_writeReg _ _
  cases hm : (s.setMode m).2 with
  | some e => rw [State.setModeAndWait_of_some hm]; exact h
  | none => rw [State.setModeAndWait_of_none hm]; exact h.trans (State.keepsEvent_isReady _)

theorem State.keepsEvent_completionWait (dwell : Nat) (bit : Fin 8) (timeout : Nat) (name : WaitName)
    {s : State} (h : s.cfg.waitKind ≠ .event) :
    s.KeepsEvent (s.completionWait dwell bit timeout name).1 := by
  unfold State.completionWait
  split
  · exact (s.bus_dwell dwell).keepsEvent
  · exact (s.bus_pollFlag ..).keepsEvent
  · next he => exact absurd he h

theorem State.keepsEvent_fifoWrite (d : List Byte) (s : State) : s.KeepsEvent (s.fifoWrite d).1 :=
  fun h => (State.bus_burstWrite d _).evt h

theorem State.keepsEvent_fifoRead (n : Nat) (s : State) : s.KeepsEvent (s.fifoRead n).1 :=
  (s.bus_burstRead n).evt

theorem State.keepsEvent_afterSend3 (s : State) : s.KeepsEvent s.afterSend3.1 :=
  (s.bus_setSeq .send3).keepsEvent.trans (State.keepsEvent_setModeAndWait _ _)

theorem State.keepsEvent_afterSend4 {s : State} (h : s.cfg.waitKind ≠ .event) :
    s.KeepsEvent s.afterSend4.1 := by
  unfold State.afterSend4
  split
  · exact s.keepsEvent_afterSend3.trans
      (State.keepsEvent_completionWait _ _ _ _ (s := s.afterSend3.1.setSeq .send4)
        (by rw [State.setSeq_cfg, s.quiet_afterSend3.cfg]; exact h))
  · exact s.keepsEvent_afterSend3

theorem State.keepsEvent_transmitAndReturn {s : State} (h : s.cfg.waitKind ≠ .event) :
    s.KeepsEvent s.transmitAndReturn.1 :=
  (State.keepsEvent_afterSend4 h).trans
    (State.keepsEvent_setModeAndWait .standby (s.afterSend4.1.setSeq .send5))

theorem State.keepsEvent_send (d : List Byte) {s : State} (h : s.cfg.waitKind ≠ .event) :
    s.KeepsEvent (s.send d).1 := by
  have h1 : s.KeepsEvent s.afterSend1.1 :=
    (s.bus_setSeq .send1).keepsEvent.trans (State.keepsEvent_setModeAndWait _ _)
  have h2 : s.KeepsEvent (s.afterSend2 d).1 :=
    h1.trans (State.keepsEvent_fifoWrite d (s.afterSend1.1.setSeq .send2))
  rcases s.send_cases d with ⟨e, -, he⟩ | ⟨e, -, -, he⟩ | ⟨-, -, he⟩ <;> rw [he]
  · exact h1
  · exact h2
  · exact h2.trans
      (State.keepsEvent_transmitAndReturn (by rw [(s.work_afterSend2 d).cfg]; exact h))

theorem State.keepsEvent_receive {s : State} (h : s.cfg.waitKind ≠ .event) :
    s.KeepsEvent s.receive.1 := by
  have h1 : s.KeepsEvent s.afterRecv1.1 :=
    (s.bus_setSeq .recv1).keepsEvent.trans (State.keepsEvent_setModeAndWait _ _)
  have h2 : s.KeepsEvent s.afterRecv2.1 :=
    h1.trans (State.keepsEvent_completionWait _ _ _ _ (s := s.afterRecv1.1.setSeq .recv2)
      (by rw [State.setSeq_cfg, s.quiet_afterRecv1.cfg]; exact h))
  have h3 : s.KeepsEvent s.afterRecv3.1 :=
    h2.trans (State.keepsEvent_fifoRead _ (s.afterRecv2.1.setSeq .recv3))
  rcases s.receive_cases with ⟨e, -, he⟩ | ⟨e, -, -, he⟩ | ⟨e, -, -, -, he⟩ | ⟨l, -, -, -, he⟩ <;>
    rw [he]
  · exact h1
  · exact h2
  · exact h3
  · exact h3

theorem State.keepsEvent_setFrequency (hz : Hz) (s : State) : s.KeepsEvent (s.setFrequency hz) := by
  have hw : ∀ (a : Addr) (v : Byte) (u : State), u.KeepsEvent (u.writeDropping a v) :=
    State.keepsEvent_writeReg
  exact ((s.bus_markFrequency.keepsEvent.trans (hw _ _ _)).trans (hw _ _ _)).trans (hw _ _ _)

/-- A reset leaves a full slot full (42_mode_controller R135). -/
theorem State.keepsEvent_resetPulse (s : State) : s.KeepsEvent s.resetPulse := by
  have hlow : s.KeepsEvent s.resetLowEnd :=
    ((State.bus_setResetLevel false { s.setSeq .resetLow with rst := false }).trans
      (State.bus_sleep _ _)).evt
  have hhold : s.resetLowEnd.KeepsEvent s.resetHoldEnd :=
    (((State.bus_setResetLevel true { s.resetLowEnd with rst := true }).trans
      (State.bus_setSeq .resetHold _)).trans (State.bus_sleep _ _)).evt
  exact hlow.trans hhold

theorem State.Worked.keepsEvent {i : Instr} {s : State} {p : State × Result} (h : s.Worked i p)
    (hc : i.consumesEvent s.cfg = false) : s.KeepsEvent p.1 := by
  cases h with
  | @read _ a => exact (s.bus_readReg a).keepsEvent
  | @write _ a v => exact s.keepsEvent_writeReg a v
  | burstWrite d => exact (s.bus_burstWrite d).keepsEvent
  | burstRead n => exact (s.bus_burstRead n).keepsEvent
  | addressFrame w a => exact s.keepsEvent_addressFrame w a
  | detectDevice => exact (s.bus_readReg _).keepsEvent
  | setStandbyMode => exact s.keepsEvent_writeReg _ _
  | isReady => exact s.keepsEvent_isReady
  | reset => exact s.keepsEvent_resetPulse
  | setFrequency hz => exact s.keepsEvent_setFrequency hz
  | setModeAndWait m => exact s.keepsEvent_setModeAndWait m
  | fifoWrite d => exact s.keepsEvent_fifoWrite d
  | fifoRead n => exact s.keepsEvent_fifoRead n
  | waitTxDone | waitPayloadReady =>
    exact State.keepsEvent_completionWait _ _ _ _ (of_decide_eq_false hc)
  | pollFlag => exact (s.bus_pollFlag ..).keepsEvent
  | awaitEvent => cases hc
  | send d => exact State.keepsEvent_send d (of_decide_eq_false hc)
  | receive => exact State.keepsEvent_receive (of_decide_eq_false hc)

/-- Settles O17: of all work only a wait for an event takes one out of the slot. -/
theorem eventSlotKept : Obligations.EventSlotKept := by
  intro i s t h hc
  rcases (exec_ran h).concluded_or_bus with ⟨p, hw, rfl⟩ | ⟨u, r, hb, -, rfl⟩
  · exact hw.keepsEvent hc
  · exact hb.evt

/-! ### The instructions made of one frame, where they are taken -/

theorem hostOperation_of_idle {s : State} (body : State → State × Result) (h : s.seq = .idle) :
    hostOperation body s = .next ((body s).1.conclude s.seq (body s).2) := by
  rw [hostOperation, if_pos h, h]

theorem framedOperation_of_closed {s : State} (body : State → State × Result) (h : s.cs = false) :
    framedOperation body s = .next ((body s).1.conclude s.seq (body s).2) := by
  rw [framedOperation, h]
  rfl

/-- An accepted register read runs: `RD`, its three named rows, and `ReadRegister`. -/
theorem exec_of_readsRegister {i : Instr} {s : State} {a : Addr}
    (ha : i.readsRegister s.cfg = some a) (hs : s.accepts i) :
    exec i s = .next ((s.readReg a).1.conclude s.seq (resultWith .byte (s.readReg a).2)) := by
  cases i with
  | rd | rdIrqFlags1 | rdIrqFlags2 | rdVersion =>
    obtain rfl := Option.some.inj ha
    exact framedOperation_of_closed _ (hs.2 rfl)
  | readRegister addr =>
    cases hr : s.cfg.addrInRange addr with
    | true =>
      obtain rfl := Option.some.inj ((readsRegister_readRegister hr).symm.trans ha)
      exact (if_pos hr).trans (hostOperation_of_idle _ (hs.1 rfl))
    | false =>
      have hn : (Instr.readRegister addr).readsRegister s.cfg = none := if_neg (by simp [hr])
      cases hn.symm.trans ha
  | _ => cases ha

/-- An accepted register write runs: `WR`, its eight named rows, `SetMode` and `WriteRegister`. -/
theorem exec_of_writesRegister {i : Instr} {s : State} {a : Addr} {v : Byte}
    (ha : i.writesRegister s.cfg = some (a, v)) (hs : s.accepts i) :
    exec i s = .next ((s.writeReg a v).1.conclude s.seq (resultOf (s.writeReg a v).2)) := by
  cases i with
  | wr | wrOpmodeStandby | wrOpmodeTx | wrOpmodeRx | wrOpmodeSleep | wrOpmodeFs | wrFrfMsb
  | wrFrfMid | wrFrfLsb | setMode =>
    obtain ⟨rfl, rfl⟩ := Prod.mk.inj (Option.some.inj ha)
    exact framedOperation_of_closed _ (hs.2 rfl)
  | writeRegister addr w =>
    cases hr : s.cfg.addrInRange addr with
    | true =>
      obtain ⟨rfl, rfl⟩ :=
        Prod.mk.inj (Option.some.inj ((writesRegister_writeRegister hr w).symm.trans ha))
      exact (if_pos hr).trans (hostOperation_of_idle _ (hs.1 rfl))
    | false =>
      have hn : (Instr.writeRegister addr w).writesRegister s.cfg = none := if_neg (by simp [hr])
      cases hn.symm.trans ha
  | _ => cases ha

/-! ### Calls in which nothing but the reference target's laws decides -/

/-- The reference target is under its laws, and the next `n` calls neither fail nor come after a step of
the other agents. -/
structure State.Calm (n : Nat) (s : State) : Prop where
  reference : s.cfg.target = .reference
  hazard : s.hazard = false
  noFailure : s.noFailure n
  undisturbed : s.undisturbed n

theorem State.Calm.later {n k : Nat} {s t : State} (h : s.Calm (k + n)) (he : s.Extends t)
    (ht : t.tick = s.tick + k) (hz : t.hazard = false) : t.Calm n where
  reference := by rw [he.cfg]; exact h.reference
  hazard := hz
  noFailure := State.noFailure_later he ht h.noFailure
  undisturbed := fun j hj => by
    rw [State.momentAt_later he ht]
    exact h.undisturbed _ (by omega)

theorem State.Calm.lawless {n : Nat} {s : State} (h : s.Calm n) : s.lawless = false := by
  simp [State.lawless, h.reference, h.hazard]

theorem State.Calm.callErrorAt_zero {n : Nat} {s : State} (h : s.Calm (n + 1)) :
    s.callErrorAt 0 = none := h.noFailure 0 (Nat.succ_pos n)

theorem State.elapse_target_of_lawful {s : State} (h : s.lawless = false) :
    s.elapse.target = s.worldAfter.target := by simp [State.elapse, h]

/-- A calm moment leaves the target as it is. -/
theorem State.Calm.elapse_target {n : Nat} {s : State} (h : s.Calm (n + 1)) :
    s.elapse.target = s.target := by
  rw [State.elapse_target_of_lawful h.lawless,
    State.worldAfter_target_of_no_acts (h.undisturbed 0 (Nat.succ_pos n))]

theorem State.Calm.setSeq {n : Nat} {s : State} (h : s.Calm n) (q : SeqState) :
    (s.setSeq q).Calm n := ⟨h.reference, h.hazard, h.noFailure, h.undisturbed⟩

/-- `CS+` begins a frame and changes nothing else of the target's. -/
theorem State.Calm.openFrame {n : Nat} {s : State} (h : s.Calm (n + 1)) :
    s.openFrame.1.Calm n ∧ s.openFrame.2 = none ∧ s.openFrame.1.frame = some {}
      ∧ s.openFrame.1.target = { s.target with drained := [] } := by
  have hc := h.callErrorAt_zero
  refine ⟨State.Calm.later (by rwa [Nat.add_comm]) s.bus_openFrame.toExtends s.openFrame_tick
    h.hazard, by rw [State.openFrame_error, hc]; rfl, by rw [State.openFrame_frame, hc]; rfl, ?_⟩
  exact congrArg (fun t : Target => { t with drained := [] }) h.elapse_target

/-- What the target answers to the next exchange, in the state in which `Exchange` calls it. -/
def State.nextAnswer (b : Byte) (s : State) : Answer :=
  (s.setSeq (nextExchange s.seq)).elapse.answer (s.setSeq (nextExchange s.seq)).moment
    (s.setSeq (nextExchange s.seq)).free b

/-- An exchange that does not fail does what the target's answer says. -/
theorem State.exchange_answered {s : State} (h : s.callErrorAt 0 = none) (b : Byte) :
    (s.exchange b).2 = .ok (s.nextAnswer b).byte
      ∧ (s.exchange b).1.target = (s.nextAnswer b).target
      ∧ (s.exchange b).1.frame = (s.nextAnswer b).frame
      ∧ (s.exchange b).1.hazard = (s.hazard || (s.nextAnswer b).hazard) := by
  have h' : (s.setSeq (nextExchange s.seq)).callErrorAt 0 = none := h
  unfold State.exchange
  rw [State.transfer_of_none h']
  exact ⟨rfl, rfl, rfl, rfl⟩

/-- The exchange of the address byte: `0x00` is received (10_state R38). -/
theorem State.Calm.exchange_address {n : Nat} {s : State} (h : s.Calm (n + 1)) {f : BusFrame}
    (hf : s.frame = some f) (ha : f.addr = none) (w : Bool) (a : Addr) :
    (s.exchange (addressByte s.cfg w a)).1.Calm n
      ∧ (s.exchange (addressByte s.cfg w a)).2 = .ok 0
      ∧ (s.exchange (addressByte s.cfg w a)).1.frame
        = some { f with addr := some (w, a), attempted := f.attempted + 1 }
      ∧ (s.exchange (addressByte s.cfg w a)).1.target = s.target := by
  have hans : s.nextAnswer (addressByte s.cfg w a)
      = ⟨s.target, some { f with addr := some (w, a), attempted := f.attempted + 1 }, false, 0⟩ := by
    have hq := h.setSeq (nextExchange s.seq)
    have hl : (s.setSeq (nextExchange s.seq)).lawless = false := hq.lawless
    have hfe : (s.setSeq (nextExchange s.seq)).elapse.frame = some f := hf
    unfold State.nextAnswer
    rw [State.answer_address hfe ha]
    simp [hq.elapse_target, hl]
  obtain ⟨hr, ht, hfr, hz⟩ := State.exchange_answered h.callErrorAt_zero (addressByte s.cfg w a)
  rw [hans] at hr ht hfr hz
  exact ⟨State.Calm.later (by rwa [Nat.add_comm]) (s.bus_exchange _).toExtends
    (State.exchange_tick _ s) (by rw [hz, h.hazard]; rfl), hr, hfr, ht⟩

/-- A frame after one more data exchange. -/
def BusFrame.counted (f : BusFrame) : BusFrame :=
  { f with data := f.data + 1, attempted := f.attempted + 1 }

/-- A data exchange is answered in the frame's direction, at its address, by the target as it is. -/
theorem State.Calm.nextAnswer_eq {n : Nat} {s : State} (h : s.Calm (n + 1)) {f : BusFrame}
    (hf : s.frame = some f) {w : Bool} {a : Addr} (ha : f.addr = some (w, a)) (b : Byte) :
    ∃ (m : Moment) (free : Target) (u : State), s.nextAnswer b = u.dataAnswer m free f w a b
      ∧ u.cfg = s.cfg ∧ u.lawless = false ∧ u.target = s.target := by
  have hq := h.setSeq (nextExchange s.seq)
  have hfe : (s.setSeq (nextExchange s.seq)).elapse.frame = some f := hf
  exact ⟨_, _, _, State.answer_data hfe ha _ _ b, rfl, hq.lawless, hq.elapse_target⟩

/-- A data exchange of a read frame: a row of the table of 10_state R38. -/
theorem State.Calm.nextAnswer_read {n : Nat} {s : State} (h : s.Calm (n + 1)) {f : BusFrame}
    (hf : s.frame = some f) {a : Addr} (ha : f.addr = some (false, a)) (b : Byte) :
    ∃ d, s.nextAnswer b = ⟨(Target.readData s.cfg d a s.target).1, some f.counted, false,
      (Target.readData s.cfg d a s.target).2⟩ := by
  obtain ⟨m, free, u, hu, hcfg, hl, ht⟩ := h.nextAnswer_eq hf ha b
  refine ⟨m.byte, hu.trans ?_⟩
  unfold State.dataAnswer
  rw [hl, hcfg, ht, h.reference]
  rfl

/-- A data exchange of a register write: the byte waits for the frame's end (20_memory R61). -/
theorem State.Calm.nextAnswer_register {n : Nat} {s : State} (h : s.Calm (n + 1)) {f : BusFrame}
    (hf : s.frame = some f) {a : Addr} (ha : f.addr = some (true, a)) (hne : a ≠ s.cfg.regFifo)
    (b : Byte) :
    ∃ d, s.nextAnswer b = ⟨s.target, some { f.counted with pending := some b }, false, d⟩ := by
  obtain ⟨m, free, u, hu, hcfg, hl, ht⟩ := h.nextAnswer_eq hf ha b
  refine ⟨m.byte, hu.trans ?_⟩
  unfold State.dataAnswer
  rw [hl, hcfg, ht, h.reference]
  exact if_neg hne

/-- A data exchange of a write to the FIFO: the byte enters it (10_state R39). -/
theorem State.Calm.nextAnswer_fifo {n : Nat} {s : State} (h : s.Calm (n + 1)) {f : BusFrame}
    (hf : s.frame = some f) {a : Addr} (ha : f.addr = some (true, a)) (hfifo : a = s.cfg.regFifo)
    (b : Byte) :
    ∃ free d, s.nextAnswer b = ⟨(Target.pushFifo s.cfg free b s.target).1, some f.counted,
      (Target.pushFifo s.cfg free b s.target).2, d⟩ := by
  obtain ⟨m, free, u, hu, hcfg, hl, ht⟩ := h.nextAnswer_eq hf ha b
  refine ⟨free, m.byte, hu.trans ?_⟩
  unfold State.dataAnswer
  rw [hl, hcfg, ht, h.reference]
  exact if_pos hfifo

/-- What the end of a frame at `a` in which nothing failed does in a reference target: a byte that waits
is delivered by the table of 10_state R39 (20_memory R61). -/
def Target.frameEnd (c : Config) (free : Target) (a : Addr) (pending : Option Byte) (t : Target) :
    Target × Bool :=
  pending.elim (t, false) (fun v => Target.writeRegister c free a v t)

theorem State.Calm.afterFrame {n : Nat} {s : State} (h : s.Calm (n + 1)) {f : BusFrame}
    (hf : s.frame = some f) {w : Bool} {a : Addr} (ha : f.addr = some (w, a)) (hg : f.failed = false)
    (m : Moment) (free : Target) :
    s.elapse.afterFrame m free none = Target.frameEnd s.cfg free a f.pending s.target := by
  have hf' : s.elapse.frame = some f := hf
  obtain ⟨fa, fd, ft, ff, fp⟩ := f
  obtain rfl : fa = some (w, a) := ha
  obtain rfl : ff = false := hg
  unfold State.afterFrame
  rw [hf', State.elapse_lawless, h.lawless, h.elapse_target]
  cases fp with
  | none => rfl
  | some v => exact if_pos h.reference

theorem State.Calm.closeFrame {s : State} (h : s.Calm 1) {f : BusFrame} (hf : s.frame = some f)
    {w : Bool} {a : Addr} (ha : f.addr = some (w, a)) (hg : f.failed = false) :
    ∃ free, (s.closeFrame none).1.target = (Target.frameEnd s.cfg free a f.pending s.target).1
      ∧ (s.closeFrame none).1.hazard = (Target.frameEnd s.cfg free a f.pending s.target).2 := by
  have hcl : s.closing.Calm 1 := ⟨h.reference, h.hazard, h.noFailure, h.undisturbed⟩
  have hc : s.closing.callError = none := h.callErrorAt_zero
  have hend := hcl.afterFrame (f := f) hf ha hg s.closing.moment s.closing.free
  refine ⟨s.closing.free, ?_, ?_⟩
  · rw [State.closeFrame_target, hc, hend]; rfl
  · show (s.hazard || (s.closing.elapse.afterFrame s.closing.moment s.closing.free
      s.closing.callError).2) = _
    rw [hc, hend, h.hazard, Bool.false_or]
    rfl

/-! ### Single frames on the reference target -/

/-- The state in a frame to `a` after its address byte. -/
def State.addressed (w : Bool) (a : Addr) (s : State) : State :=
  (s.openFrame.1.exchange (addressByte s.cfg w a)).1

theorem State.bus_addressed (w : Bool) (a : Addr) (s : State) : s.Bus (s.addressed w a) :=
  s.bus_openFrame.trans (State.bus_exchange _ _)

theorem State.Calm.addressed {n : Nat} {s : State} (h : s.Calm (n + 2)) (w : Bool) (a : Addr) :
    (s.addressed w a).Calm n
      ∧ (s.openFrame.1.exchange (addressByte s.cfg w a)).2 = .ok 0
      ∧ (s.addressed w a).frame = some { addr := some (w, a), attempted := 1 }
      ∧ (s.addressed w a).target = { s.target with drained := [] } := by
  obtain ⟨h1, -, hf, ht⟩ := h.openFrame
  obtain ⟨h2, hr, hf', ht'⟩ := h1.exchange_address hf rfl w a
  exact ⟨h2, hr, hf', ht'.trans ht⟩

/-- A frame of two bytes in which no call fails: `CS+`, the two exchanges, `CS-`. -/
theorem State.Calm.runFrame_two {s : State} (h : s.Calm 4) (w : Bool) (a : Addr) (b : Byte) :
    s.runFrame [addressByte s.cfg w a, b]
      = ((((s.addressed w a).exchange b).1.closeFrame none).1,
        [0, ((s.addressed w a).nextAnswer b).byte], none) := by
  obtain ⟨-, ho, -⟩ := h.openFrame
  obtain ⟨h2, hr, -⟩ := h.addressed w a
  obtain ⟨hr', -⟩ := State.exchange_answered h2.callErrorAt_zero b
  have hc : ((s.addressed w a).exchange b).1.callErrorAt 0 = none := by
    rw [State.callErrorAt_later (State.bus_exchange b _).toExtends (State.exchange_tick b _)]
    exact h2.noFailure 1 (by omega)
  unfold State.addressed at *
  simp [State.runFrame, State.exchangeAll, ho, hr, hr', State.closeFrame_error, hc]

/-- The mark at the start of a read that keeps the readiness rule is none (70_reset_and_hazards R246). -/
theorem State.markRead_eq_self {a : Addr} {s : State}
    (h : s.awaitReady = false ∨ a = s.cfg.regIrqFlags1) : s.markRead a = s := by
  have hp : (s.awaitReady && decide (a ≠ s.cfg.regIrqFlags1)) = false := by
    rcases h with h | h <;> simp [h]
  rw [State.markRead, hp, State.markHazard, Bool.or_false]

/-- A register read on the reference target is one row of the table of 10_state R38. -/
theorem State.Calm.readReg {s : State} (h : s.Calm 4) {a : Addr}
    (ha : s.awaitReady = false ∨ a = s.cfg.regIrqFlags1) :
    ∃ d, (s.readReg a).2 = .ok (Target.readData s.cfg d a { s.target with drained := [] }).2
      ∧ s.received (s.readReg a).1
        = [0, (Target.readData s.cfg d a { s.target with drained := [] }).2]
      ∧ (s.readReg a).1.target = (Target.readData s.cfg d a { s.target with drained := [] }).1 := by
  obtain ⟨h2, -, hf, ht⟩ := h.addressed false a
  obtain ⟨d, hans⟩ := h2.nextAnswer_read hf rfl s.cfg.dummyByte
  rw [(s.bus_addressed false a).cfg, ht] at hans
  obtain ⟨-, ht3, hf3, hz3⟩ := State.exchange_answered h2.callErrorAt_zero s.cfg.dummyByte
  rw [hans] at ht3 hf3 hz3
  have h3 : ((s.addressed false a).exchange s.cfg.dummyByte).1.Calm 1 :=
    State.Calm.later (k := 1) h2 (State.bus_exchange _ _).toExtends (State.exchange_tick _ _)
      (by rw [hz3, h2.hazard]; rfl)
  obtain ⟨free, ht4, -⟩ := h3.closeFrame hf3 rfl rfl
  have hrun := h.runFrame_two false a s.cfg.dummyByte
  rw [hans] at hrun
  have hrec := State.runFrame_received (readFrameBytes s.cfg a 1) s
  unfold State.readReg State.readFrame
  rw [State.markRead_eq_self ha]
  have hrun' : s.runFrame (readFrameBytes s.cfg a 1) = _ := hrun
  rw [hrun'] at hrec ⊢
  exact ⟨d, rfl, hrec, ht4.trans ht3⟩

/-! ### What a row of the table of 10_state R38 says -/

theorem Target.SameStatus.refl (t : Target) : t.SameStatus t := ⟨rfl, rfl, rfl, rfl, rfl, rfl⟩

theorem Target.readData_sameStatus (c : Config) (d : Byte) (a : Addr) (t : Target) :
    t.SameStatus (Target.readData c d a t).1 := by
  unfold Target.readData
  split
  · split
    · exact ⟨rfl, rfl, rfl, rfl, rfl, rfl⟩
    · exact .refl t
  · split_ifs <;> exact .refl t

theorem Target.readData_fifo (c : Config) (d : Byte) (a : Addr) (t : Target) :
    (Target.readData c d a t).1.fifo = if a = c.regFifo then t.fifo.drop 1 else t.fifo := by
  unfold Target.readData
  split
  · split
    · next hf => rw [hf]; rfl
    · next hf => rw [hf]; rfl
  · split_ifs <;> rfl

theorem flagByte_getLsbD (i : Fin 8) (f : Bool) (j : Fin 8) :
    (flagByte i f).getLsbD j = (decide (j = i) && f) := by
  cases f with
  | false => simp [flagByte]
  | true => simp [flagByte, Fin.ext_iff, eq_comm]

/-- The bits of a status register: those of the flags it holds, and zeros (10_state R38). -/
theorem statusByte_getLsbD (c : Config) (a : Addr) (t : Target) (j : Fin 8) :
    (statusByte c a t).getLsbD j
      = (decide (a = c.regIrqFlags1) && decide (j = c.modeReadyBit) && t.ready
        || decide (a = c.regIrqFlags2)
            && (decide (j = c.packetSentBit) && t.packetSent
              || decide (j = c.payloadReadyBit) && t.payloadReady)) := by
  unfold statusByte
  rw [BitVec.getLsbD_or]
  congr 1
  · by_cases h : a = c.regIrqFlags1
    · rw [if_pos h, irqFlags1, flagByte_getLsbD]
      simp [h]
    · simp [h]
  · by_cases h : a = c.regIrqFlags2
    · rw [if_pos h, irqFlags2, BitVec.getLsbD_or, flagByte_getLsbD, flagByte_getLsbD]
      simp [h]
    · simp [h]

/-- What a read of register `a` may answer on the reference target (10_state R38). -/
def Target.ReadsAs (c : Config) (t : Target) (a : Addr) (b : Byte) : Prop :=
  if a = c.regFifo then ∀ head rest, t.fifo = head :: rest → b = head
  else if a = c.regVersion then b = t.version
  else if a = c.regIrqFlags1 ∨ a = c.regIrqFlags2 then
    ∀ j : Fin 8, b.getLsbD j
      = (decide (a = c.regIrqFlags1) && decide (j = c.modeReadyBit) && t.ready
        || decide (a = c.regIrqFlags2)
            && (decide (j = c.packetSentBit) && t.packetSent
              || decide (j = c.payloadReadyBit) && t.payloadReady))
  else b = t.reg a

theorem Target.readData_readsAs (c : Config) (d : Byte) (a : Addr) (t : Target) :
    t.ReadsAs c a (Target.readData c d a t).2 := by
  unfold Target.ReadsAs Target.readData
  split_ifs with hfifo hversion hstatus
  · intro head rest hf
    rw [hf]
  · rfl
  · exact statusByte_getLsbD c a t
  · rfl

/-- Settles O28: the frame answers one row of the table of 10_state R38 on the target as it was. -/
theorem referenceReads : Obligations.ReferenceReads := by
  intro i s a hi hacc href hz ha hn hu
  have h : s.Calm 4 := ⟨href, hz, hn, hu⟩
  obtain ⟨d, hres, hrec, ht⟩ := h.readReg ha
  have hstatus := Target.readData_sameStatus s.cfg d a { s.target with drained := [] }
  refine ⟨_, (Target.readData s.cfg d a { s.target with drained := [] }).2,
    exec_of_readsRegister hi hacc, ?_, hrec, ?_, ?_, ?_, ?_, ?_⟩
  · rw [State.conclude_result, hres]; rfl
  · rw [State.conclude_hazard, State.readReg_hazard, hz]
    rcases ha with ha | ha <;> simp [ha]
  · rw [State.conclude_target, ht, Target.readData_x]
  · rw [State.conclude_target, ht]
    exact ⟨hstatus.chipMode, hstatus.ready, hstatus.packetSent, hstatus.payloadReady, hstatus.irq,
      hstatus.version⟩
  · rw [State.conclude_target, ht, Target.readData_fifo]
  · exact Target.readData_readsAs s.cfg d a { s.target with drained := [] }

/-! ### Single write frames on the reference target -/

/-- The state in which the frame of a register write starts. -/
def State.marked (a : Addr) (v : Byte) (s : State) : State := (s.markWrite a).beginModeWrite a v

theorem State.marked_hazard (a : Addr) (v : Byte) (s : State) :
    (s.marked a v).hazard
      = (s.hazard || (s.awaitReady && decide (a ≠ s.cfg.regOpmode))
          || (decide (a = s.cfg.regOpmode) && (modeOf s.cfg v).isNone)) := by
  by_cases h : a = s.cfg.regOpmode
  · subst h
    have hm := State.beginModeWrite_opmode (s.markWrite s.cfg.regOpmode) v
    rw [State.marked]
    refine (congrArg State.hazard hm).trans ?_
    simp [State.markWrite]
  · rw [State.marked, State.beginModeWrite_of_ne (s := s.markWrite a) h]
    simp [State.markWrite, h]

@[simp] theorem State.marked_tick (a : Addr) (v : Byte) (s : State) :
    (s.marked a v).tick = s.tick := by
  unfold State.marked State.beginModeWrite; split <;> rfl

@[simp] theorem State.marked_target (a : Addr) (v : Byte) (s : State) :
    (s.marked a v).target = s.target := State.beginModeWrite_target a v _

@[simp] theorem State.marked_cfg (a : Addr) (v : Byte) (s : State) : (s.marked a v).cfg = s.cfg :=
  State.beginModeWrite_cfg a v _

theorem State.extends_marked (a : Addr) (v : Byte) (s : State) : s.Extends (s.marked a v) :=
  (s.bus_markWrite a).toExtends.trans (State.quiet_beginModeWrite a v _).toExtends

/-- A write that breaks no contract starts its frame unmarked. -/
theorem State.Calm.marked {n : Nat} {s : State} (h : s.Calm n) {a : Addr} {v : Byte}
    (ha : s.awaitReady = false ∨ a = s.cfg.regOpmode)
    (hv : a = s.cfg.regOpmode → (modeOf s.cfg v).isSome = true) : (s.marked a v).Calm n := by
  refine State.Calm.later (k := 0) (by rwa [Nat.zero_add]) (s.extends_marked a v)
    (s.marked_tick a v) ?_
  rw [State.marked_hazard, h.hazard]
  by_cases ho : a = s.cfg.regOpmode
  · simp [ho, Option.isNone_eq_false_iff.mpr (hv ho)]
  · simp [ho, ha.resolve_right ho]

/-- What the target is, and whether `hazard` is set, when a register write is over: as its frame left
it. -/
theorem State.writeReg_frame (a : Addr) (v : Byte) (s : State) :
    (s.writeReg a v).1.target
        = ((s.marked a v).runFrame [addressByte s.cfg true a, v]).1.target
      ∧ (s.writeReg a v).1.hazard
        = ((s.marked a v).runFrame [addressByte s.cfg true a, v]).1.hazard := by
  rw [State.writeReg_eq, State.writeRegFrame_eq]
  unfold State.endModeWrite
  split <;> exact ⟨rfl, rfl⟩

/-- A byte that is no mode value is marked at the start of its write to the mode register
(70_reset_and_hazards R249). -/
theorem State.writeReg_hazard_of_notMode {s : State} {v : Byte} (hv : (modeOf s.cfg v).isSome = false) :
    (s.writeReg s.cfg.regOpmode v).1.hazard = true := by
  rw [(s.writeReg_frame s.cfg.regOpmode v).2]
  refine (State.bus_runFrame _ _).hazard ?_
  rw [State.marked_hazard, Option.isSome_eq_false_iff.mp hv]
  simp

/-- A write to a register of the reference target is one row of the table of 10_state R39, applied when
the frame ends. -/
theorem State.Calm.runFrame_register {s : State} (h : s.Calm 4) {a : Addr}
    (ha : a ≠ s.cfg.regFifo) (v : Byte) :
    ∃ free, (s.runFrame [addressByte s.cfg true a, v]).1.target
        = (Target.writeRegister s.cfg free a v { s.target with drained := [] }).1
      ∧ (s.runFrame [addressByte s.cfg true a, v]).1.hazard
        = (Target.writeRegister s.cfg free a v { s.target with drained := [] }).2 := by
  obtain ⟨h2, -, hf, ht⟩ := h.addressed true a
  have hcfg := (s.bus_addressed true a).cfg
  obtain ⟨d, hans⟩ := h2.nextAnswer_register hf rfl (by rwa [hcfg]) v
  obtain ⟨-, ht3, hf3, hz3⟩ := State.exchange_answered h2.callErrorAt_zero v
  rw [hans] at ht3 hf3 hz3
  have h3 : ((s.addressed true a).exchange v).1.Calm 1 :=
    State.Calm.later (k := 1) h2 (State.bus_exchange _ _).toExtends (State.exchange_tick _ _)
      (by rw [hz3, h2.hazard]; rfl)
  have hcfg3 : ((s.addressed true a).exchange v).1.cfg = s.cfg :=
    ((s.bus_addressed true a).trans (State.bus_exchange _ _)).cfg
  obtain ⟨free, ht4, hz4⟩ := h3.closeFrame hf3 rfl rfl
  rw [ht3, ht, hcfg3] at ht4 hz4
  rw [h.runFrame_two]
  exact ⟨free, ht4, hz4⟩

/-- A byte written to the FIFO of the reference target enters it where there is room, and is marked
where there is none (10_state R39, 70_reset_and_hazards R250). -/
theorem State.Calm.runFrame_fifo {s : State} (h : s.Calm 4) (v : Byte) :
    (s.target.fifo.length < s.cfg.fifoWindow →
        (s.runFrame [addressByte s.cfg true s.cfg.regFifo, v]).1.target
            = { s.target with fifo := s.target.fifo ++ [v], drained := [] }
          ∧ (s.runFrame [addressByte s.cfg true s.cfg.regFifo, v]).1.hazard = false)
      ∧ (s.cfg.fifoWindow ≤ s.target.fifo.length →
        (s.runFrame [addressByte s.cfg true s.cfg.regFifo, v]).1.hazard = true) := by
  obtain ⟨h2, -, hf, ht⟩ := h.addressed true s.cfg.regFifo
  have hcfg := (s.bus_addressed true s.cfg.regFifo).cfg
  obtain ⟨free, d, hans⟩ := h2.nextAnswer_fifo hf rfl (by rw [hcfg]) v
  rw [hcfg, ht] at hans
  obtain ⟨-, ht3, hf3, hz3⟩ := State.exchange_answered h2.callErrorAt_zero v
  rw [hans] at ht3 hf3 hz3
  rw [h.runFrame_two]
  unfold Target.pushFifo at ht3 hz3
  refine ⟨fun hroom => ?_, fun hfull => ?_⟩
  · rw [if_pos hroom] at ht3 hz3
    have h3 : ((s.addressed true s.cfg.regFifo).exchange v).1.Calm 1 :=
      State.Calm.later (k := 1) h2 (State.bus_exchange _ _).toExtends (State.exchange_tick _ _)
        (by rw [hz3, h2.hazard]; rfl)
    obtain ⟨free', ht4, hz4⟩ := h3.closeFrame hf3 rfl rfl
    exact ⟨ht4.trans ht3, hz4⟩
  · rw [if_neg (Nat.not_lt.mpr hfull)] at hz3
    exact (State.bus_closeFrame none _).hazard (by rw [hz3, Bool.or_true])

/-- A write to a register that keeps the contracts (40_register_access R105). -/
theorem State.Calm.writeReg_register {s : State} (h : s.Calm 4) {a : Addr} {v : Byte}
    (hfifo : a ≠ s.cfg.regFifo) (ha : s.awaitReady = false ∨ a = s.cfg.regOpmode)
    (hv : a = s.cfg.regOpmode → (modeOf s.cfg v).isSome = true) :
    ∃ free, (s.writeReg a v).1.target
        = (Target.writeRegister s.cfg free a v { s.target with drained := [] }).1
      ∧ (s.writeReg a v).1.hazard
        = (Target.writeRegister s.cfg free a v { s.target with drained := [] }).2 := by
  obtain ⟨htgt, hhaz⟩ := s.writeReg_frame a v
  have hrun := (h.marked ha hv).runFrame_register (by rwa [State.marked_cfg]) v
  rw [State.marked_cfg, State.marked_target] at hrun
  rwa [htgt, hhaz]

/-- A write to the FIFO that keeps the readiness rule. -/
theorem State.Calm.writeReg_fifo {s : State} (h : s.Calm 4) (hfo : s.cfg.regFifo ≠ s.cfg.regOpmode)
    (ha : s.awaitReady = false) (v : Byte) :
    (s.target.fifo.length < s.cfg.fifoWindow →
        (s.writeReg s.cfg.regFifo v).1.target
            = { s.target with fifo := s.target.fifo ++ [v], drained := [] }
          ∧ (s.writeReg s.cfg.regFifo v).1.hazard = false)
      ∧ (s.cfg.fifoWindow ≤ s.target.fifo.length →
        (s.writeReg s.cfg.regFifo v).1.hazard = true) := by
  obtain ⟨htgt, hhaz⟩ := s.writeReg_frame s.cfg.regFifo v
  have hrun := (h.marked (v := v) (.inl ha) (fun ho => absurd ho hfo)).runFrame_fifo v
  simp only [State.marked_cfg, State.marked_target] at hrun
  rwa [htgt, hhaz]

/-! ### What a row of the table of 10_state R39 says -/

theorem Target.writeRegister_readOnly {c : Config} {a : Addr} (ho : a ≠ c.regOpmode)
    (ha : a = c.regVersion ∨ a = c.regIrqFlags1 ∨ a = c.regIrqFlags2) (free : Target) (v : Byte)
    (t : Target) : Target.writeRegister c free a v t = (t, false) := by
  rw [Target.writeRegister, if_neg ho, if_pos ha]

theorem Target.writeRegister_storage {c : Config} {a : Addr} (ho : a ≠ c.regOpmode)
    (ha : ¬ (a = c.regVersion ∨ a = c.regIrqFlags1 ∨ a = c.regIrqFlags2)) (free : Target) (v : Byte)
    (t : Target) : Target.writeRegister c free a v t = (t.setReg a v, false) := by
  rw [Target.writeRegister, if_neg ho, if_neg ha]

theorem Target.writeRegister_mode {c : Config} {v : Byte} (hv : (modeOf c v).isSome = true)
    (free t : Target) :
    Target.writeRegister c free c.regOpmode v t
      = ({ t.setReg c.regOpmode v with ready := false, packetSent := false, payloadReady := false },
        false) := by
  obtain ⟨m, hm⟩ := Option.isSome_iff_exists.mp hv
  rw [Target.writeRegister, if_pos rfl]
  simp only [hm]

/-- Settles O29: the frame applies one row of the table of 10_state R39 to the target as it was. -/
theorem referenceWrites : Obligations.ReferenceWrites := by
  intro i s a v hi hacc href hfo hsound hz ha hn hu
  have h : s.Calm 4 := ⟨href, hz, hn, hu⟩
  have hwf : Memory.wf { s.target with drained := [] }.x = true := hsound.1
  refine ⟨_, exec_of_writesRegister hi hacc, (s.quiet_writeReg a v).version, ?_⟩
  simp only [State.conclude_target, State.conclude_hazard]
  split_ifs with hfifo hmode hro
  · subst hfifo
    obtain ⟨hroom, hfull⟩ := h.writeReg_fifo hfo (ha.resolve_right hfo) v
    refine ⟨fun hl => ?_, hfull⟩
    obtain ⟨ht, hh⟩ := hroom hl
    rw [ht]
    exact ⟨rfl, rfl, ⟨rfl, rfl, rfl, rfl, rfl, rfl⟩, hh⟩
  · subst hmode
    refine ⟨fun hv => ?_, State.writeReg_hazard_of_notMode⟩
    obtain ⟨free, ht, hh⟩ := h.writeReg_register hfifo ha (fun _ => hv)
    rw [Target.writeRegister_mode hv] at ht hh
    rw [ht]
    exact ⟨Target.reg_setReg_same hwf _ v, rfl, rfl, rfl, rfl, rfl, rfl,
      fun b hb => Target.reg_setReg_other hwf hb v, hh⟩
  · obtain ⟨free, ht, hh⟩ := h.writeReg_register (v := v) hfifo ha (fun ho => absurd ho hmode)
    rw [Target.writeRegister_readOnly hmode hro] at ht hh
    rw [ht]
    exact ⟨rfl, rfl, ⟨rfl, rfl, rfl, rfl, rfl, rfl⟩, hh⟩
  · obtain ⟨free, ht, hh⟩ := h.writeReg_register (v := v) hfifo ha (fun ho => absurd ho hmode)
    rw [Target.writeRegister_storage hmode hro] at ht hh
    rw [ht]
    exact ⟨Target.reg_setReg_same hwf a v, fun b hb => Target.reg_setReg_other hwf hb v, rfl,
      ⟨rfl, rfl, rfl, rfl, rfl, rfl⟩, hh⟩

/-! ### The reference target's own steps -/

theorem modeOf_eq_some {c : Config} {v : Byte} {m : Mode} (h : modeOf c v = some m) :
    v = modeValue c m := by
  unfold modeOf at h
  split_ifs at h with h0 h1 h2 h3 h4 <;> cases h <;> assumption

theorem modeOf_eq_none {c : Config} {v : Byte} (h : ∀ m, v ≠ modeValue c m) : modeOf c v = none := by
  cases hm : modeOf c v with
  | none => rfl
  | some m => exact absurd (modeOf_eq_some hm) (h m)

theorem World.settle_of_mode {c : Config} {w : World} {m : Mode} (hr : w.target.ready = false)
    (hm : w.target.reg c.regOpmode = modeValue c m) :
    w.settle c = { w with target := { w.target with chipMode := m, ready := true } } := by
  unfold World.settle
  rw [hr, hm, modeOf_modeValue]

theorem World.settle_of_guard_false {c : Config} {w : World}
    (h : w.target.ready = true ∨ ∀ m, w.target.reg c.regOpmode ≠ modeValue c m) :
    w.settle c = w := by
  unfold World.settle
  rcases h with h | h
  · rw [h]
  · rw [modeOf_eq_none h]
    cases w.target.ready <;> rfl

theorem World.settle_evt (c : Config) (w : World) : (w.settle c).evt = w.evt := by
  unfold World.settle
  split <;> rfl

theorem World.driveIrq_eq (level : Bool) (w : World) :
    w.driveIrq level
      = ⟨{ w.target with irq := level }, w.evt || (level && !w.target.irq)⟩ := by
  unfold World.driveIrq
  split
  · next h =>
    obtain ⟨rfl, hi⟩ : level = true ∧ w.target.irq = false := by simpa using h
    simp [World.risingEdge_eq, hi]
  · next h => simp [h]

/-- In a moment with the one step `act` of the other agents a lawful target goes where `act` takes it. -/
theorem State.elapse_of_act {s : State} {act : TargetAct} (hl : s.lawless = false)
    (ha : (s.momentAt 0).acts = [act]) :
    s.elapse.target = (World.act s.cfg false ⟨s.target, s.evt⟩ act).target
      ∧ s.elapse.evt = (World.act s.cfg false ⟨s.target, s.evt⟩ act).evt := by
  have hw : s.worldAfter = World.act s.cfg false ⟨s.target, s.evt⟩ act := by
    have ha' : s.moment.acts = [act] := ha
    rw [State.worldAfter, ha', hl]
    rfl
  exact ⟨by rw [State.elapse_target_of_lawful hl, hw], by rw [State.elapse_evt, hw]⟩

/-- Settles O30: with no request the step is one moment, and its one act has the row of 10_state R40. -/
theorem referenceTargetSteps : Obligations.ReferenceTargetSteps := by
  intro s act hq href hz ha
  have hl : s.lawless = false := by simp [State.lawless, href, hz]
  obtain ⟨ht, he⟩ := State.elapse_of_act hl ha
  refine ⟨s.elapse, step_of_no_request hq, ?_⟩
  cases act with
  | settle =>
    have hact : World.act s.cfg false ⟨s.target, s.evt⟩ .settle
        = World.settle s.cfg ⟨s.target, s.evt⟩ := if_pos ⟨href, rfl⟩
    rw [hact] at ht he
    refine ⟨by rw [he, World.settle_evt], fun m hr hm => ?_, fun hg => ?_⟩
    · rw [ht, World.settle_of_mode hr hm]
    · rw [ht, World.settle_of_guard_false hg]
  | txComplete =>
    have hact : World.act s.cfg false ⟨s.target, s.evt⟩ .txComplete
        = World.txComplete ⟨s.target, s.evt⟩ := if_pos ⟨href, rfl⟩
    rw [hact, World.txComplete] at ht he
    dsimp only
    split
    · next hg =>
      rw [if_pos hg, World.risingEdge_eq] at ht he
      exact ⟨he, ht⟩
    · next hg =>
      rw [if_neg hg] at ht he
      exact ⟨he, ht⟩
  | rxPacket p =>
    have hact : World.act s.cfg false ⟨s.target, s.evt⟩ (.rxPacket p)
        = World.rxPacket s.cfg p ⟨s.target, s.evt⟩ := if_pos ⟨href, rfl⟩
    rw [hact, World.rxPacket] at ht he
    dsimp only
    split
    · next hg =>
      rw [if_pos hg, World.risingEdge_eq] at ht he
      exact ⟨he, ht⟩
    · next hg =>
      rw [if_neg hg] at ht he
      exact ⟨he, ht⟩
  | irq level =>
    have hact : World.act s.cfg false ⟨s.target, s.evt⟩ (.irq level)
        = World.driveIrq level ⟨s.target, s.evt⟩ := if_neg (by rw [href]; nofun)
    rw [hact, World.driveIrq_eq] at ht he
    exact ⟨he, ht⟩

end Sys2Proof.Machine

/-!
PROOF of the statement of 20_memory: the FIFO of a reference target that nothing disturbs
(`State.Calm`) is first in, first out, by induction on the exchanges of one burst.
-/

namespace Sys2Proof.Machine

/-! ### Frames to the FIFO of the reference target -/

/-- A frame to the FIFO is open, its address byte sent, and no step of it failed; no byte waits for its
end, since a byte for the FIFO enters at its own exchange (20_memory R57). -/
def State.inFifoFrame (w : Bool) (s : State) : Prop :=
  ∃ f : BusFrame, s.frame = some f ∧ f.addr = some (w, s.cfg.regFifo) ∧ f.failed = false
    ∧ f.pending = none

theorem State.Calm.exchange {n : Nat} {s : State} (h : s.Calm (n + 1)) {b : Byte}
    (hz : (s.exchange b).1.hazard = false) : (s.exchange b).1.Calm n :=
  State.Calm.later (by rwa [Nat.add_comm]) (s.bus_exchange b).toExtends (State.exchange_tick b s) hz

/-- One more data exchange that leaves no byte waiting stays in the frame. -/
theorem State.inFifoFrame_exchange {s : State} {w : Bool} {f : BusFrame}
    (ha : f.addr = some (w, s.cfg.regFifo)) (hg : f.failed = false) (hp : f.pending = none)
    {b : Byte} (hf : (s.exchange b).1.frame = some f.counted) :
    (s.exchange b).1.inFifoFrame w :=
  ⟨f.counted, hf, by rw [(s.bus_exchange b).cfg]; exact ha, hg, hp⟩

/-- A byte written while there is room goes to the tail (10_state R39). -/
theorem State.Calm.exchange_push {n : Nat} {s : State} (h : s.Calm (n + 1))
    (hf : s.inFifoFrame true) (hroom : s.target.fifo.length < s.cfg.fifoWindow) (b : Byte) :
    (s.exchange b).1.Calm n ∧ (s.exchange b).1.inFifoFrame true
      ∧ (s.exchange b).1.target.fifo = s.target.fifo ++ [b] := by
  obtain ⟨f, hfr, ha, hg, hp⟩ := hf
  obtain ⟨free, d, hans⟩ := h.nextAnswer_fifo hfr ha rfl b
  rw [Target.pushFifo, if_pos hroom] at hans
  obtain ⟨-, ht, hfr', hz⟩ := State.exchange_answered h.callErrorAt_zero b
  rw [hans] at ht hfr' hz
  exact ⟨h.exchange (by rw [hz, h.hazard]; rfl), State.inFifoFrame_exchange ha hg hp hfr',
    by rw [ht]⟩

/-- A byte read while the FIFO holds one is its head (10_state R38). -/
theorem State.Calm.exchange_pop {n : Nat} {s : State} (h : s.Calm (n + 1))
    (hf : s.inFifoFrame false) {head : Byte} {rest : List Byte} (hq : s.target.fifo = head :: rest)
    (b : Byte) :
    (s.exchange b).1.Calm n ∧ (s.exchange b).1.inFifoFrame false ∧ (s.exchange b).2 = .ok head
      ∧ (s.exchange b).1.target.fifo = rest := by
  obtain ⟨f, hfr, ha, hg, hp⟩ := hf
  obtain ⟨d, hans⟩ := h.nextAnswer_read hfr ha b
  simp only [Target.readData, if_true, hq] at hans
  obtain ⟨hr, ht, hfr', hz⟩ := State.exchange_answered h.callErrorAt_zero b
  rw [hans] at hr ht hfr' hz
  exact ⟨h.exchange (by rw [hz, h.hazard]; rfl), State.inFifoFrame_exchange ha hg hp hfr', hr,
    by rw [ht]⟩

/-! ### Runs of exchanges -/

theorem State.exchangeAll_cons_of_ok {b r : Byte} {rest : List Byte} {s : State}
    (h : (s.exchange b).2 = .ok r) :
    State.exchangeAll (b :: rest) s
      = ((State.exchangeAll rest (s.exchange b).1).1,
        r :: (State.exchangeAll rest (s.exchange b).1).2.1,
        (State.exchangeAll rest (s.exchange b).1).2.2) := by
  rw [State.exchangeAll, h]

/-- Bytes written while they fit enter in order. -/
theorem State.Calm.exchangeAll_push {n : Nat} (d : List Byte) {s : State}
    (h : s.Calm (d.length + n)) (hf : s.inFifoFrame true)
    (hroom : s.target.fifo.length + d.length ≤ s.cfg.fifoWindow) :
    (State.exchangeAll d s).1.Calm n ∧ (State.exchangeAll d s).1.inFifoFrame true
      ∧ (State.exchangeAll d s).1.target.fifo = s.target.fifo ++ d := by
  induction d generalizing s with
  | nil =>
    rw [List.length_nil, Nat.zero_add] at h
    exact ⟨h, hf, (List.append_nil _).symm⟩
  | cons b rest ih =>
    rw [List.length_cons] at h hroom
    rw [Nat.add_right_comm] at h
    obtain ⟨hc, hf', hq⟩ := h.exchange_push hf (by omega) b
    have hroom' : (s.exchange b).1.target.fifo.length + rest.length
        ≤ (s.exchange b).1.cfg.fifoWindow := by
      rw [hq, (s.bus_exchange b).cfg, List.length_append, List.length_singleton]
      omega
    obtain ⟨r, hr⟩ := State.exchange_of_none h.callErrorAt_zero b
    rw [State.exchangeAll_cons_of_ok hr]
    obtain ⟨hc', hf'', hq'⟩ := ih hc hf' hroom'
    exact ⟨hc', hf'', by rw [hq', hq, List.append_assoc]; rfl⟩

/-- Reads of at most the bytes held answer them from the head, in order. The bytes `bs` that the
controller sends meanwhile do not matter. -/
theorem State.Calm.exchangeAll_pop {n : Nat} (bs : List Byte) {s : State}
    (h : s.Calm (bs.length + n)) (hf : s.inFifoFrame false)
    (hheld : bs.length ≤ s.target.fifo.length) :
    (State.exchangeAll bs s).1.Calm n ∧ (State.exchangeAll bs s).1.inFifoFrame false
      ∧ (State.exchangeAll bs s).2.1 = s.target.fifo.take bs.length
      ∧ (State.exchangeAll bs s).1.target.fifo = s.target.fifo.drop bs.length := by
  induction bs generalizing s with
  | nil =>
    rw [List.length_nil, Nat.zero_add] at h
    exact ⟨h, hf, rfl, rfl⟩
  | cons b rest ih =>
    obtain ⟨head, tail, hq⟩ := List.exists_cons_of_length_pos (Nat.zero_lt_of_lt hheld)
    rw [List.length_cons] at h hheld
    rw [Nat.add_right_comm] at h
    rw [hq, List.length_cons] at hheld
    obtain ⟨hc, hf', hr, hq'⟩ := h.exchange_pop hf hq b
    obtain ⟨hc', hf'', hbytes, hrest⟩ := ih hc hf' (by rw [hq']; omega)
    rw [State.exchangeAll_cons_of_ok hr, hbytes, hrest, hq', hq]
    exact ⟨hc', hf'', rfl, rfl⟩

/-! ### Whole bursts -/

/-- A frame in which no call fails: `CS+` and the address byte, the data exchanges, `CS-`. -/
theorem State.Calm.runFrame_addressed {s : State} {d : List Byte} (h : s.Calm (d.length + 3))
    (w : Bool) (a : Addr) :
    s.runFrame (addressByte s.cfg w a :: d)
      = (((State.exchangeAll d (s.addressed w a)).1.closeFrame none).1,
        0 :: (State.exchangeAll d (s.addressed w a)).2.1, none) := by
  obtain ⟨-, ho, -⟩ := h.openFrame
  obtain ⟨h2, hr, -⟩ := h.addressed w a
  obtain ⟨he, -, htick, -⟩ :=
    State.exchangeAll_ok d (State.noFailure_mono h2.noFailure (Nat.le_succ _))
  have hc : (State.exchangeAll d (s.addressed w a)).1.callErrorAt 0 = none := by
    rw [State.callErrorAt_later (State.bus_exchangeAll d _).toExtends htick]
    exact h2.noFailure d.length (Nat.lt_succ_self _)
  unfold State.addressed at *
  simp [State.runFrame, ho, State.exchangeAll_cons_of_ok hr, he, State.closeFrame_error, hc]

theorem State.Calm.addressed_fifo {n : Nat} {s : State} (h : s.Calm (n + 2)) (w : Bool) :
    (s.addressed w s.cfg.regFifo).Calm n ∧ (s.addressed w s.cfg.regFifo).inFifoFrame w
      ∧ (s.addressed w s.cfg.regFifo).target.fifo = s.target.fifo := by
  obtain ⟨hc, -, hf, ht⟩ := h.addressed w s.cfg.regFifo
  exact ⟨hc, ⟨_, hf, by rw [(s.bus_addressed w _).cfg], rfl, rfl⟩, by rw [ht]⟩

/-- `CS-` of a frame to the FIFO delivers nothing more. -/
theorem State.Calm.closeFrame_fifo {s : State} (h : s.Calm 1) {w : Bool} (hf : s.inFifoFrame w) :
    (s.closeFrame none).1.target = s.target ∧ (s.closeFrame none).1.hazard = false := by
  obtain ⟨f, hfr, ha, hg, hp⟩ := hf
  obtain ⟨free, ht, hz⟩ := h.closeFrame hfr ha hg
  rw [hp] at ht hz
  exact ⟨ht, hz⟩

/-- The mark at the start of a burst is none where readiness is not awaited (70_reset_and_hazards
R246). -/
theorem State.markBurst_eq_self {s : State} (h : s.awaitReady = false) : s.markBurst = s := by
  rw [State.markBurst, h, State.markHazard, Bool.or_false]

/-- A burst write of bytes that fit appends them (20_memory R53). -/
theorem State.Calm.burstWrite {s : State} {d : List Byte} (h : s.Calm (d.length + 3))
    (ha : s.awaitReady = false) (hroom : s.target.fifo.length + d.length ≤ s.cfg.fifoWindow) :
    (s.burstWrite d).1.target.fifo = s.target.fifo ++ d ∧ (s.burstWrite d).1.hazard = false := by
  obtain ⟨h2, hf, hq⟩ := State.Calm.addressed_fifo (n := d.length + 1) h true
  obtain ⟨h3, hf', hq'⟩ :=
    h2.exchangeAll_push d hf (by rwa [hq, (s.bus_addressed true _).cfg])
  obtain ⟨ht, hz⟩ := h3.closeFrame_fifo hf'
  unfold State.burstWrite State.writeFrame writeFrameBytes
  rw [State.markBurst_eq_self ha, h.runFrame_addressed]
  exact ⟨by rw [ht, hq', hq], hz⟩

/-- A burst read of at most the bytes held answers them from the head (20_memory R53). -/
theorem State.Calm.burstRead {s : State} {n : Nat} (h : s.Calm (n + 3))
    (ha : s.awaitReady = false) (hheld : n ≤ s.target.fifo.length) :
    (s.burstRead n).2 = (s.target.fifo.take n, none)
      ∧ (s.burstRead n).1.target.fifo = s.target.fifo.drop n
      ∧ (s.burstRead n).1.hazard = false := by
  have hlen : (List.replicate n s.cfg.dummyByte).length = n := List.length_replicate
  have h' : s.Calm ((List.replicate n s.cfg.dummyByte).length + 3) := by rwa [hlen]
  obtain ⟨h2, hf, hq⟩ := State.Calm.addressed_fifo (n := _ + 1) h' false
  obtain ⟨h3, hf', hbytes, hq'⟩ := h2.exchangeAll_pop _ hf (by rwa [hq, hlen])
  rw [hlen, hq] at hbytes hq'
  obtain ⟨ht, hz⟩ := h3.closeFrame_fifo hf'
  unfold State.burstRead State.readFrame readFrameBytes
  rw [State.markBurst_eq_self ha, h'.runFrame_addressed]
  exact ⟨by rw [hbytes]; rfl, by rw [ht, hq'], hz⟩

/-- Settles O34: each frame's data exchanges push at the tail or pop the head, one after another. -/
theorem fifoFirstInFirstOut : Obligations.FifoFirstInFirstOut := by
  refine ⟨fun s d href hz ha hcs hlen hroom hn hu => ?_, fun s n href hz ha hcs hheld hn hu => ?_⟩
  · have h : s.Calm (d.length + 3) := ⟨href, hz, hn, hu⟩
    obtain ⟨hq, hz'⟩ := h.burstWrite ha hroom
    have hacc : sendAccepted s.cfg d = true := decide_eq_true hlen
    exact ⟨_, (if_pos hacc).trans (framedOperation_of_closed _ hcs), hq, hz'⟩
  · have h : s.Calm (n + 3) := ⟨href, hz, hn, hu⟩
    obtain ⟨hr, hq, hz'⟩ := h.burstRead ha hheld
    refine ⟨_, framedOperation_of_closed _ hcs, ?_, hq, hz'⟩
    rw [State.conclude_result, hr]
    rfl

end Sys2Proof.Machine

/-!
PROOFS of the statements of 30_encoding: the decoder and the encoder undo each other, said frame format
by frame format; the pure operands; and the instructions made of one frame in which no call fails.
-/

namespace Sys2Proof.Machine

/-! ### The address byte (30_encoding R71) -/

/-- Every byte is an address byte. -/
theorem exists_addressByte (c : Config) (b : Byte) : ∃ w a, b = addressByte c w a :=
  ⟨_, _, (addressByte_eta c b).symm⟩

/-- With the direction at bit 7 it stands in front of the seven bits of the address. -/
theorem insertDirection_seven (w : Bool) (a : Addr) : insertDirection 7 w a = BitVec.cons w a := by
  have ha : a.toNat < 128 := a.isLt
  apply BitVec.eq_of_toNat_eq
  rw [BitVec.toNat_cons', Nat.shiftLeft_eq]
  cases w <;> simp [insertDirection] <;> omega

theorem addressByte_of_dirBit {c : Config} (h : c.dirBit = 7) (w : Bool) (a : Addr) :
    addressByte c w a = BitVec.cons w a := by
  rw [addressByte, h, insertDirection_seven]

/-- The rule's two formulas, for every byte that is an address. -/
theorem cons_setWidth_eq_mask {a : Byte} (ha : a.toNat ≤ 0x7F) :
    BitVec.cons false (a.setWidth 7) = a &&& 0x7F
      ∧ BitVec.cons true (a.setWidth 7) = a ||| 0x80 := by
  have hmod : a.toNat % 2 ^ 7 = a.toNat := Nat.mod_eq_of_lt (by omega)
  have hor : 2 ^ 7 + a.toNat = 2 ^ 7 ||| a.toNat :=
    Nat.shiftLeft_add_eq_or_of_lt (a := 1) (i := 7) (by omega)
  constructor <;> apply BitVec.eq_of_toNat_eq <;>
    rw [BitVec.toNat_cons', BitVec.toNat_setWidth, hmod]
  · exact (Nat.zero_add _).trans (hmod.symm.trans (Nat.and_two_pow_sub_one_eq_mod _ 7).symm)
  · exact hor.trans (Nat.or_comm _ _)

/-- Settles O3: at `DIR_BIT = 7` the address byte is the direction in front of the address. -/
theorem addressByteLayout : Obligations.AddressByteLayout := by
  intro c h
  refine ⟨fun w a => ⟨?_, ?_, addressByteDir_addressByte c w a, addressByteAddr_addressByte c w a⟩,
    fun a ha => ?_, ?_⟩
  · rw [addressByte_of_dirBit h, BitVec.getLsbD_cons, if_pos rfl]
  · rw [addressByte_of_dirBit h, BitVec.setWidth_cons]
  · obtain ⟨hread, hwrite⟩ := cons_setWidth_eq_mask ha
    rw [addressByte_of_dirBit h, addressByte_of_dirBit h]
    exact ⟨hread, hwrite⟩
  · simp only [addressByte_of_dirBit h]
    exact ⟨rfl, rfl, rfl, rfl⟩

/-! ### Command codes (30_encoding R82) -/

/-- A code that is none of the nine takes the last arm, whatever the operands. -/
theorem decodeCall_of_noSuchCode {code : Byte} (h : code.toNat = 0 ∨ 0x0A ≤ code.toNat)
    (ops : Operands) : decodeCall code ops = .error .noSuchCode := by
  delta decodeCall
  generalize code.toNat = n at h
  rcases h with rfl | h
  · cases ops <;> rfl
  · obtain ⟨k, rfl⟩ := Nat.exists_eq_add_of_le' h
    cases ops <;> rfl

/-- Settles O4: the nine codes compute; every other code takes the last arm. -/
theorem commandCodes : Obligations.CommandCodes := fun _ =>
  ⟨rfl, rfl, rfl, rfl, fun _ => rfl, fun _ => rfl, rfl, fun _ => rfl, fun _ _ => rfl,
    fun _ ops h => decodeCall_of_noSuchCode h ops⟩

theorem code_of_decodeCall {code : Byte} {ops : Operands} {i : Instr}
    (h : decodeCall code ops = .ok i) : 1 ≤ code.toNat ∧ code.toNat ≤ 9 := by
  by_contra hcode
  rw [decodeCall_of_noSuchCode (by omega)] at h
  cases h

/-- What a command code decodes to is encoded by that code and those operands: of the operands each of
the nine codes accepts only those of its signature. -/
theorem encode_of_decodeCall {c : Config} {code : Byte} {ops : Operands} {i : Instr}
    (h : decodeCall code ops = .ok i) :
    encode c i = some (.call code ops) ∧ i.mostParticular c = true := by
  obtain ⟨hlo, hhi⟩ := code_of_decodeCall h
  have hcode : code = BitVec.ofNat 8 code.toNat := BitVec.eq_of_toNat_eq (by simp)
  generalize code.toNat = n at hlo hhi hcode
  subst hcode
  interval_cases n
  all_goals
    cases ops <;> cases h
    exact ⟨rfl, rfl⟩

/-! ### Which row a two-byte frame names (30_encoding R77, R78, R86) -/

/-- The row of the mode write of `m`. -/
def modeRow : Mode → Instr
  | .sleep => .wrOpmodeSleep
  | .standby => .wrOpmodeStandby
  | .frequencySynthesis => .wrOpmodeFs
  | .transmit => .wrOpmodeTx
  | .receive => .wrOpmodeRx

/-- The row of a write of `v` to `a` that is no mode write. -/
def registerRow (c : Config) (a : Addr) (v : Byte) : Instr :=
  if a = c.regFrfMsb then .wrFrfMsb v
  else if a = c.regFrfMid then .wrFrfMid v
  else if a = c.regFrfLsb then .wrFrfLsb v
  else .wr a v

theorem modeValue_injective (c : Config) : Function.Injective (modeValue c) := fun m m' h =>
  Option.some.inj (by rw [← modeOf_modeValue c m, h, modeOf_modeValue])

theorem mem_modeValues_iff {c : Config} {v : Byte} : v ∈ c.modeValues ↔ ∃ m, v = modeValue c m := by
  simp only [Params.modeValues, List.mem_cons, List.not_mem_nil, or_false]
  constructor
  · rintro (h | h | h | h | h)
    · exact ⟨.sleep, h⟩
    · exact ⟨.standby, h⟩
    · exact ⟨.frequencySynthesis, h⟩
    · exact ⟨.transmit, h⟩
    · exact ⟨.receive, h⟩
  · rintro ⟨m, rfl⟩
    cases m <;> simp [modeValue]

/-- The five mode values are distinct (00_scope R7), so each names its own row. -/
theorem decodeWrite_of_mode (c : Config) (m : Mode) :
    decodeWrite c c.regOpmode (modeValue c m) = modeRow m := by
  have hne {m' : Mode} (h : m ≠ m') :
      ¬ (c.regOpmode = c.regOpmode ∧ modeValue c m = modeValue c m') :=
    fun hm => h (modeValue_injective c hm.2)
  have hstandby := @hne .standby
  have htx := @hne .transmit
  have hrx := @hne .receive
  have hsleep := @hne .sleep
  unfold decodeWrite
  cases m with
  | standby => exact if_pos ⟨rfl, rfl⟩
  | transmit => exact (if_neg (hstandby nofun)).trans (if_pos ⟨rfl, rfl⟩)
  | receive =>
    exact (if_neg (hstandby nofun)).trans <| (if_neg (htx nofun)).trans (if_pos ⟨rfl, rfl⟩)
  | sleep =>
    exact (if_neg (hstandby nofun)).trans <| (if_neg (htx nofun)).trans <|
      (if_neg (hrx nofun)).trans (if_pos ⟨rfl, rfl⟩)
  | frequencySynthesis =>
    exact (if_neg (hstandby nofun)).trans <| (if_neg (htx nofun)).trans <|
      (if_neg (hrx nofun)).trans <| (if_neg (hsleep nofun)).trans (if_pos ⟨rfl, rfl⟩)

theorem decodeWrite_of_not_mode {c : Config} {a : Addr} {v : Byte}
    (h : ¬ (a = c.regOpmode ∧ v ∈ c.modeValues)) : decodeWrite c a v = registerRow c a v := by
  have hne (m : Mode) : ¬ (a = c.regOpmode ∧ v = modeValue c m) :=
    fun hm => h ⟨hm.1, mem_modeValues_iff.mpr ⟨m, hm.2⟩⟩
  unfold decodeWrite
  exact (if_neg (hne .standby)).trans <| (if_neg (hne .transmit)).trans <|
    (if_neg (hne .receive)).trans <| (if_neg (hne .sleep)).trans <|
      if_neg (hne .frequencySynthesis)

/-- How `mostParticular` writes that a write is no mode write. -/
theorem not_and_decide_iff {p q : Prop} [Decidable p] [Decidable q] :
    (!(decide p && decide q)) = true ↔ ¬ (p ∧ q) := by
  rw [Bool.not_eq_true', ← Bool.decide_and, decide_eq_false_iff_not]

/-- The three registers of the frequency triplet are distinct (20_memory R52). -/
theorem frf_registers_distinct (c : Config) :
    c.regFrfMid ≠ c.regFrfMsb ∧ c.regFrfLsb ≠ c.regFrfMsb ∧ c.regFrfLsb ≠ c.regFrfMid := by
  obtain ⟨-, hmid, hlsb, -⟩ := Params.check_true c.valid
  exact ⟨fun h => by rw [h] at hmid; omega, fun h => by rw [h] at hlsb; omega,
    fun h => by rw [h] at hlsb; omega⟩

/-- The row named for a two-byte write frame is encoded by that frame, and is the most particular. -/
theorem encode_decodeWrite (c : Config) (a : Addr) (v : Byte) :
    encode c (decodeWrite c a v) = some (.frame (writeFrameBytes c a [v]))
      ∧ (decodeWrite c a v).mostParticular c = true := by
  by_cases h : a = c.regOpmode ∧ v ∈ c.modeValues
  · obtain ⟨rfl, hv⟩ := h
    obtain ⟨m, rfl⟩ := mem_modeValues_iff.mp hv
    rw [decodeWrite_of_mode]
    cases m <;> exact ⟨rfl, rfl⟩
  · rw [decodeWrite_of_not_mode h]
    unfold registerRow
    split_ifs with hmsb hmid hlsb
    · subst hmsb
      exact ⟨rfl, not_and_decide_iff.mpr h⟩
    · subst hmid
      exact ⟨rfl, not_and_decide_iff.mpr h⟩
    · subst hlsb
      exact ⟨rfl, not_and_decide_iff.mpr h⟩
    · refine ⟨rfl, Bool.and_eq_true_iff.mpr ⟨?_, not_and_decide_iff.mpr h⟩⟩
      simp [hmsb, hmid, hlsb]

/-- The same of a two-byte read frame. -/
theorem encode_decodeRead (c : Config) (a : Addr) :
    encode c (decodeRead c a) = some (.frame (readFrameBytes c a 1))
      ∧ (decodeRead c a).mostParticular c = true := by
  unfold decodeRead
  split_ifs with h1 h2 hv
  · subst h1
    exact ⟨rfl, rfl⟩
  · subst h2
    exact ⟨rfl, decide_eq_true h1⟩
  · subst hv
    exact ⟨rfl, by simp [Instr.mostParticular, h1, h2]⟩
  · exact ⟨rfl, by simp [Instr.mostParticular, h1, h2, hv]⟩

/-! ### The frame formats (30_encoding R70 to R76) -/

theorem decodeFrame_address (c : Config) (w : Bool) (a : Addr) :
    decodeFrame c [addressByte c w a]
      = .ok (if a = c.regFifo then if w then .bwr [] else .brd 0 else .addrByte w a) := by
  simp only [decodeFrame, addressByteDir_addressByte, addressByteAddr_addressByte]
  split_ifs <;> rfl

theorem decodeFrame_write (c : Config) (a : Addr) (v : Byte) :
    decodeFrame c (writeFrameBytes c a [v]) = .ok (decodeWrite c a v) := by
  simp [decodeFrame, writeFrameBytes]

theorem decodeFrame_read (c : Config) (a : Addr) (d : Byte) :
    decodeFrame c [addressByte c false a, d]
      = if d = c.dummyByte then .ok (decodeRead c a) else .error .notDummy := by
  simp [decodeFrame]

/-- Several data bytes go to or come from the FIFO, and a read sends nothing but `DUMMY_BYTE`. -/
theorem decodeFrame_burst (c : Config) (w : Bool) (a : Addr) {l : List Byte} (hl : 2 ≤ l.length) :
    decodeFrame c (addressByte c w a :: l)
      = if a ≠ c.regFifo then .error .burstElsewhere
        else if w then
          if l.length ≤ c.maxSendLen then .ok (.bwr l) else .error .burstTooLong
        else if l.all (· == c.dummyByte) then .ok (.brd l.length) else .error .notDummy := by
  match l, hl with
  | d :: e :: ds, _ =>
    simp only [decodeFrame, addressByteDir_addressByte, addressByteAddr_addressByte]

/-- The bytes of a read burst, all `DUMMY_BYTE`, are as many of them. -/
theorem eq_replicate_of_all_dummy {c : Config} {l : List Byte}
    (h : l.all (· == c.dummyByte) = true) : l = List.replicate l.length c.dummyByte :=
  List.eq_replicate_of_mem fun b hb => by simpa using List.all_eq_true.mp h b hb

/-! ### Decoding and encoding undo each other -/

/-- What a frame decodes to is encoded by that frame, and is the most particular row of it. -/
theorem encode_of_decodeFrame {c : Config} {bytes : List Byte} {i : Instr}
    (h : decodeFrame c bytes = .ok i) :
    encode c i = some (.frame bytes) ∧ i.mostParticular c = true := by
  cases bytes with
  | nil => cases h
  | cons b l =>
    obtain ⟨w, a, rfl⟩ := exists_addressByte c b
    match l with
    | [] =>
      rw [decodeFrame_address] at h
      obtain rfl := Except.ok.inj h
      split_ifs with ha hw
      · subst ha hw
        exact ⟨rfl, rfl⟩
      · obtain rfl : w = false := by simpa using hw
        subst ha
        exact ⟨rfl, rfl⟩
      · exact ⟨rfl, decide_eq_true ha⟩
    | [d] =>
      cases w with
      | true =>
        obtain rfl := Except.ok.inj ((decodeFrame_write c a d).symm.trans h)
        exact encode_decodeWrite c a d
      | false =>
        rw [decodeFrame_read] at h
        split_ifs at h with hd
        obtain rfl := Except.ok.inj h
        rw [hd]
        exact encode_decodeRead c a
    | d :: e :: ds =>
      rw [decodeFrame_burst c w a (by simp)] at h
      split_ifs at h with ha hw hlen hdummy
      · obtain rfl := Except.ok.inj h
        obtain rfl : a = c.regFifo := by simpa using ha
        subst hw
        exact ⟨rfl, by simp [Instr.mostParticular]⟩
      · obtain rfl := Except.ok.inj h
        obtain rfl : a = c.regFifo := by simpa using ha
        obtain rfl : w = false := by simpa using hw
        refine ⟨?_, by simp [Instr.mostParticular]⟩
        rw [encode, readFrameBytes, ← eq_replicate_of_all_dummy hdummy]

/-- Settles O2, by the form of the request. -/
theorem encodingUndoesDecoding : Obligations.EncodingUndoesDecoding := by
  intro c r i h
  cases r with
  | call code ops => exact encode_of_decodeCall h
  | frame bytes => exact encode_of_decodeFrame h

theorem decode_writeFrame {c : Config} {a : Addr} {v : Byte} {i : Instr}
    (h : decodeWrite c a v = i) : decode c (.frame (writeFrameBytes c a [v])) = .ok i :=
  (decodeFrame_write c a v).trans (congrArg Except.ok h)

theorem decode_readFrame {c : Config} {a : Addr} {i : Instr} (h : decodeRead c a = i) :
    decode c (.frame (readFrameBytes c a 1)) = .ok i :=
  (decodeFrame_read c a c.dummyByte).trans ((if_pos rfl).trans (congrArg Except.ok h))

/-- A burst write of an accepted length other than 1; one byte is the single format (30_encoding R86). -/
theorem decode_burstWrite {c : Config} {d : List Byte} (hlen : d.length ≤ c.maxSendLen)
    (hne : d.length ≠ 1) : decode c (.frame (writeFrameBytes c c.regFifo d)) = .ok (.bwr d) := by
  rcases Nat.eq_zero_or_pos d.length with h0 | hpos
  · obtain rfl := List.length_eq_zero_iff.mp h0
    exact (decodeFrame_address c true c.regFifo).trans (by simp)
  · refine (decodeFrame_burst c true c.regFifo (by omega)).trans ?_
    simp [hlen]

/-- A burst read of any number of bytes other than 1. -/
theorem decode_burstRead {c : Config} {n : Nat} (hne : n ≠ 1) :
    decode c (.frame (readFrameBytes c c.regFifo n)) = .ok (.brd n) := by
  rcases Nat.eq_zero_or_pos n with rfl | hpos
  · exact (decodeFrame_address c false c.regFifo).trans (by simp)
  · refine (decodeFrame_burst c false c.regFifo (by rw [List.length_replicate]; omega)).trans ?_
    simp

/-- Settles O1: a host operation by its code; a frame by its format, and a two-byte frame by the rows
that come before its own. -/
theorem decodingUndoesEncoding : Obligations.DecodingUndoesEncoding := by
  intro c i r hwf hmp he
  obtain ⟨hmid, hlsb, hlsb'⟩ := frf_registers_distinct c
  cases i with
  | reset | setStandbyMode | isReady | detectDevice | setFrequency | send | receive
  | readRegister | writeRegister => exact Option.some.inj he ▸ rfl
  | wrOpmodeStandby => exact Option.some.inj he ▸ decode_writeFrame (decodeWrite_of_mode c .standby)
  | wrOpmodeTx => exact Option.some.inj he ▸ decode_writeFrame (decodeWrite_of_mode c .transmit)
  | wrOpmodeRx => exact Option.some.inj he ▸ decode_writeFrame (decodeWrite_of_mode c .receive)
  | wrOpmodeSleep => exact Option.some.inj he ▸ decode_writeFrame (decodeWrite_of_mode c .sleep)
  | wrOpmodeFs =>
    exact Option.some.inj he ▸ decode_writeFrame (decodeWrite_of_mode c .frequencySynthesis)
  | wrFrfMsb m =>
    have hrow := decodeWrite_of_not_mode (not_and_decide_iff.mp hmp)
    exact Option.some.inj he ▸ decode_writeFrame (hrow.trans (if_pos rfl))
  | wrFrfMid m =>
    have hrow := decodeWrite_of_not_mode (not_and_decide_iff.mp hmp)
    exact Option.some.inj he ▸ decode_writeFrame (hrow.trans (by simp [registerRow, hmid]))
  | wrFrfLsb m =>
    have hrow := decodeWrite_of_not_mode (not_and_decide_iff.mp hmp)
    exact Option.some.inj he ▸ decode_writeFrame (hrow.trans (by simp [registerRow, hlsb, hlsb']))
  | wr a v =>
    obtain ⟨hfrf, hmode⟩ := Bool.and_eq_true_iff.mp hmp
    have hrow := decodeWrite_of_not_mode (not_and_decide_iff.mp hmode)
    simp only [decide_eq_true_eq, List.mem_cons, List.not_mem_nil, or_false, not_or] at hfrf
    exact Option.some.inj he ▸ decode_writeFrame (hrow.trans (by simp [registerRow, hfrf]))
  | rdIrqFlags1 => exact Option.some.inj he ▸ decode_readFrame (if_pos rfl)
  | rdIrqFlags2 =>
    have hne : c.regIrqFlags2 ≠ c.regIrqFlags1 := of_decide_eq_true hmp
    exact Option.some.inj he ▸ decode_readFrame (by simp [decodeRead, hne])
  | rdVersion =>
    have hne : c.regVersion ∉ [c.regIrqFlags1, c.regIrqFlags2] := of_decide_eq_true hmp
    simp only [List.mem_cons, List.not_mem_nil, or_false, not_or] at hne
    exact Option.some.inj he ▸ decode_readFrame (by simp [decodeRead, hne])
  | rd a =>
    have hne : a ∉ [c.regIrqFlags1, c.regIrqFlags2, c.regVersion] := of_decide_eq_true hmp
    simp only [List.mem_cons, List.not_mem_nil, or_false, not_or] at hne
    exact Option.some.inj he ▸ decode_readFrame (by simp [decodeRead, hne])
  | bwr d =>
    exact Option.some.inj he ▸ decode_burstWrite (of_decide_eq_true hwf) (of_decide_eq_true hmp)
  | brd n => exact Option.some.inj he ▸ decode_burstRead (of_decide_eq_true hmp)
  | addrByte w a =>
    have hne : a ≠ c.regFifo := of_decide_eq_true hmp
    exact Option.some.inj he ▸ (decodeFrame_address c w a).trans (by rw [if_neg hne])
  | _ => cases he

/-- Settles O5: each frame is the encoding of its row under the defaults, and decoding undoes it. -/
theorem printedFramesDecode : Obligations.PrintedFramesDecode := by
  have h (i : Instr) {bytes : List Byte} (hwf : i.wellFormed Config.default = true)
      (hmp : i.mostParticular Config.default = true)
      (he : encode Config.default i = some (.frame bytes)) :
      decode Config.default (.frame bytes) = .ok i := decodingUndoesEncoding _ i _ hwf hmp he
  exact ⟨h _ rfl rfl rfl, h _ rfl rfl rfl, h _ rfl rfl rfl, h _ rfl rfl rfl, h _ rfl rfl rfl,
    h _ rfl rfl rfl, h _ rfl rfl rfl, h _ rfl rfl rfl, h _ rfl rfl rfl, h _ rfl rfl rfl,
    h _ rfl rfl rfl, h _ rfl rfl rfl, h _ rfl rfl rfl, h _ rfl rfl rfl, h _ rfl rfl rfl,
    h _ rfl rfl rfl⟩

/-! ### The version test and the triplet (30_encoding R78, R80) -/

/-- Settles O35: the test is decided equality. -/
theorem versionTestIsEquality : Obligations.VersionTestIsEquality :=
  ⟨fun _ _ => decide_eq_true_iff, rfl, fun _ h => decide_eq_false h⟩

/-- The three bytes are the digits of the value in base 256, most significant first. -/
theorem frf_eq_bytes (f : Frf) :
    f.toNat = (frfMsb f).toNat * 65536 + (frfMid f).toNat * 256 + (frfLsb f).toNat := by
  have hf : f.toNat < 2 ^ 24 := f.isLt
  simp only [frfMsb, frfMid, frfLsb, BitVec.extractLsb'_toNat, Nat.shiftRight_eq_div_pow]
  omega

theorem frfJoin_toNat (m i l : Byte) :
    (frfJoin m i l).toNat = m.toNat * 65536 + i.toNat * 256 + l.toNat := by
  have hm := m.isLt
  have hi := i.isLt
  have hl := l.isLt
  have hlow : i.toNat * 2 ^ 8 + l.toNat = i.toNat * 2 ^ 8 ||| l.toNat := by
    rw [← Nat.shiftLeft_eq, Nat.shiftLeft_add_eq_or_of_lt hl]
  have hall : m.toNat * 2 ^ 16 + (i.toNat * 2 ^ 8 + l.toNat)
      = m.toNat * 2 ^ 16 ||| (i.toNat * 2 ^ 8 + l.toNat) := by
    rw [← Nat.shiftLeft_eq m.toNat, Nat.shiftLeft_add_eq_or_of_lt (by omega)]
  calc (frfJoin m i l).toNat
      = (m.toNat * 2 ^ 16 ||| i.toNat * 2 ^ 8) ||| l.toNat := by
        simp (disch := omega) only [frfJoin, BitVec.toNat_or, BitVec.toNat_shiftLeft,
          BitVec.toNat_setWidth, Nat.shiftLeft_eq, Nat.mod_eq_of_lt]
    _ = m.toNat * 2 ^ 16 + (i.toNat * 2 ^ 8 + l.toNat) := by rw [Nat.or_assoc, ← hlow, ← hall]
    _ = m.toNat * 65536 + i.toNat * 256 + l.toNat := by ring

theorem frfJoin_frfSplit (f : Frf) : frfJoin (frfMsb f) (frfMid f) (frfLsb f) = f :=
  BitVec.eq_of_toNat_eq ((frfJoin_toNat _ _ _).trans (frf_eq_bytes f).symm)

/-- The digits of a value in base 256 are determined by it. -/
theorem frfSplit_frfJoin (m i l : Byte) : frfSplit (frfJoin m i l) = (m, i, l) := by
  have hdigits := (frf_eq_bytes (frfJoin m i l)).symm.trans (frfJoin_toNat m i l)
  have hm : frfMsb (frfJoin m i l) = m := by bv_omega
  have hi : frfMid (frfJoin m i l) = i := by bv_omega
  have hl : frfLsb (frfJoin m i l) = l := by bv_omega
  rw [frfSplit, hm, hi, hl]

/-- Settles O47: both are pure operations, and the bytes are the digits in base 256. -/
theorem tripletSplitsAndJoins : Obligations.TripletSplitsAndJoins :=
  ⟨fun _ f => ⟨_, _, _, rfl, frf_eq_bytes f, frfJoin_frfSplit f⟩,
    fun _ m i l => ⟨_, rfl, frfJoin_toNat m i l, frfSplit_frfJoin m i l⟩⟩

/-! ### What the end of a one-frame instruction leaves -/

theorem State.Quiet.sameRecords {s u : State} (h : s.Quiet u) : s.SameRecords u :=
  ⟨h.cfg, h.script, h.requests, h.rst, h.dropped⟩

/-- The end of an operation adds nothing to what its quiet work has left. -/
theorem State.Quiet.concluded {s u : State} (h : s.Quiet u) (hc : u.cs = false) (r : Result) :
    (u.conclude s.seq r).endedIn s.seq ∧ s.SameRecords (u.conclude s.seq r)
      ∧ s.SameBuffers (u.conclude s.seq r) :=
  have hr := h.sameRecords
  ⟨⟨hc, rfl⟩, ⟨hr.cfg, hr.script, hr.requests, hr.rst, hr.dropped⟩, ⟨h.txBuf, h.rxBuf⟩⟩

/-- The same of the registers and the version byte of a sound target. -/
theorem State.RegsKept.concluded {as : List Addr} {s u : State} (h : State.RegsKept as s u)
    (he : s.Extends u) (q : SeqState) (r : Result) (hs : s.target.sound s.cfg) :
    s.OtherRegistersKept (u.conclude q r) as :=
  ⟨he.version, h hs⟩

/-! ### Single reads and writes in which no call fails (30_encoding R72, R73) -/

/-- A register read changes no register. -/
theorem State.regsKept_readReg (a : Addr) {s : State} (hn : s.noFailure 4) :
    State.RegsKept [] s (s.readReg a).1 :=
  State.runFrame_regs_ok false a [s.cfg.dummyByte] (s := s.markRead a) hn

/-- Settles O19: the read is one frame in which nothing fails. -/
theorem singleReadCompletes : Obligations.SingleReadCompletes := by
  intro i s a ha hs hn
  obtain ⟨r, b, hok, hreceived, hissued, -⟩ := State.readReg_ok a hn
  have hbus := s.bus_readReg a
  obtain ⟨hends, hrecords, hbuffers⟩ := hbus.quiet.concluded (s.readReg_ends a).1
    (resultWith .byte (s.readReg a).2)
  refine ⟨_, r, b, exec_of_readsRegister ha hs, ?_, hreceived, hissued, hends, hrecords, hbuffers,
    hbus.sameMode, s.readReg_hazard a, hbus.evt,
    (State.regsKept_readReg a hn).concluded hbus.toExtends _ _⟩
  rw [State.conclude_result, hok]
  rfl

@[simp] theorem State.endModeWrite_target (a : Addr) (v : Byte) (e : Option OpError) (s : State) :
    (s.endModeWrite a v e).target = s.target := by
  unfold State.endModeWrite; split <;> rfl

/-- A register write changes no register but its own: the mode record before and after its frame is the
controller's. -/
theorem State.regsKept_writeReg (a : Addr) (v : Byte) (s : State) :
    State.RegsKept [a] s (s.writeReg a v).1 := by
  have hbegin : State.RegsKept [a] s (s.marked a v) := State.regsKept_of_target _ (s.marked_target a v)
  have hframe : State.RegsKept [a] (s.marked a v) (s.writeRegFrame a v).1 :=
    State.runFrame_regs true a [v] (s.marked a v)
  have hend : State.RegsKept [a] (s.writeRegFrame a v).1 (s.writeReg a v).1 :=
    State.regsKept_of_target _ (State.endModeWrite_target a v _ _)
  have hbus := (s.bus_writeRegFrame a v).toExtends
  exact (hbegin.trans (s.extends_marked a v) hbus hframe).trans ((s.extends_marked a v).trans hbus)
    (State.quiet_endModeWrite a v _ _).toExtends hend

/-- The marks at the start of a register write stay. -/
theorem State.writeReg_hazard_of_marked (a : Addr) (v : Byte) {s : State}
    (h : (s.marked a v).hazard = true) : (s.writeReg a v).1.hazard = true := by
  rw [(s.writeReg_frame a v).2]
  exact (State.bus_runFrame _ _).hazard h

/-- They are all the marks where the write is not to the FIFO: what no target has a meaning for is
marked at the start. -/
theorem State.writeReg_hazard_of_ne_fifo {a : Addr} {s : State} (ha : a ≠ s.cfg.regFifo) (v : Byte) :
    (s.writeReg a v).1.hazard = (s.marked a v).hazard := by
  cases hm : (s.marked a v).hazard with
  | true => exact State.writeReg_hazard_of_marked a v hm
  | false =>
    have hmode : a = s.cfg.regOpmode → (modeOf s.cfg v).isSome = true := fun ho => by
      rw [State.marked_hazard] at hm
      simpa [ho, Option.isNone_eq_false_iff] using (Bool.or_eq_false_iff.mp hm).2
    rw [s.writeReg_hazard (.inr (.inr ⟨ha, hmode⟩)), ← State.marked_hazard, hm]

/-- Settles O20: the write is one frame in which nothing fails, between its marks and its record of the
mode. -/
theorem singleWriteCompletes : Obligations.SingleWriteCompletes := by
  intro i s a v ha hs hn
  obtain ⟨hok, -, hissued, -⟩ := State.writeReg_ok a v hn
  obtain ⟨hcache, hawait⟩ := s.writeReg_mode a v
  have hquiet := s.quiet_writeReg a v
  obtain ⟨hends, hrecords, hbuffers⟩ := hquiet.concluded (s.writeReg_ends a v).1
    (resultOf (s.writeReg a v).2)
  rw [hok] at hcache
  refine ⟨_, exec_of_writesRegister ha hs, ?_⟩
  simp only [State.conclude_result, State.conclude_modeCache, State.conclude_awaitReady,
    State.conclude_hazard, State.conclude_evt, ← State.marked_hazard]
  exact ⟨congrArg resultOf hok, State.issued_of_trace_right (State.conclude_trace ..) hissued, hends,
    hrecords, hbuffers, hcache, hawait, State.writeReg_hazard_of_marked a v,
    fun hf => State.writeReg_hazard_of_ne_fifo hf v, s.keepsEvent_writeReg a v,
    (s.regsKept_writeReg a v).concluded hquiet.toExtends _ _⟩

/-! ### The address byte as an instruction (30_encoding R71) -/

/-- The state in which the frame of the address byte alone starts. -/
def State.addressMarked (w : Bool) (a : Addr) (s : State) : State :=
  { s with
    awaitReady := s.awaitReady || (w && decide (a = s.cfg.regOpmode))
    hazard := s.hazard || (s.awaitReady
      && decide (a ≠ if w then s.cfg.regOpmode else s.cfg.regIrqFlags1)) }

/-- The frame of the address byte alone, from its marks to its record of the mode. -/
theorem State.addressFrame_eq (w : Bool) (a : Addr) (s : State) :
    s.addressFrame w a
      = ({ ((s.addressMarked w a).runFrame [addressByte s.cfg w a]).1 with
            modeCache := if w && decide (a = s.cfg.regOpmode) then none else s.modeCache },
          ((s.addressMarked w a).runFrame [addressByte s.cfg w a]).2.2) := by
  have hcache := ((s.addressMarked w a).bus_runFrame [addressByte s.cfg w a]).modeCache
  have hkept : (s.addressMarked w a).modeCache = s.modeCache := rfl
  cases w with
  | false =>
    have hm : s.addressMarked false a = s.markRead a := by
      simp [State.addressMarked, State.markRead, State.markHazard]
    rw [State.addressFrame_read, ← hm, if_neg (by simp), ← hkept, ← hcache]
    rfl
  | true =>
    by_cases ha : a = s.cfg.regOpmode
    · subst ha
      have hm : s.addressMarked true s.cfg.regOpmode
          = { s.markWrite s.cfg.regOpmode with awaitReady := true } := by
        simp [State.addressMarked, State.markWrite, State.markHazard]
      rw [State.addressFrame_opmode, ← hm, if_pos (by simp)]
      rfl
    · have hm : s.addressMarked true a = s.markWrite a := by
        simp [State.addressMarked, State.markWrite, State.markHazard, ha]
      rw [State.addressFrame_write_of_ne ha, ← hm, if_neg (by simp [ha]), ← hkept, ← hcache]
      rfl

/-- The frame of the address byte alone, in which no call fails. -/
theorem State.addressFrame_ok (w : Bool) (a : Addr) {s : State} (hn : s.noFailure 3) :
    (s.addressFrame w a).2 = none
      ∧ s.issued (s.addressFrame w a).1 (frameActs [addressByte s.cfg w a]) := by
  obtain ⟨hok, -, -, hissued⟩ :=
    State.runFrame_ok [addressByte s.cfg w a] (s := s.addressMarked w a) hn
  rw [State.addressFrame_eq]
  exact ⟨hok, hissued⟩

/-- The mode record and the mark after it: a write frame to the mode register that carries no value
leaves the mode unknown (10_state R23, R24; 70_reset_and_hazards R246). -/
theorem State.addressFrame_marks (w : Bool) (a : Addr) (s : State) :
    (s.addressFrame w a).1.modeCache
        = (if w && decide (a = s.cfg.regOpmode) then none else s.modeCache)
      ∧ (s.addressFrame w a).1.awaitReady
        = (s.awaitReady || (w && decide (a = s.cfg.regOpmode)))
      ∧ (s.addressFrame w a).1.hazard
        = (s.hazard || (s.awaitReady
            && decide (a ≠ if w then s.cfg.regOpmode else s.cfg.regIrqFlags1))) := by
  have hbus := (s.addressMarked w a).bus_runFrame [addressByte s.cfg w a]
  have hhazard : ((s.addressMarked w a).runFrame [addressByte s.cfg w a]).1.hazard
      = (s.addressMarked w a).hazard :=
    State.runFrame_hazard (s := s.addressMarked w a) (w := w) (a := a) (d := []) (by simp)
  rw [State.addressFrame_eq]
  exact ⟨rfl, hbus.awaitReady, hhazard⟩

/-- It carries no data, so it changes no register. -/
theorem State.regsKept_addressFrame (w : Bool) (a : Addr) {s : State} (hn : s.noFailure 3) :
    State.RegsKept [] s (s.addressFrame w a).1 := by
  have hregs : State.RegsKept (frameRegisters (w && false) a) (s.addressMarked w a)
      ((s.addressMarked w a).runFrame [addressByte s.cfg w a]).1 := State.runFrame_regs_ok w a [] hn
  rw [Bool.and_false] at hregs
  rw [State.addressFrame_eq]
  exact hregs

theorem exec_addrByte_of_closed {s : State} (hc : s.cs = false) (w : Bool) (a : Addr) :
    exec (.addrByte w a) s
      = .next ((s.addressFrame w a).1.conclude s.seq (resultOf (s.addressFrame w a).2)) :=
  if_neg (by simp [hc])

/-- In an open frame `ADDRBYTE` is the first exchange or none (20_memory R62). -/
theorem exec_addrByte_of_open {s : State} (hc : s.cs = true) (he : s.frameErr = none) (w : Bool)
    (a : Addr) :
    exec (.addrByte w a) s
      = if s.seq = .frameOpen then
          .next { (s.exchange (addressByte s.cfg w a)).1 with
            result := resultWith (fun _ => .unit) (s.exchange (addressByte s.cfg w a)).2 }
        else .refused .addressNotFirst :=
  (if_pos hc).trans (if_neg (by simp [he]))

/-- Settles O26: a frame of one byte, one exchange, or a refusal. -/
theorem addressByteFrame : Obligations.AddressByteFrame := by
  refine ⟨fun w a s hc hn => ?_, fun w a s hc he hq hn => ?_, fun w a s hc he hq => ?_⟩
  · obtain ⟨hok, hissued⟩ := State.addressFrame_ok w a hn
    obtain ⟨hcache, hawait, hhazard⟩ := s.addressFrame_marks w a
    have hquiet := s.quiet_addressFrame w a
    obtain ⟨hends, hrecords, hbuffers⟩ := hquiet.concluded (s.addressFrame_ends w a).1
      (resultOf (s.addressFrame w a).2)
    refine ⟨_, exec_addrByte_of_closed hc w a, ?_⟩
    simp only [State.conclude_result, State.conclude_modeCache, State.conclude_awaitReady,
      State.conclude_hazard, State.conclude_evt]
    exact ⟨congrArg resultOf hok, State.issued_of_trace_right (State.conclude_trace ..) hissued,
      hends, hrecords, hbuffers, hcache, hawait, hhazard, s.keepsEvent_addressFrame w a,
      (State.regsKept_addressFrame w a hn).concluded hquiet.toExtends _ _⟩
  · have hbus := s.bus_exchange (addressByte s.cfg w a)
    obtain ⟨r, hr⟩ := State.exchange_of_none (hn 0 Nat.one_pos) (addressByte s.cfg w a)
    obtain ⟨hcs, -⟩ := s.exchange_keeps (addressByte s.cfg w a)
    have hseq := State.exchange_seq (addressByte s.cfg w a) s
    have hrecords := hbus.quiet.sameRecords
    rw [hq] at hseq
    exact ⟨_, (exec_addrByte_of_open hc he w a).trans (if_pos hq),
      congrArg (resultWith fun _ => .unit) hr, s.exchange_issued _, hseq, hcs.trans hc,
      ⟨hrecords.cfg, hrecords.script, hrecords.requests, hrecords.rst, hrecords.dropped⟩,
      ⟨hbus.txBuf, hbus.rxBuf⟩, hbus.sameMode⟩
  · exact (exec_addrByte_of_open hc he w a).trans (if_neg hq)

/-! ### Bursts in which no call fails (30_encoding R74, R75) -/

theorem State.regsKept_burstWrite (d : List Byte) (s : State) :
    State.RegsKept [s.cfg.regFifo] s (s.burstWrite d).1 :=
  State.runFrame_regs true s.cfg.regFifo d s.markBurst

theorem State.regsKept_burstRead {n : Nat} {s : State} (hn : s.noFailure (n + 3)) :
    State.RegsKept [] s (s.burstRead n).1 :=
  State.runFrame_regs_ok false s.cfg.regFifo (List.replicate n s.cfg.dummyByte) (s := s.markBurst)
    (by rw [List.length_replicate]; exact hn)

/-- The mark at the start of a burst write stays. -/
theorem State.burstWrite_hazard_of_marked (d : List Byte) {s : State}
    (h : (s.hazard || s.awaitReady) = true) : (s.burstWrite d).1.hazard = true :=
  (State.bus_writeFrame s.cfg.regFifo d s.markBurst).hazard h

/-- Settles O31: each burst is one frame in which nothing fails. -/
theorem burstFramesComplete : Obligations.BurstFramesComplete := by
  refine ⟨fun s d hc hlen hn => ?_, fun s n hc hn => ?_⟩
  · obtain ⟨hok, hissued, -⟩ := State.burstWrite_ok d hn
    have hbus := s.bus_burstWrite d
    obtain ⟨hends, hrecords, hbuffers⟩ := hbus.quiet.concluded (s.burstWrite_ends d).1
      (resultOf (s.burstWrite d).2)
    have hacc : sendAccepted s.cfg d = true := decide_eq_true hlen
    exact ⟨_, (if_pos hacc).trans (framedOperation_of_closed _ hc), congrArg resultOf hok, hissued,
      hends, hrecords, hbuffers, hbus.sameMode, State.burstWrite_hazard_of_marked d, hbus.evt,
      (s.regsKept_burstWrite d).concluded hbus.toExtends _ _⟩
  · obtain ⟨hok, hlen, ⟨r, hreceived⟩, hissued, -⟩ := State.burstRead_ok n hn
    have hbus := s.bus_burstRead n
    obtain ⟨hends, hrecords, hbuffers⟩ := hbus.quiet.concluded (s.burstRead_ends n).1
      (burstResult (s.burstRead n).2)
    refine ⟨_, r, (s.burstRead n).2.1, framedOperation_of_closed _ hc, ?_, hlen, hreceived, hissued,
      hends, hrecords, hbuffers, hbus.sameMode, s.burstRead_hazard n, hbus.evt,
      (State.regsKept_burstRead hn).concluded hbus.toExtends _ _⟩
    rw [State.conclude_result, burstResult, hok]

end Sys2Proof.Machine

/-!
PROOFS of the statements of 40_register_access: single reads and writes in which a call fails; the three
frame steps, with what a data exchange and the end of a frame do in a target that a law ties
(`State.Lawful`), whatever the other agents do meanwhile; and the byte read back.
-/

namespace Sys2Proof.Machine

/-! ### Single reads and writes in which a call fails (40_register_access R107, R108) -/

/-- A register read that may fail changes at most its own register (20_memory R66). -/
theorem State.regsKept_readReg_addressed (a : Addr) (s : State) :
    State.RegsKept [a] s (s.readReg a).1 :=
  State.runFrame_regs false a [s.cfg.dummyByte] (s.markRead a)

/-- Settles O21: the read is one frame, which ends with the error of its k-th call. -/
theorem singleReadFails : Obligations.SingleReadFails := by
  intro i s a k e ha hs hk hn he
  obtain ⟨herror, hissued⟩ := State.readReg_fails a hk hn he
  have hbus := s.bus_readReg a
  obtain ⟨hends, hrecords, hbuffers⟩ := hbus.quiet.concluded (s.readReg_ends a).1
    (resultWith .byte (s.readReg a).2)
  exact ⟨_, exec_of_readsRegister ha hs, congrArg (resultWith .byte) herror, hissued, hends, hrecords,
    hbuffers, hbus.sameMode, (s.regsKept_readReg_addressed a).concluded hbus.toExtends _ _⟩

/-- Settles O22: the write is one frame, which ends with the error of its k-th call, between the marks
of a mode write and the record that its mode is unknown. -/
theorem singleWriteFails : Obligations.SingleWriteFails := by
  intro i s a v k e ha hs hk hn he
  obtain ⟨herror, hissued⟩ := State.writeReg_fails a v hk hn he
  obtain ⟨hcache, hawait⟩ := s.writeReg_mode a v
  have hquiet := s.quiet_writeReg a v
  obtain ⟨hends, hrecords, hbuffers⟩ := hquiet.concluded (s.writeReg_ends a v).1
    (resultOf (s.writeReg a v).2)
  rw [herror] at hcache
  refine ⟨_, exec_of_writesRegister ha hs, ?_⟩
  simp only [State.conclude_result, State.conclude_modeCache, State.conclude_awaitReady]
  exact ⟨congrArg resultOf herror, State.issued_of_trace_right (State.conclude_trace ..) hissued, hends,
    hrecords, hbuffers, hcache, hawait, (s.regsKept_writeReg a v).concluded hquiet.toExtends _ _⟩

/-! ### The frame steps as instructions -/

/-- A frame step leaves the controller's records as bus traffic does, and its result. -/
theorem State.Bus.resulted {s u : State} (h : s.Bus u) (r : Result) :
    s.SameRecords { u with result := r } ∧ s.SameBuffers { u with result := r }
      ∧ s.SameMode { u with result := r } :=
  ⟨⟨h.cfg, h.script, h.requests, h.rst, h.dropped⟩, ⟨h.txBuf, h.rxBuf⟩, h.sameMode⟩

theorem exec_openFrame_of_closed {s : State} (hc : s.cs = false) :
    exec .openFrame s = .next { s.openFrame.1 with result := resultOf s.openFrame.2 } :=
  if_neg (by simp [hc])

theorem exec_exchange_of_closed {s : State} (hc : s.cs = false) (b : Byte) :
    exec (.exchange b) s = .refused .noFrame := if_pos hc

/-- After a step of the frame failed no exchange is taken (40_register_access R102). -/
theorem exec_exchange_of_frameErr {s : State} {e : OpError} (hc : s.cs = true)
    (he : s.frameErr = some e) (b : Byte) :
    exec (.exchange b) s = .refused .exchangeAfterError :=
  (if_neg (by simp [hc])).trans (if_pos (by simp [he]))

/-- In an open frame without an error only a burst to another register is refused. -/
theorem exec_exchange_of_open {s : State} (hc : s.cs = true) (he : s.frameErr = none) (b : Byte) :
    exec (.exchange b) s
      = if s.burstElsewhere then .refused .burstElsewhere
        else .next { (s.exchange b).1 with result := resultWith .byte (s.exchange b).2 } :=
  (if_neg (by simp [hc])).trans (if_neg (by simp [he]))

/-- `SetSelect(true)` reports what the platform reports, and the frame carries it. -/
theorem State.openFrame_frameErr (s : State) :
    s.openFrame.1.frameErr = (s.callErrorAt 0).map transportError := rfl

/-- Settles O23: `OpenFrame` is `State.openFrame`, which makes one call and begins the frame. -/
theorem openFrameOpens : Obligations.OpenFrameOpens := by
  intro s hc
  have hbus := s.bus_openFrame
  obtain ⟨hrecords, hbuffers, hmode⟩ := hbus.resulted (resultOf s.openFrame.2)
  refine ⟨_, exec_openFrame_of_closed hc, s.openFrame_cs, rfl, s.openFrame_opener,
    s.openFrame_issued, ?_, fun he b => ?_, hrecords, hbuffers, hmode, s.openFrame_hazard, hbus.evt,
    fun hs => ⟨hbus.version, s.openFrame_regs hs⟩⟩
  · show resultOf s.openFrame.2 = _
    rw [s.openFrame_error]
    cases s.callErrorAt 0 <;> rfl
  · obtain ⟨e, he⟩ := Option.ne_none_iff_exists'.mp he
    have hfe : s.openFrame.1.frameErr = some (transportError e) := by
      rw [s.openFrame_frameErr, he]; rfl
    exact exec_exchange_of_frameErr (s := { s.openFrame.1 with result := resultOf s.openFrame.2 })
      s.openFrame_cs hfe b

/-! ### Calls at a target that a law ties -/

/-- A law ties the target and the next `n` calls do not fail; unlike in `State.Calm` the target is either
simulated one and the other agents may step. -/
structure State.Lawful (n : Nat) (s : State) : Prop where
  law : s.lawless = false
  noFailure : s.noFailure n

theorem State.lawless_of_simulated {s : State} (ht : s.cfg.target ≠ .oracle) (hz : s.hazard = false) :
    s.lawless = false := by simp [State.lawless, ht, hz]

/-- A simulated target while no contract is broken, before a call that does not fail. -/
theorem State.lawful_one {s : State} (ht : s.cfg.target ≠ .oracle) (hz : s.hazard = false)
    (hc : s.callErrorAt 0 = none) : s.Lawful 1 :=
  ⟨State.lawless_of_simulated ht hz, fun k hk => by rwa [Nat.lt_one_iff.mp hk]⟩

theorem State.Lawful.callErrorAt_zero {n : Nat} {s : State} (h : s.Lawful (n + 1)) :
    s.callErrorAt 0 = none := h.noFailure 0 (Nat.succ_pos n)

theorem State.Lawful.later {n k : Nat} {s t : State} (h : s.Lawful (k + n)) (he : s.Extends t)
    (ht : t.tick = s.tick + k) (hz : t.hazard = s.hazard) : t.Lawful n where
  law := by
    have hl := h.law
    rwa [State.lawless, ← he.cfg, ← hz] at hl
  noFailure := State.noFailure_later he ht h.noFailure

/-- Where no other agent steps a lawful target is left as it is. -/
theorem State.elapse_target_of_undisturbed {s : State} (hl : s.lawless = false)
    (hu : s.undisturbed 1) : s.elapse.target = s.target := by
  rw [State.elapse_target_of_lawful hl, State.worldAfter_target_of_no_acts (hu 0 Nat.one_pos)]

/-! ### One exchange -/

/-- No exchange changes a register of the target that answers it (20_memory R61). -/
theorem State.answer_x (m : Moment) (free : Target) (b : Byte) (s : State) :
    (s.answer m free b).target.x = s.target.x := by
  unfold State.answer
  split
  · rfl
  · split
    · rfl
    · exact State.dataAnswer_x ..

theorem State.regsKept_exchange (b : Byte) (s : State) : State.RegsKept [] s (s.exchange b).1 := by
  have hx : (s.exchange b).1.target.x = s.elapse.target.x := by
    cases hc : s.callErrorAt 0 with
    | none =>
      obtain ⟨-, ht, -⟩ := State.exchange_answered hc b
      rw [ht]
      exact State.answer_x ..
    | some e =>
      have hc' : (s.setSeq (nextExchange s.seq)).callErrorAt 0 = some e := hc
      rw [State.exchange, State.transfer_of_error hc']
      rfl
  intro _ hl r _
  rw [Target.reg, hx, State.elapse_target_x ((s.bus_exchange b).toExtends.lawless hl), Target.reg]

/-- The error of an exchange stays with the frame, to its close (40_register_access R102). -/
theorem State.exchange_frameErr {s : State} {e : PlatformError} (h : s.callErrorAt 0 = some e)
    (b : Byte) : (s.exchange b).1.frameErr = some (transportError e) := by
  have h' : (s.setSeq (nextExchange s.seq)).callErrorAt 0 = some e := h
  rw [State.exchange, State.transfer_of_error h']

/-- A data exchange is answered in the frame's direction, at its address, by the target as the other
agents left it. -/
theorem State.Lawful.nextAnswer_eq {n : Nat} {s : State} (h : s.Lawful n) {f : BusFrame}
    (hf : s.frame = some f) {w : Bool} {a : Addr} (ha : f.addr = some (w, a)) (b : Byte) :
    ∃ (m : Moment) (free : Target) (u : State), s.nextAnswer b = u.dataAnswer m free f w a b
      ∧ u.cfg = s.cfg ∧ u.lawless = false ∧ u.target = s.elapse.target := by
  have hfe : (s.setSeq (nextExchange s.seq)).elapse.frame = some f := hf
  exact ⟨_, _, _, State.answer_data hfe ha _ _ b, rfl, h.law, rfl⟩

/-- A register write to `a` is delivered by a simulated target when its frame ends (20_memory R61): all
of them but those that the reference target takes into its FIFO. -/
def deliveredAtEnd (c : Config) (a : Addr) : Prop :=
  c.target = .loopback ∨ c.target = .reference ∧ a ≠ c.regFifo

/-- Register `a` stores what is written there and answers it: every register of the loopback target
(10_state R37), and those of the reference target but the FIFO and the read-only ones (R38, R39). -/
def plainStorage (c : Config) (a : Addr) : Prop :=
  c.target = .loopback
    ∨ c.target = .reference ∧ a ∉ [c.regFifo, c.regVersion, c.regIrqFlags1, c.regIrqFlags2]

theorem plainStorage.deliveredAtEnd {c : Config} {a : Addr} (h : plainStorage c a) :
    deliveredAtEnd c a :=
  h.imp id fun ⟨href, ha⟩ => ⟨href, by simp only [List.mem_cons, not_or] at ha; exact ha.1⟩

theorem deliveredAtEnd.simulated {c : Config} {a : Addr} (h : deliveredAtEnd c a) :
    c.target ≠ .oracle := by
  rcases h with h | ⟨h, -⟩ <;> rw [h] <;> nofun

/-- The byte of a register write waits with the frame for its end. -/
theorem State.Lawful.nextAnswer_register {n : Nat} {s : State} (h : s.Lawful n) {f : BusFrame}
    (hf : s.frame = some f) {a : Addr} (ha : f.addr = some (true, a))
    (hd : deliveredAtEnd s.cfg a) (b : Byte) :
    ∃ d, s.nextAnswer b = ⟨s.elapse.target, some { f.counted with pending := some b }, false, d⟩ := by
  obtain ⟨m, free, u, hu, hcfg, hl, ht⟩ := h.nextAnswer_eq hf ha b
  refine ⟨m.byte, hu.trans ?_⟩
  unfold State.dataAnswer
  rw [hl, hcfg, ht]
  rcases hd with hloop | ⟨href, hne⟩
  · rw [hloop]; rfl
  · rw [href]; exact if_neg hne

/-- A byte for the FIFO of the reference target enters it at its exchange (10_state R39). -/
theorem State.Lawful.nextAnswer_fifo {n : Nat} {s : State} (h : s.Lawful n)
    (href : s.cfg.target = .reference) {f : BusFrame} (hf : s.frame = some f)
    (ha : f.addr = some (true, s.cfg.regFifo)) (b : Byte) :
    ∃ free d, s.nextAnswer b = ⟨(Target.pushFifo s.cfg free b s.elapse.target).1, some f.counted,
      (Target.pushFifo s.cfg free b s.elapse.target).2, d⟩ := by
  obtain ⟨m, free, u, hu, hcfg, hl, ht⟩ := h.nextAnswer_eq hf ha b
  refine ⟨free, m.byte, hu.trans ?_⟩
  unfold State.dataAnswer
  rw [hl, hcfg, ht, href]
  exact if_pos rfl

/-- A register that is plain storage answers its byte (10_state R37, R38). -/
theorem State.Lawful.nextAnswer_read {n : Nat} {s : State} (h : s.Lawful n) {f : BusFrame}
    (hf : s.frame = some f) {a : Addr} (ha : f.addr = some (false, a))
    (hp : plainStorage s.cfg a) (b : Byte) :
    (s.nextAnswer b).byte = s.elapse.target.reg a := by
  obtain ⟨m, free, u, hu, hcfg, hl, ht⟩ := h.nextAnswer_eq hf ha b
  rw [hu]
  unfold State.dataAnswer
  rw [hl, hcfg, ht]
  rcases hp with hloop | ⟨href, hne⟩
  · rw [hloop]; rfl
  · simp only [List.mem_cons, List.not_mem_nil, or_false, not_or] at hne
    obtain ⟨hfifo, hversion, hflags1, hflags2⟩ := hne
    rw [href]
    simp [Target.readData, hfifo, hversion, hflags1, hflags2]

/-- The exchange of a FIFO byte on the reference target: it enters where there is room, and is marked
where there is none (10_state R39, 70_reset_and_hazards R250). -/
theorem State.exchange_fifo {s : State} {f : BusFrame} (hf : s.frame = some f)
    (ha : f.addr = some (true, s.cfg.regFifo)) (href : s.cfg.target = .reference)
    (hz : s.hazard = false) (hc : s.callErrorAt 0 = none) (b : Byte) :
    (s.exchange b).1.frame = some f.counted
      ∧ (s.undisturbed 1 →
          (s.target.fifo.length < s.cfg.fifoWindow →
              (s.exchange b).1.target = { s.target with fifo := s.target.fifo ++ [b] }
                ∧ (s.exchange b).1.hazard = false)
            ∧ (s.cfg.fifoWindow ≤ s.target.fifo.length → (s.exchange b).1.hazard = true)) := by
  have h : s.Lawful 1 := State.lawful_one (by rw [href]; nofun) hz hc
  obtain ⟨free, d, hans⟩ := h.nextAnswer_fifo href hf ha b
  obtain ⟨-, ht, hfr, hh⟩ := State.exchange_answered hc b
  rw [hans] at ht hfr hh
  refine ⟨hfr, fun hu => ?_⟩
  rw [State.elapse_target_of_undisturbed h.law hu] at ht hh
  rw [ht, hh, hz, Target.pushFifo]
  refine ⟨fun hroom => ?_, fun hfull => ?_⟩
  · rw [if_pos hroom]
    exact ⟨rfl, rfl⟩
  · rw [if_neg (Nat.not_lt.mpr hfull)]
    rfl

/-- The exchange of a register write's byte: it waits for the end of the frame, and the target is as the
other agents left it. -/
theorem State.exchange_register {s : State} {f : BusFrame} {a : Addr} (hf : s.frame = some f)
    (ha : f.addr = some (true, a)) (hd : deliveredAtEnd s.cfg a) (hz : s.hazard = false)
    (hc : s.callErrorAt 0 = none) (b : Byte) :
    (s.exchange b).1.frame = some { f.counted with pending := some b }
      ∧ (s.exchange b).1.hazard = false ∧ (s.exchange b).1.target = s.elapse.target := by
  have h : s.Lawful 1 := State.lawful_one hd.simulated hz hc
  obtain ⟨d, hans⟩ := h.nextAnswer_register hf ha hd b
  obtain ⟨-, ht, hfr, hh⟩ := State.exchange_answered hc b
  rw [hans] at ht hfr hh
  exact ⟨hfr, by rw [hh, hz]; rfl, ht⟩

/-- A second data byte to another register is a burst elsewhere (30_encoding R81). -/
theorem State.burstElsewhere_of_data {s : State} {f : BusFrame} {w : Bool} {a : Addr}
    (hf : s.frame = some f) (ha : f.addr = some (w, a)) (hd : 0 < f.data) (hne : a ≠ s.cfg.regFifo)
    (hl : s.lawless = false) : s.burstElsewhere = true := by
  obtain ⟨fa, fd, ft, ff, fp⟩ := f
  obtain rfl : fa = some (w, a) := ha
  rw [State.burstElsewhere, hf]
  simp [hl, hne, show 0 < fd from hd]

/-- What an exchange that succeeds answers and receives. -/
theorem State.exchange_receives {s : State} (h : s.callErrorAt 0 = none) (b : Byte) :
    ∃ r, (s.exchange b).2 = .ok r ∧ s.received (s.exchange b).1 = [r] := by
  obtain ⟨r, hr⟩ := State.exchange_of_none h b
  exact ⟨r, hr, by rw [State.exchange_received, hr]⟩

/-- Settles O24: `Exchange` is `State.exchange`, one call, answered by the target as its data exchange
says. -/
theorem exchangeMovesOneByte : Obligations.ExchangeMovesOneByte := by
  refine ⟨fun s b hc he hb => ?_, fun s b hc => exec_exchange_of_closed hc b,
    fun s b f w a hc he hf ha hd hne ht hz => ?_⟩
  · have hbus := s.bus_exchange b
    obtain ⟨hcs, hopener⟩ := s.exchange_keeps b
    obtain ⟨hrecords, hbuffers, hmode⟩ := hbus.resulted (resultWith .byte (s.exchange b).2)
    refine ⟨_, (exec_exchange_of_open hc he b).trans (if_neg (by simp [hb])), s.exchange_issued b,
      hcs.trans hc, hopener, s.exchange_seq b, fun hok => ?_, fun e herr => ?_, hrecords, hbuffers,
      hmode, hbus.hazard, hbus.evt, fun hs => ⟨hbus.version, s.regsKept_exchange b hs⟩,
      fun f hf ha href hz hok => ?_, fun f a hf ha hd hz hok => ?_⟩
    · obtain ⟨r, hr, hreceived⟩ := State.exchange_receives hok b
      exact ⟨r, congrArg (resultWith .byte) hr, hreceived⟩
    · have hr := State.exchange_of_error herr b
      have hreceived := s.exchange_received b
      rw [hr] at hreceived
      exact ⟨congrArg (resultWith .byte) hr, hreceived, exec_exchange_of_frameErr
        (s := { (s.exchange b).1 with result := resultWith .byte (s.exchange b).2 })
        (hcs.trans hc) (State.exchange_frameErr herr b)⟩
    · obtain ⟨hfr, hfifo⟩ := State.exchange_fifo hf ha href hz hok b
      exact ⟨⟨f.counted, hfr, ha, rfl, rfl⟩, hfifo⟩
    · obtain ⟨hfr, hh, ht⟩ := State.exchange_register hf ha hd hz hok b
      exact ⟨⟨_, hfr, ha, rfl, rfl⟩, hh, fun hu => ht.trans (State.elapse_target_of_undisturbed
        (State.lawless_of_simulated (deliveredAtEnd.simulated hd) hz) hu)⟩
  · exact (exec_exchange_of_open hc he b).trans (if_pos
      (State.burstElsewhere_of_data hf ha hd hne (State.lawless_of_simulated ht hz)))

/-! ### The end of a frame -/

theorem exec_closeFrame (e : Option OpError) (s : State) :
    exec (.closeFrame e) s
      = .next { (s.closeFrame e).1 with result := resultOf (s.closeFrame e).2 } := rfl

theorem State.closeFrame_hazard_eq (e : Option OpError) (s : State) :
    (s.closeFrame e).1.hazard = (s.hazard
      || (s.closing.elapse.afterFrame s.closing.moment s.closing.free s.closing.callError).2) := rfl

/-- A delivery marks nothing but a byte at the mode register that is no mode value
(70_reset_and_hazards R249). -/
theorem Target.deliver_unmarked {c : Config} {a : Addr} {v : Byte}
    (h : a = c.regOpmode → (modeOf c v).isSome = true) (free t : Target) :
    (Target.deliver c free a v t).2 = false := by
  unfold Target.deliver
  split
  · unfold Target.writeRegister
    split
    · next ha =>
      obtain ⟨m, hm⟩ := Option.isSome_iff_exists.mp (h ha)
      simp only [hm]
    · split <;> rfl
  · rfl

/-- The end of a frame marks nothing where it delivers nothing that a delivery marks. -/
theorem State.afterFrame_unmarked {s : State}
    (h : ∀ f w v, s.frame = some f → f.addr = some (w, s.cfg.regOpmode) → f.pending = some v →
      (modeOf s.cfg v).isSome = true) (m : Moment) (free : Target) (e : Option PlatformError) :
    (s.afterFrame m free e).2 = false := by
  unfold State.afterFrame
  split
  · next hf =>
    split
    · rfl
    · split
      · rfl
      · split
        · exact Target.deliver_unmarked (fun ha => h _ _ _ hf (by rw [ha]) rfl) ..
        · rfl
  · rfl

/-- `CS-` changes no register that the frame has not addressed. -/
theorem State.regsKept_closeFrame {as : List Addr} {s : State}
    (h : ∀ f w a, s.frame = some f → f.addr = some (w, a) → a ∈ as) (e : Option OpError) :
    State.RegsKept as s (s.closeFrame e).1 := by
  by_cases hu : ∀ f, s.frame = some f → f.addr = none
  · exact (State.closeFrame_regs_unaddressed hu e).mono (by simp)
  · push Not at hu
    obtain ⟨f, hf, ha⟩ := hu
    obtain ⟨⟨w, a⟩, hwa⟩ := Option.ne_none_iff_exists'.mp ha
    exact (State.closeFrame_regs ⟨f, hf, hwa⟩ e).mono fun b hb => by
      obtain rfl := List.mem_singleton.mp hb
      exact h f w b hf hwa

/-- `CS-` of a register write in which nothing failed: its byte is delivered to the target as the other
agents left it (20_memory R61), whatever error the controller carries. -/
theorem State.Lawful.closeFrame {n : Nat} {s : State} (h : s.Lawful (n + 1)) {f : BusFrame} {a : Addr}
    {v : Byte} (hf : s.frame = some f) (ha : f.addr = some (true, a)) (hp : f.pending = some v)
    (hg : f.failed = false) (e : Option OpError) :
    ∃ free, (s.closeFrame e).1.target = (Target.deliver s.cfg free a v s.elapse.target).1
      ∧ (s.closeFrame e).1.hazard
        = (s.hazard || (Target.deliver s.cfg free a v s.elapse.target).2) := by
  have hf' : s.closing.elapse.frame = some f := hf
  have hl : s.closing.elapse.lawless = false := h.law
  have hc : s.closing.callError = none := h.callErrorAt_zero
  obtain ⟨fa, fd, ft, ff, fp⟩ := f
  obtain rfl : fa = some (true, a) := ha
  obtain rfl : ff = false := hg
  obtain rfl : fp = some v := hp
  have hend : s.closing.elapse.afterFrame s.closing.moment s.closing.free s.closing.callError
      = Target.deliver s.cfg s.closing.free a v s.elapse.target := by
    rw [State.afterFrame, hf', hl, hc]
    rfl
  exact ⟨s.closing.free, by rw [State.closeFrame_target, hend],
    by rw [State.closeFrame_hazard_eq, hend]⟩

/-! ### What a delivery does -/

theorem Target.deliver_loopback {c : Config} (h : c.target = .loopback) (free : Target) (a : Addr)
    (v : Byte) (t : Target) : Target.deliver c free a v t = (t.setReg a v, false) :=
  if_neg (by rw [h]; nofun)

theorem Target.deliver_reference {c : Config} (h : c.target = .reference) (free : Target) (a : Addr)
    (v : Byte) (t : Target) :
    Target.deliver c free a v t = Target.writeRegister c free a v t := if_pos h

theorem Target.writeRegister_notMode {c : Config} {v : Byte} (hv : (modeOf c v).isSome = false)
    (free t : Target) :
    Target.writeRegister c free c.regOpmode v t
      = ({ t.setReg c.regOpmode v with
            chipMode := free.chipMode, ready := false, packetSent := false, payloadReady := false },
        true) := by
  rw [Target.writeRegister, if_pos rfl]
  simp only [Option.not_isSome_iff_eq_none.mp (by rw [hv]; nofun)]

/-- Plain storage stores the byte delivered, a byte that is no mode value among them. -/
theorem Target.deliver_stores {c : Config} {a : Addr} (hp : plainStorage c a) {t : Target}
    (ht : t.sound c) (free : Target) (v : Byte) : (Target.deliver c free a v t).1.reg a = v := by
  have hstored := Target.reg_setReg_same ht.1 a v
  rcases hp with hloop | ⟨href, hne⟩
  · rwa [Target.deliver_loopback hloop]
  · rw [Target.deliver_reference href]
    simp only [List.mem_cons, List.not_mem_nil, or_false, not_or] at hne
    by_cases ha : a = c.regOpmode
    · subst ha
      cases hv : (modeOf c v).isSome with
      | true => rwa [Target.writeRegister_mode hv]
      | false => rwa [Target.writeRegister_notMode hv]
    · rwa [Target.writeRegister_storage ha (by simp [hne])]

/-- What the delivery of `v` at `a` to the reference target `t` leaves, by the table of 10_state R39: the
target `u`, and whether `hazard` is set. -/
def Target.DeliveredAs (c : Config) (a : Addr) (v : Byte) (t u : Target) (marked : Bool) : Prop :=
  if a = c.regOpmode then
    ((modeOf c v).isSome = true → u.reg a = v ∧ u.ready = false ∧ u.packetSent = false
        ∧ u.payloadReady = false)
      ∧ ((modeOf c v).isSome = false → marked = true)
  else if a = c.regVersion ∨ a = c.regIrqFlags1 ∨ a = c.regIrqFlags2 then u = t
  else u.reg a = v

theorem Target.writeRegister_deliveredAs {c : Config} {t : Target} (ht : t.sound c) (free : Target)
    (a : Addr) (v : Byte) :
    Target.DeliveredAs c a v t (Target.writeRegister c free a v t).1
      (Target.writeRegister c free a v t).2 := by
  have hstored := Target.reg_setReg_same ht.1 a v
  unfold Target.DeliveredAs
  split_ifs with hmode hro
  · subst hmode
    refine ⟨fun hv => ?_, fun hv => ?_⟩
    · rw [Target.writeRegister_mode hv]
      exact ⟨hstored, rfl, rfl, rfl⟩
    · rw [Target.writeRegister_notMode hv]
  · rw [Target.writeRegister_readOnly hmode hro]
  · rwa [Target.writeRegister_storage hmode hro]

/-- The registers of a lawful target are those it had before the other agents' steps. -/
theorem State.otherRegistersKept_of_elapsed {s t : State} (hl : s.lawless = false)
    (ht : t.target = s.elapse.target) : s.OtherRegistersKept t [] := by
  refine ⟨by rw [ht, State.elapse_target_version], fun _ b _ => ?_⟩
  rw [ht, Target.reg, State.elapse_target_x hl, Target.reg]

/-- Settles O25: `CloseFrame` is `State.closeFrame`, one call, at which a register write is delivered. -/
theorem closeFrameReleases : Obligations.CloseFrameReleases := by
  intro s e
  have hbus := s.bus_closeFrame e
  obtain ⟨hrecords, hbuffers, hmode⟩ := hbus.resulted (resultOf (s.closeFrame e).2)
  refine ⟨_, exec_closeFrame e s, s.closeFrame_cs e, s.closeFrame_issued e, s.closeFrame_seq e, rfl,
    rfl, ?_, hrecords, hbuffers, hmode, hbus.evt, hbus.hazard, fun h => ?_,
    fun as h hs => ⟨hbus.version, State.regsKept_closeFrame h e hs⟩,
    fun f a v hf ha hp hg hok hz hs => ⟨fun hloop => ?_, fun href hfifo => ?_⟩⟩
  · show resultOf (s.closeFrame e).2 = _
    rw [State.closeFrame_error]
    cases e <;> cases s.callErrorAt 0 <;> rfl
  · show (s.closeFrame e).1.hazard = s.hazard
    rw [State.closeFrame_hazard_eq, State.afterFrame_unmarked (s := s.closing.elapse) h, Bool.or_false]
  · have h : s.Lawful 1 := State.lawful_one (by rw [hloop]; nofun) hz hok
    obtain ⟨free, ht, -⟩ := h.closeFrame hf ha hp hg e
    exact (congrArg (Target.reg · a) ht).trans
      (Target.deliver_stores (.inl hloop) (State.elapse_target_sound hs) free v)
  · have h : s.Lawful 1 := State.lawful_one (by rw [href]; nofun) hz hok
    obtain ⟨free, ht, hh⟩ := h.closeFrame hf ha hp hg e
    rw [Target.deliver_reference href] at ht hh
    rw [hz, Bool.false_or] at hh
    have hrow := Target.writeRegister_deliveredAs (State.elapse_target_sound hs) free a v
    rw [← ht, ← hh] at hrow
    unfold Target.DeliveredAs at hrow
    split_ifs at hrow ⊢ with hopmode hro
    · exact hrow
    · exact State.otherRegistersKept_of_elapsed h.law hrow
    · exact hrow

/-! ### A byte written and read back (40_register_access R106) -/

/-- A frame of two bytes in which no call fails: `CS+`, the two exchanges, `CS-`; the second byte
answered is the target's answer to the second exchange. -/
theorem State.runFrame_two_of_noFailure {s : State} (h : s.noFailure 4) (w : Bool) (a : Addr)
    (b : Byte) :
    ∃ r, s.runFrame [addressByte s.cfg w a, b]
      = ((((s.addressed w a).exchange b).1.closeFrame none).1,
        [r, ((s.addressed w a).nextAnswer b).byte], none) := by
  have ho : s.openFrame.2 = none := by rw [State.openFrame_error, h 0 (by omega)]; rfl
  have h1 : s.openFrame.1.noFailure 3 :=
    State.noFailure_later (m := 3) s.bus_openFrame.toExtends s.openFrame_tick h
  obtain ⟨r, hr⟩ := State.exchange_of_none (h1 0 (by omega)) (addressByte s.cfg w a)
  have h2 : (s.addressed w a).noFailure 2 :=
    State.noFailure_later (m := 2) (State.bus_exchange _ _).toExtends (State.exchange_tick _ _) h1
  obtain ⟨hr', -⟩ := State.exchange_answered (h2 0 (by omega)) b
  have h3 : ((s.addressed w a).exchange b).1.noFailure 1 :=
    State.noFailure_later (m := 1) (State.bus_exchange b _).toExtends (State.exchange_tick b _) h2
  have hc := h3 0 Nat.one_pos
  refine ⟨r, ?_⟩
  unfold State.addressed at *
  simp [State.runFrame, State.exchangeAll, ho, hr, hr', State.closeFrame_error, hc]

/-- A frame begun in a lawful target: it is addressed, and nothing has been marked. -/
theorem State.Lawful.addressed {n : Nat} {s : State} (h : s.Lawful (n + 2)) (w : Bool) (a : Addr) :
    (s.addressed w a).Lawful n
      ∧ (s.addressed w a).frame = some { addr := some (w, a), attempted := 1 }
      ∧ (s.addressed w a).hazard = s.hazard := by
  have h1 : s.openFrame.1.Lawful (n + 1) :=
    State.Lawful.later (k := 1) (by rwa [Nat.add_comm]) s.bus_openFrame.toExtends s.openFrame_tick
      s.openFrame_hazard
  have hf : s.openFrame.1.frame = some {} := by rw [State.openFrame_frame, h.callErrorAt_zero]; rfl
  have hans : (s.openFrame.1.nextAnswer (addressByte s.cfg w a)).frame
        = some { addr := some (w, a), attempted := 1 }
      ∧ (s.openFrame.1.nextAnswer (addressByte s.cfg w a)).hazard = false := by
    have hfe : (s.openFrame.1.setSeq (nextExchange s.openFrame.1.seq)).elapse.frame = some {} := hf
    rw [State.nextAnswer, State.answer_address hfe rfl]
    simp [s.bus_openFrame.cfg]
  obtain ⟨-, -, hfr, hz⟩ := State.exchange_answered h1.callErrorAt_zero (addressByte s.cfg w a)
  rw [hans.1] at hfr
  rw [hans.2, Bool.or_false] at hz
  exact ⟨State.Lawful.later (k := 1) (by rwa [Nat.add_comm]) (State.bus_exchange _ _).toExtends
    (State.exchange_tick _ _) hz, hfr, hz⟩

theorem State.addressed_reg (w : Bool) (a b : Addr) {s : State} (hs : s.target.sound s.cfg)
    (hl : (s.addressed w a).lawless = false) : (s.addressed w a).target.reg b = s.target.reg b :=
  State.RegsKept.trans s.bus_openFrame.toExtends s.openFrame_regs (State.bus_exchange _ _).toExtends
    (State.regsKept_exchange _ _) hs hl b (by simp)

/-- A write frame to plain storage stores its byte, whatever the other agents do meanwhile. -/
theorem State.Lawful.runFrame_stores {s : State} (h : s.Lawful 4) (hz : s.hazard = false)
    (hs : s.target.sound s.cfg) {a : Addr} (hp : plainStorage s.cfg a) (v : Byte) :
    (s.runFrame [addressByte s.cfg true a, v]).1.target.reg a = v := by
  obtain ⟨r, hrun⟩ := State.runFrame_two_of_noFailure h.noFailure true a v
  obtain ⟨h2, hf, hz2⟩ := h.addressed true a
  have hcfg2 := (s.bus_addressed true a).cfg
  obtain ⟨hf3, hz3, -⟩ := State.exchange_register hf rfl (by rw [hcfg2]; exact hp.deliveredAtEnd)
    (hz2.trans hz) h2.callErrorAt_zero v
  have hbus := (s.bus_addressed true a).trans (State.bus_exchange v _)
  have h3 : ((s.addressed true a).exchange v).1.Lawful 1 :=
    State.Lawful.later (k := 1) h2 (State.bus_exchange _ _).toExtends (State.exchange_tick _ _)
      (by rw [hz3, hz2, hz])
  obtain ⟨free, ht, -⟩ := h3.closeFrame hf3 rfl rfl rfl none
  have hs3 : ((s.addressed true a).exchange v).1.elapse.target.sound s.cfg := by
    rw [← hbus.cfg]
    exact State.elapse_target_sound (by rw [hbus.cfg]; exact hbus.sound hs)
  rw [hrun, ht, hbus.cfg]
  exact Target.deliver_stores hp hs3 free v

/-- The marks at the start of a write that keeps the readiness rule, to another register than the mode
register, are none (70_reset_and_hazards R246). -/
theorem State.marked_eq_self {a : Addr} {s : State} (h : s.awaitReady = false)
    (ha : a ≠ s.cfg.regOpmode) (v : Byte) : s.marked a v = s := by
  have hm : s.markWrite a = s := by
    rw [State.markWrite, h, State.markHazard, Bool.false_and, Bool.or_false]
  rw [State.marked, hm, State.beginModeWrite_of_ne ha]

/-- A byte at plain storage, but at the mode register, is marked by no target. -/
theorem plainStorage.harmless {c : Config} {a : Addr} (h : plainStorage c a) (ha : a ≠ c.regOpmode)
    (v : Byte) : harmless c true a v :=
  .inr (h.imp (fun hloop => by rw [hloop]; nofun)
    fun ⟨_, hne⟩ => ⟨fun hfifo => hne (by simp [hfifo]), fun ho => absurd ho ha⟩)

/-- A register write to plain storage, but to the mode register, stores its byte, changes no other
register, and has neither `hazard` set nor readiness awaited. -/
theorem State.Lawful.writeReg_plain {s : State} (h : s.Lawful 4) (hz : s.hazard = false)
    (hw : s.awaitReady = false) (hs : s.target.sound s.cfg) {a : Addr} (hp : plainStorage s.cfg a)
    (ha : a ≠ s.cfg.regOpmode) (v : Byte) :
    (s.writeReg a v).1.hazard = false ∧ (s.writeReg a v).1.awaitReady = false
      ∧ (s.writeReg a v).1.target.reg a = v
      ∧ ∀ b, b ≠ a → (s.writeReg a v).1.target.reg b = s.target.reg b := by
  have hhazard : (s.writeReg a v).1.hazard = false := by
    rw [s.writeReg_hazard (hp.harmless ha v)]
    simp [hz, hw, ha]
  have hlaw : (s.writeReg a v).1.lawless = false := by
    refine State.lawless_of_simulated ?_ hhazard
    rw [(s.quiet_writeReg a v).cfg]
    exact hp.deliveredAtEnd.simulated
  refine ⟨hhazard, ?_, ?_, fun b hb => s.regsKept_writeReg a v hs hlaw b (by simpa using hb)⟩
  · rw [(s.writeReg_mode a v).2]
    simp [hw, ha]
  · rw [(s.writeReg_frame a v).1, State.marked_eq_self hw ha]
    exact h.runFrame_stores hz hs hp v

/-- A register read at plain storage answers the byte stored, whatever the other agents do meanwhile,
changes no register and sets no mark. -/
theorem State.Lawful.readReg_plain {s : State} (h : s.Lawful 4) (hz : s.hazard = false)
    (hw : s.awaitReady = false) (hs : s.target.sound s.cfg) {a : Addr}
    (hp : plainStorage s.cfg a) :
    (s.readReg a).2 = .ok (s.target.reg a) ∧ (s.readReg a).1.hazard = false
      ∧ ∀ b, (s.readReg a).1.target.reg b = s.target.reg b := by
  have hhazard : (s.readReg a).1.hazard = false := by
    rw [s.readReg_hazard, hz, hw]
    rfl
  have hlaw : (s.readReg a).1.lawless = false := by
    refine State.lawless_of_simulated ?_ hhazard
    rw [(s.bus_readReg a).cfg]
    exact hp.deliveredAtEnd.simulated
  refine ⟨?_, hhazard, fun b => State.regsKept_readReg a h.noFailure hs hlaw b (by simp)⟩
  obtain ⟨r, hrun⟩ := State.runFrame_two_of_noFailure h.noFailure false a s.cfg.dummyByte
  obtain ⟨h2, hf, -⟩ := h.addressed false a
  have hbyte : ((s.addressed false a).nextAnswer s.cfg.dummyByte).byte = s.target.reg a := by
    rw [h2.nextAnswer_read hf rfl (by rwa [(s.bus_addressed false a).cfg]), Target.reg,
      State.elapse_target_x h2.law, ← Target.reg, State.addressed_reg false a a hs h2.law]
  have hrun' : s.runFrame (readFrameBytes s.cfg a 1) = _ := hrun
  rw [State.readReg, State.markRead_eq_self (.inl hw), State.readFrame, hrun', hbyte]
  rfl

/-- Settles O27: the write stores the byte and keeps the contracts, so the read that follows answers it;
at the mode register the write has readiness awaited, and the read breaks the rule. -/
theorem writtenBytesReadBack : Obligations.WrittenBytesReadBack := by
  intro s addr v hs hi hr hz hw hn hp
  have hp' : plainStorage s.cfg (registerOf addr) := hp
  generalize ha : registerOf addr = a at hp' ⊢
  have hn4 : s.noFailure 4 := State.noFailure_mono hn (by omega)
  obtain ⟨hok, -, -, htick⟩ := State.writeReg_ok a v hn4
  have hext := (s.quiet_writeReg a v).toExtends.trans
    (State.extends_conclude s.seq (resultOf (s.writeReg a v).2) _)
  have hnt := State.noFailure_later (m := 4) hext htick hn
  have hwrite := exec_of_writesRegister (s := s) (writesRegister_writeRegister hr v)
    ⟨fun _ => hi, nofun⟩
  have hread := exec_of_readsRegister (i := .readRegister addr)
    (s := (s.writeReg a v).1.conclude s.seq (resultOf (s.writeReg a v).2))
    (readsRegister_readRegister (by rwa [hext.cfg])) ⟨fun _ => (State.conclude_seq ..).trans hi, nofun⟩
  rw [ha] at hwrite hread
  refine ⟨_, _, hwrite, by rw [State.conclude_result, hok]; rfl, hread, fun hne => ?_,
    fun hmode hflags => ?_⟩
  · have h : s.Lawful 4 := ⟨State.lawless_of_simulated hp'.deliveredAtEnd.simulated hz, hn4⟩
    obtain ⟨hzt, hwt, hstored, hkept⟩ := h.writeReg_plain hz hw hs hp' hne v
    rw [← State.conclude_hazard s.seq (resultOf (s.writeReg a v).2)] at hzt
    rw [← State.conclude_awaitReady s.seq (resultOf (s.writeReg a v).2)] at hwt
    have ht : ((s.writeReg a v).1.conclude s.seq (resultOf (s.writeReg a v).2)).Lawful 4 :=
      ⟨State.lawless_of_simulated (by rw [hext.cfg]; exact hp'.deliveredAtEnd.simulated) hzt, hnt⟩
    obtain ⟨hanswer, hzu, hkept'⟩ := ht.readReg_plain (a := a) hzt hwt
      (by rw [hext.cfg]; exact hext.sound hs) (by rwa [hext.cfg])
    rw [State.conclude_target, hstored] at hanswer
    refine ⟨by rw [State.conclude_result, hanswer]; rfl, by rw [State.conclude_hazard, hzu],
      fun b hb => ?_⟩
    rw [State.conclude_target, hkept' b, State.conclude_target, hkept b hb]
  · obtain ⟨r, b, hanswer, -⟩ := State.readReg_ok a hnt
    have hwt := (s.writeReg_mode a v).2
    refine ⟨?_, b, by rw [State.conclude_result, hanswer]; rfl⟩
    rw [State.conclude_hazard, State.readReg_hazard, State.conclude_awaitReady, hwt, hext.cfg]
    simp [hmode, hflags]

end Sys2Proof.Machine

/-!
PROOFS of the statements of 41_device_identity: `DetectDevice` is a read of the version register and a
verdict on its answer.
-/

namespace Sys2Proof.Machine

theorem identityVerdict_ok (c : Config) (b : Byte) :
    identityVerdict c (.ok b) = decide (b = c.expectedVersion) := rfl

theorem identityVerdict_error (c : Config) (e : OpError) : identityVerdict c (.error e) = false := rfl

/-- What `DetectDevice` is from `Idle`: one register read, concluded with the verdict on its answer. -/
theorem exec_detectDevice_of_idle {s : State} (hi : s.seq = .idle) :
    exec .detectDevice s = .next ((s.readReg s.cfg.regVersion).1.conclude s.seq
      (.ok (.bool (identityVerdict s.cfg (s.readReg s.cfg.regVersion).2)))) := by
  change execDetectDevice s = _
  rw [execDetectDevice, hostOperation_of_idle _ hi]

/-- Settles O36: the byte the read answers decides the verdict, an error of the read makes it `false`,
and the rest is what a register read does and leaves. -/
theorem detectDeviceCompares : Obligations.DetectDeviceCompares := by
  intro s hi
  have hexec := exec_detectDevice_of_idle hi
  have hbus := s.bus_readReg s.cfg.regVersion
  obtain ⟨hends, hrecords, hbuffers⟩ := hbus.quiet.concluded (s.readReg_ends s.cfg.regVersion).1
    (.ok (.bool (identityVerdict s.cfg (s.readReg s.cfg.regVersion).2)))
  rw [hi] at hexec hends hrecords hbuffers
  refine ⟨fun hn => ?completes, fun k e hk hn he => ?fails⟩
  case completes =>
    obtain ⟨r, b, hok, hreceived, hissued, -⟩ := State.readReg_ok s.cfg.regVersion hn
    refine ⟨_, r, b, hexec, ?_, hreceived, hissued, hends, hrecords, hbuffers, hbus.sameMode,
      s.readReg_hazard _, hbus.evt, (State.regsKept_readReg _ hn).concluded hbus.toExtends _ _⟩
    rw [State.conclude_result, hok, identityVerdict_ok]
  case fails =>
    obtain ⟨herror, hissued⟩ := State.readReg_fails s.cfg.regVersion hk hn he
    refine ⟨_, hexec, ?_, hissued, hends, hrecords, hbuffers, hbus.sameMode⟩
    rw [State.conclude_result, herror, identityVerdict_error]

end Sys2Proof.Machine

/-!
PROOFS of the statements of 42_mode_controller: the Standby write, the reset pulse, and the bounded poll,
which is some clear polls and a last one.
-/

namespace Sys2Proof.Machine

/-! ### `SetStandbyMode` (42_mode_controller R132) -/

/-- What `SetStandbyMode` is from `Idle`: the mode write, concluded with its error wrapped. -/
theorem exec_setStandbyMode_of_idle {s : State} (hi : s.seq = .idle) :
    exec .setStandbyMode s = .next ((s.setMode .standby).1.conclude s.seq
      (resultOf ((s.setMode .standby).2.map (wrapError .setStandbyMode)))) := by
  change execSetStandbyMode s = _
  rw [execSetStandbyMode, hostOperation_of_idle _ hi]
  rfl

/-- Settles O37: `SetStandbyMode` is one register write, and wrapping its error keeps the cause. -/
theorem setStandbyModeWraps : Obligations.SetStandbyModeWraps := by
  intro s hi
  have hexec := exec_setStandbyMode_of_idle hi
  obtain ⟨hcache, hawait⟩ := s.setMode_mode .standby
  have hquiet := s.quiet_setMode .standby
  obtain ⟨hends, hrecords, hbuffers⟩ := hquiet.concluded (s.setMode_ends .standby).1
    (resultOf ((s.setMode .standby).2.map (wrapError .setStandbyMode)))
  rw [hi] at hexec hends hrecords hbuffers
  refine ⟨fun hn => ?completes, fun k e hk hn he => ?fails⟩
  case completes =>
    obtain ⟨hok, -, hissued, -⟩ := State.writeReg_ok s.cfg.regOpmode (modeValue s.cfg .standby) hn
    have hok' : (s.setMode .standby).2 = none := hok
    rw [hok'] at hcache
    refine ⟨_, hexec, ?_⟩
    simp only [State.conclude_result, State.conclude_modeCache, State.conclude_awaitReady,
      State.conclude_hazard, State.conclude_evt]
    exact ⟨congrArg (fun o => resultOf (o.map (wrapError .setStandbyMode))) hok',
      State.issued_of_trace_right (State.conclude_trace ..) hissued, hcache, hawait,
      fun hne => s.setMode_hazard _ (.inr hne.symm), hends, hrecords, hbuffers,
      s.keepsEvent_writeReg _ _, (s.regsKept_writeReg _ _).concluded hquiet.toExtends _ _⟩
  case fails =>
    obtain ⟨herror, hissued⟩ :=
      State.writeReg_fails s.cfg.regOpmode (modeValue s.cfg .standby) hk hn he
    have herror' : (s.setMode .standby).2 = some (transportError e) := herror
    rw [herror'] at hcache
    refine ⟨_, hexec, ?_⟩
    simp only [State.conclude_result, State.conclude_modeCache, State.conclude_awaitReady]
    exact ⟨congrArg (fun o => resultOf (o.map (wrapError .setStandbyMode))) herror',
      State.issued_of_trace_right (State.conclude_trace ..) hissued, hcache, hawait, hends⟩

/-! ### `Reset` (42_mode_controller R135, 70_reset_and_hazards R241) -/

theorem exec_reset_of_idle {s : State} (hi : s.seq = .idle) :
    exec .reset s = .next (s.resetPulse.conclude s.seq (.ok .unit)) := by
  change execReset s = _
  rw [execReset, hostOperation_of_idle _ hi]

/-- The reset pulse is four calls, none of them on the bus. -/
theorem State.resetPulse_issued (s : State) :
    s.issued s.resetPulse [.resetLevel false, .sleep s.cfg.resetLowTime, .resetLevel true,
      .sleep s.cfg.resetHoldTime] := by
  simp [State.issued, State.resetPulse, BusCall.act]

theorem State.powerOnTarget_irq (s : State) : s.powerOnTarget.target.irq = false := by
  unfold State.powerOnTarget
  dsimp only
  split <;> rfl

theorem State.powerOnTarget_target {s : State} (h : s.lawless = false) :
    s.powerOnTarget.target = Target.poweredOn s.cfg s.moment.target s.target := by
  simp [State.powerOnTarget, h]

/-- Where the reset image gives a byte, the register comes up with it. -/
theorem Target.poweredOn_reg {c : Config} {a : Addr} {v : Byte}
    (h : c.resetImage[a.toNat]? = some (some v)) (free t : Target) :
    (Target.poweredOn c free t).reg a = v := by
  have hread := Memory.read_overlay c.resetImage (Memory.wf_canon free.x) (Nat.zero_le a.toNat) a.isLt
  rw [Nat.sub_zero, List.getD_eq_getElem?_getD, h] at hread
  exact hread

/-- A clean simulated target ends the pulse powered on (70_reset_and_hazards R241). -/
theorem State.resetPulse_target {s : State} (ht : s.cfg.target ≠ .oracle) (hz : s.hazard = false) :
    ∃ free t, s.resetPulse.target = Target.poweredOn s.cfg free t := by
  have hcfg := s.resetHoldEnd_spec.1.cfg
  have hlaw : s.resetHoldEnd.lawless = false := State.lawless_of_simulated (by rwa [hcfg]) hz
  have htarget := State.powerOnTarget_target hlaw
  rw [hcfg] at htarget
  exact ⟨_, _, htarget⟩

/-- Settles O42: the pulse is `State.resetPulse`, which ends with the target's power-on. -/
theorem resetPulsesTheLine : Obligations.ResetPulsesTheLine := by
  intro s hi
  have hexec := exec_reset_of_idle hi
  rw [hi] at hexec
  obtain ⟨hext, hrst, hcs, hcache, hawait, hhazard, hdropped, -, hbuffers, hclock⟩ := s.resetPulse_spec
  refine ⟨_, hexec, rfl, s.resetPulse_issued, hclock, hrst, hcache, hawait, rfl, hcs, hhazard, hdropped,
    hext.cfg, hext.requests, hbuffers, s.keepsEvent_resetPulse, hext.version,
    s.resetHoldEnd.powerOnTarget_irq, fun ht hz => ?_⟩
  obtain ⟨free, t, htarget⟩ := State.resetPulse_target ht hz
  rw [State.conclude_target, htarget]
  exact ⟨rfl, rfl, rfl, fun a v hv => Target.poweredOn_reg hv free t⟩

/-! ### One poll, and the loop (42_mode_controller R133, 44_packet_io R175) -/

/-- `floor(timeout / POLL_INTERVAL) + 1` sleeps take longer than `timeout` (42_mode_controller R134). -/
theorem timeout_lt_sleeps (c : Config) (timeout : Nat) :
    timeout < (timeout / c.pollInterval + 1) * c.pollInterval := by
  obtain ⟨-, -, -, -, hpos, -⟩ := Params.check_true c.valid
  rw [Nat.mul_comm]
  exact Nat.lt_mul_div_succ timeout hpos

/-- One poll: the register is read in the sequencer state `q` of the poll. -/
def State.polled (q : SeqState) (reg : Addr) (s : State) : State × Except OpError Byte :=
  (s.setSeq q).readReg reg

/-- The state in which the next poll is made: the time was taken, and the interval slept. -/
def State.pollAgain (s : State) : State := s.now.1.sleep s.now.1.cfg.pollInterval

section
variable {seqOf : Nat → SeqState} {reg : Addr} {bit : Fin 8} {timeout : Nat} {name : WaitName}
  {t0 k : Nat} {s : State}

theorem State.pollLoop_of_error {e : OpError} (h : (s.polled (seqOf k) reg).2 = .error e)
    (fuel : Nat) :
    State.pollLoop seqOf reg bit timeout name t0 (fuel + 1) k s
      = ((s.polled (seqOf k) reg).1, some e) := by
  unfold State.polled at *
  simp only [State.pollLoop, h]

theorem State.pollLoop_of_seen {b : Byte} (h : (s.polled (seqOf k) reg).2 = .ok b)
    (hb : statusBit b bit = true) (fuel : Nat) :
    State.pollLoop seqOf reg bit timeout name t0 (fuel + 1) k s
      = ((s.polled (seqOf k) reg).1, none) := by
  unfold State.polled at *
  simp only [State.pollLoop, h, hb, if_true]

theorem State.pollLoop_of_expired {b : Byte} (h : (s.polled (seqOf k) reg).2 = .ok b)
    (hb : statusBit b bit = false) (ht : t0 + timeout < (s.polled (seqOf k) reg).1.now.2)
    (fuel : Nat) :
    State.pollLoop seqOf reg bit timeout name t0 (fuel + 1) k s
      = ((s.polled (seqOf k) reg).1.now.1, some (timeoutError name)) := by
  unfold State.polled at *
  simp only [State.pollLoop, h, hb, Bool.false_eq_true, if_false]
  rw [if_pos (by omega)]

theorem State.pollLoop_of_clear {b : Byte} (h : (s.polled (seqOf k) reg).2 = .ok b)
    (hb : statusBit b bit = false) (ht : (s.polled (seqOf k) reg).1.now.2 ≤ t0 + timeout)
    (fuel : Nat) :
    State.pollLoop seqOf reg bit timeout name t0 (fuel + 1) k s
      = State.pollLoop seqOf reg bit timeout name t0 fuel (k + 1)
          (s.polled (seqOf k) reg).1.pollAgain := by
  unfold State.polled at *
  simp only [State.pollLoop, h, hb, Bool.false_eq_true, if_false]
  rw [if_neg (by omega)]
  rfl

theorem State.bus_polled (q : SeqState) (reg : Addr) (s : State) : s.Bus (s.polled q reg).1 :=
  (s.bus_setSeq q).trans (State.bus_readReg reg _)

theorem State.bus_pollAgain (s : State) : s.Bus s.pollAgain := s.bus_now.trans (State.bus_sleep _ _)

theorem State.clock_le_now_polled (q : SeqState) (reg : Addr) (s : State) :
    s.clock ≤ (s.polled q reg).1.now.2 := ((s.bus_polled q reg).trans (State.bus_now _)).clock

/-- From one poll to the next at least the interval passes. -/
theorem State.clock_pollAgain (q : SeqState) (reg : Addr) (s : State) :
    s.clock + s.cfg.pollInterval ≤ (s.polled q reg).1.pollAgain.clock := by
  have hbus := (s.bus_polled q reg).trans (State.bus_now _)
  have hsleep := State.sleep_clock_le s.cfg.pollInterval (s.polled q reg).1.now.1
  rw [State.pollAgain, hbus.cfg]
  exact (Nat.add_le_add_right hbus.clock _).trans hsleep


/-- Where a poll ends the loop, the fuel left is not asked for. -/
theorem State.pollLoop_congr {n m : Nat}
    (h : (s.polled (seqOf k) reg).1.now.2 ≤ t0 + timeout →
      State.pollLoop seqOf reg bit timeout name t0 m (k + 1) (s.polled (seqOf k) reg).1.pollAgain
        = State.pollLoop seqOf reg bit timeout name t0 n (k + 1)
            (s.polled (seqOf k) reg).1.pollAgain) :
    State.pollLoop seqOf reg bit timeout name t0 (m + 1) k s
      = State.pollLoop seqOf reg bit timeout name t0 (n + 1) k s := by
  cases hr : (s.polled (seqOf k) reg).2 with
  | error e => rw [State.pollLoop_of_error hr, State.pollLoop_of_error hr]
  | ok b =>
    cases hb : statusBit b bit with
    | true => rw [State.pollLoop_of_seen hr hb, State.pollLoop_of_seen hr hb]
    | false =>
      rcases Nat.lt_or_ge (t0 + timeout) (s.polled (seqOf k) reg).1.now.2 with ht | ht
      · rw [State.pollLoop_of_expired hr hb ht, State.pollLoop_of_expired hr hb ht]
      · rw [State.pollLoop_of_clear hr hb ht, State.pollLoop_of_clear hr hb ht, h ht]

/-- A loop whose bound will have passed after `n` sleeps makes no use of fuel for more than `n + 1` polls
(42_mode_controller R134). -/
theorem State.pollLoop_fuel {n m : Nat} (hn : t0 + timeout < s.clock + n * s.cfg.pollInterval)
    (hm : n ≤ m) :
    State.pollLoop seqOf reg bit timeout name t0 (m + 1) k s
      = State.pollLoop seqOf reg bit timeout name t0 (n + 1) k s := by
  induction n generalizing m k s with
  | zero =>
    refine State.pollLoop_congr fun ht => ?_
    have hnow := s.clock_le_now_polled (seqOf k) reg
    omega
  | succ n ih =>
    obtain ⟨m, rfl⟩ := Nat.exists_eq_succ_of_ne_zero (Nat.ne_zero_of_lt hm)
    refine State.pollLoop_congr fun _ => ih ?_ (Nat.le_of_succ_le_succ hm)
    have hagain := s.clock_pollAgain (seqOf k) reg
    rw [((s.bus_polled (seqOf k) reg).trans (State.bus_pollAgain _)).cfg]
    rw [Nat.succ_mul] at hn
    omega

end

/-- Settles O41: after `floor(timeout / POLL_INTERVAL) + 1` sleeps more than the bound has passed. -/
theorem pollBoundSuffices : Obligations.PollBoundSuffices := by
  intro seqOf reg bit timeout name t0 k fuel s ht hf
  obtain ⟨m, rfl⟩ := Nat.exists_eq_succ_of_ne_zero (Nat.ne_zero_of_lt hf)
  refine State.pollLoop_fuel ?_ (Nat.le_of_succ_le_succ hf)
  have hbound := timeout_lt_sleeps s.cfg timeout
  omega

/-! ### The calls of one poll -/

/-- A register read that answers a byte: no call failed, the byte is the second one received, and the
frame was whole. -/
theorem State.readReg_answered {a : Addr} {s : State} {b : Byte} (h : (s.readReg a).2 = .ok b) :
    ∃ r, s.received (s.readReg a).1 = [r, b]
      ∧ s.issued (s.readReg a).1 (frameActs (readFrameBytes s.cfg a 1))
      ∧ (s.readReg a).1.tick = s.tick + 4 ∧ firstError (s.calls (s.readReg a).1) = none := by
  have hn : s.noFailure 4 := by
    rcases s.runFrame_error (readFrameBytes s.cfg a 1) with hn | ⟨k, e, hk, hn, he⟩
    · exact hn
    · obtain ⟨herror, -⟩ := State.readReg_fails a (by simpa using hk) hn he
      cases h.symm.trans herror
  obtain ⟨r, b', hok, hreceived, hissued, htick⟩ := State.readReg_ok a hn
  obtain rfl : b = b' := Except.ok.inj (h.symm.trans hok)
  obtain ⟨l, hl, -⟩ := s.readReg_called a
  have hlen : l.length = 4 := Nat.add_left_cancel (hl.tick.symm.trans htick)
  have herrors := hl.firstError_take hn
  rw [← hlen, List.take_length] at herrors
  exact ⟨r, hreceived, hissued, htick, by rwa [hl.calls]⟩

/-- The same of a poll. -/
theorem State.polled_answered {q : SeqState} {reg : Addr} {s : State} {b : Byte}
    (h : (s.polled q reg).2 = .ok b) :
    ∃ r, s.received (s.polled q reg).1 = [r, b]
      ∧ s.issued (s.polled q reg).1 (frameActs (readFrameBytes s.cfg reg 1))
      ∧ (s.polled q reg).1.tick = s.tick + 4 ∧ firstError (s.calls (s.polled q reg).1) = none :=
  State.readReg_answered (s := s.setSeq q) h

/-- A poll that answers an error: its frame stops at the first failing call, whose error it is. -/
theorem State.polled_failed {q : SeqState} {reg : Addr} {s : State} {e : OpError}
    (h : (s.polled q reg).2 = .error e) :
    ∃ l cause, e = transportError cause ∧ s.Called (s.polled q reg).1 l
      ∧ isFrameOf (readFrameBytes s.cfg reg 1) l ∧ firstError l = some cause := by
  obtain ⟨l, hl, hframe, herror⟩ := (s.setSeq q).readReg_called reg
  obtain ⟨cause, hcause, he⟩ := Option.map_eq_some_iff.mp (herror e h)
  exact ⟨l, cause, he.symm, hl.of_same rfl rfl rfl rfl rfl, hframe, hcause⟩

/-! ### Register bytes -/

theorem registerBytes_append {n : Nat} {l : List Byte} (h : l.length = 2 * n) (l' : List Byte) :
    registerBytes (l ++ l') = registerBytes l ++ registerBytes l' := by
  induction n generalizing l with
  | zero => rw [List.length_eq_zero_iff.mp h]; rfl
  | succ n ih =>
    match l, h with
    | _ :: b :: rest, h =>
      simp only [List.length_cons] at h
      simp [registerBytes, ih (l := rest) (by omega)]

theorem registerBytes_length {n : Nat} {l : List Byte} (h : l.length = 2 * n) :
    (registerBytes l).length = n := by
  induction n generalizing l with
  | zero => rw [List.length_eq_zero_iff.mp h]; rfl
  | succ n ih =>
    match l, h with
    | _ :: b :: rest, h =>
      simp only [List.length_cons] at h
      simp [registerBytes, ih (l := rest) (by omega)]

/-! ### The polls before the last -/

theorem State.calls_trans {s t u : State} (h : s.Extends t) (h' : t.Extends u) :
    s.calls u = s.calls t ++ t.calls u := State.since_trans h h'

/-- From `s` to `u` there were `n` whole polls of `reg` that read `bit` clear, each followed by `Now()`
and a sleep (42_mode_controller R133). -/
structure State.ClearPolls (reg : Addr) (bit : Fin 8) (n : Nat) (s u : State) : Prop
    extends State.Extends s u where
  moments : u.tick = s.tick + 6 * n
  acts : (s.calls u).map BusCall.act ++ frameActs (readFrameBytes s.cfg reg 1)
    = pollActs s.cfg reg (n + 1)
  errors : firstError (s.calls u) = none
  bytes : (s.received u).length = 2 * n
  clear : ∀ b ∈ registerBytes (s.received u), b.getLsbD bit.val = false

section
variable {reg : Addr} {bit : Fin 8} {n : Nat} {s u : State}

theorem State.ClearPolls.refl : State.ClearPolls reg bit 0 s s where
  toExtends := .refl s
  moments := rfl
  acts := by simp [State.calls, pollActs]
  errors := by simp [State.calls, firstError]
  bytes := by simp [s.received_self]
  clear := by simp [s.received_self, registerBytes]

/-- What one clear poll and the sleep after it add to the record. -/
theorem State.pollAgain_calls {q : SeqState} {b : Byte} (h : (s.polled q reg).2 = .ok b) :
    ∃ r, s.received (s.polled q reg).1.pollAgain = [r, b]
      ∧ (s.calls (s.polled q reg).1.pollAgain).map BusCall.act
        = frameActs (readFrameBytes s.cfg reg 1) ++ [.sleep s.cfg.pollInterval]
      ∧ (s.polled q reg).1.pollAgain.tick = s.tick + 6
      ∧ firstError (s.calls (s.polled q reg).1.pollAgain) = none := by
  obtain ⟨r, hreceived, hissued, htick, herrors⟩ := State.polled_answered h
  have hpoll := (s.bus_polled q reg).toExtends
  have hagain := (s.polled q reg).1.bus_pollAgain.toExtends
  have hcalls : (s.polled q reg).1.calls (s.polled q reg).1.pollAgain
      = [.sleep s.cfg.pollInterval] := by
    simp [State.calls, State.pollAgain, State.now, hpoll.cfg]
  refine ⟨r, ?_, ?_, ?_, ?_⟩
  · rw [State.received_trans hpoll hagain, hreceived, State.received, hcalls]
    rfl
  · rw [State.calls_trans hpoll hagain, List.map_append, hcalls]
    exact congrArg (· ++ _) (State.since_of_issued hissued)
  · simp [State.pollAgain, State.now, htick]
  · rw [State.calls_trans hpoll hagain, firstError_append, herrors, hcalls]
    rfl

/-- One clear poll more, in front. -/
theorem State.ClearPolls.cons {q : SeqState} {b : Byte} (hr : (s.polled q reg).2 = .ok b)
    (hb : statusBit b bit = false)
    (h : State.ClearPolls reg bit n (s.polled q reg).1.pollAgain u) :
    State.ClearPolls reg bit (n + 1) s u := by
  obtain ⟨r, hreceived, hcalls, htick, herrors⟩ := State.pollAgain_calls hr
  have hext := ((s.bus_polled q reg).trans (State.bus_pollAgain _)).toExtends
  have hacts := h.acts
  rw [hext.cfg] at hacts
  have hbytes : s.received u = r :: b :: (s.polled q reg).1.pollAgain.received u := by
    rw [State.received_trans hext h.toExtends, hreceived]
    rfl
  refine ⟨hext.trans h.toExtends, ?_, ?_, ?_, ?_, ?_⟩
  · rw [h.moments, htick]
    omega
  · rw [State.calls_trans hext h.toExtends, List.map_append, hcalls, List.append_assoc, hacts]
    simp [pollActs]
  · rw [State.calls_trans hext h.toExtends, firstError_append, herrors, h.errors]
    rfl
  · rw [hbytes, List.length_cons, List.length_cons, h.bytes]
    omega
  · rw [hbytes, registerBytes, List.forall_mem_cons]
    exact ⟨hb, h.clear⟩

end

/-! ### The last poll -/

/-- The poll in which a wait begun at `t0` ends, and what the loop answers then: the bit was seen, or the
bound has passed, or the poll failed (42_mode_controller R133, 44_packet_io R175). -/
inductive State.LastPoll (reg : Addr) (bit : Fin 8) (timeout : Nat) (name : WaitName) (t0 : Nat)
    (u : State) : State × Option OpError → Prop
  | seen {q : SeqState} {b : Byte} (hr : (u.polled q reg).2 = .ok b)
      (hb : statusBit b bit = true) : LastPoll reg bit timeout name t0 u ((u.polled q reg).1, none)
  | expired {q : SeqState} {b : Byte} (hr : (u.polled q reg).2 = .ok b)
      (hb : statusBit b bit = false) (ht : t0 + timeout < (u.polled q reg).1.now.2) :
      LastPoll reg bit timeout name t0 u ((u.polled q reg).1.now.1, some (timeoutError name))
  | failed {q : SeqState} {e : OpError} (hr : (u.polled q reg).2 = .error e) :
      LastPoll reg bit timeout name t0 u ((u.polled q reg).1, some e)

/-- A poll loop is some clear polls and a last one; it has fuel enough where the bound will have passed
after `n` sleeps. -/
theorem State.pollLoop_polls (seqOf : Nat → SeqState) (reg : Addr) (bit : Fin 8) (timeout : Nat)
    (name : WaitName) (t0 k n : Nat) {s : State}
    (hn : t0 + timeout < s.clock + n * s.cfg.pollInterval) :
    ∃ m u, m ≤ n ∧ State.ClearPolls reg bit m s u
      ∧ u.LastPoll reg bit timeout name t0
          (State.pollLoop seqOf reg bit timeout name t0 (n + 1) k s) := by
  cases hr : (s.polled (seqOf k) reg).2 with
  | error e =>
    rw [State.pollLoop_of_error hr]
    exact ⟨0, s, Nat.zero_le n, .refl, .failed hr⟩
  | ok b =>
    cases hb : statusBit b bit with
    | true =>
      rw [State.pollLoop_of_seen hr hb]
      exact ⟨0, s, Nat.zero_le n, .refl, .seen hr hb⟩
    | false =>
      rcases Nat.lt_or_ge (t0 + timeout) (s.polled (seqOf k) reg).1.now.2 with ht | ht
      · rw [State.pollLoop_of_expired hr hb ht]
        exact ⟨0, s, Nat.zero_le n, .refl, .expired hr hb ht⟩
      · rw [State.pollLoop_of_clear hr hb ht]
        cases n with
        | zero =>
          have hnow := s.clock_le_now_polled (seqOf k) reg
          omega
        | succ n =>
          have hagain := s.clock_pollAgain (seqOf k) reg
          obtain ⟨m, u, hm, hclear, hlast⟩ := State.pollLoop_polls seqOf reg bit timeout name t0
            (k + 1) n (s := (s.polled (seqOf k) reg).1.pollAgain) (by
              rw [((s.bus_polled (seqOf k) reg).trans (State.bus_pollAgain _)).cfg]
              rw [Nat.succ_mul] at hn
              omega)
          exact ⟨m + 1, u, Nat.succ_le_succ hm, .cons hr hb hclear, hlast⟩

/-! ### The three ways a wait ends -/

/-- A wait from `s` to `t` that saw the bit, at its `n`-th poll and at none before. -/
def State.SawBit (reg : Addr) (bit : Fin 8) (n : Nat) (s t : State) : Prop :=
  s.issued t (pollActs s.cfg reg n) ∧ firstError (s.calls t) = none
    ∧ ∃ seen last, registerBytes (s.received t) = seen ++ [last] ∧ seen.length + 1 = n
      ∧ last.getLsbD bit.val = true ∧ ∀ b ∈ seen, b.getLsbD bit.val = false

/-- A wait from `s` to `t` that saw the bit at none of its `n` polls until more than `timeout` had
passed. -/
def State.SawNoBit (reg : Addr) (bit : Fin 8) (timeout n : Nat) (s t : State) : Prop :=
  s.issued t (pollActs s.cfg reg n) ∧ firstError (s.calls t) = none
    ∧ (registerBytes (s.received t)).length = n
    ∧ (∀ b ∈ registerBytes (s.received t), b.getLsbD bit.val = false)
    ∧ s.clock + timeout < t.clock

/-- A wait from `s` to `t` whose `n`-th poll failed with the platform's error `e`. -/
def State.PollFailed (reg : Addr) (bit : Fin 8) (n : Nat) (e : PlatformError) (s t : State) : Prop :=
  ∃ whole last, t.trace = s.trace ++ (whole ++ last)
    ∧ whole.map BusCall.act ++ frameActs (readFrameBytes s.cfg reg 1) = pollActs s.cfg reg n
    ∧ firstError whole = none
    ∧ (registerBytes (whole.filterMap BusCall.received)).length + 1 = n
    ∧ (∀ b ∈ registerBytes (whole.filterMap BusCall.received), b.getLsbD bit.val = false)
    ∧ isFrameOf (readFrameBytes s.cfg reg 1) last ∧ firstError last = some e
    ∧ last.map BusCall.error
        = (List.range last.length).map fun k => s.callErrorAt (1 + 6 * (n - 1) + k)

section
variable {reg : Addr} {bit : Fin 8} {m : Nat} {s u : State} {q : SeqState} {b : Byte}

/-- Clear polls and one that answers: the record of them all. -/
theorem State.ClearPolls.answered (h : State.ClearPolls reg bit m s u)
    (hr : (u.polled q reg).2 = .ok b) :
    s.issued (u.polled q reg).1 (pollActs s.cfg reg (m + 1))
      ∧ firstError (s.calls (u.polled q reg).1) = none
      ∧ registerBytes (s.received (u.polled q reg).1) = registerBytes (s.received u) ++ [b]
      ∧ (registerBytes (s.received u)).length = m := by
  obtain ⟨r, hreceived, hissued, -, herrors⟩ := State.polled_answered hr
  have hpoll := (u.bus_polled q reg).toExtends
  rw [h.cfg] at hissued
  refine ⟨?_, ?_, ?_, registerBytes_length h.bytes⟩
  · obtain ⟨l, hl⟩ := h.trace
    rw [← h.acts]
    refine State.issued_trans (t := u) ?_ hissued
    simp [State.issued, State.calls, hl]
  · rw [State.calls_trans h.toExtends hpoll, firstError_append, h.errors, herrors]
    rfl
  · rw [State.received_trans h.toExtends hpoll, hreceived, registerBytes_append h.bytes]
    rfl

/-- The bit was seen at the last poll. A wait begins with `Now()`, which is no call on the bus. -/
theorem State.ClearPolls.sawBit (h : State.ClearPolls reg bit m s.now.1 u)
    (hr : (u.polled q reg).2 = .ok b) (hb : statusBit b bit = true) :
    s.SawBit reg bit (m + 1) (u.polled q reg).1 := by
  obtain ⟨hissued, herrors, hbytes, hlen⟩ := h.answered hr
  exact ⟨hissued, herrors, _, b, hbytes, by rw [hlen], hb, h.clear⟩

/-- The bit was clear at the last poll too, and `Now()` then told that the bound has passed. -/
theorem State.ClearPolls.sawNoBit {timeout : Nat} (h : State.ClearPolls reg bit m s.now.1 u)
    (hr : (u.polled q reg).2 = .ok b) (hb : statusBit b bit = false)
    (ht : s.now.2 + timeout < (u.polled q reg).1.now.2) :
    s.SawNoBit reg bit timeout (m + 1) (u.polled q reg).1.now.1 := by
  obtain ⟨hissued, herrors, hbytes, hlen⟩ := h.answered hr
  replace hbytes : registerBytes (s.received (u.polled q reg).1)
      = registerBytes (s.now.1.received u) ++ [b] := hbytes
  have hcount : (registerBytes (s.received (u.polled q reg).1)).length = m + 1 := by
    rw [hbytes, List.length_append, hlen]
    rfl
  have hall : ∀ x ∈ registerBytes (s.received (u.polled q reg).1), x.getLsbD bit.val = false := by
    rw [hbytes, List.forall_mem_append]
    exact ⟨h.clear, List.forall_mem_singleton.mpr hb⟩
  have hstart : s.clock ≤ s.now.2 := s.bus_now.clock
  exact ⟨hissued, herrors, hcount, hall, (Nat.add_le_add_right hstart _).trans_lt ht⟩

/-- The last poll failed. -/
theorem State.ClearPolls.pollFailed {e : OpError} (h : State.ClearPolls reg bit m s.now.1 u)
    (hr : (u.polled q reg).2 = .error e) :
    ∃ cause, e = transportError cause ∧ s.PollFailed reg bit (m + 1) cause (u.polled q reg).1 := by
  obtain ⟨l, cause, he, hl, hframe, hfirst⟩ := State.polled_failed hr
  obtain ⟨l₀, hl₀⟩ := h.trace
  have hcalls : s.now.1.calls u = l₀ := by simp [State.calls, hl₀]
  have htick : u.tick = s.tick + (1 + 6 * m) := by
    rw [h.moments, State.now, State.elapse_tick]
    omega
  have herrors : u.callErrorAt = fun k => s.callErrorAt (1 + 6 * m + k) :=
    funext fun k => State.callErrorAt_later (s.bus_now.toExtends.trans h.toExtends) htick k
  rw [h.cfg] at hframe
  refine ⟨cause, he, l₀, l, ?_, hcalls ▸ h.acts, hcalls ▸ h.errors, ?_, ?_, hframe, hfirst, ?_⟩
  · rw [hl.trace, hl₀, List.append_assoc]
    rfl
  · have hbytes := registerBytes_length h.bytes
    rw [State.received, hcalls] at hbytes
    rw [hbytes]
  · have hclear := h.clear
    rwa [State.received, hcalls] at hclear
  · rw [hl.errors, herrors]
    rfl

end

/-- How a bounded wait from `s` ends in `t` with answer `r`: after `n` polls, in one of three ways. -/
def State.WaitEnds (reg : Addr) (bit : Fin 8) (timeout : Nat) (name : WaitName) (s t : State)
    (r : Option OpError) : Prop :=
  ∃ n, 1 ≤ n ∧ n ≤ timeout / s.cfg.pollInterval + 2 ∧
    (r = none ∧ s.SawBit reg bit n t
      ∨ r = some (timeoutError name) ∧ s.SawNoBit reg bit timeout n t
      ∨ ∃ e, r = some (transportError e) ∧ s.PollFailed reg bit n e t)

/-- Only the calls made and the clock matter. -/
theorem State.WaitEnds.of_same {reg : Addr} {bit : Fin 8} {timeout : Nat} {name : WaitName}
    {s t t' : State} {r : Option OpError} (h : s.WaitEnds reg bit timeout name t r)
    (htrace : t'.trace = t.trace) (hclock : t'.clock = t.clock) :
    s.WaitEnds reg bit timeout name t' r := by
  unfold State.WaitEnds State.SawBit State.SawNoBit State.PollFailed State.received State.calls
    State.issued at *
  rwa [htrace, hclock]

/-- Every bounded wait ends within the number of polls of 42_mode_controller R134. -/
theorem State.pollFor_ends (seqOf : Nat → SeqState) (reg : Addr) (bit : Fin 8) (timeout : Nat)
    (name : WaitName) (s : State) :
    s.WaitEnds reg bit timeout name (s.pollFor seqOf reg bit timeout name).1
      (s.pollFor seqOf reg bit timeout name).2 := by
  have hfuel : s.now.2 + timeout
      < s.now.1.clock + (timeout / s.cfg.pollInterval + 1) * s.now.1.cfg.pollInterval :=
    Nat.add_lt_add_left (timeout_lt_sleeps s.cfg timeout) _
  obtain ⟨m, u, hm, hclear, hlast⟩ :=
    State.pollLoop_polls seqOf reg bit timeout name s.now.2 1 _ hfuel
  change u.LastPoll reg bit timeout name s.now.2 (s.pollFor seqOf reg bit timeout name) at hlast
  generalize s.pollFor seqOf reg bit timeout name = p at hlast ⊢
  refine ⟨m + 1, Nat.succ_pos m, Nat.succ_le_succ hm, ?_⟩
  cases hlast with
  | seen hr hb => exact .inl ⟨rfl, hclear.sawBit hr hb⟩
  | expired hr hb ht => exact .inr (.inl ⟨rfl, hclear.sawNoBit hr hb ht⟩)
  | failed hr =>
    obtain ⟨cause, he, hfailed⟩ := hclear.pollFailed hr
    exact .inr (.inr ⟨cause, congrArg some he, hfailed⟩)

/-- `IsReady` makes the calls of its wait and answers what it answers. -/
theorem State.isReady_calls (s : State) :
    s.isReady.2 = s.readyWait.2 ∧ s.isReady.1.trace = s.readyWait.1.trace
      ∧ s.isReady.1.clock = s.readyWait.1.clock := by
  cases hr : s.readyWait.2 with
  | none => rw [State.isReady_of_none hr]; exact ⟨rfl, rfl, rfl⟩
  | some e => rw [State.isReady_of_some hr]; exact ⟨rfl, rfl, rfl⟩

/-- The end of the operation that waited adds no call and takes no time. -/
theorem State.WaitEnds.concluded {reg : Addr} {bit : Fin 8} {timeout : Nat} {name : WaitName}
    {s t : State} {r : Option OpError} (h : s.WaitEnds reg bit timeout name t r) (q : SeqState)
    (x : Result) : s.WaitEnds reg bit timeout name (t.conclude q x) r :=
  h.of_same (State.conclude_trace ..) (State.conclude_clock ..)

/-- Settles O40: `IsReady` and `PollFlag` are one bounded wait each. -/
theorem pollsAreBounded : Obligations.PollsAreBounded := by
  intro i reg bit timeout name s t hi hexec
  obtain ⟨r, hresult, n, hpos, hbound, hends⟩ :
      ∃ r, t.result = resultOf r ∧ s.WaitEnds reg bit timeout name t r := by
    rcases hi with rfl | ⟨rfl, rfl, rfl, rfl, rfl⟩
    · obtain ⟨-, rfl⟩ := framedOperation_next hexec
      exact ⟨_, State.conclude_result .., (s.pollFor_ends .flagPoll reg bit timeout name).concluded _ _⟩
    · obtain ⟨-, rfl⟩ := hostOperation_next (show execIsReady s = .next t from hexec)
      obtain ⟨hanswer, htrace, hclock⟩ := s.isReady_calls
      have hwait := (s.pollFor_ends .readyPoll s.cfg.regIrqFlags1 s.cfg.modeReadyBit
        s.cfg.readyTimeout .modeReady).of_same htrace hclock
      rw [← State.readyWait, ← hanswer] at hwait
      exact ⟨_, State.conclude_result .., hwait.concluded _ _⟩
  rw [hresult]
  refine ⟨n, hpos, hbound, ?_⟩
  rcases hends with ⟨rfl, hseen⟩ | ⟨rfl, hnone⟩ | ⟨e, rfl, hfailed⟩
  · exact .inl ⟨rfl, hseen⟩
  · exact .inr (.inl ⟨rfl, hnone⟩)
  · obtain ⟨whole, last, hfailed⟩ := hfailed
    exact .inr (.inr ⟨e, whole, last, rfl, hfailed⟩)

/-! ### What a single read answers -/

/-- A register read in which nothing fails answers what the target does to its data exchange. -/
theorem State.readReg_of_noFailure {s : State} (h : s.noFailure 4) (a : Addr) :
    (s.readReg a).2
      = .ok (((s.markRead a).addressed false a).nextAnswer s.cfg.dummyByte).byte := by
  obtain ⟨r, hrun⟩ := State.runFrame_two_of_noFailure (s := s.markRead a) h false a s.cfg.dummyByte
  have hrun' : (s.markRead a).runFrame (readFrameBytes (s.markRead a).cfg a 1) = _ := hrun
  rw [State.readReg, State.readFrame, hrun']
  rfl

theorem State.addressed_tick (w : Bool) (a : Addr) (s : State) :
    (s.addressed w a).tick = s.tick + 2 :=
  (State.exchange_tick _ _).trans (congrArg (· + 1) s.openFrame_tick)

/-- After its address byte every frame is addressed. -/
theorem State.addressed_addressedTo (w : Bool) (a : Addr) (s : State) :
    (s.addressed w a).addressedTo w a :=
  (State.transfer_address (s := s.openFrame.1.setSeq (nextExchange s.openFrame.1.seq))
    s.openFrame_frame rfl w a).1

/-- No law ties the target now, so none does later. -/
theorem State.Extends.lawless_of_lawless {s t : State} (h : s.Extends t) (hs : s.lawless = true) :
    t.lawless = true := by
  cases ht : t.lawless with
  | true => rfl
  | false => exact (h.lawless ht).symm.trans hs

/-- A target that no law ties answers a data exchange with any byte: the one its moment draws
(10_state R36). -/
theorem State.nextAnswer_of_lawless {s : State} {w : Bool} {a : Addr} (hl : s.lawless = true)
    (h : s.addressedTo w a) (b : Byte) : (s.nextAnswer b).byte = (s.momentAt 0).byte := by
  obtain ⟨f, hf, ha⟩ := h
  have hfe : (s.setSeq (nextExchange s.seq)).elapse.frame = some f := hf
  have hle : (s.setSeq (nextExchange s.seq)).elapse.lawless = true := hl
  rw [State.nextAnswer, State.answer_data hfe ha]
  unfold State.dataAnswer
  rw [if_pos hle]
  rfl

theorem State.readReg_of_lawless {s : State} (hl : s.lawless = true) (h : s.noFailure 4) (a : Addr) :
    (s.readReg a).2 = .ok (s.momentAt 2).byte := by
  have hext := ((s.bus_markRead a).trans (State.bus_addressed false a _)).toExtends
  rw [State.readReg_of_noFailure h, State.nextAnswer_of_lawless (hext.lawless_of_lawless hl)
    ((s.markRead a).addressed_addressedTo false a),
    State.momentAt_later hext ((s.markRead a).addressed_tick false a)]

/-! ### What the other agents leave of a target that a law ties -/

/-- From `t` to `u` no register changed, and a target that was ready still is. -/
structure Target.Stays (t u : Target) : Prop where
  x : u.x = t.x
  ready : t.ready = true → u.ready = true

theorem Target.Stays.trans {t u v : Target} (h : t.Stays u) (h' : u.Stays v) : t.Stays v :=
  ⟨h'.x.trans h.x, h'.ready ∘ h.ready⟩

theorem Target.Stays.reg {t u : Target} (h : t.Stays u) (a : Addr) : u.reg a = t.reg a :=
  congrArg (Memory.read · a.toNat) h.x

/-- Only a write to the mode register makes a reference target unready (10_state R39, R40). -/
theorem World.act_ready (c : Config) (lawless : Bool) {w : World} (h : w.target.ready = true)
    (a : TargetAct) : (w.act c lawless a).target.ready = true := by
  cases a with
  | settle =>
    simp only [World.act, World.settle, h]
    split <;> exact h
  | txComplete =>
    simp only [World.act, World.txComplete, World.risingEdge_eq]
    split <;> [split; skip] <;> exact h
  | rxPacket p =>
    simp only [World.act, World.rxPacket, World.risingEdge_eq]
    split <;> [split; skip] <;> exact h
  | irq level =>
    simp only [World.act, World.driveIrq, World.risingEdge_eq]
    split <;> [skip; split] <;> exact h

theorem World.acts_ready (c : Config) (lawless : Bool) (acts : List TargetAct) {w : World}
    (h : w.target.ready = true) :
    (acts.foldl (World.act c lawless) w).target.ready = true := by
  induction acts generalizing w with
  | nil => exact h
  | cons a rest ih => exact ih (World.act_ready c lawless h a)

theorem State.elapse_stays {s : State} (h : s.lawless = false) : s.target.Stays s.elapse.target where
  x := State.elapse_target_x h
  ready hr := by
    rw [State.elapse_target_of_lawful h]
    exact World.acts_ready _ _ _ hr

/-- The select and the address byte of a frame do nothing to the target. -/
theorem State.Lawful.addressed_stays {n : Nat} {s : State} (h : s.Lawful (n + 2)) (w : Bool)
    (a : Addr) : s.target.Stays (s.addressed w a).target := by
  have h1 : s.openFrame.1.Lawful (n + 1) :=
    State.Lawful.later (k := 1) (by rwa [Nat.add_comm]) s.bus_openFrame.toExtends s.openFrame_tick
      s.openFrame_hazard
  have hopen : s.target.Stays s.openFrame.1.target :=
    ⟨(State.elapse_stays h.law).x, (State.elapse_stays h.law).ready⟩
  have hexchange : (s.addressed w a).target = s.openFrame.1.elapse.target := by
    obtain ⟨-, ht, -⟩ := State.exchange_answered h1.callErrorAt_zero (addressByte s.cfg w a)
    have hfe : (s.openFrame.1.setSeq (nextExchange s.openFrame.1.seq)).elapse.frame
      = some { failed := (s.callErrorAt 0).isSome } := s.openFrame_frame
    rw [State.addressed, ht, State.nextAnswer, State.answer_address hfe rfl]
    rfl
  rw [hexchange]
  exact hopen.trans (State.elapse_stays h1.law)

/-- A status register that is neither the FIFO's nor the version's answers its flags (10_state R38). -/
theorem State.Lawful.nextAnswer_status {n : Nat} {s : State} (h : s.Lawful n) {f : BusFrame}
    (hf : s.frame = some f) {a : Addr} (ha : f.addr = some (false, a))
    (href : s.cfg.target = .reference) (hne : a ∉ [s.cfg.regFifo, s.cfg.regVersion])
    (hstatus : a = s.cfg.regIrqFlags1 ∨ a = s.cfg.regIrqFlags2) (b : Byte) :
    (s.nextAnswer b).byte = statusByte s.cfg a s.elapse.target := by
  obtain ⟨m, free, u, hu, hcfg, hl, ht⟩ := h.nextAnswer_eq hf ha b
  simp only [List.mem_cons, List.not_mem_nil, or_false, not_or] at hne
  obtain ⟨hfifo, hversion⟩ := hne
  rw [hu]
  unfold State.dataAnswer
  rw [hl, hcfg, ht, href]
  simp [Target.readData, hfifo, hversion, hstatus]

/-- A read of `REG_IRQFLAGS1` in which nothing fails answers from the target as the other agents have
left it: the byte stored on the loopback target, the flags on the reference target. -/
theorem State.Lawful.readReg_irqFlags1 {s : State} (h : s.Lawful 4) :
    ∃ t, s.target.Stays t
      ∧ (s.cfg.target = .loopback →
          (s.readReg s.cfg.regIrqFlags1).2 = .ok (t.reg s.cfg.regIrqFlags1))
      ∧ (s.cfg.target = .reference → s.cfg.regIrqFlags1 ∉ [s.cfg.regFifo, s.cfg.regVersion] →
          (s.readReg s.cfg.regIrqFlags1).2 = .ok (statusByte s.cfg s.cfg.regIrqFlags1 t)) := by
  obtain ⟨h2, hf, -⟩ := h.addressed false s.cfg.regIrqFlags1
  have hcfg := (s.bus_addressed false s.cfg.regIrqFlags1).cfg
  have hread := State.readReg_of_noFailure h.noFailure s.cfg.regIrqFlags1
  rw [State.markRead_eq_self (.inr rfl)] at hread
  refine ⟨_, (h.addressed_stays false s.cfg.regIrqFlags1).trans (State.elapse_stays h2.law),
    fun hloop => ?_, fun href hne => ?_⟩
  · rw [hread, h2.nextAnswer_read hf rfl (by rw [hcfg]; exact .inl hloop)]
  · rw [hread, h2.nextAnswer_status hf rfl (by rwa [hcfg]) (by rwa [hcfg])
      (by rw [hcfg]; exact .inl rfl), hcfg]

/-! ### `IsReady` when the bit is set at the first poll (42_mode_controller R133) -/

/-- The mode-ready bit is to be seen by a poll made at once: drawn so by the oracle target, stored so on
a clean loopback target, or a flag of a clean reference target that is ready. -/
def State.ReadyInSight (s : State) : Prop :=
  s.cfg.target = .oracle ∧ (s.momentAt 3).byte.getLsbD s.cfg.modeReadyBit.val = true
    ∨ s.cfg.target = .loopback ∧ s.hazard = false
        ∧ (s.target.reg s.cfg.regIrqFlags1).getLsbD s.cfg.modeReadyBit.val = true
    ∨ s.cfg.target = .reference ∧ s.hazard = false ∧ s.target.ready = true
        ∧ s.cfg.regIrqFlags1 ∉ [s.cfg.regFifo, s.cfg.regVersion]

/-- A wait begins with `Now()`, and its first poll in the sequencer state `q`. -/
theorem State.bus_waitStart (q : SeqState) (s : State) : s.Bus (s.now.1.setSeq q) :=
  s.bus_now.trans (State.bus_setSeq q _)

theorem State.noFailure_waitStart (q : SeqState) {s : State} {n : Nat} (h : s.noFailure (1 + n)) :
    (s.now.1.setSeq q).noFailure n :=
  State.noFailure_later (s.bus_waitStart q).toExtends rfl h

/-- The first poll of a wait then sees the bit. -/
theorem State.ReadyInSight.polled {s : State} (h : s.ReadyInSight) (hn : s.noFailure 5)
    (q : SeqState) :
    ∃ b, (s.now.1.polled q s.cfg.regIrqFlags1).2 = .ok b
      ∧ statusBit b s.cfg.modeReadyBit = true := by
  have hext := (s.bus_waitStart q).toExtends
  have hn4 := State.noFailure_waitStart (n := 4) q hn
  have hlawful : s.cfg.target ≠ .oracle → s.hazard = false →
      s.lawless = false ∧ (s.now.1.setSeq q).Lawful 4 := fun ht hz =>
    ⟨State.lawless_of_simulated ht hz, State.lawless_of_simulated ht hz, hn4⟩
  rcases h with ⟨horacle, hbit⟩ | ⟨hloop, hz, hbit⟩ | ⟨href, hz, hready, hne⟩
  · have hl : (s.now.1.setSeq q).lawless = true := by simp [State.lawless, State.now, horacle]
    refine ⟨_, State.readReg_of_lawless hl hn4 _, ?_⟩
    rw [State.momentAt_later (n := 1) hext rfl]
    exact hbit
  · obtain ⟨hl, hu⟩ := hlawful (by rw [hloop]; nofun) hz
    obtain ⟨t, ht, hread, -⟩ := hu.readReg_irqFlags1
    refine ⟨_, hread hloop, ?_⟩
    have hreg : t.reg s.cfg.regIrqFlags1 = _ := ((State.elapse_stays hl).trans ht).reg _
    exact (congrArg (statusBit · s.cfg.modeReadyBit) hreg).trans hbit
  · obtain ⟨hl, hu⟩ := hlawful (by rw [href]; nofun) hz
    obtain ⟨t, ht, -, hread⟩ := hu.readReg_irqFlags1
    refine ⟨_, hread href hne, ?_⟩
    have hbyte := statusByte_getLsbD s.cfg s.cfg.regIrqFlags1 t s.cfg.modeReadyBit
    rw [((State.elapse_stays hl).trans ht).ready hready] at hbyte
    exact hbyte.trans (by simp)

/-- Where the first poll sees the bit, `IsReady` is that poll and no more. -/
theorem State.isReady_of_first {s : State} {b : Byte}
    (hr : (s.now.1.polled (.readyPoll 1) s.cfg.regIrqFlags1).2 = .ok b)
    (hb : statusBit b s.cfg.modeReadyBit = true) :
    s.isReady = ({ (s.now.1.polled (.readyPoll 1) s.cfg.regIrqFlags1).1 with awaitReady := false },
      none) := by
  have hwait : s.readyWait = ((s.now.1.polled (.readyPoll 1) s.cfg.regIrqFlags1).1, none) :=
    State.pollLoop_of_seen hr hb _
  rw [State.isReady_of_none (congrArg Prod.snd hwait), hwait]

theorem exec_isReady_of_idle {s : State} (hi : s.seq = .idle) :
    exec .isReady s = .next (s.isReady.1.conclude s.seq (resultOf s.isReady.2)) := by
  change execIsReady s = _
  rw [execIsReady, hostOperation_of_idle _ hi]

/-- The wait of `IsReady` changes no register where its one poll does not fail. -/
theorem State.regsKept_polled (q : SeqState) (reg : Addr) {s : State} (hn : s.noFailure 5) :
    State.RegsKept [] s (s.now.1.polled q reg).1 := by
  exact State.RegsKept.trans (s.bus_waitStart q).toExtends (s.regsKept_elapse [])
    (State.bus_readReg reg _).toExtends
    (State.regsKept_readReg reg (State.noFailure_waitStart (n := 4) q hn))

/-- Settles O38: the wait is its first poll, one read frame. -/
theorem isReadyAtFirstPoll : Obligations.IsReadyAtFirstPoll := by
  intro s hi hn hsight
  have hexec := exec_isReady_of_idle hi
  have hquiet := s.quiet_isReady
  obtain ⟨hends, hrecords, hbuffers⟩ := hquiet.concluded s.isReady_cs (resultOf s.isReady.2)
  rw [hi] at hexec hends hrecords hbuffers
  obtain ⟨b, hr, hb⟩ := State.ReadyInSight.polled hsight hn (.readyPoll 1)
  obtain ⟨-, -, hissued, -⟩ := State.polled_answered hr
  obtain ⟨hcache, hawait⟩ := s.isReady_mode
  have hfirst := State.isReady_of_first hr hb
  have hregs : State.RegsKept [] s s.isReady.1 := by
    rw [hfirst]
    exact State.regsKept_polled (.readyPoll 1) s.cfg.regIrqFlags1 hn
  have hissued' : s.issued s.isReady.1 (frameActs (readFrameBytes s.cfg s.cfg.regIrqFlags1 1)) := by
    rw [hfirst]
    exact hissued
  have hok : s.isReady.2 = none := congrArg Prod.snd hfirst
  rw [hok] at hawait
  refine ⟨_, hexec, ?_⟩
  simp only [State.conclude_result, State.conclude_modeCache, State.conclude_awaitReady,
    State.conclude_hazard, State.conclude_evt]
  exact ⟨congrArg resultOf hok, State.issued_of_trace_right (State.conclude_trace ..) hissued', hawait,
    hcache, s.isReady_hazard, hends, hrecords, hbuffers, s.keepsEvent_isReady,
    hregs.concluded hquiet.toExtends _ _⟩

end Sys2Proof.Machine

/-!
PROOFS of the statements of 43_frequency_synthesizer: the arithmetic of the frequency value, where the
ceiling of a value and the floor of a frequency are adjoint, and `SetFrequency`, which is a run of register
writes whose errors are dropped.
-/

namespace Sys2Proof.Machine

/-! ### The floor and the ceiling (43_frequency_synthesizer R151, R155) -/

theorem fxoscHz_pos (c : Config) : 0 < c.fxoscHz := by
  obtain ⟨-, -, -, hpos, -⟩ := Params.check_true c.valid
  exact hpos

/-- A quotient rounded up, in the form the model writes it. -/
theorem ceilDiv_le_iff {a d : Nat} (hd : 0 < d) (n : Nat) : (a + (d - 1)) / d ≤ n ↔ a ≤ n * d := by
  rw [Nat.div_le_iff_le_mul_add_pred hd, Nat.add_le_add_iff_right, Nat.mul_comm]

theorem le_hzToFrf_iff (c : Config) (f hz : Nat) :
    f ≤ hzToFrf c hz ↔ f * c.fxoscHz ≤ hz * 2 ^ c.frfShift :=
  Nat.le_div_iff_mul_le (fxoscHz_pos c)

theorem hzToFrf_lt_iff (c : Config) (hz f : Nat) :
    hzToFrf c hz < f ↔ hz * 2 ^ c.frfShift < f * c.fxoscHz :=
  Nat.div_lt_iff_lt_mul (fxoscHz_pos c)

theorem frfToHzInt_le_iff (c : Config) (f : Frf) (n : Nat) :
    frfToHzInt c f ≤ n ↔ f.toNat * c.fxoscHz ≤ n * 2 ^ c.frfShift :=
  ceilDiv_le_iff (Nat.two_pow_pos _) n

/-- The ceiling exceeds the exact value by less than 1 Hz. -/
theorem frfToHzInt_mul_lt (c : Config) (f : Frf) :
    frfToHzInt c f * 2 ^ c.frfShift < f.toNat * c.fxoscHz + 2 ^ c.frfShift := by
  have hfloor : frfToHzInt c f * 2 ^ c.frfShift ≤ f.toNat * c.fxoscHz + (2 ^ c.frfShift - 1) :=
    Nat.div_mul_le_self _ _
  have hpos := Nat.two_pow_pos c.frfShift
  omega

/-- Decoding and encoding are adjoint: a frequency reaches the ceiling of a value where its floor reaches
the value. -/
theorem frfToHzInt_le_iff_le_hzToFrf (c : Config) (f : Frf) (hz : Nat) :
    frfToHzInt c f ≤ hz ↔ f.toNat ≤ hzToFrf c hz :=
  (frfToHzInt_le_iff c f hz).trans (le_hzToFrf_iff c f.toNat hz).symm

/-- Decoding then encoding loses nothing where a step is at least 1 Hz (R156 law 3). -/
theorem hzToFrf_frfToHzInt {c : Config} (h : 2 ^ c.frfShift ≤ c.fxoscHz) (f : Frf) :
    hzToFrf c (frfToHzInt c f) = f.toNat := by
  have hge : f.toNat ≤ hzToFrf c (frfToHzInt c f) :=
    (frfToHzInt_le_iff_le_hzToFrf c f _).mp (Nat.le_refl _)
  have hlt : hzToFrf c (frfToHzInt c f) < f.toNat + 1 := by
    rw [hzToFrf_lt_iff, Nat.succ_mul]
    exact (frfToHzInt_mul_lt c f).trans_le (Nat.add_le_add_left h _)
  exact Nat.le_antisymm (Nat.le_of_lt_succ hlt) hge

theorem hzToFrf_mono (c : Config) {hz1 hz2 : Nat} (h : hz1 ≤ hz2) : hzToFrf c hz1 ≤ hzToFrf c hz2 :=
  Nat.div_le_div_right (Nat.mul_le_mul_right _ h)

/-- The values of 24 bits are those of the frequencies below `HZ_LIMIT` (R152). -/
theorem hzToFrf_lt_limit_iff (c : Config) (hz : Nat) :
    hzToFrf c hz < 2 ^ 24 ↔ hz * 2 ^ c.frfShift < c.fxoscHz * 2 ^ 24 := by
  rw [hzToFrf_lt_iff, Nat.mul_comm (2 ^ 24)]

/-- The reduced quotient of the defaults (R151). -/
theorem hzToFrf_default (hz : Nat) : hzToFrf Config.default hz = hz * 256 / 15625 := by
  change hz * 2 ^ 19 / 32000000 = _
  omega

theorem hzToFrf_spec (c : Config) (hz : Nat) :
    hzToFrf c hz * c.fxoscHz ≤ hz * 2 ^ c.frfShift
      ∧ hz * 2 ^ c.frfShift < (hzToFrf c hz + 1) * c.fxoscHz :=
  ⟨(le_hzToFrf_iff c _ hz).mp (Nat.le_refl _), (hzToFrf_lt_iff c hz _).mp (Nat.lt_succ_self _)⟩

theorem exec_hzToFrf (hz : Nat) (s : State) :
    exec (.hzToFrf hz) s = .next { s with result := .ok (.natural (hzToFrf s.cfg hz)) } := rfl

theorem exec_frfToHz (f : Frf) (s : State) :
    exec (.frfToHz f) s = .next { s with result := .ok (.rational (frfToHz s.cfg f)) } := rfl

theorem exec_frfToHzInt (f : Frf) (s : State) :
    exec (.frfToHzInt f) s = .next { s with result := .ok (.natural (frfToHzInt s.cfg f)) } := rfl

/-- Settles O44: a pure operation whose value is the floor. -/
theorem hzToFrfIsTheFloor : Obligations.HzToFrfIsTheFloor :=
  ⟨fun s hz => ⟨_, exec_hzToFrf _ s, hzToFrf_spec s.cfg hz.toNat⟩, fun hz => hzToFrf_default hz.toNat,
    hzToFrf_default 915000000⟩

/-- Settles O45: a pure operation whose value is the fraction itself. -/
theorem frfToHzIsExact : Obligations.FrfToHzIsExact :=
  ⟨fun s f => ⟨_, exec_frfToHz f s, Nat.two_pow_pos _, rfl⟩, by decide, by decide⟩

/-- A value of 24 bits is at most `HZ_LIMIT`, in steps (R152). -/
theorem frf_mul_le (c : Config) (f : Frf) : f.toNat * c.fxoscHz ≤ c.fxoscHz * 2 ^ 24 := by
  rw [Nat.mul_comm]
  exact Nat.mul_le_mul_left _ f.isLt.le

/-- `HZ_LIMIT` as a whole number of Hz, where it is one (R152). -/
theorem hzLimit_mul {c : Config} (h : c.frfShift ≤ 24) :
    c.fxoscHz * 2 ^ (24 - c.frfShift) * 2 ^ c.frfShift = c.fxoscHz * 2 ^ 24 := by
  rw [Nat.mul_assoc, ← Nat.pow_add, Nat.sub_add_cancel h]

/-- Settles O46: the ceiling is the least bound of the exact value, and so, by adjunction, the least
frequency whose floor is the value. -/
theorem frfToHzIntIsTheCeiling : Obligations.FrfToHzIntIsTheCeiling := by
  refine ⟨fun s f => ⟨_, exec_frfToHzInt f s, (frfToHzInt_le_iff s.cfg f _).mp (Nat.le_refl _),
    fun m => (frfToHzInt_le_iff s.cfg f m).mpr, fun hshift => ?limit, ?ceiling, fun hstep =>
    ⟨hzToFrf_frfToHzInt hstep f, fun hz hf => ?least⟩⟩, by decide, by decide, by decide⟩
  case limit =>
    rw [frfToHzInt_le_iff, hzLimit_mul hshift]
    exact frf_mul_le s.cfg f
  case ceiling =>
    exact (frfToHzInt_mul_lt s.cfg f).trans_le (Nat.add_le_add_right (frf_mul_le s.cfg f) _)
  case least => exact (frfToHzInt_le_iff_le_hzToFrf s.cfg f hz).mpr hf.ge

/-- A frequency is less than one step above the ceiling of its value, in whole Hz (R156 law 2). -/
theorem sub_frfToHzInt_le {c : Config} {hz : Nat} {f : Frf} (h : f.toNat = hzToFrf c hz) :
    hz - frfToHzInt c f ≤ (c.fxoscHz + (2 ^ c.frfShift - 1)) / 2 ^ c.frfShift - 1 := by
  obtain ⟨-, hlt⟩ := hzToFrf_spec c hz
  have hreach : f.toNat * c.fxoscHz ≤ frfToHzInt c f * 2 ^ c.frfShift :=
    (frfToHzInt_le_iff c f _).mp (Nat.le_refl _)
  have hbelow : (hz - frfToHzInt c f) * 2 ^ c.frfShift < c.fxoscHz := by
    rw [← h, Nat.succ_mul] at hlt
    rw [Nat.sub_mul]
    have hpos := fxoscHz_pos c
    omega
  refine Nat.le_sub_one_of_lt (Nat.lt_of_not_le fun hle => ?_)
  exact absurd ((ceilDiv_le_iff (Nat.two_pow_pos _) _).mp hle) (Nat.not_le.mpr hbelow)

/-- The value of a frequency below `HZ_LIMIT` fits the triplet. -/
theorem ofNat_hzToFrf_toNat {c : Config} {hz : Nat} (h : hz * 2 ^ c.frfShift < c.fxoscHz * 2 ^ 24) :
    (BitVec.ofNat 24 (hzToFrf c hz)).toNat = hzToFrf c hz :=
  Nat.mod_eq_of_lt ((hzToFrf_lt_limit_iff c hz).mpr h)

/-- Settles O48: the laws are those of a floor and a ceiling that are adjoint. -/
theorem frequencyLaws : Obligations.FrequencyLaws := by
  refine ⟨fun s hz => ⟨_, exec_hzToFrf hz s, hzToFrf_spec s.cfg hz⟩, hzToFrf_default,
    hzToFrf_lt_limit_iff, fun c hz hlim => ?laws, fun hz hlim => ?default,
    fun c f h => hzToFrf_frfToHzInt h f, fun c _ _ h => hzToFrf_mono c h⟩
  case laws =>
    obtain ⟨hle, hlt⟩ := hzToFrf_spec c hz
    have hf := ofNat_hzToFrf_toNat hlim
    refine ⟨(hzToFrf_lt_limit_iff c hz).mpr hlim, hle, by rwa [Nat.succ_mul] at hlt, ?_,
      sub_frfToHzInt_le hf⟩
    exact (frfToHzInt_le_iff_le_hzToFrf c _ hz).mpr hf.le
  case default =>
    have hlim' : hz * 2 ^ Config.default.frfShift < Config.default.fxoscHz * 2 ^ 24 := by
      change hz * 2 ^ 19 < 32000000 * 2 ^ 24
      omega
    exact sub_frfToHzInt_le (ofNat_hzToFrf_toNat hlim')

/-! ### The range of `SetFrequency` (43_frequency_synthesizer R152) -/

theorem hzAccepted_iff (c : Config) (hz : Hz) :
    hzAccepted c hz = true ↔ hz.toNat * 2 ^ c.frfShift < c.fxoscHz * 2 ^ 24 := decide_eq_true_iff

theorem exec_setFrequency_of_ge {s : State} {hz : Hz}
    (h : s.cfg.fxoscHz * 2 ^ 24 ≤ hz.toNat * 2 ^ s.cfg.frfShift) :
    exec (.setFrequency hz) s = .refused .frequencyRange := by
  change execSetFrequency hz s = _
  rw [execSetFrequency, if_neg ((hzAccepted_iff s.cfg hz).not.mpr (Nat.not_lt.mpr h))]

/-- Settles O49: the ground is decided before the state is looked at, and the limit in whole Hz is the
limit in steps. -/
theorem frequencyRange : Obligations.FrequencyRange := by
  refine ⟨fun s hz h => ⟨⟨_, exec_setFrequency_of_ge h⟩, fun _ => exec_setFrequency_of_ge h⟩,
    fun c hz => hzToFrf_lt_limit_iff c hz.toNat, fun c hz h => ?_, by decide, hzToFrf_default _,
    hzToFrf_default 0⟩
  rw [← hzLimit_mul h, Nat.mul_lt_mul_right (Nat.two_pow_pos _)]

/-! ### Runs of writes whose errors are dropped (43_frequency_synthesizer R157) -/

/-- The writes `ws` in order, each a register and its byte, all attempted. -/
def State.writeAllDropping : List (Addr × Byte) → State → State
  | [], s => s
  | (a, v) :: ws, s => (s.writeDropping a v).writeAllDropping ws

/-- The three writes of `SetFrequency`, most significant byte first. -/
def frequencyWrites (c : Config) (f : Frf) : List (Addr × Byte) :=
  [(c.regFrfMsb, frfMsb f), (c.regFrfMid, frfMid f), (c.regFrfLsb, frfLsb f)]

theorem State.setFrequency_eq (hz : Hz) (s : State) :
    s.setFrequency hz
      = s.markFrequency.writeAllDropping (frequencyWrites s.cfg (frfOfHz s.cfg hz)) := rfl

theorem exec_setFrequency_of_idle {s : State} {hz : Hz} (hi : s.seq = .idle)
    (h : hz.toNat * 2 ^ s.cfg.frfShift < s.cfg.fxoscHz * 2 ^ 24) :
    exec (.setFrequency hz) s = .next ((s.setFrequency hz).conclude .idle (.ok .unit)) := by
  change execSetFrequency hz s = _
  rw [execSetFrequency, if_pos ((hzAccepted_iff s.cfg hz).mpr h), hostOperation_of_idle _ hi, hi]

theorem State.markFrequency_hazard (s : State) :
    s.markFrequency.hazard = (s.hazard
      || (decide (s.modeCache ≠ some .standby) && decide (s.modeCache ≠ some .sleep))) := rfl

theorem State.extends_writeAllDropping (ws : List (Addr × Byte)) (s : State) :
    s.Extends (s.writeAllDropping ws) := by
  induction ws generalizing s with
  | nil => exact .refl s
  | cons w ws ih =>
    obtain ⟨hw, -⟩ := State.extends_writeDropping w.1 w.2 s
    exact hw.trans (ih _)

/-- All that one write does on the bus; `dropped` grows by the first error of its frame. -/
theorem State.writeDropping_called (a : Addr) (v : Byte) (s : State) :
    ∃ l, s.Called (s.writeDropping a v) l ∧ isFrameOf (writeFrameBytes s.cfg a [v]) l
      ∧ (s.writeDropping a v).dropped
        = s.dropped ++ ([l].filterMap firstError).map transportError := by
  obtain ⟨l, hl, hframe, herror⟩ := s.writeReg_called a v
  obtain ⟨-, -, -, -, hdropped, -⟩ := State.extends_writeDropping a v s
  refine ⟨l, hl.of_same rfl rfl rfl rfl rfl, hframe, hdropped.trans ?_⟩
  rw [herror]
  cases h : firstError l <;> simp [h]

/-- All that a run of writes does on the bus: one frame for each, and `dropped` grows by the first error
of each frame that had one. -/
theorem State.writeAllDropping_called (ws : List (Addr × Byte)) (s : State) :
    ∃ ls, s.Called (s.writeAllDropping ws) ls.flatten
      ∧ List.Forall₂ (fun w l => isFrameOf (writeFrameBytes s.cfg w.1 [w.2]) l) ws ls
      ∧ (s.writeAllDropping ws).dropped
        = s.dropped ++ (ls.filterMap firstError).map transportError := by
  induction ws generalizing s with
  | nil => exact ⟨[], ⟨by simp [State.writeAllDropping], rfl, rfl⟩, .nil,
      by simp [State.writeAllDropping]⟩
  | cons w ws ih =>
    obtain ⟨l, hl, hframe, hdropped⟩ := s.writeDropping_called w.1 w.2
    obtain ⟨ls, hls, hframes, hdropped'⟩ := ih (s.writeDropping w.1 w.2)
    obtain ⟨hext, -⟩ := State.extends_writeDropping w.1 w.2 s
    rw [State.writeDropping_cfg] at hframes
    refine ⟨l :: ls, hl.trans hext hls, .cons hframe hframes, hdropped'.trans ?_⟩
    rw [hdropped, List.append_assoc, ← List.map_append, ← List.filterMap_append]
    rfl

/-- `SetFrequency` outside Standby and Sleep is marked at its start (43_frequency_synthesizer R158). -/
theorem State.setFrequency_hazard (hz : Hz) {s : State} (hstandby : s.modeCache ≠ some .standby)
    (hsleep : s.modeCache ≠ some .sleep) : (s.setFrequency hz).hazard = true := by
  rw [State.setFrequency_eq]
  refine (State.extends_writeAllDropping _ s.markFrequency).hazard ?_
  rw [State.markFrequency_hazard]
  simp [hstandby, hsleep]

/-- Settles O51: the three frames are those of a run of writes, and the end of the operation adds
nothing. -/
theorem setFrequencyDropsErrors : Obligations.SetFrequencyDropsErrors := by
  intro s hz hi hlim
  have hexec := exec_setFrequency_of_idle hi hlim
  obtain ⟨ls, hcalled, hframes, hdropped⟩ :=
    s.markFrequency.writeAllDropping_called (frequencyWrites s.cfg (frfOfHz s.cfg hz))
  obtain ⟨-, -, -, hbuffers, hcs, -⟩ := s.extends_setFrequency hz
  have hmode := State.setFrequency_sameMode (s := s) hz
  have hhazard := State.setFrequency_hazard (s := s) hz
  rw [← State.setFrequency_eq] at hcalled hdropped
  generalize s.setFrequency hz = t at *
  obtain ⟨l1, _, h1, hmid, rfl⟩ := List.forall₂_cons_left_iff.mp hframes
  obtain ⟨l2, _, h2, hlsb, rfl⟩ := List.forall₂_cons_left_iff.mp hmid
  obtain ⟨l3, _, h3, hnil, rfl⟩ := List.forall₂_cons_left_iff.mp hlsb
  obtain rfl := List.forall₂_nil_left_iff.mp hnil
  have hflat : [l1, l2, l3].flatten = l1 ++ l2 ++ l3 := by simp
  rw [hflat] at hcalled
  exact ⟨_, l1, l2, l3, hexec, rfl, hcalled.trace, h1, h2, h3, hcalled.errors, hdropped, ⟨hcs, rfl⟩,
    hbuffers, hmode, hhazard⟩

/-! ### Runs of writes in which no call fails -/

/-- One write in which no call fails is one frame and drops nothing. -/
theorem State.writeDropping_ok (a : Addr) (v : Byte) {s : State} (hn : s.noFailure 4) :
    s.issued (s.writeDropping a v) (frameActs [addressByte s.cfg true a, v])
      ∧ (s.writeDropping a v).dropped = s.dropped
      ∧ (s.writeDropping a v).tick = s.tick + 4 := by
  obtain ⟨hok, -, hissued, htick⟩ := State.writeReg_ok a v hn
  obtain ⟨-, -, -, -, hdropped, -⟩ := State.extends_writeDropping a v s
  exact ⟨hissued, by rw [hdropped, hok]; simp, htick⟩

theorem State.noFailure_writeDropping (a : Addr) (v : Byte) {s : State} {n : Nat}
    (hn : s.noFailure (4 * (n + 1))) : (s.writeDropping a v).noFailure (4 * n) := by
  obtain ⟨-, -, htick⟩ := State.writeDropping_ok a v (State.noFailure_mono hn (by omega))
  obtain ⟨hext, -⟩ := State.extends_writeDropping a v s
  exact State.noFailure_later hext htick (by rwa [Nat.add_comm])

theorem State.writeAllDropping_ok (ws : List (Addr × Byte)) {s : State}
    (hn : s.noFailure (4 * ws.length)) :
    s.issued (s.writeAllDropping ws)
        (ws.flatMap fun w => frameActs [addressByte s.cfg true w.1, w.2])
      ∧ (s.writeAllDropping ws).dropped = s.dropped := by
  induction ws generalizing s with
  | nil => exact ⟨s.issued_refl, rfl⟩
  | cons w ws ih =>
    obtain ⟨hissued, hdropped, -⟩ :=
      State.writeDropping_ok w.1 w.2 (State.noFailure_mono hn (by simp))
    obtain ⟨hissued', hdropped'⟩ := ih (State.noFailure_writeDropping w.1 w.2 hn)
    rw [State.writeDropping_cfg] at hissued'
    exact ⟨State.issued_trans hissued hissued', hdropped'.trans hdropped⟩

/-! ### Runs of writes to data registers -/

/-- Register `a` is none of those that more is known of than that they store bytes: the FIFO, the mode
register, the read-only ones (10_state R38, R39). -/
def dataRegister (c : Config) (a : Addr) : Prop :=
  a ∉ [c.regFifo, c.regOpmode, c.regVersion, c.regIrqFlags1, c.regIrqFlags2]

theorem dataRegister.ne_fifo {c : Config} {a : Addr} (h : dataRegister c a) : a ≠ c.regFifo :=
  List.ne_of_not_mem_cons h

theorem dataRegister.ne_opmode {c : Config} {a : Addr} (h : dataRegister c a) : a ≠ c.regOpmode :=
  List.ne_of_not_mem_cons (List.not_mem_of_not_mem_cons h)

theorem dataRegister.plainStorage {c : Config} {a : Addr} (h : dataRegister c a)
    (ht : c.target ≠ .oracle) : plainStorage c a := by
  cases hc : c.target with
  | oracle => exact absurd hc ht
  | loopback => exact .inl hc
  | reference =>
    simp only [dataRegister, List.mem_cons, not_or] at h
    exact .inr ⟨hc, by simp [h]⟩

/-- A write to a data register breaks no contract but that of readiness (70_reset_and_hazards R246). -/
theorem State.writeDropping_hazard {a : Addr} {s : State} (ha : dataRegister s.cfg a)
    (v : Byte) :
    (s.writeDropping a v).hazard = (s.hazard || s.awaitReady)
      ∧ (s.writeDropping a v).awaitReady = s.awaitReady := by
  refine ⟨(State.writeReg_hazard_of_ne_fifo ha.ne_fifo v).trans ?_,
    (State.writeDropping_sameMode ha.ne_opmode v).2⟩
  rw [State.marked_hazard]
  simp [ha.ne_opmode]

theorem State.writeAllDropping_hazard {ws : List (Addr × Byte)} {s : State}
    (hws : ∀ w ∈ ws, dataRegister s.cfg w.1) (hne : ws ≠ []) :
    (s.writeAllDropping ws).hazard = (s.hazard || s.awaitReady) := by
  induction ws generalizing s with
  | nil => exact absurd rfl hne
  | cons w ws ih =>
    obtain ⟨hw, hws⟩ := List.forall_mem_cons.mp hws
    obtain ⟨hhazard, hawait⟩ := State.writeDropping_hazard hw w.2
    rw [← State.writeDropping_cfg w.1 w.2 s] at hws
    cases ws with
    | nil => exact hhazard
    | cons w' ws =>
      refine (ih hws (List.cons_ne_nil _ _)).trans ?_
      rw [hhazard, hawait, Bool.or_assoc, Bool.or_self]

/-- A run of writes changes no register but those it writes. -/
theorem State.regsKept_writeAllDropping (ws : List (Addr × Byte)) (s : State) :
    State.RegsKept (ws.map Prod.fst) s (s.writeAllDropping ws) := by
  induction ws generalizing s with
  | nil => exact State.regsKept_of_target _ rfl
  | cons w ws ih =>
    obtain ⟨hext, -⟩ := State.extends_writeDropping w.1 w.2 s
    have hfirst : State.RegsKept [w.1] s (s.writeDropping w.1 w.2) := s.regsKept_writeReg w.1 w.2
    exact (hfirst.mono (by simp)).trans hext (State.extends_writeAllDropping ws _)
      ((ih _).mono fun b hb => List.mem_cons_of_mem _ hb)

/-- Where a law ties the target at the end of a write that does not fail, its byte is stored: no contract
was broken. -/
theorem State.writeDropping_stores {a : Addr} {v : Byte} {s : State} (hn : s.noFailure 4)
    (ha : dataRegister s.cfg a) (hs : s.target.sound s.cfg)
    (hl : (s.writeDropping a v).lawless = false) : (s.writeDropping a v).target.reg a = v := by
  obtain ⟨hext, -⟩ := State.extends_writeDropping a v s
  obtain ⟨horacle, hhazard⟩ := Bool.or_eq_false_iff.mp hl
  rw [(State.writeDropping_hazard ha v).1] at hhazard
  obtain ⟨hz, hw⟩ := Bool.or_eq_false_iff.mp hhazard
  have hplain : plainStorage s.cfg a := by
    rw [State.writeDropping_cfg] at horacle
    exact ha.plainStorage (of_decide_eq_false horacle)
  obtain ⟨-, -, hstored, -⟩ :=
    State.Lawful.writeReg_plain ⟨hext.lawless hl, hn⟩ hz hw hs hplain ha.ne_opmode v
  exact hstored

/-- A run of writes to distinct data registers leaves each byte in its register. -/
theorem State.writeAllDropping_stores {ws : List (Addr × Byte)} {s : State}
    (hn : s.noFailure (4 * ws.length)) (hws : ∀ w ∈ ws, dataRegister s.cfg w.1)
    (hdistinct : (ws.map Prod.fst).Nodup) (hs : s.target.sound s.cfg)
    (hl : (s.writeAllDropping ws).lawless = false) :
    ∀ w ∈ ws, (s.writeAllDropping ws).target.reg w.1 = w.2 := by
  induction ws generalizing s with
  | nil => simp
  | cons w ws ih =>
    obtain ⟨hw, hws⟩ := List.forall_mem_cons.mp hws
    obtain ⟨hfresh, hdistinct⟩ := List.nodup_cons.mp hdistinct
    obtain ⟨hext, -⟩ := State.extends_writeDropping w.1 w.2 s
    have hrest := State.extends_writeAllDropping ws (s.writeDropping w.1 w.2)
    have hs' : (s.writeDropping w.1 w.2).target.sound (s.writeDropping w.1 w.2).cfg := by
      rw [hext.cfg]
      exact hext.sound hs
    refine List.forall_mem_cons.mpr ⟨?first, ?rest⟩
    case first =>
      exact (State.regsKept_writeAllDropping ws _ hs' hl w.1 hfresh).trans
        (State.writeDropping_stores (State.noFailure_mono hn (by simp)) hw hs (hrest.lawless hl))
    case rest =>
      rw [← hext.cfg] at hws
      exact ih (State.noFailure_writeDropping w.1 w.2 hn) hws hdistinct hs' hl

/-! ### `SetFrequency` in which no call fails (43_frequency_synthesizer R157, R158) -/

/-- Where the named registers are distinct, those of the triplet are data registers. -/
theorem frequencyWrites_dataRegister {c : Config} (h : c.registers.Nodup) (f : Frf) :
    ∀ w ∈ frequencyWrites c f, dataRegister c w.1 := by
  simp only [Params.registers, List.nodup_cons, List.mem_cons, List.not_mem_nil, or_false, not_or] at h
  obtain ⟨hfifo, hmode, hmsb, hmid, hlsb, -⟩ := h
  simp [frequencyWrites, dataRegister, hfifo, hmode, hmsb, hmid, hlsb, eq_comm]

theorem opmode_notMem_of_dataRegister {c : Config} {f : Frf}
    (h : ∀ w ∈ frequencyWrites c f, dataRegister c w.1) :
    c.regOpmode ∉ [c.regFrfMsb, c.regFrfMid, c.regFrfLsb] := fun hmem => by
  have hmem' : c.regOpmode ∈ (frequencyWrites c f).map Prod.fst := hmem
  obtain ⟨w, hw, hmode⟩ := List.mem_map.mp hmem'
  exact (h w hw).ne_opmode hmode

theorem frequencyWrites_distinct (c : Config) (f : Frf) :
    ((frequencyWrites c f).map Prod.fst).Nodup := by
  obtain ⟨hmid, hlsb, hlsb'⟩ := frf_registers_distinct c
  simp [frequencyWrites, hmid.symm, hlsb.symm, hlsb'.symm]

/-- The marks of R158 and of 70_reset_and_hazards R246, where the triplet's are data registers. -/
theorem State.setFrequency_hazard_of_data {s : State} {hz : Hz}
    (h : ∀ w ∈ frequencyWrites s.cfg (frfOfHz s.cfg hz), dataRegister s.cfg w.1) :
    (s.setFrequency hz).hazard = (s.hazard || s.awaitReady
      || (decide (s.modeCache ≠ some .standby) && decide (s.modeCache ≠ some .sleep))) := by
  rw [State.setFrequency_eq,
    State.writeAllDropping_hazard (s := s.markFrequency) h (List.cons_ne_nil _ _),
    State.markFrequency_hazard, s.bus_markFrequency.awaitReady, Bool.or_right_comm]

/-- Settles O50: three writes to distinct data registers, in which nothing fails. -/
theorem setFrequencyWritesTheTriplet : Obligations.SetFrequencyWritesTheTriplet := by
  intro s hz hi hnodup hlim hn
  have hexec := exec_setFrequency_of_idle hi hlim
  have hvalue := (frf_eq_bytes (frfOfHz s.cfg hz)).symm.trans (ofNat_hzToFrf_toNat hlim)
  have hdata := frequencyWrites_dataRegister hnodup (frfOfHz s.cfg hz)
  obtain ⟨hext, hrst, -, hbuffers, hcs, -⟩ := s.extends_setFrequency hz
  have hmode := State.setFrequency_sameMode hz (opmode_notMem_of_dataRegister hdata)
  have hevent := s.keepsEvent_setFrequency hz
  have hhazard := State.setFrequency_hazard_of_data hdata
  have hn' : s.markFrequency.noFailure (4 * (frequencyWrites s.cfg (frfOfHz s.cfg hz)).length) := hn
  obtain ⟨hissued, hdropped⟩ := State.writeAllDropping_ok _ hn'
  have hregs := s.markFrequency.regsKept_writeAllDropping (frequencyWrites s.cfg (frfOfHz s.cfg hz))
  have hstores := State.writeAllDropping_stores hn' hdata (frequencyWrites_distinct s.cfg _)
  rw [← State.setFrequency_eq] at hissued hdropped hregs hstores
  generalize s.setFrequency hz = t at *
  refine ⟨_, _, _, _, hexec, rfl, hvalue, hissued, ⟨hcs, rfl⟩,
    ⟨hext.cfg, hext.script, hext.requests, hrst, hdropped⟩, hbuffers, hmode, hhazard, hevent,
    fun hs => ⟨⟨hext.version, hregs hs⟩, fun hl => ?_⟩⟩
  simpa [frequencyWrites] using hstores hs hl

end Sys2Proof.Machine

/-!
PROOFS of the statements of 44_packet_io, the FIFO operations: each is one burst frame with its scratch
buffer; what a burst read that fails has taken from the FIFO, as a count of its exchanges.
-/

namespace Sys2Proof.Machine

/-! ### `FifoWrite` and `FifoRead` where they are taken (44_packet_io R171, R172) -/

theorem exec_fifoWrite_of_closed {s : State} {d : List Byte} (hc : s.cs = false)
    (hlen : d.length ≤ s.cfg.maxSendLen) :
    exec (.fifoWrite d) s
      = .next ((s.fifoWrite d).1.conclude s.seq (resultOf (s.fifoWrite d).2)) :=
  (if_pos (decide_eq_true hlen)).trans (framedOperation_of_closed _ hc)

theorem exec_fifoRead_of_closed {s : State} {n : Nat} (hc : s.cs = false)
    (hlen : n ≤ s.cfg.scratchSize) :
    exec (.fifoRead n) s
      = .next ((s.fifoRead n).1.conclude s.seq (resultWith .bytes (s.fifoRead n).2)) :=
  (if_pos (decide_eq_true hlen)).trans (framedOperation_of_closed _ hc)

/-- The end of an operation adds nothing to the records its work has kept. -/
theorem State.Work.concluded {s u : State} (h : s.Work u) (hc : u.cs = false) (q : SeqState)
    (r : Result) : (u.conclude q r).endedIn q ∧ s.SameRecords (u.conclude q r) :=
  ⟨⟨hc, rfl⟩, ⟨h.cfg, h.script, h.requests, h.rst, h.dropped⟩⟩

/-- The state in which the burst of `FifoWrite` is issued: the outgoing frame stands in `tx_buf`
(10_state R25). -/
def State.loaded (d : List Byte) (s : State) : State :=
  { s with txBuf := bufferWith (writeFrameBytes s.cfg s.cfg.regFifo d) s.txBuf }

theorem State.fifoWrite_eq (d : List Byte) (s : State) :
    s.fifoWrite d = (s.loaded d).burstWrite d := rfl

theorem State.regsKept_fifoWrite (d : List Byte) (s : State) :
    State.RegsKept [s.cfg.regFifo] s (s.fifoWrite d).1 := (s.loaded d).regsKept_burstWrite d

/-- The mark at the start of the burst stays. -/
theorem State.fifoWrite_hazard_of_marked (d : List Byte) {s : State}
    (h : (s.hazard || s.awaitReady) = true) : (s.fifoWrite d).1.hazard = true := by
  rw [State.fifoWrite_eq]
  exact State.burstWrite_hazard_of_marked d h

theorem State.fifoWrite_ok {d : List Byte} {s : State} (h : s.noFailure (d.length + 3)) :
    (s.fifoWrite d).2 = none
      ∧ s.issued (s.fifoWrite d).1 (frameActs (writeFrameBytes s.cfg s.cfg.regFifo d))
      ∧ (s.fifoWrite d).1.tick = s.tick + (d.length + 3) :=
  State.burstWrite_ok (s := s.loaded d) d h

/-- After a load that fits, `tx_buf` begins with the frame. -/
theorem State.fifoWrite_txBuf {d : List Byte} {s : State} (hd : d.length ≤ s.cfg.maxSendLen)
    (hbuf : s.txBuf.length = s.cfg.scratchSize) :
    (s.fifoWrite d).1.txBuf.take (d.length + 1) = writeFrameBytes s.cfg s.cfg.regFifo d := by
  obtain ⟨-, -, -, -, -, -, -, -, -, -, hscratch, -⟩ := Params.check_true s.cfg.valid
  obtain ⟨htx, -⟩ := State.fifoWrite_buffers d s
  have hfits : (writeFrameBytes s.cfg s.cfg.regFifo d).length ≤ s.txBuf.length := by
    rw [writeFrameBytes_length, hbuf]
    omega
  rw [htx]
  simpa using bufferWith_take hfits

theorem State.fifoRead_hazard (n : Nat) (s : State) :
    (s.fifoRead n).1.hazard = (s.hazard || s.awaitReady) := by
  rw [← State.burstRead_hazard n s]
  rfl

/-- `FifoRead` answers what its burst answers. -/
theorem State.fifoRead_of_none {n : Nat} {s : State} (h : (s.burstRead n).2.2 = none) :
    (s.fifoRead n).2 = .ok (s.burstRead n).2.1 := by
  unfold State.fifoRead
  simp only [h]

theorem State.fifoRead_of_some {n : Nat} {s : State} {e : OpError}
    (h : (s.burstRead n).2.2 = some e) : (s.fifoRead n).2 = .error e := by
  unfold State.fifoRead
  simp only [h]

/-- `FifoRead` in which no call fails: the bytes answered are the last `n` received. -/
theorem State.fifoRead_ok {n : Nat} {s : State} (h : s.noFailure (n + 3)) :
    ∃ r l, (s.fifoRead n).2 = .ok l ∧ l.length = n ∧ (s.burstRead n).2.1 = l
      ∧ s.received (s.fifoRead n).1 = r :: l
      ∧ s.issued (s.fifoRead n).1 (frameActs (readFrameBytes s.cfg s.cfg.regFifo n)) := by
  obtain ⟨hok, hlen, ⟨r, hreceived⟩, hissued, -⟩ := State.burstRead_ok n h
  exact ⟨r, _, State.fifoRead_of_none hok, hlen, rfl, hreceived, hissued⟩

/-- Filling `rx_buf` after the burst touches no register. -/
theorem State.RegsKept.fifoRead {as : List Addr} {n : Nat} {s : State}
    (h : State.RegsKept as s (s.burstRead n).1) : State.RegsKept as s (s.fifoRead n).1 :=
  h.trans (s.bus_burstRead n).toExtends (State.work_rxBuf _ _).toExtends
    (State.regsKept_of_target as rfl)

theorem State.regsKept_fifoRead {n : Nat} {s : State} (hn : s.noFailure (n + 3)) :
    State.RegsKept [] s (s.fifoRead n).1 := (State.regsKept_burstRead hn).fifoRead

/-- After a drain that fits, `rx_buf` begins with the bytes drained. -/
theorem State.fifoRead_rxBuf {n : Nat} {s : State} {l : List Byte} (hl : (s.burstRead n).2.1 = l)
    (hlen : l.length ≤ s.rxBuf.length) : (s.fifoRead n).1.rxBuf.take l.length = l := by
  rw [(State.fifoRead_buffers n s).2, hl, bufferWith_take hlen]

/-- Settles O32: each operation is one burst in which nothing fails, with its scratch buffer. -/
theorem fifoOperationsComplete : Obligations.FifoOperationsComplete := by
  refine ⟨fun s d hinv hc hlen hn => ?_, fun s n hinv hc hlen hn => ?_⟩
  · obtain ⟨hok, hissued, -⟩ := State.fifoWrite_ok hn
    have hwork := s.work_fifoWrite d
    obtain ⟨hends, hrecords⟩ := hwork.concluded (s.fifoWrite_ends d).1 s.seq
      (resultOf (s.fifoWrite d).2)
    have htx := State.fifoWrite_txBuf hlen hinv.txBuf
    exact ⟨_, exec_fifoWrite_of_closed hc hlen, congrArg resultOf hok, hissued, htx,
      (s.fifoWrite_buffers d).2, hends, hrecords, s.fifoWrite_mode d,
      s.fifoWrite_hazard_of_marked d, s.keepsEvent_fifoWrite d,
      (s.regsKept_fifoWrite d).concluded hwork.toExtends _ _ hinv.target⟩
  · obtain ⟨r, l, hok, hl, hbytes, hreceived, hissued⟩ := State.fifoRead_ok hn
    have hwork := s.work_fifoRead n
    obtain ⟨hends, hrecords⟩ := hwork.concluded (s.fifoRead_ends n).1 s.seq
      (resultWith .bytes (s.fifoRead n).2)
    have hrx := State.fifoRead_rxBuf hbytes (by rw [hl, hinv.rxBuf]; exact hlen)
    rw [hl] at hrx
    exact ⟨_, r, l, exec_fifoRead_of_closed hc hlen, congrArg (resultWith .bytes) hok, hl,
      hreceived, hrx, (s.fifoRead_buffers n).1, hissued, hends, hrecords, s.fifoRead_mode n,
      s.fifoRead_hazard n, s.keepsEvent_fifoRead n,
      (State.regsKept_fifoRead hn).concluded hwork.toExtends _ _ hinv.target⟩

/-! ### A read frame on the FIFO of a reference target, with or without a failure (20_memory R66) -/

/-- From `s` on, before call number `T`, the other agents take no step. -/
def State.calmUntil (T : Nat) (s : State) : Prop := ∀ k, s.tick + k < T → (s.momentAt k).acts = []

theorem State.undisturbed.calmUntil {n : Nat} {s : State} (h : s.undisturbed n) :
    s.calmUntil (s.tick + n) := fun k hk => h k (by omega)

theorem State.calmUntil.later {T : Nat} {s t : State} (h : s.calmUntil T) (he : s.Extends t) :
    t.calmUntil T := fun k hk => by
  obtain ⟨j, hj⟩ := Nat.exists_eq_add_of_le he.tick
  rw [State.momentAt_later he hj]
  exact h _ (by omega)

theorem State.calmUntil.undisturbed_one {T : Nat} {s : State} (h : s.calmUntil T)
    (ht : s.tick < T) : s.undisturbed 1 := fun k hk => h k (by omega)

/-- A read of the FIFO moves at most its head to the bytes taken. -/
theorem Target.readData_drained (c : Config) (d : Byte) (t : Target) :
    (Target.readData c d c.regFifo t).1.drained ++ (Target.readData c d c.regFifo t).1.fifo
        = t.drained ++ t.fifo
      ∧ (Target.readData c d c.regFifo t).1.drained.length ≤ t.drained.length + 1 := by
  rw [Target.readData, if_pos rfl]
  cases h : t.fifo with
  | nil => simp [h]
  | cons head rest => simp

/-- A read frame on the FIFO of a clean reference target has had its address exchange, and since call
number `t0` as many exchanges as were attempted; the bytes it has taken, put back in front, make the
FIFO `q` it began with. -/
structure State.Draining (q : List Byte) (t0 : Nat) (s : State) : Prop where
  reference : s.cfg.target = .reference
  hazard : s.hazard = false
  frame : ∃ f, s.frame = some f ∧ f.addr = some (false, s.cfg.regFifo) ∧ f.pending = none
    ∧ t0 + f.attempted = s.tick ∧ s.target.drained.length ≤ f.attempted
  fifo : s.target.drained ++ s.target.fifo = q

section
variable {q : List Byte} {t0 : Nat} {s : State}

theorem State.Draining.lawless (h : s.Draining q t0) : s.lawless = false :=
  State.lawless_of_simulated (by rw [h.reference]; nofun) h.hazard

theorem State.exchange_of_callError {e : PlatformError} (h : s.callErrorAt 0 = some e) (b : Byte) :
    (s.exchange b).1.frame = s.frame.map (BusFrame.fail s.cfg b)
      ∧ (s.exchange b).1.target = s.elapse.target ∧ (s.exchange b).1.hazard = s.hazard := by
  have h' : (s.setSeq (nextExchange s.seq)).callErrorAt 0 = some e := h
  rw [State.exchange, State.transfer_of_error h']
  exact ⟨rfl, rfl, rfl⟩

/-- One more data exchange, whether or not it fails. -/
theorem State.Draining.exchange (h : s.Draining q t0) (hu : s.undisturbed 1) (b : Byte) :
    (s.exchange b).1.Draining q t0 := by
  obtain ⟨f, hf, ha, hp, htick, hlen⟩ := h.frame
  have hcfg := (s.bus_exchange b).cfg
  cases hc : s.callErrorAt 0 with
  | some e =>
    obtain ⟨hframe, htarget, hhazard⟩ := State.exchange_of_callError hc b
    rw [State.elapse_target_of_undisturbed h.lawless hu] at htarget
    refine ⟨hcfg ▸ h.reference, hhazard.trans h.hazard,
      ⟨f.fail s.cfg b, by rw [hframe, hf]; rfl, ?_, hp, ?_, ?_⟩, by rw [htarget]; exact h.fifo⟩
    · simp [BusFrame.fail, ha, hcfg]
    · rw [State.exchange_tick, ← htick]; rfl
    · rw [htarget]; exact Nat.le_succ_of_le hlen
  | none =>
    have hcalm : s.Calm 1 := ⟨h.reference, h.hazard, fun k hk => by rwa [Nat.lt_one_iff.mp hk], hu⟩
    obtain ⟨draw, hans⟩ := hcalm.nextAnswer_read hf ha b
    obtain ⟨-, htarget, hframe, hhazard⟩ := State.exchange_answered hc b
    rw [hans] at htarget hframe hhazard
    obtain ⟨hkept, hmoved⟩ := Target.readData_drained s.cfg draw s.target
    refine ⟨hcfg ▸ h.reference, by rw [hhazard, h.hazard]; rfl,
      ⟨f.counted, hframe, by rw [hcfg]; exact ha, hp, ?_, ?_⟩, ?_⟩
    · rw [State.exchange_tick, ← htick]; rfl
    · rw [htarget]
      exact hmoved.trans (Nat.succ_le_succ hlen)
    · rw [htarget]
      exact hkept.trans h.fifo

theorem State.Draining.exchangeAll (bs : List Byte) {T : Nat} (h : s.Draining q t0)
    (hT : s.calmUntil T) (ht : s.tick + bs.length < T) :
    (State.exchangeAll bs s).1.Draining q t0 ∧ (State.exchangeAll bs s).1.undisturbed 1 := by
  induction bs generalizing s with
  | nil => exact ⟨h, hT.undisturbed_one ht⟩
  | cons b rest ih =>
    rw [List.length_cons] at ht
    have h' := h.exchange (hT.undisturbed_one (by omega)) b
    have hT' := hT.later (s.bus_exchange b).toExtends
    have ht' : (s.exchange b).1.tick + rest.length < T := by rw [State.exchange_tick]; omega
    unfold State.exchangeAll
    dsimp only
    split
    · exact ⟨h', hT'.undisturbed_one (by omega)⟩
    · exact ih h' hT' ht'

/-- `CS-`: the head of the FIFO has lost at most as many bytes as exchanges were attempted. -/
theorem State.Draining.closeFrame (h : s.Draining q t0) (hu : s.undisturbed 1)
    (hq : q.length ≤ s.cfg.fifoWindow) (e : Option OpError) :
    ∃ j, t0 + j ≤ s.tick ∧ (s.closeFrame e).1.target.fifo = q.drop j := by
  obtain ⟨⟨fa, fd, ft, ff, fp⟩, hf, ha, hp, htick, hlen⟩ := h.frame
  obtain rfl : fa = some (false, s.cfg.regFifo) := ha
  obtain rfl : fp = none := hp
  have hf' : s.closing.elapse.frame = some ⟨some (false, s.cfg.regFifo), fd, ft, ff, none⟩ := hf
  have hl : s.closing.elapse.lawless = false := h.lawless
  have htarget : s.closing.elapse.target = s.target :=
    State.elapse_target_of_undisturbed (s := s.closing) h.lawless hu
  rw [State.closeFrame_target, State.afterFrame, hf', hl, htarget]
  dsimp only at htick hlen ⊢
  split
  · next hl' => cases hl'
  · split
    · refine ⟨min s.closing.moment.count ft, by omega, ?_⟩
      have hcfg : s.closing.elapse.cfg = s.cfg := rfl
      simp only [Target.afterFailure, hcfg, if_true, Bool.false_eq_true, if_false, h.fifo]
      exact List.take_of_length_le ((List.length_drop ▸ Nat.sub_le _ _).trans hq)
    · exact ⟨s.target.drained.length, by omega, by simp [← h.fifo]⟩

end

/-- The address exchange of a read frame on the FIFO, whether or not it fails. -/
theorem State.draining_addressed {s : State} (href : s.cfg.target = .reference)
    (hz : s.hazard = false) (ho : s.callErrorAt 0 = none) (hu : s.undisturbed 2) :
    (s.addressed false s.cfg.regFifo).Draining s.target.fifo (s.tick + 1) := by
  have hl := State.lawless_of_simulated (by rw [href]; nofun) hz
  have hbus := s.bus_openFrame
  have hframe : s.openFrame.1.frame = some {} := by rw [State.openFrame_frame, ho]; rfl
  have htarget : s.openFrame.1.elapse.target = { s.target with drained := [] } := by
    rw [State.elapse_target_of_undisturbed (s := s.openFrame.1) hl fun k hk => by
      rw [State.momentAt_later (n := 1) hbus.toExtends s.openFrame_tick]
      exact hu _ (by omega)]
    exact congrArg (fun t : Target => { t with drained := [] })
      (State.elapse_target_of_undisturbed hl fun k hk => hu k (by omega))
  have htick := s.addressed_tick false s.cfg.regFifo
  have hcfg := (s.bus_addressed false s.cfg.regFifo).cfg
  cases hc : s.openFrame.1.callErrorAt 0 with
  | some e =>
    obtain ⟨hf, ht, hh⟩ := State.exchange_of_callError hc (addressByte s.cfg false s.cfg.regFifo)
    rw [hframe] at hf
    rw [htarget] at ht
    refine ⟨by rw [hcfg, href], hh.trans hz, ⟨_, hf, ?_, rfl, htick.symm, ?_⟩, ?_⟩
    · simp [BusFrame.fail, hbus.cfg, hcfg]
    · rw [State.addressed, ht]; exact Nat.zero_le _
    · rw [State.addressed, ht]; rfl
  | none =>
    have hfe : (s.openFrame.1.setSeq (nextExchange s.openFrame.1.seq)).elapse.frame = some {} := hframe
    obtain ⟨-, ht, hf, hh⟩ := State.exchange_answered hc (addressByte s.cfg false s.cfg.regFifo)
    rw [State.nextAnswer, State.answer_address hfe rfl] at ht hf hh
    have ht' : (s.addressed false s.cfg.regFifo).target = { s.target with drained := [] } :=
      ht.trans htarget
    refine ⟨by rw [hcfg, href], hh.trans (by simp [State.openFrame_hazard, hz]),
      ⟨_, hf, ?_, rfl, htick.symm, ?_⟩, by rw [ht']; rfl⟩
    · simp [hbus.cfg, hcfg]
    · rw [ht']; exact Nat.zero_le _

/-- `CS-` of a frame in which no byte was sent: the target ignores it (30_encoding R81). -/
theorem State.closeFrame_target_of_unaddressed {s : State} {f : BusFrame} (hf : s.frame = some f)
    (ha : f.addr = none) (e : Option OpError) : (s.closeFrame e).1.target = s.elapse.target := by
  have hf' : s.closing.elapse.frame = some f := hf
  obtain ⟨fa, fd, ft, ff, fp⟩ := f
  obtain rfl : fa = none := ha
  rw [State.closeFrame_target, State.afterFrame, hf']
  rfl

/-- A frame that was opened makes the address exchange and then data exchanges, none where the address
exchange failed, and closes. -/
theorem State.runFrame_of_opened {s : State} (h : s.callErrorAt 0 = none) (w : Bool) (a : Addr)
    (d : List Byte) :
    ∃ d' e, d'.length ≤ d.length ∧ (s.runFrame (addressByte s.cfg w a :: d)).1
      = ((State.exchangeAll d' (s.addressed w a)).1.closeFrame e).1 := by
  have ho : s.openFrame.2 = none := by rw [State.openFrame_error, h]; rfl
  unfold State.runFrame
  simp only [ho, Option.isNone_none, if_true]
  cases hr : (s.openFrame.1.exchange (addressByte s.cfg w a)).2 with
  | error e =>
    refine ⟨[], some e, Nat.zero_le _, ?_⟩
    simp only [State.exchangeAll, hr]
    rfl
  | ok r =>
    rw [State.exchangeAll_cons_of_ok hr]
    exact ⟨d, _, Nat.le_refl _, rfl⟩

/-- A burst read on a clean reference target that nothing disturbs has removed at most as many bytes
from the head as it attempted exchanges: one for each call but `CS+` and `CS-`. -/
theorem State.burstRead_removes {s : State} {n : Nat} (href : s.cfg.target = .reference)
    (hz : s.hazard = false) (ha : s.awaitReady = false) (hs : s.target.sound s.cfg)
    (hu : s.undisturbed (n + 3)) :
    ∃ j, s.tick + j + 2 ≤ (s.burstRead n).1.tick
      ∧ (s.burstRead n).1.target.fifo = s.target.fifo.drop j := by
  have hl := State.lawless_of_simulated (by rw [href]; nofun) hz
  have hT := hu.calmUntil
  have hopen := s.bus_openFrame.toExtends
  unfold State.burstRead State.readFrame readFrameBytes
  rw [State.markBurst_eq_self ha]
  cases ho : s.callErrorAt 0 with
  | some e =>
    have hrun : s.runFrame (addressByte s.cfg false s.cfg.regFifo :: List.replicate n s.cfg.dummyByte)
        = ((s.openFrame.1.closeFrame (some (transportError e))).1, [],
          (s.openFrame.1.closeFrame (some (transportError e))).2) := by
      simp [State.runFrame, State.openFrame_error, ho]
    have hclose := State.closeFrame_target_of_unaddressed s.openFrame_frame rfl
      (some (transportError e))
    rw [State.elapse_target_of_undisturbed (s := s.openFrame.1) hl
      ((hT.later hopen).undisturbed_one (by rw [State.openFrame_tick]; omega))] at hclose
    have helapse := State.elapse_target_of_undisturbed hl (hT.undisturbed_one (by omega))
    rw [hrun]
    refine ⟨0, Nat.le_refl _, ?_⟩
    dsimp only
    rw [hclose, List.drop_zero]
    exact (congrArg Target.fifo helapse :)
  | none =>
    obtain ⟨d', e, hd, hrun⟩ := State.runFrame_of_opened ho false s.cfg.regFifo
      (List.replicate n s.cfg.dummyByte)
    rw [List.length_replicate] at hd
    have hbus := (s.bus_addressed false s.cfg.regFifo).toExtends
    have h := State.draining_addressed href hz ho fun k hk => hu k (by omega)
    obtain ⟨h', hu'⟩ := h.exchangeAll d' (hT.later hbus) (by rw [State.addressed_tick]; omega)
    have hcfg := (hbus.trans (State.bus_exchangeAll d' _).toExtends).cfg
    obtain ⟨j, hj, hfifo⟩ := h'.closeFrame hu' (by rw [hcfg]; exact hs.2) e
    refine ⟨j, ?_, ?_⟩
    · rw [hrun, State.closeFrame_tick]
      omega
    · rw [hrun, hfifo]

/-! ### A burst whose k-th call fails (60_exceptions R219) -/

theorem State.burstWrite_fails {d : List Byte} {s : State} {k : Nat} {e : PlatformError}
    (hk : k < d.length + 3) (h : s.noFailure k) (he : s.callErrorAt k = some e) :
    (s.burstWrite d).2 = some (transportError e)
      ∧ s.issued (s.burstWrite d).1 (frameActs ((writeFrameBytes s.cfg s.cfg.regFifo d).take k)) :=
  State.runFrame_fails (s := s.markBurst) _ (by rwa [writeFrameBytes_length]) h he

theorem State.burstRead_fails {n : Nat} {s : State} {k : Nat} {e : PlatformError}
    (hk : k < n + 3) (h : s.noFailure k) (he : s.callErrorAt k = some e) :
    (s.burstRead n).2.2 = some (transportError e)
      ∧ s.issued (s.burstRead n).1 (frameActs ((readFrameBytes s.cfg s.cfg.regFifo n).take k)) :=
  State.runFrame_fails (s := s.markBurst) _ (by rwa [readFrameBytes_length]) h he

/-- A burst read that may fail changes at most the register at the FIFO's address (20_memory R66). -/
theorem State.regsKept_fifoRead_addressed (n : Nat) (s : State) :
    State.RegsKept [s.cfg.regFifo] s (s.fifoRead n).1 := by
  have hburst : State.RegsKept [s.cfg.regFifo] s (s.burstRead n).1 :=
    State.runFrame_regs false s.cfg.regFifo (List.replicate n s.cfg.dummyByte) s.markBurst
  exact hburst.fifoRead

/-- The calls of a burst read, counted. -/
theorem State.burstRead_tick {s : State} {n k : Nat}
    (h : s.issued (s.burstRead n).1 (frameActs ((readFrameBytes s.cfg s.cfg.regFifo n).take k))) :
    (s.burstRead n).1.tick = s.tick + (min k (n + 1) + 2) := by
  obtain ⟨l, hl, -⟩ := State.runFrame_called (readFrameBytes s.cfg s.cfg.regFifo n) s.markBurst
  have hacts : l.map BusCall.act = frameActs ((readFrameBytes s.cfg s.cfg.regFifo n).take k) :=
    List.append_cancel_left ((State.Called.issued hl).symm.trans h)
  have hlen : l.length = min k (n + 1) + 2 := by
    rw [← List.length_map (as := l) BusCall.act, hacts, frameActs_length, List.length_take,
      readFrameBytes_length]
  rw [← hlen]
  exact hl.tick

/-- Settles O33: each operation is one burst, which ends with the error of its k-th call; what a read
removes from the head is counted by its exchanges. -/
theorem fifoOperationsFail : Obligations.FifoOperationsFail := by
  refine ⟨fun s d k e hc hlen hk hn he => ?_, fun s n k e hc hlen hk hn he => ?_⟩
  · obtain ⟨herror, hissued⟩ := State.burstWrite_fails (s := s.loaded d) hk hn he
    have hwork := s.work_fifoWrite d
    obtain ⟨hends, hrecords⟩ := hwork.concluded (s.fifoWrite_ends d).1 s.seq
      (resultOf (s.fifoWrite d).2)
    exact ⟨_, exec_fifoWrite_of_closed hc hlen, congrArg resultOf herror, hissued, hends, hrecords,
      s.fifoWrite_mode d, (s.fifoWrite_buffers d).2,
      fun hs => ⟨(s.regsKept_fifoWrite d).concluded hwork.toExtends _ _ hs, (hwork.sound hs).2⟩⟩
  · obtain ⟨herror, hissued⟩ := State.burstRead_fails hk hn he
    have hwork := s.work_fifoRead n
    obtain ⟨hends, hrecords⟩ := hwork.concluded (s.fifoRead_ends n).1 s.seq
      (resultWith .bytes (s.fifoRead n).2)
    refine ⟨_, exec_fifoRead_of_closed hc hlen,
      congrArg (resultWith .bytes) (State.fifoRead_of_some herror), hissued, hends, hrecords,
      s.fifoRead_mode n, (s.fifoRead_buffers n).1, s.fifoRead_hazard n,
      (s.regsKept_fifoRead_addressed n).concluded hwork.toExtends _ _,
      fun href hz ha hs hu => ?_⟩
    obtain ⟨j, hj, hfifo⟩ := State.burstRead_removes href hz ha hs hu
    rw [State.burstRead_tick hissued] at hj
    exact ⟨j, by omega, by omega, hfifo⟩

end Sys2Proof.Machine

/-!
PROOFS of the statements of 44_packet_io, the waits: `PollFlag` where its first poll sees the bit, and the
two completion waits, which are a dwell, a `PollFlag` or an `AwaitEvent`.
-/

namespace Sys2Proof.Machine

/-! ### The two waits of one poll (44_packet_io R175) -/

section
variable {reg : Addr} {bit : Fin 8} {timeout : Nat} {name : WaitName} {s : State}

theorem exec_pollFlag_of_closed (hc : s.cs = false) :
    exec (.pollFlag reg bit timeout name) s
      = .next ((s.pollFlag reg bit timeout name).1.conclude s.seq
        (resultOf (s.pollFlag reg bit timeout name).2)) :=
  framedOperation_of_closed _ hc

/-- The first poll of a wait answers what an oracle target draws at its data exchange. -/
theorem State.polled_of_oracle (ht : s.cfg.target = .oracle) (hn : s.noFailure 5) (q : SeqState)
    (reg : Addr) : (s.now.1.polled q reg).2 = .ok (s.momentAt 3).byte := by
  have hl : (s.now.1.setSeq q).lawless = true := by simp [State.lawless, State.now, ht]
  have hread := State.readReg_of_lawless hl (State.noFailure_waitStart (n := 4) q hn) reg
  rwa [State.momentAt_later (n := 1) (s.bus_waitStart q).toExtends rfl] at hread

/-- Where the first poll sees the bit, `PollFlag` is that poll and no more. -/
theorem State.pollFlag_of_first {b : Byte} (hr : (s.now.1.polled (.flagPoll 1) reg).2 = .ok b)
    (hb : statusBit b bit = true) :
    s.pollFlag reg bit timeout name = ((s.now.1.polled (.flagPoll 1) reg).1, none) :=
  State.pollLoop_of_seen hr hb _

theorem State.polled_hazard (q : SeqState) (reg : Addr) (s : State) :
    (s.now.1.polled q reg).1.hazard
      = (s.hazard || (s.awaitReady && decide (reg ≠ s.cfg.regIrqFlags1))) :=
  State.readReg_hazard reg (s.now.1.setSeq q)

/-- A poll that sees its bit at once on the oracle target: one frame, no sleep, five moments. -/
theorem State.pollFlag_at_once (ht : s.cfg.target = .oracle) (hn : s.noFailure 5)
    (hb : (s.momentAt 3).byte.getLsbD bit.val = true) :
    (s.pollFlag reg bit timeout name).2 = none
      ∧ s.issued (s.pollFlag reg bit timeout name).1 (frameActs (readFrameBytes s.cfg reg 1))
      ∧ (s.pollFlag reg bit timeout name).1.tick = s.tick + 5
      ∧ (s.pollFlag reg bit timeout name).1.hazard
        = (s.hazard || (s.awaitReady && decide (reg ≠ s.cfg.regIrqFlags1))) := by
  have hr := State.polled_of_oracle ht hn (.flagPoll 1) reg
  obtain ⟨-, -, hissued, htick, -⟩ := State.polled_answered hr
  rw [State.pollFlag_of_first hr hb]
  exact ⟨rfl, hissued, htick, s.polled_hazard _ _⟩

end

/-- Settles O39: the wait is its first poll, one read frame. -/
theorem pollFlagAtFirstPoll : Obligations.PollFlagAtFirstPoll := by
  intro s reg bit timeout name hc hn ht hb
  obtain ⟨hok, hissued, -, hhazard⟩ :=
    State.pollFlag_at_once (reg := reg) (timeout := timeout) (name := name) ht hn hb
  have hbus := s.bus_pollFlag reg bit timeout name
  have hcs := s.pollFlag_cs reg bit timeout name
  have hexec := exec_pollFlag_of_closed (reg := reg) (bit := bit) (timeout := timeout) (name := name) hc
  generalize s.pollFlag reg bit timeout name = p at *
  obtain ⟨hends, hrecords, hbuffers⟩ := hbus.quiet.concluded hcs (resultOf p.2)
  exact ⟨_, hexec, congrArg resultOf hok, hissued, hends, hrecords, hbuffers, hbus.sameMode, hhazard,
    hbus.evt, hbus.version⟩

/-! ### The completion waits in the three designs (44_packet_io R173, R174) -/

section
variable {dwell : Nat} {bit : Fin 8} {timeout : Nat} {name : WaitName} {s : State}

theorem State.completionWait_of_dwell (h : s.cfg.waitKind = .dwell) :
    s.completionWait dwell bit timeout name = (s.dwell dwell, none) := by
  simp only [State.completionWait, h]

theorem State.completionWait_of_poll (h : s.cfg.waitKind = .pollStatus) :
    s.completionWait dwell bit timeout name
      = s.pollFlag s.cfg.regIrqFlags2 bit timeout name := by
  simp only [State.completionWait, h]

theorem State.completionWait_of_event (h : s.cfg.waitKind = .event) :
    s.completionWait dwell bit timeout name = s.awaitEvent timeout name := by
  simp only [State.completionWait, h]

/-- `i` is one of the two completion waits, with the time, bit, bound and name of it. -/
def Instr.waitsWith (c : Config) (i : Instr) (dwell : Nat) (bit : Fin 8) (timeout : Nat)
    (name : WaitName) : Prop :=
  i = .waitTxDone ∧ dwell = c.txDwell ∧ bit = c.packetSentBit ∧ timeout = c.txTimeout
      ∧ name = .packetSent
    ∨ i = .waitPayloadReady ∧ dwell = c.rxDwell ∧ bit = c.payloadReadyBit ∧ timeout = c.rxTimeout
      ∧ name = .payloadReady

/-- Either wait runs, unless it polls while a frame is open. -/
theorem exec_completionWait {i : Instr} (hi : Instr.waitsWith s.cfg i dwell bit timeout name)
    (hb : s.waitNeedsBus = false) :
    exec i s = .next ((s.completionWait dwell bit timeout name).1.conclude s.seq
      (resultOf (s.completionWait dwell bit timeout name).2)) := by
  rcases hi with ⟨rfl, rfl, rfl, rfl, rfl⟩ | ⟨rfl, rfl, rfl, rfl, rfl⟩
  · change execWaitTxDone s = _
    rw [execWaitTxDone, hb]
    rfl
  · change execWaitPayloadReady s = _
    rw [execWaitPayloadReady, hb]
    rfl

theorem State.waitNeedsBus_of_ne (h : s.cfg.waitKind ≠ .pollStatus) : s.waitNeedsBus = false := by
  simp [State.waitNeedsBus, h]

theorem State.waitNeedsBus_of_closed (h : s.cs = false) : s.waitNeedsBus = false := by
  simp [State.waitNeedsBus, h]

/-- A pending event is taken at once (45_event_channel R202). -/
theorem State.awaitEvent_of_pending (h : s.evt = true) :
    s.awaitEvent timeout name = ({ s.setSeq .eventWait with evt := false }, none) := by
  have h' : (s.setSeq .eventWait).evt = true := h
  simp only [State.awaitEvent, h', if_true]

theorem State.regsKept_dwell (d : Nat) (s : State) : State.RegsKept [] s (s.dwell d) :=
  (s.setSeq .dwell).regsKept_elapse []

theorem State.dwell_issued (d : Nat) (s : State) : s.issued (s.dwell d) [.sleep d] := by
  simp [State.issued, State.dwell, BusCall.act]

end

/-- Settles O52: each design by its own operation, `State.dwell`, `State.pollFlag` or
`State.awaitEvent`. -/
theorem completionWaitsComplete : Obligations.CompletionWaitsComplete := by
  intro i s dwell bit timeout name hi
  have hexec := fun hb => exec_completionWait (s := s) hi hb
  refine ⟨fun hk => ?dwell, fun hk he => ?event, fun hk hc hn ht hb => ?poll,
    fun hk => ?awaits, fun hk hc => ?polls⟩
  case dwell =>
    specialize hexec (State.waitNeedsBus_of_ne (by rw [hk]; nofun))
    rw [State.completionWait_of_dwell hk] at hexec
    have hbus := s.bus_dwell dwell
    have hrecords := hbus.quiet.sameRecords
    have hissued := s.dwell_issued dwell
    have hclock : s.clock + dwell ≤ (s.dwell dwell).clock := State.sleep_clock_le dwell (s.setSeq .dwell)
    have hregs := s.regsKept_dwell dwell
    obtain ⟨hcs, hhazard⟩ : (s.dwell dwell).cs = s.cs ∧ (s.dwell dwell).hazard = s.hazard := ⟨rfl, rfl⟩
    generalize s.dwell dwell = u at *
    exact ⟨_, hexec, rfl, hissued, hclock, rfl, hcs,
      ⟨hrecords.cfg, hrecords.script, hrecords.requests, hrecords.rst, hrecords.dropped⟩,
      ⟨hbus.txBuf, hbus.rxBuf⟩, hbus.sameMode, hhazard, hbus.evt, hregs.concluded hbus.toExtends _ _⟩
  case event =>
    specialize hexec (State.waitNeedsBus_of_ne (by rw [hk]; nofun))
    rw [State.completionWait_of_event hk, State.awaitEvent_of_pending he] at hexec
    exact ⟨_, hexec, rfl, rfl, s.issued_refl, rfl, rfl, rfl, rfl, ⟨rfl, rfl, rfl, rfl, rfl⟩,
      ⟨rfl, rfl⟩, ⟨rfl, rfl⟩, rfl⟩
  case poll =>
    specialize hexec (State.waitNeedsBus_of_closed hc)
    rw [State.completionWait_of_poll hk, ← exec_pollFlag_of_closed hc] at hexec
    rw [hexec]
    exact pollFlagAtFirstPoll s s.cfg.regIrqFlags2 bit timeout name hc hn ht hb
  case awaits =>
    rw [hexec (State.waitNeedsBus_of_ne (by rw [hk]; nofun)), State.completionWait_of_event hk]
    rfl
  case polls =>
    rw [hexec (State.waitNeedsBus_of_closed hc), State.completionWait_of_poll hk,
      exec_pollFlag_of_closed hc]

end Sys2Proof.Machine

/-!
PROOFS of the statements of 44_packet_io, the mode change: `SetModeAndWait` is a mode write and the
readiness wait after it, which sees the bit at once on two targets.
-/

namespace Sys2Proof.Machine

/-! ### `SetModeAndWait` (44_packet_io R170) -/

theorem exec_setModeAndWait_of_closed {s : State} (m : Mode) (hc : s.cs = false) :
    exec (.setModeAndWait m) s
      = .next ((s.setModeAndWait m).1.conclude s.seq (resultOf (s.setModeAndWait m).2)) :=
  framedOperation_of_closed _ hc

/-- The mode frame, from `State.writeReg_ok`. -/
theorem State.setMode_ok (m : Mode) {s : State} (h : s.noFailure 4) :
    (s.setMode m).2 = none ∧ s.issued (s.setMode m).1 (modeFrameActs s.cfg m)
      ∧ (s.setMode m).1.tick = s.tick + 4 := by
  obtain ⟨hok, -, hissued, htick⟩ := State.writeReg_ok s.cfg.regOpmode (modeValue s.cfg m) h
  exact ⟨hok, hissued, htick⟩

theorem State.regsKept_setMode (m : Mode) (s : State) :
    State.RegsKept [s.cfg.regOpmode] s (s.setMode m).1 := s.regsKept_writeReg _ _

/-- The mode write of `m`, and a first poll that sees the ready bit. -/
def State.ReadyAtOnce (m : Mode) (s : State) : Prop :=
  ∃ b, ((s.setMode m).1.now.1.polled (.readyPoll 1) s.cfg.regIrqFlags1).2 = .ok b
    ∧ statusBit b s.cfg.modeReadyBit = true

/-- Where no call fails and the first poll sees the bit, the mode frame and one poll are all. -/
theorem State.ReadyAtOnce.completes {m : Mode} {s : State} (h : s.ReadyAtOnce m)
    (hn : s.noFailure 9) :
    (s.setModeAndWait m).2 = none
      ∧ s.issued (s.setModeAndWait m).1
          (modeFrameActs s.cfg m ++ pollActs s.cfg s.cfg.regIrqFlags1 1)
      ∧ (s.setModeAndWait m).1.tick = s.tick + 9
      ∧ State.RegsKept [s.cfg.regOpmode] s (s.setModeAndWait m).1 := by
  obtain ⟨b, hr, hb⟩ := h
  obtain ⟨hok, hissued, htick⟩ := State.setMode_ok m (State.noFailure_mono hn (by omega))
  have hext := (s.quiet_setMode m).toExtends
  have hregs := s.regsKept_setMode m
  rw [State.setModeAndWait_of_none hok]
  generalize (s.setMode m).1 = u at *
  have hn5 : u.noFailure 5 := State.noFailure_later hext htick hn
  have hregs' := (State.regsKept_polled (.readyPoll 1) s.cfg.regIrqFlags1 hn5).mono
    (bs := [s.cfg.regOpmode]) (by simp)
  obtain ⟨-, -, hissued', htick', -⟩ := State.polled_answered hr
  have hbus := (u.bus_now.trans (State.bus_polled (.readyPoll 1) s.cfg.regIrqFlags1 _)).toExtends
  rw [← hext.cfg] at hr hb
  rw [State.isReady_of_first hr hb, hext.cfg]
  have hcfg : u.now.1.cfg = s.cfg := hext.cfg
  rw [hcfg] at hissued'
  generalize (u.now.1.polled (.readyPoll 1) s.cfg.regIrqFlags1).1 = v at *
  have htick'' : v.tick = u.tick + 5 := htick'
  have hkept := hregs.trans hext hbus hregs'
  exact ⟨rfl, State.issued_trans hissued hissued', htick''.trans (by omega), hkept⟩

/-- The oracle target that draws the bit. -/
theorem State.readyAtOnce_of_oracle (m : Mode) {s : State} (ht : s.cfg.target = .oracle)
    (hn : s.noFailure 9) (hb : (s.momentAt 7).byte.getLsbD s.cfg.modeReadyBit.val = true) :
    s.ReadyAtOnce m := by
  obtain ⟨-, -, htick⟩ := State.setMode_ok m (State.noFailure_mono hn (by omega))
  have hext := (s.quiet_setMode m).toExtends
  refine ⟨_, State.polled_of_oracle (by rwa [hext.cfg]) (State.noFailure_later hext htick hn) _ _, ?_⟩
  rw [State.momentAt_later hext htick]
  exact hb

/-- Where the mode register holds a mode value, a reference target that steps `Settle` is ready
(10_state R40). -/
theorem World.acts_settle {c : Config} {m : Mode} {acts : List TargetAct} {w : World}
    (href : c.target = .reference) (hm : w.target.reg c.regOpmode = modeValue c m)
    (h : TargetAct.settle ∈ acts) : (acts.foldl (World.act c false) w).target.ready = true := by
  induction acts generalizing w with
  | nil => cases h
  | cons a rest ih =>
    rcases List.mem_cons.mp h with rfl | h
    · refine World.acts_ready c false rest ?_
      have hact : w.act c false .settle = w.settle c := if_pos ⟨href, rfl⟩
      cases hr : w.target.ready with
      | true => rw [hact, World.settle_of_guard_false (.inl hr), hr]
      | false => rw [hact, World.settle_of_mode hr hm]
    · refine ih ?_ h
      rw [← hm, Target.reg, (World.law_act c false w a).x, ← Target.reg]

/-- A mode write that does not fail leaves its value in the mode register. -/
theorem State.Lawful.setMode_stores {s : State} (h : s.Lawful 4) (hz : s.hazard = false)
    (hs : s.target.sound s.cfg) (hp : plainStorage s.cfg s.cfg.regOpmode) (m : Mode) :
    (s.setMode m).1.target.reg s.cfg.regOpmode = modeValue s.cfg m := by
  have hzm : (s.marked s.cfg.regOpmode (modeValue s.cfg m)).hazard = s.hazard := by
    simp [State.marked_hazard, modeOf_modeValue]
  have hlaw : (s.marked s.cfg.regOpmode (modeValue s.cfg m)).Lawful 4 :=
    State.Lawful.later (k := 0) h (State.extends_marked _ _ _) (State.marked_tick _ _ _) hzm
  have hstored := hlaw.runFrame_stores (hzm.trans hz) (a := s.cfg.regOpmode)
    (by rwa [State.marked_target, State.marked_cfg]) (by rwa [State.marked_cfg]) (modeValue s.cfg m)
  rw [State.marked_cfg] at hstored
  rw [State.setMode, (s.writeReg_frame _ _).1]
  exact hstored

/-- In a configuration with distinct registers, the mode register is plain storage, and the ready flag
has a register of its own. -/
theorem registers_distinct {c : Config} (h : c.registers.Nodup) :
    c.regOpmode ≠ c.regFifo ∧ c.regIrqFlags1 ∉ [c.regFifo, c.regVersion]
      ∧ (c.target = .reference → plainStorage c c.regOpmode) := by
  simp only [Params.registers, List.nodup_cons, List.mem_cons, List.not_mem_nil, or_false, not_or] at h
  obtain ⟨⟨hfm, -, -, -, -, hff, -⟩, ⟨-, -, -, hmv, hm1, hm2⟩, -, -, -, ⟨hv, -⟩, -⟩ := h
  refine ⟨Ne.symm hfm, ?_, fun ht => .inr ⟨ht, ?_⟩⟩
  · simp [Ne.symm hff, Ne.symm hv]
  · simp [Ne.symm hfm, hmv, hm1, hm2]

/-- The clean reference target that settles between the mode frame and the poll. -/
theorem State.readyAtOnce_of_settle (m : Mode) {s : State} (href : s.cfg.target = .reference)
    (hz : s.hazard = false) (hs : s.target.sound s.cfg) (hd : s.cfg.registers.Nodup)
    (hn : s.noFailure 9) (hsettle : TargetAct.settle ∈ (s.momentAt 4).acts) : s.ReadyAtOnce m := by
  obtain ⟨hmode, hflags, hp⟩ := registers_distinct hd
  obtain ⟨-, -, htick⟩ := State.setMode_ok m (State.noFailure_mono hn (by omega))
  have hext := (s.quiet_setMode m).toExtends
  have hl := State.lawless_of_simulated (s := s) (by rw [href]; nofun) hz
  have hstored := State.Lawful.setMode_stores ⟨hl, State.noFailure_mono hn (by omega)⟩ hz hs (hp href) m
  have hzu := (State.setMode_hazard m (.inr hmode)).trans hz
  unfold State.ReadyAtOnce
  generalize (s.setMode m).1 = u at *
  have hcfg := hext.cfg
  have hlu : u.lawless = false := State.lawless_of_simulated (by rw [hcfg, href]; nofun) hzu
  have hn5 : u.noFailure 5 := State.noFailure_later hext htick hn
  have hready : u.now.1.target.ready = true := by
    have hmoment : u.moment = s.momentAt 4 := State.momentAt_later hext htick 0
    rw [← hcfg] at href hstored
    have hsettled := World.acts_settle (w := ⟨u.target, u.evt⟩) href hstored (hmoment ▸ hsettle)
    show u.elapse.target.ready = true
    rw [State.elapse_target_of_lawful hlu, State.worldAfter, hlu]
    exact hsettled
  have hlaw : (u.now.1.setSeq (.readyPoll 1)).Lawful 4 :=
    ⟨hlu, State.noFailure_waitStart (n := 4) _ hn5⟩
  obtain ⟨t, ht, -, hread⟩ := hlaw.readReg_irqFlags1
  have hcfg' : (u.now.1.setSeq (.readyPoll 1)).cfg = s.cfg := hcfg
  rw [hcfg'] at hread
  refine ⟨_, hread href hflags, ?_⟩
  have hbyte := statusByte_getLsbD s.cfg s.cfg.regIrqFlags1 t s.cfg.modeReadyBit
  rw [ht.ready hready] at hbyte
  exact hbyte.trans (by simp)

/-- Settles O43: the mode frame is one register write, and the readiness wait its first poll. -/
theorem setModeAndWaitCompletes : Obligations.SetModeAndWaitCompletes := by
  refine ⟨fun m s hc hn hready => ?completes, fun m s k e hc hk hn he => ?fails,
    fun m s r hc hn hr => ?composed⟩
  case completes =>
    obtain ⟨honce, hne⟩ : s.ReadyAtOnce m
        ∧ (s.cfg.target ≠ .reference ∨ s.cfg.regOpmode ≠ s.cfg.regFifo) := by
      rcases hready with ⟨ht, hb⟩ | ⟨href, hz, hs, hd, hsettle⟩
      · exact ⟨State.readyAtOnce_of_oracle m ht hn hb, .inl (by rw [ht]; nofun)⟩
      · exact ⟨State.readyAtOnce_of_settle m href hz hs hd hn hsettle, .inr (registers_distinct hd).1⟩
    obtain ⟨hok, hissued, -, hregs⟩ := honce.completes hn
    obtain ⟨hcache, hawait⟩ := s.setModeAndWait_mode m
    have hexec := exec_setModeAndWait_of_closed m hc
    have hquiet := s.quiet_setModeAndWait m
    have hcs := s.setModeAndWait_cs m
    have hhazard := State.setModeAndWait_hazard m hne
    have hevent := s.keepsEvent_setModeAndWait m
    generalize s.setModeAndWait m = p at *
    obtain ⟨hends, hrecords, hbuffers⟩ := hquiet.concluded hcs (resultOf p.2)
    rw [hok] at hcache hawait
    exact ⟨_, hexec, congrArg resultOf hok, hissued, hcache.resolve_right (by simp), hawait, hhazard,
      hends, hrecords, hbuffers, hevent, hregs.concluded hquiet.toExtends _ _⟩
  case fails =>
    obtain ⟨herror, hissued⟩ : (s.setMode m).2 = some (transportError e) ∧ _ :=
      State.writeReg_fails s.cfg.regOpmode (modeValue s.cfg m) hk hn he
    obtain ⟨hcache, hawait⟩ := s.setMode_mode m
    have hquiet := s.quiet_setMode m
    have hregs := s.regsKept_setMode m
    have hcs := (s.setMode_ends m).1
    have hexec := exec_setModeAndWait_of_closed m hc
    rw [State.setModeAndWait_of_some herror] at hexec
    change s.issued (s.setMode m).1 _ at hissued
    generalize s.setMode m = p at *
    obtain ⟨hends, hrecords, hbuffers⟩ := hquiet.concluded hcs (resultOf (some (transportError e)))
    rw [herror] at hcache
    exact ⟨_, hexec, rfl, hissued, hcache, hawait, hends, hrecords, hbuffers,
      hregs.concluded hquiet.toExtends _ _⟩
  case composed =>
    obtain ⟨hok, -⟩ := State.setMode_ok m hn
    have hexec := exec_setModeAndWait_of_closed m hc
    rw [State.setModeAndWait_of_none hok, ← hr] at hexec
    exact ⟨_, hexec, rfl, rfl⟩

end Sys2Proof.Machine

/-!
PROOFS of the statements of 44_packet_io, the numbered steps of `Send` and `Receive`: between one step
and the next the sequencer takes none (`State.Within`).
-/

namespace Sys2Proof.Machine

/-! ### The steps of the sequencer (10_state R27) -/

/-- From `s` to `t` the sequencer took no numbered step but `q`. -/
def State.Within (q : SeqState) (s t : State) : Prop :=
  ∃ l, t.path = s.path ++ l ∧ ∀ x ∈ l, x.isStep = true → x = q

section
variable {q : SeqState} {s t u : State}

theorem State.Within.of_path (h : t.path = s.path) : State.Within q s t :=
  ⟨[], by simp [h], by simp⟩

theorem State.Within.trans (h : State.Within q s t) (h' : State.Within q t u) :
    State.Within q s u := by
  obtain ⟨l, hl, hq⟩ := h
  obtain ⟨l', hl', hq'⟩ := h'
  refine ⟨l ++ l', by rw [hl', hl, List.append_assoc], fun x hx => ?_⟩
  exact (List.mem_append.mp hx).elim (hq x) (hq' x)

/-- A sequencer state that is no numbered step leaves room for any. -/
theorem State.Within.of_not_step (h : State.Within q s t) (hq : q.isStep = false) (q' : SeqState) :
    State.Within q' s t := by
  obtain ⟨l, hl, hs⟩ := h
  refine ⟨l, hl, fun x hx hstep => ?_⟩
  rw [hs x hx hstep, hq] at hstep
  cases hstep

theorem State.within_setSeq (h : q.isStep = false) (q' : SeqState) (s : State) :
    State.Within q' s (s.setSeq q) :=
  ⟨[q], rfl, fun x hx hs => by rw [List.mem_singleton.mp hx, h] at hs; cases hs⟩

theorem nextExchange_not_step (q : SeqState) : (nextExchange q).isStep = false := by cases q <;> rfl

theorem State.within_exchange (q : SeqState) (b : Byte) (s : State) :
    State.Within q s (s.exchange b).1 :=
  (State.within_setSeq (nextExchange_not_step s.seq) q s).trans
    (.of_path (State.transfer_keeps b (s.setSeq (nextExchange s.seq))).2.2.2)

theorem State.within_exchangeAll (q : SeqState) (bs : List Byte) (s : State) :
    State.Within q s (State.exchangeAll bs s).1 := by
  induction bs generalizing s with
  | nil => exact .of_path rfl
  | cons b rest ih =>
    unfold State.exchangeAll
    dsimp only
    split
    · exact s.within_exchange q b
    · exact (s.within_exchange q b).trans (ih _)

theorem State.within_openFrame (q : SeqState) (s : State) : State.Within q s s.openFrame.1 :=
  State.within_setSeq rfl q s

theorem State.closeFrame_path (e : Option OpError) (s : State) :
    (s.closeFrame e).1.path = s.path ++ [.frameClose, if s.cs then s.opener else s.seq] := by
  show (s.path ++ [_]) ++ [_] = _
  rw [List.append_assoc]
  rfl

/-- A frame comes back to the step that opened it. -/
theorem State.within_runFrame (bs : List Byte) (s : State) :
    State.Within s.seq s (s.runFrame bs).1 := by
  have hclose : ∀ (u : State) (e : Option OpError), u.cs = true → u.opener = s.seq →
      State.Within s.seq u (u.closeFrame e).1 := fun u e hcs ho => by
    refine ⟨_, u.closeFrame_path e, fun x hx hstep => ?_⟩
    rw [hcs, ho] at hx
    rcases List.mem_pair.mp hx with rfl | rfl
    · cases hstep
    · rfl
  obtain ⟨hcs, ho⟩ := State.exchangeAll_keeps bs s.openFrame.1
  unfold State.runFrame
  dsimp only
  split
  · exact ((s.within_openFrame _).trans (State.within_exchangeAll _ bs _)).trans (hclose _ _ hcs ho)
  · exact (s.within_openFrame _).trans (hclose _ _ rfl rfl)

theorem State.within_readReg (a : Addr) (s : State) : State.Within s.seq s (s.readReg a).1 :=
  (s.markRead a).within_runFrame _

theorem State.endModeWrite_path (a : Addr) (v : Byte) (e : Option OpError) (s : State) :
    (s.endModeWrite a v e).path = s.path := by
  unfold State.endModeWrite; split <;> rfl

theorem State.marked_path (a : Addr) (v : Byte) (s : State) : (s.marked a v).path = s.path := by
  unfold State.marked State.beginModeWrite; split <;> rfl

theorem State.within_writeReg (a : Addr) (v : Byte) (s : State) :
    State.Within s.seq s (s.writeReg a v).1 := by
  have hframe := (s.marked a v).within_runFrame (writeFrameBytes (s.marked a v).cfg a [v])
  have hseq : (s.marked a v).seq = s.seq := State.beginModeWrite_seq a v _
  rw [hseq] at hframe
  exact ((State.Within.of_path (s.marked_path a v)).trans hframe).trans
    (.of_path (State.endModeWrite_path a v _ _))

theorem State.within_pollAgain (q : SeqState) (s : State) : State.Within q s s.pollAgain :=
  .of_path rfl

/-- Polls are no numbered steps. -/
theorem State.within_pollLoop {seqOf : Nat → SeqState} (h : ∀ k, (seqOf k).isStep = false)
    (q : SeqState) (reg : Addr) (bit : Fin 8) (timeout : Nat) (name : WaitName) (t0 fuel k : Nat)
    (s : State) :
    State.Within q s (State.pollLoop seqOf reg bit timeout name t0 fuel k s).1 := by
  induction fuel generalizing k s with
  | zero => exact .of_path rfl
  | succ n ih =>
    have hpoll : State.Within q s ((s.setSeq (seqOf k)).readReg reg).1 :=
      (State.within_setSeq (h k) q s).trans
        ((State.within_readReg reg (s.setSeq (seqOf k))).of_not_step (h k) q)
    unfold State.pollLoop
    dsimp only
    generalize (s.setSeq (seqOf k)).readReg reg = p at *
    split
    · exact hpoll
    · split
      · exact hpoll
      · split
        · exact hpoll.trans (.of_path rfl)
        · exact (hpoll.trans (p.1.within_pollAgain q)).trans (ih _ _)

theorem State.within_pollFor {seqOf : Nat → SeqState} (h : ∀ k, (seqOf k).isStep = false)
    (q : SeqState) (reg : Addr) (bit : Fin 8) (timeout : Nat) (name : WaitName) (s : State) :
    State.Within q s (s.pollFor seqOf reg bit timeout name).1 :=
  (State.Within.of_path (t := s.now.1) rfl).trans (State.within_pollLoop h ..)

theorem State.within_isReady (q : SeqState) (s : State) : State.Within q s s.isReady.1 := by
  have h : State.Within q s s.readyWait.1 := State.within_pollFor (fun _ => rfl) ..
  cases hr : s.readyWait.2 with
  | none => rw [State.isReady_of_none hr]; exact h.trans (.of_path rfl)
  | some e => rw [State.isReady_of_some hr]; exact h

theorem State.within_setModeAndWait (m : Mode) (s : State) :
    State.Within s.seq s (s.setModeAndWait m).1 := by
  have h : State.Within s.seq s (s.setMode m).1 := s.within_writeReg _ _
  cases hm : (s.setMode m).2 with
  | some e => rw [State.setModeAndWait_of_some hm]; exact h
  | none => rw [State.setModeAndWait_of_none hm]; exact h.trans (State.within_isReady _ _)

theorem State.within_fifoWrite (d : List Byte) (s : State) :
    State.Within s.seq s (s.fifoWrite d).1 := by
  rw [State.fifoWrite_eq]
  exact (s.loaded d).markBurst.within_runFrame _

theorem State.within_burstRead (n : Nat) (s : State) :
    State.Within s.seq s (s.burstRead n).1 := s.markBurst.within_runFrame _

theorem State.within_fifoRead (n : Nat) (s : State) : State.Within s.seq s (s.fifoRead n).1 := by
  have h := s.within_burstRead n
  unfold State.fifoRead
  dsimp only
  generalize s.burstRead n = p at *
  exact h.trans (.of_path rfl)

theorem State.within_awaitEvent (q : SeqState) (timeout : Nat) (name : WaitName) (s : State) :
    State.Within q s (s.awaitEvent timeout name).1 := by
  refine (State.within_setSeq (q := .eventWait) rfl q s).trans (.of_path ?_)
  unfold State.awaitEvent
  dsimp only
  split
  · rfl
  · split
    · rfl
    · split <;> rfl

theorem State.within_completionWait (q : SeqState) (dwell : Nat) (bit : Fin 8) (timeout : Nat)
    (name : WaitName) (s : State) :
    State.Within q s (s.completionWait dwell bit timeout name).1 := by
  unfold State.completionWait
  split
  · exact (State.within_setSeq (q := .dwell) rfl q s).trans (.of_path rfl)
  · exact State.within_pollFor (fun _ => rfl) ..
  · exact s.within_awaitEvent ..

end

/-- A run of one step counts once before a run of others. -/
theorem collapse_run {q : SeqState} {l rest : List SeqState} (hl : ∀ x ∈ l, x = q)
    (hne : (collapse rest).head? ≠ some q) : collapse (q :: (l ++ rest)) = q :: collapse rest := by
  induction l with
  | nil =>
    rw [List.nil_append, collapse]
    cases h : collapse rest with
    | nil => rfl
    | cons r l =>
      rw [h] at hne
      have hqr : q ≠ r := fun e => hne (by rw [e]; rfl)
      simp [hqr]
  | cons x l ih =>
    obtain ⟨rfl, hl⟩ := List.forall_mem_cons.mp hl
    rw [List.cons_append, collapse, ih hl]
    simp

/-- One numbered step in front of the others. -/
theorem State.stepsTaken_cons {q : SeqState} {s t u : State} {qs : List SeqState}
    (hq : q.isStep = true) (h : State.Within q (s.setSeq q) t) (h' : t.Extends u)
    (hqs : t.stepsTaken u = qs) (hne : qs.head? ≠ some q) : s.stepsTaken u = q :: qs := by
  obtain ⟨l, hl, hs⟩ := h
  obtain ⟨l', hl'⟩ := h'.path
  have hrest : t.stepsTaken u = collapse (l'.filter SeqState.isStep) := by
    simp [State.stepsTaken, hl']
  have hall : s.stepsTaken u
      = collapse (q :: (l.filter SeqState.isStep ++ l'.filter SeqState.isStep)) := by
    simp [State.stepsTaken, hl', hl, hq]
  rw [hall, collapse_run _ (by rwa [← hrest, hqs]), ← hrest, hqs]
  intro x hx
  obtain ⟨hx, hstep⟩ := List.mem_filter.mp hx
  exact hs x hx hstep

theorem State.stepsTaken_conclude (r : Result) (s : State) :
    s.stepsTaken (s.conclude .idle r) = [] := by
  have hpath : (s.conclude .idle r).path = s.path ++ [.idle] := rfl
  rw [State.stepsTaken, hpath, List.drop_left]
  rfl

/-! ### The steps of `Send` and `Receive` (44_packet_io R176, R178) -/

theorem State.extends_setModeAndWait (q : SeqState) (m : Mode) (s : State) :
    s.Extends ((s.setSeq q).setModeAndWait m).1 :=
  ((s.bus_setSeq q).quiet.trans (State.quiet_setModeAndWait m (s.setSeq q))).toExtends

theorem State.within_afterSend4 (s : State) :
    State.Within .send4 (s.afterSend3.1.setSeq .send4) s.afterSend4.1 := by
  unfold State.afterSend4
  split
  · exact State.within_completionWait ..
  · exact .of_path rfl

theorem State.extends_afterSend4 (s : State) : s.afterSend3.1.Extends s.afterSend4.1 := by
  have h := (State.bus_setSeq .send4 s.afterSend3.1).quiet
  unfold State.afterSend4
  split
  · exact (h.trans (State.quiet_waitTxDone _)).toExtends
  · exact h.toExtends

/-- A step that is a mode change, in front of others. -/
theorem State.stepsTaken_setModeAndWait {q : SeqState} {m : Mode} {s t : State}
    {qs : List SeqState} (hq : q.isStep = true)
    (h : ((s.setSeq q).setModeAndWait m).1.Extends t)
    (hqs : ((s.setSeq q).setModeAndWait m).1.stepsTaken t = qs) (hne : qs.head? ≠ some q) :
    s.stepsTaken t = q :: qs :=
  State.stepsTaken_cons hq ((s.setSeq q).within_setModeAndWait m) h hqs hne

/-- Once step 3 is reached, step 5 is taken, through step 4. -/
theorem State.transmitAndReturn_steps (r : Result) (s : State) :
    s.stepsTaken (s.transmitAndReturn.1.conclude .idle r) = [.send3, .send4, .send5] := by
  rw [State.transmitAndReturn_eq]
  have hx5 := (State.extends_setModeAndWait .send5 .standby s.afterSend4.1).trans
    (State.extends_conclude .idle r _)
  have h5 := State.stepsTaken_setModeAndWait (q := .send5) (m := .standby) (s := s.afterSend4.1)
    rfl (State.extends_conclude .idle r _) (State.stepsTaken_conclude r _) (by simp)
  have h4 := State.stepsTaken_cons (q := .send4) rfl s.within_afterSend4 hx5 h5 (by simp)
  exact State.stepsTaken_setModeAndWait rfl (s.extends_afterSend4.trans hx5) h4 (by simp)

theorem State.within_afterSend2 (d : List Byte) (s : State) :
    State.Within .send2 (s.afterSend1.1.setSeq .send2) (s.afterSend2 d).1 :=
  State.within_fifoWrite d (s.afterSend1.1.setSeq .send2)

theorem State.extends_afterSend2 (d : List Byte) (s : State) :
    s.afterSend1.1.Extends (s.afterSend2 d).1 :=
  ((State.bus_setSeq .send2 s.afterSend1.1).quiet.toWork.trans
    (State.work_fifoWrite d (s.afterSend1.1.setSeq .send2))).toExtends

theorem State.extends_transmitAndReturn (r : Result) (s : State) :
    s.Extends (s.transmitAndReturn.1.conclude .idle r) :=
  s.quiet_transmitAndReturn.toExtends.trans (State.extends_conclude .idle r _)

theorem State.send_steps_of_loaded {d : List Byte} {s : State} (h1 : s.afterSend1.2 = none)
    (h2 : (s.afterSend2 d).2 = none) (r : Result) :
    s.stepsTaken ((s.send d).1.conclude .idle r) = [.send1, .send2, .send3, .send4, .send5] := by
  rw [State.send_of_loaded h1 h2]
  have hx := (s.afterSend2 d).1.extends_transmitAndReturn r
  have hs2 := State.stepsTaken_cons (q := .send2) rfl (s.within_afterSend2 d) hx
    (State.transmitAndReturn_steps r _) (by simp)
  exact State.stepsTaken_setModeAndWait rfl ((s.extends_afterSend2 d).trans hx) hs2 (by simp)

/-- The steps of `Send`, by the way it goes. -/
theorem State.send_steps (d : List Byte) (r : Result) (s : State) :
    s.stepsTaken ((s.send d).1.conclude .idle r) = [.send1]
      ∨ s.stepsTaken ((s.send d).1.conclude .idle r) = [.send1, .send2]
      ∨ s.stepsTaken ((s.send d).1.conclude .idle r) = [.send1, .send2, .send3, .send4, .send5] := by
  rcases s.send_cases d with ⟨e, h1, he⟩ | ⟨e, h1, h2, he⟩ | ⟨h1, h2, he⟩
  · rw [he]
    exact .inl (State.stepsTaken_setModeAndWait rfl (State.extends_conclude .idle r _)
      (State.stepsTaken_conclude r _) (by simp))
  · rw [he]
    have hx := State.extends_conclude .idle r (s.afterSend2 d).1
    have hs2 := State.stepsTaken_cons (q := .send2) rfl (s.within_afterSend2 d) hx
      (State.stepsTaken_conclude r _) (by simp)
    exact .inr (.inl (State.stepsTaken_setModeAndWait rfl ((s.extends_afterSend2 d).trans hx) hs2
      (by simp)))
  · exact .inr (.inr (State.send_steps_of_loaded h1 h2 r))

theorem State.within_afterRecv2 (s : State) :
    State.Within .recv2 (s.afterRecv1.1.setSeq .recv2) s.afterRecv2.1 :=
  State.within_completionWait ..

theorem State.extends_afterRecv2 (s : State) : s.afterRecv1.1.Extends s.afterRecv2.1 :=
  ((State.bus_setSeq .recv2 s.afterRecv1.1).quiet.trans
    (State.quiet_waitPayloadReady (s.afterRecv1.1.setSeq .recv2))).toExtends

theorem State.within_afterRecv3 (s : State) :
    State.Within .recv3 (s.afterRecv2.1.setSeq .recv3) s.afterRecv3.1 :=
  State.within_fifoRead _ (s.afterRecv2.1.setSeq .recv3)

theorem State.extends_afterRecv3 (s : State) : s.afterRecv2.1.Extends s.afterRecv3.1 :=
  ((State.bus_setSeq .recv3 s.afterRecv2.1).quiet.toWork.trans
    (State.work_fifoRead _ (s.afterRecv2.1.setSeq .recv3))).toExtends

theorem State.extends_concluded_recv4 (r : Result) (s : State) :
    s.Extends ((s.setSeq .recv4).conclude .idle r) :=
  (s.bus_setSeq .recv4).toExtends.trans (State.extends_conclude .idle r _)

/-- A `Receive` that reaches its end takes its four steps. -/
theorem State.receive_steps (r : Result) (s : State) :
    s.stepsTaken ((s.afterRecv3.1.setSeq .recv4).conclude .idle r)
      = [.recv1, .recv2, .recv3, .recv4] := by
  have h4 := State.stepsTaken_cons (q := .recv4) (s := s.afterRecv3.1) rfl (.of_path rfl)
    (State.extends_conclude .idle r _) (State.stepsTaken_conclude r _) (by simp)
  have hx3 := s.afterRecv3.1.extends_concluded_recv4 r
  have h3 := State.stepsTaken_cons (q := .recv3) rfl s.within_afterRecv3 hx3 h4 (by simp)
  have hx2 := s.extends_afterRecv3.trans hx3
  have h2 := State.stepsTaken_cons (q := .recv2) rfl s.within_afterRecv2 hx2 h3 (by simp)
  exact State.stepsTaken_setModeAndWait rfl (s.extends_afterRecv2.trans hx2) h2 (by simp)

end Sys2Proof.Machine

/-!
PROOFS of the statements of 44_packet_io, where `Send` and `Receive` answer ok: their traffic, put together
from that of their steps, on any target and on the oracle target that answers every poll.
-/

namespace Sys2Proof.Machine

/-! ### Where `Send` and `Receive` are taken -/

theorem exec_send_of_idle {s : State} {d : List Byte} (hi : s.seq = .idle)
    (hd : d.length ≤ s.cfg.maxSendLen) :
    exec (.send d) s = .next ((s.send d).1.conclude .idle (resultOf (s.send d).2)) := by
  change execSend d s = _
  have hd' : sendAccepted s.cfg d = true := decide_eq_true hd
  rw [execSend, hd', if_pos rfl, hostOperation_of_idle _ hi, hi]

theorem exec_receive_of_idle {s : State} (hi : s.seq = .idle) :
    exec .receive s = .next (s.receive.1.conclude .idle (resultWith .bytes s.receive.2)) := by
  change execReceive s = _
  rw [execReceive, hostOperation_of_idle _ hi, hi]

theorem exec_send_next {s t : State} {d : List Byte} (h : exec (.send d) s = .next t) :
    t = (s.send d).1.conclude .idle (resultOf (s.send d).2) :=
  (hostOperation_next (guarded_next h).2).2

theorem exec_receive_next {s t : State} (h : exec .receive s = .next t) :
    t = s.receive.1.conclude .idle (resultWith .bytes s.receive.2) :=
  (hostOperation_next (show execReceive s = .next t from h)).2

/-! ### Steps that answer ok, with their traffic -/

/-- A step from `s` answered ok, after exactly the commands `l`. -/
def State.Did (s : State) (p : State × Option OpError) (l : List BusAct) : Prop :=
  p.2 = none ∧ s.issued p.1 l

/-- The commands of `SetModeAndWait(m)` with `n` polls (44_packet_io R170). -/
def modeWaitActs (c : Config) (m : Mode) (n : Nat) : List BusAct :=
  modeFrameActs c m ++ pollActs c c.regIrqFlags1 n

section
variable {c : Config} {s : State}

theorem State.setMode_issued {m : Mode} (h : (s.setMode m).2 = none) :
    s.issued (s.setMode m).1 (modeFrameActs s.cfg m) := by
  rcases s.writeReg_cases s.cfg.regOpmode (modeValue s.cfg m) with ⟨-, hissued⟩ | ⟨e, k, he, -⟩
  · exact hissued
  · exact nomatch h.symm.trans he

/-- A bounded wait that answers ok has seen its bit, at some poll. -/
theorem State.WaitEnds.answered {reg : Addr} {bit : Fin 8} {timeout : Nat} {name : WaitName}
    {t : State} (h : s.WaitEnds reg bit timeout name t none) :
    ∃ n, 1 ≤ n ∧ s.issued t (pollActs s.cfg reg n) := by
  obtain ⟨n, hn, -, ⟨-, hissued, -⟩ | ⟨he, -⟩ | ⟨e, he, -⟩⟩ := h
  · exact ⟨n, hn, hissued⟩
  · cases he
  · cases he

theorem State.isReady_ends (s : State) :
    s.WaitEnds s.cfg.regIrqFlags1 s.cfg.modeReadyBit s.cfg.readyTimeout .modeReady s.isReady.1
      s.isReady.2 := by
  obtain ⟨hanswer, htrace, hclock⟩ := s.isReady_calls
  rw [hanswer]
  exact (s.pollFor_ends .readyPoll s.cfg.regIrqFlags1 s.cfg.modeReadyBit s.cfg.readyTimeout
    .modeReady).of_same htrace hclock

theorem State.setModeAndWait_answered {m : Mode} (h : (s.setModeAndWait m).2 = none) :
    ∃ n, 1 ≤ n ∧ s.issued (s.setModeAndWait m).1 (modeWaitActs s.cfg m n) := by
  cases hm : (s.setMode m).2 with
  | some e =>
    rw [State.setModeAndWait_of_some hm] at h
    cases h
  | none =>
    rw [State.setModeAndWait_of_none hm] at h ⊢
    have hends := (s.setMode m).1.isReady_ends
    rw [h] at hends
    obtain ⟨n, hn, hissued⟩ := hends.answered
    rw [(s.quiet_setMode m).cfg] at hissued
    exact ⟨n, hn, State.issued_trans (State.setMode_issued hm) hissued⟩

/-- A mode change of a sequence that answers ok. -/
theorem State.modeStep_did (hc : s.cfg = c) (q : SeqState) {m : Mode}
    (h : ((s.setSeq q).setModeAndWait m).2 = none) :
    ∃ n, 1 ≤ n ∧ s.Did ((s.setSeq q).setModeAndWait m) (modeWaitActs c m n) := by
  obtain ⟨n, hn, hissued⟩ := State.setModeAndWait_answered h
  exact ⟨n, hn, h, hc ▸ hissued⟩

theorem State.completionWait_answered {dwell : Nat} {bit : Fin 8} {timeout : Nat} {name : WaitName}
    (h : (s.completionWait dwell bit timeout name).2 = none) :
    ∃ n, 1 ≤ n ∧ s.issued (s.completionWait dwell bit timeout name).1
      (completionActs s.cfg dwell n) := by
  unfold completionActs
  cases hk : s.cfg.waitKind with
  | dwell =>
    rw [State.completionWait_of_dwell hk]
    exact ⟨1, Nat.le_refl 1, s.dwell_issued dwell⟩
  | pollStatus =>
    rw [State.completionWait_of_poll hk] at h ⊢
    have hends := s.pollFor_ends .flagPoll s.cfg.regIrqFlags2 bit timeout name
    rw [show (s.pollFor .flagPoll s.cfg.regIrqFlags2 bit timeout name).2 = none from h] at hends
    exact hends.answered
  | event =>
    rw [State.completionWait_of_event hk]
    have htrace := (s.awaitEvent_keeps timeout name).2.2.2.1
    exact ⟨1, Nat.le_refl 1, State.issued_of_trace_right htrace s.issued_refl⟩

/-- The wait of a sequence that answers ok. -/
theorem State.txWait_did (hc : s.cfg = c) (q : SeqState) (h : (s.setSeq q).waitTxDone.2 = none) :
    ∃ n, 1 ≤ n ∧ s.Did (s.setSeq q).waitTxDone (completionActs c c.txDwell n) := by
  obtain ⟨n, hn, hissued⟩ := State.completionWait_answered h
  exact ⟨n, hn, h, hc ▸ hissued⟩

theorem State.rxWait_did (hc : s.cfg = c) (q : SeqState)
    (h : (s.setSeq q).waitPayloadReady.2 = none) :
    ∃ n, 1 ≤ n ∧ s.Did (s.setSeq q).waitPayloadReady (completionActs c c.rxDwell n) := by
  obtain ⟨n, hn, hissued⟩ := State.completionWait_answered h
  exact ⟨n, hn, h, hc ▸ hissued⟩

theorem State.fifoWrite_answered {d : List Byte} (h : (s.fifoWrite d).2 = none) :
    s.issued (s.fifoWrite d).1 (frameActs (writeFrameBytes s.cfg s.cfg.regFifo d)) := by
  rw [State.fifoWrite_eq] at *
  obtain ⟨k, hissued, hwhole, -⟩ := State.burstWrite_cases d (s.loaded d)
  rw [hwhole h] at hissued
  exact hissued

/-- The FIFO load of a sequence that answers ok. -/
theorem State.load_did (hc : s.cfg = c) (q : SeqState) {d : List Byte}
    (h : ((s.setSeq q).fifoWrite d).2 = none) :
    s.Did ((s.setSeq q).fifoWrite d) (frameActs (writeFrameBytes c c.regFifo d)) :=
  ⟨h, hc ▸ (State.fifoWrite_answered h : (s.setSeq q).issued _ _)⟩

theorem State.fifoRead_answered {n : Nat} {l : List Byte} (h : (s.fifoRead n).2 = .ok l) :
    l.length = n ∧ (s.burstRead n).2.1 = l ∧ (∃ r, s.received (s.fifoRead n).1 = r :: l)
      ∧ s.issued (s.fifoRead n).1 (frameActs (readFrameBytes s.cfg s.cfg.regFifo n)) := by
  rcases s.runFrame_error (readFrameBytes s.cfg s.cfg.regFifo n) with hn | ⟨k, e, hk, hn, he⟩
  · rw [readFrameBytes_length] at hn
    obtain ⟨r, l', hok, hlen, hbytes, hreceived, hissued⟩ := State.fifoRead_ok hn
    obtain rfl : l' = l := Except.ok.inj (hok.symm.trans h)
    exact ⟨hlen, hbytes, ⟨r, hreceived⟩, hissued⟩
  · rw [readFrameBytes_length] at hk
    obtain ⟨herror, -⟩ := State.burstRead_fails hk hn he
    exact nomatch (State.fifoRead_of_some herror).symm.trans h

end

/-! ### The traffic of `Send` that answers ok (44_packet_io R176) -/

/-- `Send` after step 5, Standby forced again. -/
def State.afterSend5 (s : State) : State × Option OpError :=
  (s.afterSend4.1.setSeq .send5).setModeAndWait .standby

theorem State.afterSend4_of_none {s : State} (h : s.afterSend3.2 = none) :
    s.afterSend4 = (s.afterSend3.1.setSeq .send4).waitTxDone := by
  unfold State.afterSend4
  rw [h]
  rfl

theorem State.afterSend4_of_some {s : State} {e : OpError} (h : s.afterSend3.2 = some e) :
    s.afterSend4 = (s.afterSend3.1.setSeq .send4, some e) := by
  unfold State.afterSend4
  rw [h]
  rfl

/-- Steps 3 to 5 of `Send` each answered ok, after these commands. -/
structure State.TransmitDid (c : Config) (n2 n3 n4 : Nat) (s : State) : Prop where
  transmit : s.Did s.afterSend3 (modeWaitActs c .transmit n2)
  wait : s.afterSend3.1.Did s.afterSend4 (completionActs c c.txDwell n3)
  standby : s.afterSend4.1.Did s.afterSend5 (modeWaitActs c .standby n4)

/-- All steps of `Send` answered ok, after these commands. -/
structure State.SendDid (c : Config) (d : List Byte) (n1 n2 n3 n4 : Nat) (s : State) : Prop where
  standby : s.Did s.afterSend1 (modeWaitActs c .standby n1)
  load : s.afterSend1.1.Did (s.afterSend2 d) (frameActs (writeFrameBytes c c.regFifo d))
  transmit : (s.afterSend2 d).1.TransmitDid c n2 n3 n4

theorem State.TransmitDid.did {c : Config} {n2 n3 n4 : Nat} {s : State}
    (h : s.TransmitDid c n2 n3 n4) :
    s.Did s.transmitAndReturn (modeWaitActs c .transmit n2 ++ completionActs c c.txDwell n3
      ++ modeWaitActs c .standby n4) := by
  obtain ⟨⟨-, h3⟩, ⟨hwait, h4⟩, ⟨hstandby, h5⟩⟩ := h
  have hissued := State.issued_trans (State.issued_trans h3 h4) h5
  rw [State.transmitAndReturn_eq]
  unfold State.afterSend5 at *
  exact ⟨by rw [hwait, Option.none_or, hstandby], hissued⟩

theorem State.SendDid.did {c : Config} {d : List Byte} {n1 n2 n3 n4 : Nat} {s : State}
    (h : s.SendDid c d n1 n2 n3 n4) :
    s.Did (s.send d) (modeFrameActs c .standby ++ pollActs c c.regIrqFlags1 n1
      ++ frameActs (writeFrameBytes c c.regFifo d)
      ++ modeFrameActs c .transmit ++ pollActs c c.regIrqFlags1 n2
      ++ completionActs c c.txDwell n3
      ++ modeFrameActs c .standby ++ pollActs c c.regIrqFlags1 n4) := by
  obtain ⟨hok, hissued⟩ := h.transmit.did
  have hall := State.issued_trans (State.issued_trans h.standby.2 h.load.2) hissued
  rw [State.send_of_loaded h.standby.1 h.load.1]
  generalize (s.afterSend2 d).1.transmitAndReturn = p at *
  exact ⟨hok, by simpa only [modeWaitActs, List.append_assoc] using hall⟩

/-- The mode record after a `Send` that answered ok: Standby, with readiness seen. -/
theorem State.SendDid.mode {c : Config} {d : List Byte} {n1 n2 n3 n4 : Nat} {s : State}
    (h : s.SendDid c d n1 n2 n3 n4) :
    (s.send d).1.modeCache = some .standby ∧ (s.send d).1.awaitReady = false := by
  rw [State.send_of_loaded h.standby.1 h.load.1, State.transmitAndReturn_eq]
  have hok := h.transmit.standby.1
  obtain ⟨hmode, hready⟩ :=
    State.setModeAndWait_mode .standby ((s.afterSend2 d).1.afterSend4.1.setSeq .send5)
  unfold State.afterSend5 at hok
  generalize ((s.afterSend2 d).1.afterSend4.1.setSeq .send5).setModeAndWait .standby = p at *
  rw [hok] at hmode hready
  exact ⟨hmode.resolve_right (by simp), hready⟩

theorem State.transmitDid_of_ok {c : Config} {s : State} (hc : s.cfg = c)
    (h : s.transmitAndReturn.2 = none) : ∃ n2 n3 n4, 1 ≤ n2 ∧ 1 ≤ n3 ∧ 1 ≤ n4
      ∧ s.TransmitDid c n2 n3 n4 := by
  rw [State.transmitAndReturn_eq, Option.or_eq_none_iff] at h
  obtain ⟨h4, h5⟩ := h
  have h3 : s.afterSend3.2 = none := by
    cases h3 : s.afterSend3.2 with
    | none => rfl
    | some e => rw [State.afterSend4_of_some h3] at h4; cases h4
  have hc3 : s.afterSend3.1.cfg = c := s.quiet_afterSend3.cfg.trans hc
  have hc4 : s.afterSend4.1.cfg = c := s.quiet_afterSend4.cfg.trans hc
  obtain ⟨n2, hn2, hdid2⟩ := State.modeStep_did hc .send3 h3
  obtain ⟨n4, hn4, hdid4⟩ := State.modeStep_did hc4 .send5 h5
  have heq := State.afterSend4_of_none h3
  rw [heq] at h4
  obtain ⟨n3, hn3, hdid3⟩ := State.txWait_did hc3 .send4 h4
  exact ⟨n2, n3, n4, hn2, hn3, hn4, hdid2, heq ▸ hdid3, hdid4⟩

/-- A `Send` that answers ok did all its steps. -/
theorem State.sendDid_of_ok {d : List Byte} {s : State} (h : (s.send d).2 = none) :
    ∃ n1 n2 n3 n4, 1 ≤ n1 ∧ 1 ≤ n2 ∧ 1 ≤ n3 ∧ 1 ≤ n4 ∧ s.SendDid s.cfg d n1 n2 n3 n4 := by
  rcases s.send_cases d with ⟨e, -, he⟩ | ⟨e, -, -, he⟩ | ⟨h1, h2, he⟩
  · rw [he] at h
    cases h
  · rw [he] at h
    cases h
  · rw [he] at h
    obtain ⟨n1, hn1, hdid1⟩ := State.modeStep_did (s := s) rfl .send1 h1
    have hload := State.load_did s.quiet_afterSend1.cfg .send2 h2
    obtain ⟨n2, n3, n4, hn2, hn3, hn4, hdid⟩ := State.transmitDid_of_ok (s.work_afterSend2 d).cfg h
    exact ⟨n1, n2, n3, n4, hn1, hn2, hn3, hn4, hdid1, hload, hdid⟩

theorem resultOf_eq_ok {e : Option OpError} : resultOf e = .ok .unit ↔ e = none := by
  cases e <;> simp [resultOf]

/-- Settles O54: every step of a `Send` that answers ok has answered ok. -/
theorem sendOkTraffic : Obligations.SendOkTraffic := by
  intro s t d hexec hok
  obtain rfl := exec_send_next hexec
  obtain ⟨n1, n2, n3, n4, hn1, hn2, hn3, hn4, hdid⟩ := State.sendDid_of_ok (resultOf_eq_ok.mp hok)
  have hissued := hdid.did.2
  obtain ⟨hmode, hready⟩ := hdid.mode
  generalize s.send d = p at *
  exact ⟨n1, n2, n3, n4, hn1, hn2, hn3, hn4, hissued, hmode, hready⟩

/-! ### The oracle target that answers every poll with all bits set -/

/-- For the next `n` moments the oracle target answers every exchange with all bits set, and no call
fails. -/
structure State.Answering (c : Config) (n : Nat) (s : State) : Prop where
  cfg : s.cfg = c
  oracle : c.target = .oracle
  noFailure : s.noFailure n
  ones : ∀ k, k < n → (s.momentAt k).byte = 0xFF

theorem getLsbD_ones (b : Fin 8) : (0xFF : Byte).getLsbD b.val = true := by
  revert b
  decide

section
variable {c : Config} {n k : Nat} {s t : State}

/-- What takes at most `k` moments leaves the others. -/
theorem State.Answering.later (h : s.Answering c (k + n)) (hx : s.Extends t)
    (ht : t.tick ≤ s.tick + k) : t.Answering c n := by
  obtain ⟨j, hj⟩ := Nat.exists_eq_add_of_le hx.tick
  refine ⟨hx.cfg.trans h.cfg, h.oracle,
    State.noFailure_later hx hj (State.noFailure_mono h.noFailure (by omega)), fun i hi => ?_⟩
  rw [State.momentAt_later hx hj]
  exact h.ones _ (by omega)

theorem State.Answering.setSeq (h : s.Answering c n) (q : SeqState) : (s.setSeq q).Answering c n :=
  State.Answering.later (k := 0) (by rwa [Nat.zero_add]) (s.bus_setSeq q).toExtends (Nat.le_refl _)

theorem State.Answering.bit (h : s.Answering c n) (hk : k < n) (b : Fin 8) :
    (s.momentAt k).byte.getLsbD b.val = true := by
  rw [h.ones k hk]
  exact getLsbD_ones b

/-- A mode change of a sequence: the mode frame and one poll. -/
theorem State.Answering.modeStep (h : s.Answering c (9 + n)) (q : SeqState) (m : Mode) :
    s.Did ((s.setSeq q).setModeAndWait m) (modeWaitActs c m 1)
      ∧ ((s.setSeq q).setModeAndWait m).1.Answering c n := by
  have hq := h.setSeq q
  have hn : (s.setSeq q).noFailure 9 := State.noFailure_mono hq.noFailure (by omega)
  have horacle : (s.setSeq q).cfg.target = .oracle := hq.cfg ▸ h.oracle
  obtain ⟨hok, hissued, htick, -⟩ :=
    (State.readyAtOnce_of_oracle m horacle hn (hq.bit (by omega) _)).completes hn
  rw [hq.cfg] at hissued
  exact ⟨⟨hok, hissued⟩, hq.later (State.quiet_setModeAndWait m _).toExtends (Nat.le_of_eq htick)⟩

/-- The wait of a sequence, in each design: at most one poll. -/
theorem State.Answering.completionWait (h : s.Answering c (5 + n)) (dwell : Nat) (bit : Fin 8)
    (timeout : Nat) (name : WaitName) (he : c.waitKind = .event → s.evt = true) :
    s.Did (s.completionWait dwell bit timeout name) (completionActs c dwell 1)
      ∧ (s.completionWait dwell bit timeout name).1.Answering c n := by
  have hx := (s.quiet_completionWait dwell bit timeout name).toExtends
  obtain rfl := h.cfg
  unfold completionActs
  cases hk : s.cfg.waitKind with
  | dwell =>
    rw [State.completionWait_of_dwell hk] at *
    exact ⟨⟨rfl, s.dwell_issued dwell⟩, h.later hx (Nat.add_le_add_left (by decide : 1 ≤ 5) _)⟩
  | pollStatus =>
    rw [State.completionWait_of_poll hk] at *
    obtain ⟨hok, hissued, htick, -⟩ := State.pollFlag_at_once (reg := s.cfg.regIrqFlags2)
      (bit := bit) (timeout := timeout) (name := name) h.oracle
      (State.noFailure_mono h.noFailure (by omega)) (h.bit (by omega) _)
    exact ⟨⟨hok, hissued⟩, h.later hx (Nat.le_of_eq htick)⟩
  | event =>
    rw [State.completionWait_of_event hk, State.awaitEvent_of_pending (he hk)] at *
    exact ⟨⟨rfl, State.issued_of_trace_right rfl s.issued_refl⟩, h.later hx (Nat.le_add_right _ _)⟩

theorem State.Answering.load {d : List Byte} (h : s.Answering c (d.length + 3 + n)) (q : SeqState) :
    s.Did ((s.setSeq q).fifoWrite d) (frameActs (writeFrameBytes c c.regFifo d))
      ∧ ((s.setSeq q).fifoWrite d).1.Answering c n := by
  have hq := h.setSeq q
  obtain ⟨hok, hissued, htick⟩ :=
    State.fifoWrite_ok (d := d) (State.noFailure_mono hq.noFailure (Nat.le_add_right _ n))
  rw [hq.cfg] at hissued
  exact ⟨⟨hok, hissued⟩, hq.later (State.work_fifoWrite d _).toExtends (Nat.le_of_eq htick)⟩

/-! The event slot and the marks up to the wait. -/

theorem State.keepsEvent_afterSend1 (s : State) : s.KeepsEvent s.afterSend1.1 :=
  (s.bus_setSeq .send1).keepsEvent.trans (State.keepsEvent_setModeAndWait _ _)

theorem State.keepsEvent_afterSend2 (d : List Byte) (s : State) :
    s.KeepsEvent (s.afterSend2 d).1 :=
  s.keepsEvent_afterSend1.trans (State.keepsEvent_fifoWrite d (s.afterSend1.1.setSeq .send2))

/-! The steps of `Send`. -/

theorem State.Answering.afterSend1 (h : s.Answering c (9 + n)) :
    s.Did s.afterSend1 (modeWaitActs c .standby 1) ∧ s.afterSend1.1.Answering c n :=
  h.modeStep .send1 .standby

theorem State.Answering.afterSend2 {d : List Byte} (h : s.afterSend1.1.Answering c (d.length + 3 + n)) :
    s.afterSend1.1.Did (s.afterSend2 d) (frameActs (writeFrameBytes c c.regFifo d))
      ∧ (s.afterSend2 d).1.Answering c n :=
  h.load .send2

theorem State.Answering.afterSend3 (h : s.Answering c (9 + n)) :
    s.Did s.afterSend3 (modeWaitActs c .transmit 1) ∧ s.afterSend3.1.Answering c n :=
  h.modeStep .send3 .transmit

theorem State.Answering.txWait (h : s.Answering c (5 + n)) (q : SeqState)
    (he : c.waitKind = .event → s.evt = true) :
    s.Did (s.setSeq q).waitTxDone (completionActs c c.txDwell 1)
      ∧ (s.setSeq q).waitTxDone.1.Answering c n := by
  obtain rfl := h.cfg
  exact (h.setSeq q).completionWait s.cfg.txDwell s.cfg.packetSentBit s.cfg.txTimeout .packetSent he

theorem State.Answering.afterSend4 (h3 : s.afterSend3.2 = none)
    (h : s.afterSend3.1.Answering c (5 + n)) (he : c.waitKind = .event → s.afterSend3.1.evt = true) :
    s.afterSend3.1.Did s.afterSend4 (completionActs c c.txDwell 1)
      ∧ s.afterSend4.1.Answering c n := by
  rw [State.afterSend4_of_none h3]
  exact h.txWait .send4 he

theorem State.Answering.afterSend5 (h : s.afterSend4.1.Answering c 9) :
    s.afterSend4.1.Did s.afterSend5 (modeWaitActs c .standby 1) :=
  (State.Answering.modeStep (n := 0) h .send5 .standby).1

theorem State.Answering.transmitDid (h : s.Answering c 23)
    (he : c.waitKind = .event → s.evt = true) : s.TransmitDid c 1 1 1 := by
  obtain ⟨h3, hafter3⟩ := State.Answering.afterSend3 (n := 14) h
  obtain ⟨h4, hafter4⟩ := State.Answering.afterSend4 (n := 9) h3.1 hafter3
    fun hk => s.keepsEvent_afterSend3 (he hk)
  exact ⟨h3, h4, hafter4.afterSend5⟩

/-- All steps of `Send` complete. -/
theorem State.Answering.sendDid {d : List Byte} (h : s.Answering c (d.length + 35))
    (he : c.waitKind = .event → s.evt = true) : s.SendDid c d 1 1 1 1 := by
  have hlen : d.length + 35 = 9 + (d.length + 3 + 23) := by omega
  rw [hlen] at h
  obtain ⟨h1, hafter1⟩ := h.afterSend1
  obtain ⟨h2, hafter2⟩ := hafter1.afterSend2
  exact ⟨h1, h2, hafter2.transmitDid fun hk => s.keepsEvent_afterSend2 d (he hk)⟩

end

/-! ### Completed sequences set no mark (70_reset_and_hazards R246) -/

section
variable {s : State}

theorem State.modeStep_hazard (ht : s.cfg.target ≠ .reference) (q : SeqState) (m : Mode) :
    ((s.setSeq q).setModeAndWait m).1.hazard = s.hazard :=
  State.setModeAndWait_hazard m (s := s.setSeq q) (.inl ht)

/-- Readiness was seen in a mode change that answered ok. -/
theorem State.modeStep_seen {q : SeqState} {m : Mode}
    (h : ((s.setSeq q).setModeAndWait m).2 = none) :
    ((s.setSeq q).setModeAndWait m).1.awaitReady = false := by
  rw [(State.setModeAndWait_mode m (s.setSeq q)).2, h]
  rfl

theorem State.load_hazard (ht : s.cfg.target ≠ .reference) (ha : s.awaitReady = false)
    (q : SeqState) (d : List Byte) : ((s.setSeq q).fifoWrite d).1.hazard = s.hazard := by
  have h := State.burstWrite_hazard (d := d) (s := (s.setSeq q).loaded d) (.inr ht)
  have hmark : (((s.setSeq q).loaded d).hazard || ((s.setSeq q).loaded d).awaitReady)
      = (s.hazard || s.awaitReady) := rfl
  rw [State.fifoWrite_eq, h, hmark, ha, Bool.or_false]

theorem State.wait_hazard (ha : s.awaitReady = false) (q : SeqState) (dwell : Nat) (bit : Fin 8)
    (timeout : Nat) (name : WaitName) :
    ((s.setSeq q).completionWait dwell bit timeout name).1.hazard = s.hazard :=
  State.completionWait_hazard dwell bit timeout name (s := s.setSeq q) ha

variable {c : Config} {d : List Byte} {n1 n2 n3 n4 : Nat}

theorem State.TransmitDid.hazard (h : s.TransmitDid c n2 n3 n4) (ht : s.cfg.target ≠ .reference) :
    s.transmitAndReturn.1.hazard = s.hazard := by
  have h3 : s.afterSend3.1.hazard = s.hazard := State.modeStep_hazard ht .send3 .transmit
  have h4 : s.afterSend4.1.hazard = s.afterSend3.1.hazard := by
    rw [State.afterSend4_of_none h.transmit.1]
    exact State.wait_hazard (State.modeStep_seen h.transmit.1) .send4 ..
  have ht4 : s.afterSend4.1.cfg.target ≠ .reference := by rwa [s.quiet_afterSend4.cfg]
  have h5 := State.modeStep_hazard ht4 .send5 .standby
  rw [State.transmitAndReturn_eq]
  dsimp only
  rw [h5, h4, h3]

theorem State.SendDid.hazard (h : s.SendDid c d n1 n2 n3 n4) (ht : s.cfg.target ≠ .reference) :
    (s.send d).1.hazard = s.hazard := by
  have h1 : s.afterSend1.1.hazard = s.hazard := State.modeStep_hazard ht .send1 .standby
  have ht1 : s.afterSend1.1.cfg.target ≠ .reference := by rwa [s.quiet_afterSend1.cfg]
  have h2 : (s.afterSend2 d).1.hazard = s.afterSend1.1.hazard :=
    State.load_hazard ht1 (State.modeStep_seen h.standby.1) .send2 d
  have ht2 : (s.afterSend2 d).1.cfg.target ≠ .reference := by rwa [(s.work_afterSend2 d).cfg]
  rw [State.send_of_loaded h.standby.1 h.load.1]
  exact (h.transmit.hazard ht2).trans (h2.trans h1)

end

/-- After a `Send` that reached its end, `tx_buf` begins with the frame that loaded the FIFO. -/
theorem State.SendDid.txBuf {c : Config} {d : List Byte} {n1 n2 n3 n4 : Nat} {s : State}
    (h : s.SendDid c d n1 n2 n3 n4) (hd : d.length ≤ s.cfg.maxSendLen)
    (hbuf : s.txBuf.length = s.cfg.scratchSize) :
    (s.send d).1.txBuf.take (d.length + 1) = writeFrameBytes s.cfg s.cfg.regFifo d := by
  have hcfg := s.quiet_afterSend1.cfg
  have htx := State.fifoWrite_txBuf (d := d) (s := s.afterSend1.1.setSeq .send2)
    (by rwa [State.setSeq_cfg, hcfg])
    (by rw [State.setSeq_cfg, hcfg]; exact (congrArg _ s.quiet_afterSend1.txBuf).trans hbuf)
  rw [State.setSeq_cfg, hcfg] at htx
  rw [State.send_of_loaded h.standby.1 h.load.1, (State.quiet_transmitAndReturn _).txBuf]
  exact htx

/-- Settles O53: on this target every step of `Send` completes. -/
theorem sendCompletes : Obligations.SendCompletes := by
  intro s d hinv hi ht hd hn hones he
  have hdid := State.Answering.sendDid ⟨rfl, ht, hn, hones⟩ he
  have hexec := exec_send_of_idle hi hd
  have hsteps := State.send_steps_of_loaded hdid.standby.1 hdid.load.1 (resultOf (s.send d).2)
  obtain ⟨hok, hissued⟩ := hdid.did
  obtain ⟨hmode, hready⟩ := hdid.mode
  have hhazard := hdid.hazard (by rw [ht]; nofun)
  have htx := hdid.txBuf hd hinv.txBuf
  obtain ⟨hrx, -⟩ := s.send_buffers d
  have hwork := s.work_send d
  obtain ⟨hends, hrecords⟩ := hwork.concluded (s.send_cs d) .idle (resultOf (s.send d).2)
  have hevent := fun hk => State.keepsEvent_send d (s := s) hk
  generalize s.send d = p at *
  exact ⟨_, hexec, congrArg resultOf hok, hissued, hsteps, hmode, hready, hhazard, hends, hrecords,
    htx, hrx, hevent, hwork.version⟩

/-! ### The traffic of `Receive` that answers ok (44_packet_io R178) -/

/-- `FifoRead` of `n` bytes from `s` answered `l`, after exactly the drain frame. -/
structure State.Drained (c : Config) (n : Nat) (l : List Byte) (s : State)
    (p : State × Except OpError (List Byte)) : Prop where
  answer : p.2 = .ok l
  length : l.length = n
  received : ∃ r, s.received p.1 = r :: l
  issued : s.issued p.1 (frameActs (readFrameBytes c c.regFifo n))

/-- All steps of `Receive` answered ok, after these commands. -/
structure State.ReceiveDid (c : Config) (l : List Byte) (n1 n2 : Nat) (s : State) : Prop where
  mode : s.Did s.afterRecv1 (modeWaitActs c .receive n1)
  wait : s.afterRecv1.1.Did s.afterRecv2 (completionActs c c.rxDwell n2)
  drain : s.afterRecv2.1.Drained c c.fifoWindow l s.afterRecv3

section
variable {c : Config} {l : List Byte} {n1 n2 : Nat} {s : State}

theorem State.receive_of_drained (h1 : s.afterRecv1.2 = none) (h2 : s.afterRecv2.2 = none)
    (h3 : s.afterRecv3.2 = .ok l) : s.receive = (s.afterRecv3.1.setSeq .recv4, .ok l) := by
  rcases s.receive_cases with ⟨e, h, -⟩ | ⟨e, -, h, -⟩ | ⟨e, -, -, h, -⟩ | ⟨l', -, -, h, he⟩
  · exact nomatch h.symm.trans h1
  · exact nomatch h.symm.trans h2
  · exact nomatch h.symm.trans h3
  · rw [he, Except.ok.inj (h.symm.trans h3)]

theorem State.drain_did (hc : s.cfg = c) (q : SeqState) {n : Nat}
    (h : ((s.setSeq q).fifoRead n).2 = .ok l) :
    s.Drained c n l ((s.setSeq q).fifoRead n) := by
  obtain ⟨hlen, -, hreceived, hissued⟩ := State.fifoRead_answered h
  exact ⟨h, hlen, hreceived, hc ▸ hissued⟩

theorem State.ReceiveDid.eq (h : s.ReceiveDid c l n1 n2) :
    s.receive = (s.afterRecv3.1.setSeq .recv4, .ok l) :=
  State.receive_of_drained h.mode.1 h.wait.1 h.drain.answer

theorem State.ReceiveDid.issued (h : s.ReceiveDid c l n1 n2) :
    s.issued s.receive.1 (modeFrameActs c .receive ++ pollActs c c.regIrqFlags1 n1
      ++ completionActs c c.rxDwell n2 ++ frameActs (readFrameBytes c c.regFifo c.fifoWindow)) := by
  have hissued := State.issued_trans (State.issued_trans h.mode.2 h.wait.2) h.drain.issued
  rw [h.eq]
  generalize s.afterRecv3 = p at *
  exact State.issued_of_trace_right rfl hissued

theorem State.ReceiveDid.steps (h : s.ReceiveDid c l n1 n2) (r : Result) :
    s.stepsTaken (s.receive.1.conclude .idle r) = [.recv1, .recv2, .recv3, .recv4] := by
  rw [h.eq]
  exact s.receive_steps r

/-- The bytes answered are the last ones received. -/
theorem State.ReceiveDid.suffix (h : s.ReceiveDid c l n1 n2) : l <:+ s.received s.receive.1 := by
  obtain ⟨r, hreceived⟩ := h.drain.received
  have hx := (s.quiet_afterRecv2).toExtends
  have hall := State.received_trans hx s.extends_afterRecv3
  rw [hreceived] at hall
  rw [h.eq]
  generalize s.afterRecv3 = p at *
  have hsame : s.received (p.1.setSeq .recv4) = s.received p.1 := State.received_of_trace_right rfl
  rw [hsame, hall]
  exact ⟨s.received s.afterRecv2.1 ++ [r], by rw [List.append_assoc, List.singleton_append]⟩

/-- A `Receive` that answers bytes did all its steps. -/
theorem State.receiveDid_of_ok (h : s.receive.2 = .ok l) :
    ∃ n1 n2, 1 ≤ n1 ∧ 1 ≤ n2 ∧ s.ReceiveDid s.cfg l n1 n2 := by
  rcases s.receive_cases with
    ⟨e, -, he⟩ | ⟨e, -, -, he⟩ | ⟨e, -, -, -, he⟩ | ⟨l', h1, h2, h3, he⟩
  · exact nomatch (congrArg Prod.snd he).symm.trans h
  · exact nomatch (congrArg Prod.snd he).symm.trans h
  · exact nomatch (congrArg Prod.snd he).symm.trans h
  · obtain rfl : l' = l := Except.ok.inj ((congrArg Prod.snd he).symm.trans h)
    obtain ⟨n1, hn1, hdid1⟩ := State.modeStep_did (s := s) rfl .recv1 h1
    obtain ⟨n2, hn2, hdid2⟩ := State.rxWait_did s.quiet_afterRecv1.cfg .recv2 h2
    exact ⟨n1, n2, hn1, hn2, hdid1, hdid2, State.drain_did s.quiet_afterRecv2.cfg .recv3 h3⟩

theorem State.Answering.rxWait {n : Nat} (h : s.Answering c (5 + n)) (q : SeqState)
    (he : c.waitKind = .event → s.evt = true) :
    s.Did (s.setSeq q).waitPayloadReady (completionActs c c.rxDwell 1)
      ∧ (s.setSeq q).waitPayloadReady.1.Answering c n := by
  obtain rfl := h.cfg
  exact (h.setSeq q).completionWait s.cfg.rxDwell s.cfg.payloadReadyBit s.cfg.rxTimeout
    .payloadReady he

theorem State.Answering.drain {n : Nat} (h : s.Answering c (n + 3)) (q : SeqState) :
    ∃ l, s.Drained c n l ((s.setSeq q).fifoRead n) := by
  obtain ⟨r, l, hok, -⟩ := State.fifoRead_ok (h.setSeq q).noFailure
  exact ⟨l, State.drain_did h.cfg q hok⟩

theorem State.keepsEvent_afterRecv1 (s : State) : s.KeepsEvent s.afterRecv1.1 :=
  (s.bus_setSeq .recv1).keepsEvent.trans (State.keepsEvent_setModeAndWait _ _)

theorem State.Answering.afterRecv1 {n : Nat} (h : s.Answering c (9 + n)) :
    s.Did s.afterRecv1 (modeWaitActs c .receive 1) ∧ s.afterRecv1.1.Answering c n :=
  h.modeStep .recv1 .receive

theorem State.Answering.afterRecv2 {n : Nat} (h : s.afterRecv1.1.Answering c (5 + n))
    (he : c.waitKind = .event → s.afterRecv1.1.evt = true) :
    s.afterRecv1.1.Did s.afterRecv2 (completionActs c c.rxDwell 1)
      ∧ s.afterRecv2.1.Answering c n :=
  h.rxWait .recv2 he

theorem State.Answering.afterRecv3 (h : s.afterRecv2.1.Answering s.cfg (s.cfg.fifoWindow + 3)) :
    ∃ l, s.afterRecv2.1.Drained s.cfg s.cfg.fifoWindow l s.afterRecv3 :=
  h.drain .recv3

/-- All steps of `Receive` complete. -/
theorem State.Answering.receiveDid (h : s.Answering s.cfg (s.cfg.fifoWindow + 17))
    (he : s.cfg.waitKind = .event → s.evt = true) : ∃ l, s.ReceiveDid s.cfg l 1 1 := by
  have hlen : s.cfg.fifoWindow + 17 = 9 + (5 + (s.cfg.fifoWindow + 3)) := by omega
  rw [hlen] at h
  obtain ⟨h1, hafter1⟩ := h.afterRecv1
  obtain ⟨h2, hafter2⟩ := hafter1.afterRecv2 fun hk => s.keepsEvent_afterRecv1 (he hk)
  obtain ⟨l, h3⟩ := hafter2.afterRecv3
  exact ⟨l, h1, h2, h3⟩

theorem State.afterRecv2_mode (s : State) :
    s.afterRecv2.1.modeCache = s.afterRecv1.1.modeCache
      ∧ s.afterRecv2.1.awaitReady = s.afterRecv1.1.awaitReady :=
  (State.completionWait_keeps _ _ _ _ (s.afterRecv1.1.setSeq .recv2)).2

theorem State.afterRecv3_mode (s : State) :
    s.afterRecv3.1.modeCache = s.afterRecv1.1.modeCache
      ∧ s.afterRecv3.1.awaitReady = s.afterRecv1.1.awaitReady := by
  obtain ⟨hmode, hready⟩ := State.fifoRead_mode s.cfg.fifoWindow (s.afterRecv2.1.setSeq .recv3)
  obtain ⟨hmode2, hready2⟩ := s.afterRecv2_mode
  exact ⟨hmode.trans hmode2, hready.trans hready2⟩

/-- The mode record after a `Receive` that answered bytes: Receive, with readiness seen. -/
theorem State.ReceiveDid.modeRecord (h : s.ReceiveDid c l n1 n2) :
    s.receive.1.modeCache = some .receive ∧ s.receive.1.awaitReady = false := by
  obtain ⟨hmode, -⟩ := State.setModeAndWait_mode .receive (s.setSeq .recv1)
  have h1 := h.mode.1
  obtain ⟨hmode3, hready3⟩ := s.afterRecv3_mode
  have hseen := State.modeStep_seen h1
  rw [h.eq]
  unfold State.afterRecv1 at *
  rw [h1] at hmode
  generalize s.afterRecv3 = p at *
  generalize (s.setSeq .recv1).setModeAndWait .receive = p1 at *
  exact ⟨hmode3.trans (hmode.resolve_right (by simp)), hready3.trans hseen⟩

theorem State.ReceiveDid.hazard (h : s.ReceiveDid c l n1 n2) (ht : s.cfg.target ≠ .reference) :
    s.receive.1.hazard = s.hazard := by
  have h1 : s.afterRecv1.1.hazard = s.hazard := State.modeStep_hazard ht .recv1 .receive
  have hseen : s.afterRecv1.1.awaitReady = false := State.modeStep_seen h.mode.1
  have h2 : s.afterRecv2.1.hazard = s.afterRecv1.1.hazard := State.wait_hazard hseen .recv2 ..
  have h3 : s.afterRecv3.1.hazard = (s.afterRecv2.1.hazard || s.afterRecv2.1.awaitReady) :=
    State.fifoRead_hazard _ (s.afterRecv2.1.setSeq .recv3)
  rw [s.afterRecv2_mode.2, hseen, Bool.or_false] at h3
  rw [h.eq]
  exact h3.trans (h2.trans h1)

/-- After a `Receive` that answered bytes, `rx_buf` begins with them. -/
theorem State.ReceiveDid.rxBuf (h : s.ReceiveDid s.cfg l n1 n2)
    (hbuf : s.rxBuf.length = s.cfg.scratchSize) :
    s.receive.1.rxBuf.take s.cfg.fifoWindow = l := by
  obtain ⟨-, -, -, -, -, -, -, -, -, -, -, hscratch⟩ := Params.check_true s.cfg.valid
  have hbytes := (State.fifoRead_answered (s := s.afterRecv2.1.setSeq .recv3) h.drain.answer).2.1
  have hlen : l.length ≤ (s.afterRecv2.1.setSeq .recv3).rxBuf.length := by
    rw [h.drain.length]
    show _ ≤ s.afterRecv2.1.rxBuf.length
    rw [s.quiet_afterRecv2.rxBuf, hbuf]
    omega
  have htake := State.fifoRead_rxBuf hbytes hlen
  rw [h.eq, ← h.drain.length]
  exact htake

end

/-- Settles O56: on this target every step of `Receive` completes. -/
theorem receiveCompletes : Obligations.ReceiveCompletes := by
  intro s hinv hi ht hn hones he
  obtain ⟨l, hdid⟩ := State.Answering.receiveDid ⟨rfl, ht, hn, hones⟩ he
  have hexec := exec_receive_of_idle hi
  have hok := congrArg (resultWith .bytes) (congrArg Prod.snd hdid.eq)
  have hsteps := hdid.steps (resultWith .bytes s.receive.2)
  have hissued := hdid.issued
  obtain ⟨hmode, hready⟩ := hdid.modeRecord
  have hhazard := hdid.hazard (by rw [ht]; nofun)
  have hrx := hdid.rxBuf hinv.rxBuf
  obtain ⟨htx, -⟩ := s.receive_buffers
  have hwork := s.work_receive
  obtain ⟨hends, hrecords⟩ := hwork.concluded s.receive_cs .idle (resultWith .bytes s.receive.2)
  have hevent := fun hk => State.keepsEvent_receive (s := s) hk
  have hlen := hdid.drain.length
  clear hdid
  generalize s.receive = p at *
  exact ⟨_, l, hexec, hok, hlen, hissued, hsteps, hrx, htx, hmode, hready, hhazard, hends, hrecords,
    hevent, hwork.version⟩

end Sys2Proof.Machine

/-!
PROOFS of the statements of 44_packet_io, every run of `Receive`: the frames that a step opens, each whole
or stopped at its first failing call (`State.Framed`), and what follows from the list of them.
-/

namespace Sys2Proof.Machine

/-! ### Frames attempted -/

/-- A frame that was opened: the bytes it was meant to send, and the first error of its calls. -/
structure FrameTry where
  bytes : List Byte
  error : Option PlatformError

/-- The calls `l` are those of the frame. -/
def FrameTry.Calls (f : FrameTry) (l : List BusCall) : Prop :=
  isFrameOf f.bytes l ∧ firstError l = f.error

/-- The bytes `g` are those the frame sent: all of them unless a call failed. -/
def FrameTry.Sent (f : FrameTry) (g : List Byte) : Prop :=
  g <+: f.bytes ∧ (f.error = none → g = f.bytes)

/-- Between `s` and `t` exactly the frames `fs` were opened, and each was closed. -/
def State.Framed (s t : State) (fs : List FrameTry) : Prop :=
  ∃ l ls, t.trace = s.trace ++ l
    ∧ (∀ rest, callFramesFrom none (l ++ rest) = ls ++ callFramesFrom none rest)
    ∧ List.Forall₂ FrameTry.Calls fs ls

section
variable {s t u : State} {fs gs : List FrameTry}

theorem State.Framed.of_trace (h : t.trace = s.trace) : s.Framed t [] :=
  ⟨[], [], by simp [h], fun _ => rfl, .nil⟩

theorem State.Framed.trans (h : s.Framed t fs) (h' : t.Framed u gs) : s.Framed u (fs ++ gs) := by
  obtain ⟨l, ls, htrace, hframes, hcalls⟩ := h
  obtain ⟨l', ls', htrace', hframes', hcalls'⟩ := h'
  refine ⟨l ++ l', ls ++ ls', by rw [htrace', htrace, List.append_assoc], fun rest => ?_,
    List.rel_append hcalls hcalls'⟩
  rw [List.append_assoc, hframes, hframes', List.append_assoc]

theorem State.Framed.trans_trace (h : s.Framed t fs) (ht : u.trace = t.trace) : s.Framed u fs := by
  obtain ⟨l, ls, htrace, h⟩ := h
  exact ⟨l, ls, ht.trans htrace, h⟩

theorem State.Framed.of_trace_trans (ht : t.trace = s.trace) (h : t.Framed u fs) : s.Framed u fs := by
  obtain ⟨l, ls, htrace, h⟩ := h
  exact ⟨l, ls, by rw [htrace, ht], h⟩

/-- Sleeping opens no frame. -/
theorem State.framed_sleep (d : Nat) (s : State) : s.Framed (s.sleep d) [] :=
  ⟨[.sleep d], [], rfl, fun _ => rfl, .nil⟩

theorem State.Framed.of_called {bs : List Byte} {l : List BusCall} (h : s.Called t l)
    (hl : isFrameOf bs l) : s.Framed t [⟨bs, firstError l⟩] :=
  ⟨l, [l], h.trace, fun rest => callFrames_of_isFrameOf rest hl, .cons ⟨hl, rfl⟩ .nil⟩

theorem State.Framed.callFrames (h : s.Framed t fs) :
    List.Forall₂ FrameTry.Calls fs (s.callFrames t) := by
  obtain ⟨l, ls, htrace, hframes, hcalls⟩ := h
  have hl : s.callFrames t = ls := by
    have hall := hframes []
    simp only [List.append_nil, callFramesFrom] at hall
    rw [State.callFrames, State.calls, htrace, List.drop_left, hall]
  rwa [hl]

theorem bytesSent_of_act {l : List BusCall} {bs : List Byte} (h : l.map BusCall.act = frameActs bs) :
    bytesSent l = bs := by
  have hbytes := callFramesFrom_bytes none (l ++ [])
  rw [callFrames_frame [] h, List.append_nil, h] at hbytes
  exact (List.cons.inj (hbytes.trans (framesOf_one bs))).1

theorem FrameTry.Calls.sent {f : FrameTry} {l : List BusCall} (h : f.Calls l) :
    f.Sent (bytesSent l) := by
  obtain ⟨⟨hact, -⟩ | ⟨k, e, -, hact, -, he⟩, herror⟩ := h
  · rw [bytesSent_of_act hact]
    exact ⟨List.prefix_rfl, fun _ => rfl⟩
  · rw [bytesSent_of_act hact]
    refine ⟨List.take_prefix .., fun hnone => ?_⟩
    obtain ⟨x, hx, hxe⟩ := Option.bind_eq_some_iff.mp he
    have hall := List.findSome?_eq_none_iff.mp (herror.trans hnone) x (List.mem_of_getElem? hx)
    exact nomatch hall.symm.trans hxe

theorem State.Framed.sent (h : s.Framed t fs) :
    List.Forall₂ FrameTry.Sent fs (s.framesIssued t) := by
  rw [State.framesIssued_eq, List.forall₂_map_right_iff]
  exact h.callFrames.imp fun _ _ => FrameTry.Calls.sent

end

/-! ### The frames of the steps -/

/-- At most `n` polls of `reg`. -/
def Polls (c : Config) (reg : Addr) (n : Nat) (ps : List FrameTry) : Prop :=
  ps.length ≤ n ∧ ∀ f ∈ ps, f.bytes = readFrameBytes c reg 1

/-- The bytes of the frame of a mode write. -/
def modeBytes (c : Config) (m : Mode) : List Byte := writeFrameBytes c c.regOpmode [modeValue c m]

theorem Polls.nil (c : Config) (reg : Addr) (n : Nat) : Polls c reg n [] :=
  ⟨Nat.zero_le n, fun _ h => nomatch h⟩

theorem Polls.cons {c : Config} {reg : Addr} {n : Nat} {ps : List FrameTry} (h : Polls c reg n ps)
    (e : Option PlatformError) : Polls c reg (n + 1) (⟨readFrameBytes c reg 1, e⟩ :: ps) :=
  ⟨Nat.succ_le_succ h.1, List.forall_mem_cons.mpr ⟨rfl, h.2⟩⟩

section
variable {s : State}

theorem State.framed_polled (q : SeqState) (reg : Addr) (s : State) :
    ∃ e, s.Framed (s.polled q reg).1 [⟨readFrameBytes s.cfg reg 1, e⟩] := by
  obtain ⟨l, hl, hframe, -⟩ := (s.setSeq q).readReg_called reg
  exact ⟨_, .of_trace_trans (t := s.setSeq q) rfl (.of_called hl hframe)⟩

theorem State.framed_pollAgain (s : State) : s.Framed s.pollAgain [] :=
  .of_trace_trans (t := s.now.1) rfl (State.framed_sleep ..)

/-- A poll loop opens a frame for each poll. -/
theorem State.framed_pollLoop (seqOf : Nat → SeqState) (reg : Addr) (bit : Fin 8) (timeout : Nat)
    (name : WaitName) (t0 fuel k : Nat) (s : State) :
    ∃ ps, s.Framed (State.pollLoop seqOf reg bit timeout name t0 fuel k s).1 ps
      ∧ Polls s.cfg reg fuel ps := by
  induction fuel generalizing k s with
  | zero => exact ⟨[], .of_trace rfl, .nil ..⟩
  | succ n ih =>
    obtain ⟨e, hpoll⟩ := s.framed_polled (seqOf k) reg
    have hcfg := ((s.bus_polled (seqOf k) reg).trans (State.bus_pollAgain _)).cfg
    have hone := (Polls.nil s.cfg reg n).cons e
    unfold State.polled at *
    unfold State.pollLoop
    dsimp only
    generalize (s.setSeq (seqOf k)).readReg reg = p at *
    split
    · exact ⟨_, hpoll, hone⟩
    · split
      · exact ⟨_, hpoll, hone⟩
      · split
        · exact ⟨_, hpoll.trans_trace rfl, hone⟩
        · obtain ⟨ps, hps, hpolls⟩ := ih (k + 1) p.1.pollAgain
          rw [hcfg] at hpolls
          exact ⟨_, (hpoll.trans p.1.framed_pollAgain).trans hps, hpolls.cons e⟩

theorem State.framed_pollFor (seqOf : Nat → SeqState) (reg : Addr) (bit : Fin 8) (timeout : Nat)
    (name : WaitName) (s : State) :
    ∃ ps, s.Framed (s.pollFor seqOf reg bit timeout name).1 ps
      ∧ Polls s.cfg reg (pollBound s.cfg timeout) ps := by
  obtain ⟨ps, hps, hpolls⟩ := s.now.1.framed_pollLoop seqOf reg bit timeout name s.now.2
    (pollBound s.cfg timeout) 1
  exact ⟨ps, .of_trace_trans (t := s.now.1) rfl hps, hpolls⟩

theorem State.framed_isReady (s : State) :
    ∃ ps, s.Framed s.isReady.1 ps
      ∧ Polls s.cfg s.cfg.regIrqFlags1 (pollBound s.cfg s.cfg.readyTimeout) ps := by
  obtain ⟨ps, hps, hpolls⟩ := s.framed_pollFor .readyPoll s.cfg.regIrqFlags1 s.cfg.modeReadyBit
    s.cfg.readyTimeout .modeReady
  exact ⟨ps, hps.trans_trace s.isReady_calls.2.1, hpolls⟩

/-- A mode write opens its frame, and answers its first error. -/
theorem State.framed_setMode (m : Mode) (s : State) :
    ∃ e, s.Framed (s.setMode m).1 [⟨modeBytes s.cfg m, e⟩]
      ∧ (s.setMode m).2 = e.map transportError := by
  obtain ⟨l, hl, hframe, herror⟩ := s.writeReg_called s.cfg.regOpmode (modeValue s.cfg m)
  exact ⟨_, .of_called hl hframe, herror⟩

/-- The frames `fs` of `SetModeAndWait(m)`: the mode frame, and polls where it did not fail. The mode is
recorded as unknown where it failed. -/
def ModeFrames (c : Config) (m : Mode) (record : Option Mode) (fs : List FrameTry) : Prop :=
  ∃ e ps, fs = ⟨modeBytes c m, e⟩ :: ps
    ∧ Polls c c.regIrqFlags1 (pollBound c c.readyTimeout) ps ∧ (e = none ∨ record = none)

theorem State.framed_setModeAndWait (m : Mode) (s : State) :
    ∃ fs, s.Framed (s.setModeAndWait m).1 fs
      ∧ ModeFrames s.cfg m (s.setModeAndWait m).1.modeCache fs := by
  obtain ⟨e, hframe, herror⟩ := s.framed_setMode m
  obtain ⟨hmode, -⟩ := s.setMode_mode m
  cases e with
  | some e =>
    rw [herror] at hmode
    rw [State.setModeAndWait_of_some herror]
    exact ⟨_, hframe, some e, [], rfl, .nil .., .inr hmode⟩
  | none =>
    rw [State.setModeAndWait_of_none herror]
    obtain ⟨ps, hps, hpolls⟩ := (s.setMode m).1.framed_isReady
    rw [(s.quiet_setMode m).cfg] at hpolls
    exact ⟨_, hframe.trans hps, none, ps, rfl, hpolls, .inl rfl⟩

/-- A completion wait opens frames only where it polls. -/
theorem State.framed_completionWait (dwell : Nat) (bit : Fin 8) (timeout : Nat) (name : WaitName)
    (s : State) :
    ∃ ps, s.Framed (s.completionWait dwell bit timeout name).1 ps
      ∧ Polls s.cfg s.cfg.regIrqFlags2 (pollBound s.cfg timeout) ps := by
  cases hk : s.cfg.waitKind with
  | dwell =>
    rw [State.completionWait_of_dwell hk]
    exact ⟨[], .of_trace_trans (t := s.setSeq .dwell) rfl (State.framed_sleep ..), .nil ..⟩
  | pollStatus =>
    rw [State.completionWait_of_poll hk]
    exact s.framed_pollFor ..
  | event =>
    rw [State.completionWait_of_event hk]
    exact ⟨[], .of_trace (s.awaitEvent_keeps timeout name).2.2.2.1, .nil ..⟩

/-- All that `FifoWrite` does on the bus. -/
theorem State.fifoWrite_called (d : List Byte) (s : State) :
    ∃ l, s.Called (s.fifoWrite d).1 l ∧ isFrameOf (writeFrameBytes s.cfg s.cfg.regFifo d) l
      ∧ (s.fifoWrite d).2 = (firstError l).map transportError := by
  obtain ⟨l, hl, hframe, herror⟩ :=
    (s.loaded d).markBurst.runFrame_called (writeFrameBytes s.cfg s.cfg.regFifo d)
  rw [State.fifoWrite_eq]
  exact ⟨l, hl.of_same rfl rfl rfl rfl rfl, hframe, herror⟩

/-- All that `FifoRead` does on the bus; it answers bytes unless a call fails. -/
theorem State.fifoRead_called (n : Nat) (s : State) :
    ∃ l, s.Called (s.fifoRead n).1 l ∧ isFrameOf (readFrameBytes s.cfg s.cfg.regFifo n) l
      ∧ (firstError l = none → ∃ bs, (s.fifoRead n).2 = .ok bs)
      ∧ ∀ e, firstError l = some e → (s.fifoRead n).2 = .error (transportError e) := by
  obtain ⟨l, hl, hframe, herror⟩ :=
    s.markBurst.runFrame_called (readFrameBytes s.cfg s.cfg.regFifo n)
  have herror' : (s.burstRead n).2.2 = (firstError l).map transportError := herror
  refine ⟨l, hl.of_same rfl rfl rfl rfl rfl, hframe, fun hnone => ⟨(s.burstRead n).2.1, ?_⟩,
    fun e he => ?_⟩
  · exact State.fifoRead_of_none (by rw [herror', hnone]; rfl)
  · exact State.fifoRead_of_some (by rw [herror', he]; rfl)

end

/-! ### What was sent of the frames attempted -/

section
variable {c : Config} {f : FrameTry} {g : List Byte}

theorem addressByte_inj {w w' : Bool} {a a' : Addr} :
    addressByte c w a = addressByte c w' a' ↔ w = w' ∧ a = a' := by
  refine ⟨fun h => ⟨?_, ?_⟩, fun ⟨hw, ha⟩ => hw ▸ ha ▸ rfl⟩
  · rw [← addressByteDir_addressByte c w a, h, addressByteDir_addressByte]
  · rw [← addressByteAddr_addressByte c w a, h, addressByteAddr_addressByte]

/-- What was sent of a frame begins as the frame. -/
theorem FrameTry.Sent.head (h : f.Sent g) {b : Byte} (hb : g.head? = some b) :
    f.bytes.head? = some b := by
  obtain ⟨⟨rest, hrest⟩, -⟩ := h
  rw [← hrest, List.head?_append, hb]
  rfl

theorem head?_readFrameBytes_ne (c : Config) (a b : Addr) (n : Nat) :
    (readFrameBytes c a n).head? ≠ some (addressByte c true b) := fun h =>
  nomatch (addressByte_inj.mp (Option.some.inj h)).1

theorem forall₂_countP_le {α β : Type} {R : α → β → Prop} {p : β → Bool} {q : α → Bool}
    (hpq : ∀ a b, R a b → p b = true → q a = true) {as : List α} {bs : List β}
    (h : List.Forall₂ R as bs) : bs.countP p ≤ as.countP q := by
  induction h with
  | nil => exact Nat.le_refl _
  | @cons a b as bs hab _ ih =>
    rw [List.countP_cons, List.countP_cons]
    refine Nat.add_le_add ih ?_
    split
    · next hb => rw [if_pos (hpq a b hab hb)]
    · exact Nat.zero_le _

theorem forall₂_exists_left {α β : Type} {R : α → β → Prop} {as : List α} {bs : List β}
    (h : List.Forall₂ R as bs) {b : β} (hb : b ∈ bs) : ∃ a ∈ as, R a b := by
  induction h with
  | nil => cases hb
  | @cons a b' as bs hab _ ih =>
    rcases List.mem_cons.mp hb with rfl | hb
    · exact ⟨a, List.mem_cons_self, hab⟩
    · obtain ⟨a', ha', hr⟩ := ih hb
      exact ⟨a', List.mem_cons_of_mem _ ha', hr⟩

end

/-! ### The frames of `Receive` (44_packet_io R178) -/

/-- The frames `fs` of `Receive`: those of the mode change, polls of the wait, and at most one drain. -/
def ReceiveFrames (c : Config) (fs : List FrameTry) : Prop :=
  ∃ r ms ps ds, fs = ms ++ ps ++ ds ∧ ModeFrames c .receive r ms
    ∧ Polls c c.regIrqFlags2 (pollBound c c.rxTimeout) ps
    ∧ ds.length ≤ 1 ∧ ∀ f ∈ ds, f.bytes = readFrameBytes c c.regFifo c.fifoWindow

section
variable {s : State}

theorem State.framed_afterRecv1 (s : State) :
    ∃ fs, s.Framed s.afterRecv1.1 fs
      ∧ ModeFrames s.cfg .receive s.afterRecv1.1.modeCache fs := by
  obtain ⟨fs, hfs, hframes⟩ := (s.setSeq .recv1).framed_setModeAndWait .receive
  exact ⟨fs, .of_trace_trans (t := s.setSeq .recv1) rfl hfs, hframes⟩

theorem State.framed_afterRecv2 (s : State) :
    ∃ ps, s.afterRecv1.1.Framed s.afterRecv2.1 ps
      ∧ Polls s.cfg s.cfg.regIrqFlags2 (pollBound s.cfg s.cfg.rxTimeout) ps := by
  obtain ⟨ps, hps, hpolls⟩ := (s.afterRecv1.1.setSeq .recv2).framed_completionWait
    s.afterRecv1.1.cfg.rxDwell s.afterRecv1.1.cfg.payloadReadyBit s.afterRecv1.1.cfg.rxTimeout
    .payloadReady
  rw [State.setSeq_cfg, s.quiet_afterRecv1.cfg] at hpolls
  exact ⟨ps, .of_trace_trans (t := s.afterRecv1.1.setSeq .recv2) rfl hps, hpolls⟩

/-- The drain of `Receive`, whole or stopped at its first failing call. -/
theorem State.afterRecv3_called (s : State) :
    ∃ l, s.afterRecv2.1.Called s.afterRecv3.1 l
      ∧ isFrameOf (readFrameBytes s.cfg s.cfg.regFifo s.cfg.fifoWindow) l
      ∧ (firstError l = none → ∃ bs, s.afterRecv3.2 = .ok bs)
      ∧ ∀ e, firstError l = some e → s.afterRecv3.2 = .error (transportError e) := by
  obtain ⟨l, hl, hframe, hanswer⟩ :=
    (s.afterRecv2.1.setSeq .recv3).fifoRead_called s.cfg.fifoWindow
  rw [State.setSeq_cfg, s.quiet_afterRecv2.cfg] at hframe
  exact ⟨l, hl.of_same rfl rfl rfl rfl rfl, hframe, hanswer⟩

theorem State.framed_receive (s : State) :
    ∃ fs, s.Framed s.receive.1 fs ∧ ReceiveFrames s.cfg fs := by
  obtain ⟨ms, hms, hmode⟩ := s.framed_afterRecv1
  obtain ⟨ps, hps, hpolls⟩ := s.framed_afterRecv2
  obtain ⟨l, hl, hframe, -⟩ := s.afterRecv3_called
  have hdrain : s.Framed s.afterRecv3.1 _ := (hms.trans hps).trans (.of_called hl hframe)
  have hdrained : ReceiveFrames s.cfg (ms ++ ps ++ [⟨_, firstError l⟩]) :=
    ⟨_, ms, ps, _, rfl, hmode, hpolls, Nat.le_refl 1, List.forall_mem_singleton.mpr rfl⟩
  rcases s.receive_cases with ⟨e, -, he⟩ | ⟨e, -, -, he⟩ | ⟨e, -, -, -, he⟩ | ⟨l, -, -, -, he⟩ <;>
    rw [he]
  · exact ⟨ms, hms, _, ms, [], [], by simp, hmode, .nil .., Nat.zero_le 1, nofun⟩
  · exact ⟨ms ++ ps, hms.trans hps, _, ms, ps, [], by simp, hmode, hpolls, Nat.zero_le 1, nofun⟩
  · exact ⟨_, hdrain, hdrained⟩
  · exact ⟨_, hdrain.trans_trace rfl, hdrained⟩

/-- The last mode recorded by `Receive` is Receive, or unknown with an error. -/
theorem State.receive_mode (s : State) :
    s.receive.1.modeCache = some .receive
      ∨ s.receive.1.modeCache = none ∧ ∃ e, s.receive.2 = .error e := by
  obtain ⟨hmode, -⟩ := State.setModeAndWait_mode .receive (s.setSeq .recv1)
  change s.afterRecv1.1.modeCache = _ ∨ s.afterRecv1.1.modeCache = _ ∧ s.afterRecv1.2.isSome = _
    at hmode
  obtain ⟨hmode2, -⟩ := s.afterRecv2_mode
  obtain ⟨hmode3, -⟩ := s.afterRecv3_mode
  rcases s.receive_cases with ⟨e, -, he⟩ | ⟨e, h1, -, he⟩ | ⟨e, h1, -, -, he⟩ | ⟨l, h1, -, -, he⟩
  · rw [he]
    exact hmode.imp id fun ⟨hnone, _⟩ => ⟨hnone, e, rfl⟩
  all_goals
    rw [h1] at hmode
    have hrx := hmode.resolve_right (by simp)
    rw [he]
    left
  · exact hmode2.trans hrx
  · exact hmode3.trans hrx
  · generalize s.afterRecv3 = p at *
    exact hmode3.trans hrx

end

/-! ### The laws of `Receive` (44_packet_io R178, R179) -/

section
variable {c : Config} {fs : List FrameTry} {gs : List (List Byte)}

theorem ModeFrames.length {m : Mode} {r : Option Mode} (h : ModeFrames c m r fs) :
    fs.length ≤ 1 + pollBound c c.readyTimeout := by
  obtain ⟨e, ps, rfl, ⟨hlen, -⟩, -⟩ := h
  rw [List.length_cons]
  omega

theorem ReceiveFrames.length (h : ReceiveFrames c fs) :
    fs.length ≤ 2 + pollBound c c.readyTimeout + pollBound c c.rxTimeout := by
  obtain ⟨r, ms, ps, ds, rfl, hmode, ⟨hlen, -⟩, hdrain, -⟩ := h
  have hms := hmode.length
  simp only [List.length_append]
  omega

/-- A frame of `Receive` is its mode frame, a poll, or the drain. -/
theorem ReceiveFrames.drains_le (h : ReceiveFrames c fs) (hgs : List.Forall₂ FrameTry.Sent fs gs)
    (hfifo : c.regFifo ∉ [c.regIrqFlags1, c.regIrqFlags2]) :
    gs.countP (fun f => decide (f.head? = some (addressByte c false c.regFifo))) ≤ 1 := by
  obtain ⟨r, ms, ps, ds, rfl, ⟨e, ps1, rfl, ⟨-, hpolls1⟩, -⟩, ⟨-, hpolls2⟩, hdrain, -⟩ := h
  rw [List.mem_pair, not_or] at hfifo
  have hread : ∀ {a : Addr} {qs : List FrameTry}, c.regFifo ≠ a →
      (∀ f ∈ qs, f.bytes = readFrameBytes c a 1) →
      qs.countP (fun f => decide (f.bytes.head? = some (addressByte c false c.regFifo))) = 0 := by
    intro a qs hne hqs
    rw [List.countP_eq_zero]
    intro f hf hhead
    rw [hqs f hf, decide_eq_true_iff] at hhead
    exact hne (addressByte_inj.mp (Option.some.inj hhead)).2.symm
  have hmode : (modeBytes c .receive).head? ≠ some (addressByte c false c.regFifo) := fun hhead =>
    nomatch (addressByte_inj.mp (Option.some.inj hhead)).1
  refine (forall₂_countP_le (q := fun f => decide (f.bytes.head? = _)) (fun f g hs hg =>
    decide_eq_true (hs.head (of_decide_eq_true hg))) hgs).trans ?_
  rw [List.countP_append, List.countP_append, List.countP_cons, hread hfifo.1 hpolls1,
    hread hfifo.2 hpolls2, if_neg (by simpa using hmode)]
  exact (Nat.zero_add _).le.trans (List.countP_le_length.trans hdrain)

/-- The first frame of `Receive` is its mode frame, and no other is a write. -/
theorem ReceiveFrames.first (h : ReceiveFrames c fs) (hgs : List.Forall₂ FrameTry.Sent fs gs) :
    ∃ first rest, gs = first :: rest ∧ first <+: modeBytes c .receive
      ∧ ∀ f ∈ rest, f.head? ≠ some (addressByte c true c.regOpmode) := by
  obtain ⟨r, ms, ps, ds, rfl, ⟨e, ps1, rfl, ⟨-, hpolls1⟩, -⟩, ⟨-, hpolls2⟩, -, hdrain⟩ := h
  obtain ⟨first, rest, hfirst, hrest, rfl⟩ := List.forall₂_cons_left_iff.mp hgs
  refine ⟨first, rest, rfl, hfirst.1, fun g hg hhead => ?_⟩
  obtain ⟨f, hf, hs⟩ := forall₂_exists_left hrest hg
  have hbytes := hs.head hhead
  obtain ⟨a, n, hread⟩ : ∃ a n, f.bytes = readFrameBytes c a n := by
    rcases List.mem_append.mp hf with hf | hf
    · rcases List.mem_append.mp hf with hf | hf
      · exact ⟨_, _, hpolls1 f hf⟩
      · exact ⟨_, _, hpolls2 f hf⟩
    · exact ⟨_, _, hdrain f hf⟩
  rw [hread] at hbytes
  exact head?_readFrameBytes_ne c a _ n hbytes

end

section
variable {s : State}

theorem State.receive_of_error1 {e : OpError} (h1 : s.afterRecv1.2 = some e) :
    s.receive = (s.afterRecv1.1, .error e) := by
  rcases s.receive_cases with ⟨e', h, he⟩ | ⟨e', h, -, he⟩ | ⟨e', h, -, -, he⟩ | ⟨l, h, -, -, he⟩
  · obtain rfl : e' = e := Option.some.inj (h.symm.trans h1)
    exact he
  all_goals exact nomatch h.symm.trans h1

theorem State.receive_of_error2 {e : OpError} (h1 : s.afterRecv1.2 = none)
    (h2 : s.afterRecv2.2 = some e) : s.receive = (s.afterRecv2.1, .error e) := by
  rcases s.receive_cases with ⟨e', h, he⟩ | ⟨e', -, h, he⟩ | ⟨e', -, h, -, he⟩ | ⟨l, -, h, -, he⟩
  · exact nomatch h.symm.trans h1
  · obtain rfl : e' = e := Option.some.inj (h.symm.trans h2)
    exact he
  all_goals exact nomatch h.symm.trans h2

/-- After the wait `Receive` makes the calls of its drain and answers what it answers. -/
theorem State.receive_of_waited (h1 : s.afterRecv1.2 = none) (h2 : s.afterRecv2.2 = none) :
    s.receive.2 = s.afterRecv3.2 ∧ s.receive.1.trace = s.afterRecv3.1.trace := by
  rcases s.receive_cases with ⟨e', h, -⟩ | ⟨e', -, h, -⟩ | ⟨e', -, -, h, he⟩ | ⟨l, -, -, h, he⟩
  · exact nomatch h.symm.trans h1
  · exact nomatch h.symm.trans h2
  all_goals
    rw [he]
    generalize s.afterRecv3 = p at *
    exact ⟨h.symm, rfl⟩

/-- `Receive` answers an error, or exactly `FIFO_WINDOW` bytes after its four parts. -/
theorem State.receive_answer (s : State) :
    (∃ e, s.receive.2 = .error e)
      ∨ ∃ l n1 n2, s.receive.2 = .ok l ∧ 1 ≤ n1 ∧ 1 ≤ n2 ∧ s.ReceiveDid s.cfg l n1 n2 := by
  cases h : s.receive.2 with
  | error e => exact .inl ⟨e, rfl⟩
  | ok l =>
    obtain ⟨n1, n2, hn1, hn2, hdid⟩ := State.receiveDid_of_ok h
    exact .inr ⟨l, n1, n2, rfl, hn1, hn2, hdid⟩

/-- After the wait there follows the drain frame, whose first error is the one answered. -/
theorem State.receive_drains (h1 : s.afterRecv1.2 = none) (h2 : s.afterRecv2.2 = none) :
    ∃ l, s.receive.1.trace = s.afterRecv2.1.trace ++ l
      ∧ isFrameOf (readFrameBytes s.cfg s.cfg.regFifo s.cfg.fifoWindow) l
      ∧ (firstError l = none → ∃ bs, s.receive.2 = .ok bs)
      ∧ ∀ e, firstError l = some e → s.receive.2 = .error (transportError e) := by
  obtain ⟨hanswer, htrace⟩ := State.receive_of_waited h1 h2
  obtain ⟨l, hl, hframe, hok, herror⟩ := s.afterRecv3_called
  rw [hanswer, htrace]
  exact ⟨l, hl.trace, hframe, hok, herror⟩

end

/-- Settles O57: what `Receive` answers is the answer of the step it reached, and its frames are those of
its steps. -/
theorem receiveLaws : Obligations.ReceiveLaws := by
  intro s t hexec
  obtain rfl := exec_receive_next hexec
  obtain ⟨fs, hframed, hframes⟩ := s.framed_receive
  replace hframed := hframed.trans_trace (State.conclude_trace .idle (resultWith .bytes s.receive.2) _)
  obtain ⟨hends, -⟩ := s.work_receive.concluded s.receive_cs .idle (resultWith .bytes s.receive.2)
  refine ⟨?answer, fun r1 r2 (hr1 : r1 = s.afterRecv1) hr2 => ?steps,
    hframes.drains_le hframed.sent, hframes.first hframed.sent, ?mode, hends, ?bound⟩
  case answer =>
    rcases s.receive_answer with ⟨e, he⟩ | ⟨l, n1, n2, hok, hn1, hn2, hdid⟩
    · exact .inl ⟨e, congrArg (resultWith .bytes) he⟩
    · have hissued := hdid.issued
      have hsuffix := hdid.suffix
      have hlen := hdid.drain.length
      generalize s.receive = p at *
      exact .inr ⟨l, n1, n2, congrArg (resultWith .bytes) hok, hlen, hsuffix, hn1, hn2, hissued⟩
  case steps =>
    subst hr1
    obtain rfl : r2 = s.afterRecv2 := hr2
    refine ⟨fun e h1 => ?_, fun e h1 h2 => ?_, fun h1 h2 => ?_⟩
    · rw [State.receive_of_error1 h1]
      generalize s.afterRecv1 = p
      exact ⟨rfl, rfl⟩
    · rw [State.receive_of_error2 h1 h2]
      generalize s.afterRecv2 = p
      exact ⟨rfl, rfl⟩
    · obtain ⟨l, htrace, hframe, hok, herror⟩ := State.receive_drains h1 h2
      generalize s.receive = p at *
      refine ⟨l, htrace, hframe, fun hnone => ?_, fun e he => ?_⟩
      · obtain ⟨bs, hbs⟩ := hok hnone
        exact ⟨bs, congrArg (resultWith .bytes) hbs⟩
      · exact congrArg (resultWith .bytes) (herror e he)
  case mode =>
    have hmode := s.receive_mode
    generalize s.receive = p at *
    exact hmode.imp id fun ⟨hnone, e, he⟩ => ⟨hnone, e, congrArg (resultWith .bytes) he⟩
  case bound =>
    rw [← hframed.sent.length_eq]
    exact hframes.length

end Sys2Proof.Machine

/-!
PROOFS of the statements of 44_packet_io, every run of `Send`: what it answers by the step that failed, and
what follows from the list of the frames it opens.
-/

namespace Sys2Proof.Machine

/-! ### The frames of `Send` (44_packet_io R176) -/

/-- The frames `fs` of `Send(d)` that leaves `record`: those of step 1; then the FIFO frame; and where that
answered no error, those of steps 3 to 5. -/
inductive SendFrames (c : Config) (d : List Byte) (record : Option Mode) : List FrameTry → Prop
  | forced {r : Option Mode} {fs : List FrameTry} (h : ModeFrames c .standby r fs) :
      SendFrames c d record fs
  | loaded {r : Option Mode} {fs : List FrameTry} (h : ModeFrames c .standby r fs)
      (e : Option PlatformError) :
      SendFrames c d record (fs ++ [⟨writeFrameBytes c c.regFifo d, e⟩])
  | returned {r r' : Option Mode} {fs ts ps bs : List FrameTry} (h : ModeFrames c .standby r fs)
      (ht : ModeFrames c .transmit r' ts)
      (hp : Polls c c.regIrqFlags2 (pollBound c c.txTimeout) ps)
      (hb : ModeFrames c .standby record bs) :
      SendFrames c d record (fs ++ [⟨writeFrameBytes c c.regFifo d, none⟩] ++ (ts ++ ps ++ bs))

section
variable {s : State}

/-- The frames of a mode change of a sequence. -/
theorem State.framed_modeStep {c : Config} (hc : s.cfg = c) (q : SeqState) (m : Mode) :
    ∃ fs, s.Framed ((s.setSeq q).setModeAndWait m).1 fs
      ∧ ModeFrames c m ((s.setSeq q).setModeAndWait m).1.modeCache fs := by
  obtain ⟨fs, hfs, hframes⟩ := (s.setSeq q).framed_setModeAndWait m
  rw [State.setSeq_cfg, hc] at hframes
  exact ⟨fs, .of_trace_trans (t := s.setSeq q) rfl hfs, hframes⟩

theorem State.framed_txWait {c : Config} (hc : s.cfg = c) (q : SeqState) :
    ∃ ps, s.Framed (s.setSeq q).waitTxDone.1 ps
      ∧ Polls c c.regIrqFlags2 (pollBound c c.txTimeout) ps := by
  obtain ⟨ps, hps, hpolls⟩ := (s.setSeq q).framed_completionWait s.cfg.txDwell s.cfg.packetSentBit
    s.cfg.txTimeout .packetSent
  rw [State.setSeq_cfg, hc] at hpolls
  exact ⟨ps, .of_trace_trans (t := s.setSeq q) rfl hps, hpolls⟩

theorem State.framed_afterSend4 {c : Config} (hc : s.cfg = c) :
    ∃ ps, s.afterSend3.1.Framed s.afterSend4.1 ps
      ∧ Polls c c.regIrqFlags2 (pollBound c c.txTimeout) ps := by
  have hc3 : s.afterSend3.1.cfg = c := s.quiet_afterSend3.cfg.trans hc
  cases h3 : s.afterSend3.2 with
  | none =>
    rw [State.afterSend4_of_none h3]
    exact State.framed_txWait hc3 .send4
  | some e =>
    rw [State.afterSend4_of_some h3]
    exact ⟨[], .of_trace rfl, .nil ..⟩

theorem State.framed_transmitAndReturn {c : Config} (hc : s.cfg = c) :
    ∃ r ts ps bs, s.Framed s.transmitAndReturn.1 (ts ++ ps ++ bs) ∧ ModeFrames c .transmit r ts
      ∧ Polls c c.regIrqFlags2 (pollBound c c.txTimeout) ps
      ∧ ModeFrames c .standby s.transmitAndReturn.1.modeCache bs := by
  obtain ⟨ts, hts, htransmit⟩ := State.framed_modeStep hc .send3 .transmit
  obtain ⟨ps, hps, hpolls⟩ := State.framed_afterSend4 hc
  obtain ⟨bs, hbs, hstandby⟩ :=
    State.framed_modeStep (s.quiet_afterSend4.cfg.trans hc) .send5 .standby
  rw [State.transmitAndReturn_eq]
  generalize (s.afterSend4.1.setSeq .send5).setModeAndWait .standby = p at *
  exact ⟨_, ts, ps, bs, (hts.trans hps).trans hbs, htransmit, hpolls, hstandby⟩

/-- The FIFO frame of `Send`, whole or stopped at its first failing call. -/
theorem State.framed_afterSend2 (d : List Byte) (s : State) :
    ∃ e, s.afterSend1.1.Framed (s.afterSend2 d).1 [⟨writeFrameBytes s.cfg s.cfg.regFifo d, e⟩]
      ∧ (s.afterSend2 d).2 = e.map transportError := by
  obtain ⟨l, hl, hframe, herror⟩ := (s.afterSend1.1.setSeq .send2).fifoWrite_called d
  rw [State.setSeq_cfg, s.quiet_afterSend1.cfg] at hframe
  exact ⟨_, .of_trace_trans (t := s.afterSend1.1.setSeq .send2) rfl (.of_called hl hframe), herror⟩

theorem State.framed_send (d : List Byte) (s : State) :
    ∃ fs, s.Framed (s.send d).1 fs ∧ SendFrames s.cfg d (s.send d).1.modeCache fs := by
  obtain ⟨fs, hfs, hforced⟩ := State.framed_modeStep (s := s) rfl .send1 .standby
  obtain ⟨e, hload, herror⟩ := s.framed_afterSend2 d
  rcases s.send_cases d with ⟨_, -, he⟩ | ⟨_, -, -, he⟩ | ⟨-, h2, he⟩ <;> rw [he]
  · exact ⟨fs, hfs, .forced hforced⟩
  · exact ⟨_, State.Framed.trans hfs hload, .loaded hforced e⟩
  · obtain rfl : e = none := Option.map_eq_none_iff.mp (herror.symm.trans h2)
    obtain ⟨r, ts, ps, bs, hrest, ht, hp, hb⟩ :=
      State.framed_transmitAndReturn (s.work_afterSend2 d).cfg
    exact ⟨_, (State.Framed.trans hfs hload).trans hrest, .returned hforced ht hp hb⟩

end

/-! ### What the frames of `Send` send -/

/-- A frame that `Send(d)` may open. -/
inductive SendTry (c : Config) (d : List Byte) (f : FrameTry) : Prop
  | standby (h : f.bytes = modeBytes c .standby)
  | transmit (h : f.bytes = modeBytes c .transmit)
  | load (h : f.bytes = writeFrameBytes c c.regFifo d)
  | poll {a : Addr} (h : f.bytes = readFrameBytes c a 1)

/-- None of the frames was meant to send Transmit. -/
def NoTransmit (c : Config) (fs : List FrameTry) : Prop := ∀ f ∈ fs, f.bytes ≠ modeBytes c .transmit

section
variable {c : Config} {d : List Byte} {r : Option Mode} {f : FrameTry} {fs : List FrameTry}
  {g : List Byte} {gs : List (List Byte)}

theorem modeBytes_injective (c : Config) : Function.Injective (modeBytes c) := fun _ _ h =>
  modeValue_injective c (List.cons.inj (List.cons.inj h).2).1

theorem modeBytes_ne_readFrameBytes (m : Mode) (a : Addr) (n : Nat) :
    readFrameBytes c a n ≠ modeBytes c m := fun h =>
  head?_readFrameBytes_ne c a c.regOpmode n (by rw [h]; rfl)

theorem modeBytes_ne_load (hne : c.regFifo ≠ c.regOpmode) (m : Mode) :
    writeFrameBytes c c.regFifo d ≠ modeBytes c m := fun h =>
  hne (addressByte_inj.mp (List.cons.inj h).1).2

theorem ModeFrames.sendTry {m : Mode} (h : ModeFrames c m r fs) (hm : m = .standby ∨ m = .transmit) :
    ∀ f ∈ fs, SendTry c d f := by
  obtain ⟨e, ps, rfl, ⟨-, hpolls⟩, -⟩ := h
  refine List.forall_mem_cons.mpr ⟨?_, fun f hf => .poll (hpolls f hf)⟩
  rcases hm with rfl | rfl
  · exact .standby rfl
  · exact .transmit rfl

theorem SendFrames.sendTry (h : SendFrames c d r fs) : ∀ f ∈ fs, SendTry c d f := by
  cases h with
  | forced h => exact h.sendTry (.inl rfl)
  | loaded h e =>
    exact List.forall_mem_append.mpr ⟨h.sendTry (.inl rfl), List.forall_mem_singleton.mpr (.load rfl)⟩
  | returned h ht hp hb =>
    simp only [List.forall_mem_append, List.forall_mem_singleton]
    exact ⟨⟨h.sendTry (.inl rfl), .load rfl⟩,
      ⟨ht.sendTry (.inr rfl), fun f hf => .poll (hp.2 f hf)⟩, hb.sendTry (.inl rfl)⟩

theorem SendFrames.length (h : SendFrames c d r fs) :
    fs.length ≤ 4 + 3 * pollBound c c.readyTimeout + pollBound c c.txTimeout := by
  cases h with
  | forced h =>
    have := h.length
    omega
  | loaded h e =>
    have := h.length
    rw [List.length_append, List.length_singleton]
    omega
  | returned h ht hp hb =>
    have h1 := h.length
    have h3 := ht.length
    have h4 := hp.1
    have h5 := hb.length
    simp only [List.length_append, List.length_singleton]
    omega

/-- A part of a mode frame that begins with its address byte. -/
theorem modeBytes_part_cases {m : Mode} {b : Byte} (h : g <+: modeBytes c m) (hb : g.head? = some b) :
    g = [addressByte c true c.regOpmode] ∨ g = modeBytes c m := by
  match g, h with
  | [x], h => exact .inl (by rw [(List.cons_prefix_cons.mp h).1])
  | x :: y :: rest, h =>
    exact .inr (h.eq_of_length_le (by simp [modeBytes, writeFrameBytes]))

/-- Every frame to the mode register carries Standby or Transmit (42_mode_controller R138). -/
theorem SendTry.mode_cases (hne : c.regFifo ≠ c.regOpmode) (h : SendTry c d f) (hs : f.Sent g)
    (hhead : g.head? = some (addressByte c true c.regOpmode)) :
    g = [addressByte c true c.regOpmode] ∨ g = modeBytes c .standby ∨ g = modeBytes c .transmit := by
  have hbytes := hs.head hhead
  have hprefix := hs.1
  cases h with
  | standby h =>
    rw [h] at hprefix
    exact (modeBytes_part_cases hprefix hhead).imp_right .inl
  | transmit h =>
    rw [h] at hprefix
    exact (modeBytes_part_cases hprefix hhead).imp_right .inr
  | load h =>
    rw [h] at hbytes
    exact absurd (addressByte_inj.mp (Option.some.inj hbytes)).2 hne
  | poll h =>
    rw [h] at hbytes
    exact absurd hbytes (head?_readFrameBytes_ne _ _ _ _)

/-- Every frame to the FIFO carries the data, or a part of it that it begins with. -/
theorem SendTry.load_prefix (hne : c.regFifo ≠ c.regOpmode) (h : SendTry c d f) (hs : f.Sent g)
    (hhead : g.head? = some (addressByte c true c.regFifo)) :
    g <+: writeFrameBytes c c.regFifo d := by
  have hbytes := hs.head hhead
  cases h with
  | load h => exact h ▸ hs.1
  | standby h | transmit h =>
    rw [h] at hbytes
    exact absurd (addressByte_inj.mp (Option.some.inj hbytes)).2.symm hne
  | poll h =>
    rw [h] at hbytes
    exact absurd hbytes (head?_readFrameBytes_ne _ _ _ _)

/-- Only a Transmit frame sends the bytes of one. -/
theorem SendTry.of_sent_transmit (hne : c.regFifo ≠ c.regOpmode) (h : SendTry c d f)
    (hs : f.Sent (modeBytes c .transmit)) : f.bytes = modeBytes c .transmit := by
  have hbytes := hs.head rfl
  cases h with
  | transmit h => exact h
  | standby h =>
    have hprefix := hs.1
    rw [h] at hprefix
    exact absurd (modeBytes_injective c (hprefix.eq_of_length rfl)) nofun
  | load h =>
    rw [h] at hbytes
    exact absurd (addressByte_inj.mp (Option.some.inj hbytes)).2 hne
  | poll h =>
    rw [h] at hbytes
    exact absurd hbytes (head?_readFrameBytes_ne _ _ _ _)

/-! Where the Transmit frame is. -/

theorem Polls.noTransmit {reg : Addr} {n : Nat} (h : Polls c reg n fs) : NoTransmit c fs :=
  fun f hf => by
    rw [h.2 f hf]
    exact modeBytes_ne_readFrameBytes _ _ _

theorem ModeFrames.noTransmit (h : ModeFrames c .standby r fs) : NoTransmit c fs := by
  obtain ⟨e, ps, rfl, hpolls, -⟩ := h
  exact List.forall_mem_cons.mpr
    ⟨fun h => absurd (modeBytes_injective c h) nofun, hpolls.noTransmit⟩

/-- The frames of `Send` before Transmit: those of step 1 and the FIFO frame. -/
theorem ModeFrames.noTransmit_load (hne : c.regFifo ≠ c.regOpmode) (h : ModeFrames c .standby r fs)
    (e : Option PlatformError) : NoTransmit c (fs ++ [⟨writeFrameBytes c c.regFifo d, e⟩]) :=
  List.forall_mem_append.mpr
    ⟨h.noTransmit, List.forall_mem_singleton.mpr (modeBytes_ne_load hne .transmit)⟩

theorem NoTransmit.countP (h : NoTransmit c fs) :
    fs.countP (fun f => decide (f.bytes = modeBytes c .transmit)) = 0 :=
  List.countP_eq_zero.mpr fun f hf he => h f hf (of_decide_eq_true he)

theorem SendFrames.countP_transmit (hne : c.regFifo ≠ c.regOpmode) (h : SendFrames c d r fs) :
    fs.countP (fun f => decide (f.bytes = modeBytes c .transmit)) ≤ 1 := by
  cases h with
  | forced h => exact h.noTransmit.countP.le.trans (Nat.zero_le 1)
  | loaded h e => exact (h.noTransmit_load hne e).countP.le.trans (Nat.zero_le 1)
  | returned h ht hp hb =>
    obtain ⟨e, ps, rfl, hpolls, -⟩ := ht
    rw [List.countP_append, (h.noTransmit_load hne none).countP, List.countP_append,
      List.countP_append, List.countP_cons, hpolls.noTransmit.countP, hp.noTransmit.countP,
      hb.noTransmit.countP]
    simp

/-- The Transmit frame is issued at most once (44_packet_io R176). -/
theorem SendFrames.count_transmit (hne : c.regFifo ≠ c.regOpmode) (h : SendFrames c d r fs)
    (hgs : List.Forall₂ FrameTry.Sent fs gs) : gs.count (modeBytes c .transmit) ≤ 1 := by
  have hboth := List.forall₂_and_left (p := SendTry c d) fs gs |>.mpr ⟨h.sendTry, hgs⟩
  refine (forall₂_countP_le (q := fun f => decide (f.bytes = modeBytes c .transmit))
    (fun f g ⟨htry, hs⟩ hg => ?_) hboth).trans (h.countP_transmit hne)
  rw [eq_of_beq hg] at hs
  exact decide_eq_true (htry.of_sent_transmit hne hs)

/-- Frames without a Transmit among them do not send one. -/
theorem NoTransmit.sent (hne : c.regFifo ≠ c.regOpmode) (h : NoTransmit c fs)
    (htry : ∀ f ∈ fs, SendTry c d f) (hgs : List.Forall₂ FrameTry.Sent fs gs) :
    modeBytes c .transmit ∉ gs := fun hg => by
  obtain ⟨f, hf, hs⟩ := forall₂_exists_left hgs hg
  exact h f hf ((htry f hf).of_sent_transmit hne hs)

theorem forall₂_append_split {α β : Type} {R : α → β → Prop} {as as' : List α} {bs : List β}
    (h : List.Forall₂ R (as ++ as') bs) :
    ∃ ls ls', bs = ls ++ ls' ∧ List.Forall₂ R as ls ∧ List.Forall₂ R as' ls' := by
  refine ⟨bs.take as.length, bs.drop as.length, (List.take_append_drop ..).symm, ?_, ?_⟩
  · simpa using List.forall₂_take as.length h
  · simpa using List.forall₂_drop as.length h

/-- Elements that stand in front of the first `f` stand in front of every `f`. -/
theorem mem_of_append_cons_eq {α : Type} {ls rest before after : List α} {f : α}
    (h : ls ++ rest = before ++ f :: after) (hf : f ∉ ls) : ∀ x ∈ ls, x ∈ before := by
  rcases List.append_eq_append_iff.mp h with ⟨xs, rfl, -⟩ | ⟨xs, rfl, hxs⟩
  · exact fun x hx => List.mem_append_left _ hx
  · cases xs with
    | nil => simp
    | cons y ys =>
      obtain rfl : f = y := (List.cons.inj hxs).1
      exact absurd (List.mem_append_right _ List.mem_cons_self) hf

/-- Before a Transmit frame stands a FIFO frame that carried the whole data and returned no error
(44_packet_io R177). -/
theorem SendFrames.loaded_before (hne : c.regFifo ≠ c.regOpmode) (h : SendFrames c d r fs)
    {ls before after : List (List BusCall)} {f : List BusCall}
    (hls : List.Forall₂ FrameTry.Calls fs ls) (heq : ls = before ++ f :: after)
    (hf : bytesSent f = modeBytes c .transmit) :
    ∃ g ∈ before, bytesSent g = writeFrameBytes c c.regFifo d ∧ firstError g = none := by
  have hnone : ∀ {as : List FrameTry} {ls : List (List BusCall)}, NoTransmit c as →
      (∀ f ∈ as, SendTry c d f) → List.Forall₂ FrameTry.Calls as ls → f ∉ ls := by
    intro as ls has htry hls hmem
    obtain ⟨a, ha, hcalls⟩ := forall₂_exists_left hls hmem
    exact has a ha ((htry a ha).of_sent_transmit hne (hf ▸ hcalls.sent))
  have hmem : f ∈ ls := heq ▸ List.mem_append_right _ List.mem_cons_self
  have htry := h.sendTry
  cases h with
  | forced h => exact absurd hmem (hnone h.noTransmit htry hls)
  | loaded h e => exact absurd hmem (hnone (h.noTransmit_load hne e) htry hls)
  | returned h ht hp hb =>
    obtain ⟨l1, l2, rfl, hl1, -⟩ := forall₂_append_split hls
    have hfirst := hnone (h.noTransmit_load hne none)
      (fun f hf => htry f (List.mem_append_left _ hf)) hl1
    obtain ⟨l3, l4, rfl, -, hl4⟩ := forall₂_append_split hl1
    obtain ⟨g, l5, hg, -, rfl⟩ := List.forall₂_cons_left_iff.mp hl4
    exact ⟨g, mem_of_append_cons_eq heq hfirst g (by simp), hg.sent.2 rfl, hg.2⟩

/-- The bytes `g` are a whole frame to the mode register. -/
def isModeFrame (c : Config) (g : List Byte) : Bool :=
  decide (g.head? = some (addressByte c true c.regOpmode) ∧ g.length = 2)

theorem isModeFrame_modeBytes (m : Mode) : isModeFrame c (modeBytes c m) = true :=
  decide_eq_true ⟨rfl, rfl⟩

theorem Polls.filter_isModeFrame {reg : Addr} {n : Nat} (h : Polls c reg n fs)
    (hgs : List.Forall₂ FrameTry.Sent fs gs) : gs.filter (isModeFrame c) = [] := by
  refine List.filter_eq_nil_iff.mpr fun g hg hp => ?_
  obtain ⟨f, hf, hs⟩ := forall₂_exists_left hgs hg
  have hbytes := hs.head (of_decide_eq_true hp).1
  rw [h.2 f hf] at hbytes
  exact head?_readFrameBytes_ne _ _ _ _ hbytes

/-- Where the last whole frame to the mode register is Transmit, the mode is unknown: a Standby frame
failed after it (44_packet_io R177). -/
theorem SendFrames.last_transmit (hne : c.regFifo ≠ c.regOpmode) (h : SendFrames c d r fs)
    (hgs : List.Forall₂ FrameTry.Sent fs gs)
    (hlast : (gs.filter (isModeFrame c)).getLast? = some (modeBytes c .transmit)) : r = none := by
  have hmem : modeBytes c .transmit ∈ gs :=
    List.mem_of_mem_filter (List.mem_of_getLast? hlast)
  have htry := h.sendTry
  cases h with
  | forced h => exact absurd hmem (h.noTransmit.sent hne htry hgs)
  | loaded h e => exact absurd hmem ((h.noTransmit_load hne e).sent hne htry hgs)
  | returned h ht hp hb =>
    obtain ⟨e, ps, rfl, hpolls, hrecord⟩ := hb
    refine hrecord.resolve_left ?_
    rintro rfl
    rw [← List.append_assoc] at hgs
    obtain ⟨g1, g2, rfl, -, hg2⟩ := forall₂_append_split hgs
    obtain ⟨g, g3, hg, hg3, rfl⟩ := List.forall₂_cons_left_iff.mp hg2
    obtain rfl : g = modeBytes c .standby := hg.2 rfl
    rw [List.filter_append, List.filter_cons_of_pos (isModeFrame_modeBytes .standby),
      hpolls.filter_isModeFrame hg3, List.getLast?_append_of_ne_nil _ (by simp)] at hlast
    exact absurd (modeBytes_injective c (Option.some.inj hlast)) nofun

end

/-! ### What `Send` answers (44_packet_io R177, 60_exceptions R218) -/

section
variable {s : State}

/-- The answer of steps 3 to 5 is that of the earliest that failed. -/
theorem State.transmitAndReturn_answer (s : State) :
    s.transmitAndReturn.2 = (s.afterSend3.2.or s.afterSend4.2).or s.afterSend5.2
      ∧ s.transmitAndReturn.1 = s.afterSend5.1 := by
  rw [State.transmitAndReturn_eq]
  refine ⟨?_, rfl⟩
  cases h3 : s.afterSend3.2 with
  | none => rfl
  | some e => rw [State.afterSend4_of_some h3]; rfl

/-- Step 4 as R176 words it, with no answer where step 3 failed. -/
theorem State.afterSend4_of_skipped {r : State × Option OpError}
    (h : r = if s.afterSend3.2 = none then (s.afterSend3.1.setSeq .send4).waitTxDone
      else (s.afterSend3.1.setSeq .send4, none)) :
    r.1 = s.afterSend4.1 ∧ (s.afterSend3.2 = none → r.2 = s.afterSend4.2) := by
  cases h3 : s.afterSend3.2 with
  | none =>
    rw [h3, if_pos rfl, ← State.afterSend4_of_none h3] at h
    exact h ▸ ⟨rfl, fun _ => rfl⟩
  | some e =>
    rw [h3, if_neg nofun] at h
    rw [h, State.afterSend4_of_some h3]
    exact ⟨rfl, nofun⟩

theorem State.afterSend1_mode (s : State) :
    s.afterSend1.1.modeCache = some .standby
      ∨ s.afterSend1.1.modeCache = none ∧ s.afterSend1.2.isSome = true :=
  (State.setModeAndWait_mode .standby (s.setSeq .send1)).1

theorem State.afterSend5_mode (s : State) :
    s.afterSend5.1.modeCache = some .standby
      ∨ s.afterSend5.1.modeCache = none ∧ s.afterSend5.2.isSome = true := by
  unfold State.afterSend5
  exact (State.setModeAndWait_mode .standby (s.afterSend4.1.setSeq .send5)).1

theorem State.afterSend2_mode (d : List Byte) (s : State) :
    (s.afterSend2 d).1.modeCache = s.afterSend1.1.modeCache :=
  (State.fifoWrite_mode d (s.afterSend1.1.setSeq .send2)).1

/-- The last mode recorded by `Send` is Standby, or unknown with an error. -/
theorem State.send_mode (d : List Byte) (s : State) :
    (s.send d).1.modeCache = some .standby
      ∨ (s.send d).1.modeCache = none ∧ ∃ e, (s.send d).2 = some e := by
  have hforced := s.afterSend1_mode
  rcases s.send_cases d with ⟨e, -, he⟩ | ⟨e, h1, -, he⟩ | ⟨-, -, he⟩ <;> rw [he]
  · exact hforced.imp id fun ⟨hnone, _⟩ => ⟨hnone, e, rfl⟩
  · rw [h1] at hforced
    have hmode := s.afterSend2_mode d
    rw [hforced.resolve_right (by simp)] at hmode
    exact .inl hmode
  · obtain ⟨hanswer, hstate⟩ := (s.afterSend2 d).1.transmitAndReturn_answer
    rw [hanswer, hstate]
    refine (s.afterSend2 d).1.afterSend5_mode.imp id fun ⟨hnone, hsome⟩ => ⟨hnone, ?_⟩
    exact Option.isSome_iff_exists.mp (by rw [Option.isSome_or, hsome, Bool.or_true])

end

/-- Settles O55: what `Send` answers is the answer of its earliest failing step, and its frames are those
of its steps. -/
theorem sendLaws : Obligations.SendLaws := by
  intro s t d hexec
  obtain rfl := exec_send_next hexec
  obtain ⟨fs, hframed, hframes⟩ := s.framed_send d
  replace hframed := hframed.trans_trace (State.conclude_trace .idle (resultOf (s.send d).2) _)
  obtain ⟨hends, -⟩ := (s.work_send d).concluded (s.send_cs d) .idle (resultOf (s.send d).2)
  have hsent := hframed.sent
  refine ⟨s.send_steps d _, fun r1 r2 r3 r4 r5 (hr1 : r1 = s.afterSend1) hr2 hr3 hr4 hr5 => ?answers,
    ?mode, hends, ?bound, fun hne => ⟨fun g hg hhead => ?carries, hframes.last_transmit hne hsent,
      hframes.count_transmit hne hsent, fun before f after heq hf =>
        hframes.loaded_before hne hframed.callFrames heq hf, fun g hg hhead => ?loads⟩⟩
  case answers =>
    obtain rfl : r3 = r2.1.afterSend3 := hr3
    obtain ⟨hstate4, hanswer4⟩ := State.afterSend4_of_skipped hr4
    rw [hstate4] at hr5
    obtain rfl : r5 = r2.1.afterSend5 := hr5
    subst hr1
    replace hr2 : r2 = s.afterSend2 d := hr2
    refine ⟨fun e h1 => ?_, fun e h1 h2 => ?_, fun h1 h2 => ?_⟩
    · rw [State.send_of_error1 h1]
      generalize s.afterSend1 = p
      exact ⟨rfl, rfl⟩
    · rw [State.send_of_error2 h1 (hr2 ▸ h2), ← hr2]
      exact ⟨rfl, rfl⟩
    · obtain ⟨hanswer, hstate⟩ := r2.1.transmitAndReturn_answer
      rw [State.send_of_loaded h1 (hr2 ▸ h2), ← hr2, State.conclude_trace, State.conclude_result,
        hanswer, hstate]
      refine ⟨rfl, fun e h3 => ?_, fun e h3 h4 => ?_, fun e h3 h4 h5 => ?_, fun h3 h4 h5 => ?_⟩
      · rw [h3]
        rfl
      · rw [h3, ← hanswer4 h3, h4]
        rfl
      · rw [h3, ← hanswer4 h3, h4, h5]
        rfl
      · rw [h3, ← hanswer4 h3, h4, h5]
        rfl
  case mode =>
    have hmode := s.send_mode d
    generalize s.send d = p at *
    exact hmode.imp id fun ⟨hnone, e, he⟩ => ⟨hnone, e, congrArg resultOf he⟩
  case bound =>
    rw [← hsent.length_eq]
    exact hframes.length
  case carries =>
    obtain ⟨f, hf, hs⟩ := forall₂_exists_left hsent hg
    exact (hframes.sendTry f hf).mode_cases hne hs hhead
  case loads =>
    obtain ⟨f, hf, hs⟩ := forall₂_exists_left hsent hg
    exact (hframes.sendTry f hf).load_prefix hne hs hhead

end Sys2Proof.Machine

/-!
PROOFS of the statements of 45_event_channel: the handler and the edges of the line; what a wait for an
event has done when it ends, said once by what the slot holds after its two moments.
-/

namespace Sys2Proof.Machine

/-! ### The handler (45_event_channel R201) -/

theorem State.runHandler_eq (s : State) : s.runHandler = { s with evt := true } := by
  rw [State.runHandler, World.handler_evt]

/-- Settles O58: the slot after the line is driven is `World.driveIrq_eq`. -/
theorem handlerFillsTheSlot : Obligations.HandlerFillsTheSlot := by
  refine ⟨fun s => congrArg Host.Outcome.next s.runHandler_eq,
    fun w => ⟨fun hlow => ?rises, fun hhigh => ?stays, ?falls, fun level => ?line⟩⟩
  case rises => rw [World.driveIrq_eq, hlow]; exact Bool.or_true _
  case stays => rw [World.driveIrq_eq, hhigh]; exact Bool.or_false _
  case falls => rw [World.driveIrq_eq]; exact Bool.or_false _
  case line => rw [World.driveIrq_eq]

/-! ### Edges and the slot over several moments (45_event_channel R201) -/

theorem State.iterate_elapse_evt_of_true (n : Nat) {s : State} (h : s.evt = true) :
    (State.elapse^[n] s).evt = true := by
  induction n generalizing s with
  | zero => exact h
  | succ n ih => exact ih (State.elapse_evt_of_true h)

/-- From an empty slot, the line has no rising edge in `n` moments exactly if the slot is empty after
them. -/
theorem State.noRisingEdge_iff_evt (n : Nat) {s : State} (h : s.evt = false) :
    s.noRisingEdge n ↔ (State.elapse^[n] s).evt = false := by
  induction n generalizing s with
  | zero => exact iff_of_true trivial h
  | succ n ih =>
    have hslot := s.elapse_evt_eq
    rw [h, Bool.false_or] at hslot
    rw [State.noRisingEdge, h, Function.iterate_succ_apply]
    cases hedge : World.edgeFree s.cfg s.lawless s.moment.acts ⟨s.target, false⟩ with
    | true =>
      rw [hedge] at hslot
      rw [ih hslot]
      exact and_iff_right rfl
    | false =>
      rw [hedge] at hslot
      rw [State.iterate_elapse_evt_of_true n hslot]
      simp

/-! ### The wait for an event (45_event_channel R202) -/

section
variable {timeout : Nat} {name : WaitName} {s : State}

/-- With an empty slot the wait takes the event that the first moment brings, or the second, or it ends
with the timeout, which an event within the bound rules out. -/
theorem State.awaitEvent_of_empty (h : s.evt = false) :
    s.elapse.evt = true
        ∧ s.awaitEvent timeout name = ({ s.elapse.setSeq .eventWait with evt := false }, none)
      ∨ s.elapse.elapse.evt = true
        ∧ s.awaitEvent timeout name
          = ({ s.elapse.elapse.setSeq .eventWait with evt := false }, none)
      ∨ ¬ (s.elapse.elapse.evt = true ∧ (s.momentAt 1).delay ≤ timeout)
        ∧ s.awaitEvent timeout name
          = ({ s.elapse.elapse.setSeq .eventWait with
                clock := max s.elapse.elapse.clock (s.elapse.clock + timeout + 1) },
              some (timeoutError name)) := by
  have hempty : ¬ (s.setSeq .eventWait).evt = true := by simp [h]
  have hwait : s.elapse.elapse.clock - s.elapse.clock = (s.momentAt 1).delay :=
    Nat.add_sub_cancel_left ..
  rw [← hwait]
  unfold State.awaitEvent
  dsimp only
  rw [if_neg hempty]
  split
  · next hfirst => exact .inl ⟨hfirst, rfl⟩
  · split
    · next hsecond => exact .inr (.inl ⟨hsecond.1, rfl⟩)
    · next hlate => exact .inr (.inr ⟨fun ⟨he, hd⟩ => hlate ⟨he, .inl hd⟩, rfl⟩)

/-- How a wait that begins with an empty slot ends: with an event taken, or with the timeout after more
than the bound. -/
theorem State.awaitEvent_ends (h : s.evt = false) :
    s.elapse.elapse.evt = true ∧ (s.awaitEvent timeout name).2 = none
        ∧ (s.awaitEvent timeout name).1.evt = false
      ∨ ¬ (s.elapse.elapse.evt = true ∧ (s.momentAt 1).delay ≤ timeout)
        ∧ (s.awaitEvent timeout name).2 = some (timeoutError name)
        ∧ (s.awaitEvent timeout name).1.evt = s.elapse.elapse.evt
        ∧ s.clock + timeout < (s.awaitEvent timeout name).1.clock := by
  rcases s.awaitEvent_of_empty (timeout := timeout) (name := name) h with
    ⟨hfirst, he⟩ | ⟨hsecond, he⟩ | ⟨hlate, he⟩ <;> rw [he]
  · exact .inl ⟨State.elapse_evt_of_true hfirst, rfl, rfl⟩
  · exact .inl ⟨hsecond, rfl, rfl⟩
  · have hclock : s.clock ≤ s.elapse.clock := Nat.le_add_right ..
    refine .inr ⟨hlate, rfl, rfl, lt_max_of_lt_right (b := s.elapse.elapse.clock) ?_⟩
    omega

end

/-- A wait for an event changes no register: only the other agents step in it. -/
theorem State.regsKept_awaitEvent (timeout : Nat) (name : WaitName) (s : State) :
    State.RegsKept [] s (s.awaitEvent timeout name).1 := by
  have hfirst : State.RegsKept [] s s.elapse := s.regsKept_elapse []
  have hsecond : State.RegsKept [] s s.elapse.elapse :=
    .trans s.bus_elapse.toExtends hfirst s.elapse.bus_elapse.toExtends (s.elapse.regsKept_elapse [])
  cases h : s.evt with
  | true => rw [State.awaitEvent_of_pending h]; exact State.regsKept_of_target [] rfl
  | false =>
    rcases s.awaitEvent_of_empty (timeout := timeout) (name := name) h with
      ⟨-, he⟩ | ⟨-, he⟩ | ⟨-, he⟩ <;> rw [he]
    · exact hfirst
    · exact hsecond
    · exact hsecond

/-- Settles O59: a pending event by `State.awaitEvent_of_pending`, the others by what the slot holds after
the two moments of the wait, which `State.noRisingEdge_iff_evt` reads as the edges of the line. -/
theorem awaitEventEnds : Obligations.AwaitEventEnds := by
  intro s timeout name
  have hquiet := s.quiet_awaitEvent timeout name
  have hregs := s.regsKept_awaitEvent timeout name
  have hpending := State.awaitEvent_of_pending (timeout := timeout) (name := name) (s := s)
  have hends := State.awaitEvent_ends (timeout := timeout) (name := name) (s := s)
  have hedges : s.evt = false → (s.noRisingEdge 2 ↔ s.elapse.elapse.evt = false) :=
    State.noRisingEdge_iff_evt 2
  obtain ⟨hcs, hmode, hready, htrace, hhazard⟩ := s.awaitEvent_keeps timeout name
  have hexec : exec (.awaitEvent timeout name) s
      = .next ((s.awaitEvent timeout name).1.conclude s.seq
          (resultOf (s.awaitEvent timeout name).2)) := rfl
  generalize s.awaitEvent timeout name = p at *
  refine ⟨_, hexec, State.issued_of_trace_right htrace s.issued_refl, rfl, hcs,
    ⟨hquiet.cfg, hquiet.script, hquiet.requests, hquiet.rst, hquiet.dropped⟩,
    ⟨hquiet.txBuf, hquiet.rxBuf⟩, ⟨hmode, hready⟩, hhazard, fun he => ?pending, ?ends,
    fun he hno => ?noEdge, fun he hedge hdelay => ?edge, hregs.concluded hquiet.toExtends _ _⟩
  case pending =>
    rw [hpending he]
    exact ⟨rfl, rfl, rfl, rfl⟩
  case ends =>
    cases he : s.evt with
    | true =>
      rw [hpending he]
      exact .inl ⟨rfl, rfl⟩
    | false =>
      rcases hends he with ⟨-, hok, hslot⟩ | ⟨-, herror, -, hclock⟩
      · exact .inl ⟨congrArg resultOf hok, hslot⟩
      · exact .inr ⟨congrArg resultOf herror, hclock⟩
  case noEdge =>
    rw [hedges he] at hno
    rcases hends he with ⟨hyes, -⟩ | ⟨-, herror, hslot, -⟩
    · rw [hno] at hyes
      cases hyes
    · exact ⟨congrArg resultOf herror, hslot.trans hno⟩
  case edge =>
    rw [hedges he, Bool.not_eq_false] at hedge
    rcases hends he with ⟨-, hok, hslot⟩ | ⟨hlate, -⟩
    · exact ⟨congrArg resultOf hok, hslot⟩
    · exact absurd ⟨hedge, hdelay⟩ hlate

end Sys2Proof.Machine

/-!
PROOFS of the statements of 60_exceptions: an outcome is a next state or a refusal as `State.takes`
says, by the forms that outcomes are built in; and what each step of the host's operations can answer.
-/

namespace Sys2Proof.Machine

/-! ### When an instruction runs (60_exceptions R215, R216, R225) -/

/-- An outcome without fault: a next state if `b` is true, and a refusal if it is false. -/
inductive RunsIff : Bool → Host.Outcome State Fault Refusal → Prop
  | next (t : State) : RunsIff true (.next t)
  | refused (why : Refusal) : RunsIff false (.refused why)

section
variable {b p : Bool} {o : Host.Outcome State Fault Refusal} {why : Refusal}

theorem RunsIff.exists_next_iff (h : RunsIff b o) : (∃ t, o = .next t) ↔ b = true := by
  cases h with
  | next => simp
  | refused => simp

theorem RunsIff.exists_refused_iff (h : RunsIff b o) : (∃ r, o = .refused r) ↔ b = false := by
  cases h with
  | next => simp
  | refused => simp

theorem RunsIff.ne_fault (h : RunsIff b o) (f : Fault) : o ≠ .fault f := by
  cases h with
  | next => exact nofun
  | refused => exact nofun

/-- A condition to run, whose refusal has a ground of its own. -/
theorem RunsIff.guarded (h : RunsIff b o) : RunsIff (b && p) (if p then o else .refused why) := by
  cases p with
  | true => rwa [Bool.and_true]
  | false => rw [Bool.and_false]; exact .refused why

/-- A ground for refusal, decided before all others. -/
theorem RunsIff.unless (h : RunsIff b o) : RunsIff (b && !p) (if p then .refused why else o) := by
  cases p with
  | true => rw [Bool.not_true, Bool.and_false]; exact .refused why
  | false => rwa [Bool.not_false, Bool.and_true]

end

section
variable (body : State → State × Result) (s : State)

theorem hostOperation_runsIff : RunsIff (decide (s.seq = .idle)) (hostOperation body s) := by
  unfold hostOperation
  split
  · next hidle => rw [decide_eq_true hidle]; exact .next _
  · next hbusy => rw [decide_eq_false hbusy]; exact .refused _

theorem internalOperation_runsIff : RunsIff true (internalOperation body s) := .next _

theorem framedOperation_runsIff : RunsIff (!s.cs) (framedOperation body s) :=
  (internalOperation_runsIff body s).unless

end

/-- A host operation runs in `Idle` with its operands in range. -/
theorem exec_runsIff_of_isHostOperation {i : Instr} (hi : i.isHostOperation = true) (s : State) :
    RunsIff (decide (s.seq = .idle) && i.wellFormed s.cfg) (exec i s) := by
  obtain ⟨body, why, h⟩ := exec_eq_of_isHostOperation hi s
  rw [h]
  exact (hostOperation_runsIff body s).guarded

/-- `ADDRBYTE` is a frame of its own, or the first exchange of an open one (20_memory R62). -/
theorem exec_addrByte_runsIff (w : Bool) (a : Addr) (s : State) :
    RunsIff (s.takes (.addrByte w a)) (exec (.addrByte w a) s) := by
  unfold State.takes
  cases hc : s.cs with
  | false => rw [exec_addrByte_of_closed hc]; exact .next _
  | true =>
    cases he : s.frameErr with
    | some e =>
      have hexec : exec (.addrByte w a) s = .refused .exchangeAfterError :=
        (if_pos hc).trans (if_pos (by simp [he]))
      rw [hexec]
      exact .refused _
    | none =>
      rw [exec_addrByte_of_open hc he]
      by_cases hq : s.seq = .frameOpen
      · rw [if_pos hq, decide_eq_true hq]; exact .next _
      · rw [if_neg hq, decide_eq_false hq]; exact .refused _

/-- `Exchange` runs in an open frame without an error (40_register_access R102). -/
theorem exec_exchange_runsIff (b : Byte) (s : State) :
    RunsIff (s.takes (.exchange b)) (exec (.exchange b) s) := by
  unfold State.takes
  cases hc : s.cs with
  | false => rw [exec_exchange_of_closed hc]; exact .refused _
  | true =>
    cases he : s.frameErr with
    | some e => rw [exec_exchange_of_frameErr hc he]; exact .refused _
    | none => rw [exec_exchange_of_open hc he]; exact (RunsIff.next _).unless

/-- Every arm of `exec` runs exactly where `State.takes` says so. -/
theorem exec_runsIff (i : Instr) (s : State) : RunsIff (s.takes i) (exec i s) := by
  cases i with
  | reset | setStandbyMode | isReady | detectDevice | setFrequency | send | receive | readRegister
  | writeRegister => exact exec_runsIff_of_isHostOperation rfl s
  | rd | wr | brd | wrOpmodeStandby | wrOpmodeTx | wrOpmodeRx | wrOpmodeSleep | wrOpmodeFs
  | rdIrqFlags1 | rdIrqFlags2 | rdVersion | wrFrfMsb | wrFrfMid | wrFrfLsb | setMode
  | setModeAndWait | pollFlag =>
    exact (framedOperation_runsIff _ s).guarded (p := true) (why := .frameOpen)
  | bwr | fifoWrite | fifoRead => exact (framedOperation_runsIff _ s).guarded
  | addrByte w a => exact exec_addrByte_runsIff w a s
  | openFrame => exact (RunsIff.next _).unless
  | exchange b => exact exec_exchange_runsIff b s
  | waitTxDone | waitPayloadReady => exact (internalOperation_runsIff _ s).unless
  | closeFrame | handler | hzToFrf | frfToHz | frfToHzInt | frfSplit | frfJoin => exact .next _
  | awaitEvent timeout name =>
    exact (internalOperation_runsIff _ s : RunsIff true (execAwaitEvent timeout name s))

theorem step_ne_fault (s : State) (f : Fault) : step s ≠ .fault f := by
  cases hq : s.requests with
  | nil => rw [step_of_no_request hq]; exact nofun
  | cons r rest =>
    cases hd : decode s.cfg r with
    | error why => rw [step_of_decode_error hq hd]; exact nofun
    | ok i => rw [step_of_decode_ok hq hd]; exact (exec_runsIff i _).ne_fault f

/-- Settles O10: no arm of `exec` answers a fault, and `State.takes` is the condition of each. -/
theorem runsExactlyWhenTaken : Obligations.RunsExactlyWhenTaken :=
  ⟨fun i s =>
    have h := exec_runsIff i s
    ⟨h.exists_next_iff, h.exists_refused_iff, h.ne_fault⟩, step_ne_fault⟩

/-! ### What a step can answer (60_exceptions R210, R216) -/

/-- What an operation that waits for `ws` can answer: no error, an error of the platform, or the
timeout of one of these waits, in neither case wrapped. -/
inductive AnswersWithin (ws : List WaitName) : Option OpError → Prop
  | ok : AnswersWithin ws none
  | transport (cause : PlatformError) : AnswersWithin ws (some (transportError cause))
  | timeout {w : WaitName} (hw : w ∈ ws) : AnswersWithin ws (some (timeoutError w))

section
variable {ws vs : List WaitName} {r q : Option OpError} {s : State}

theorem AnswersWithin.mono (h : AnswersWithin ws r) (hs : ws ⊆ vs) : AnswersWithin vs r := by
  cases h with
  | ok => exact .ok
  | transport cause => exact .transport cause
  | timeout hw => exact .timeout (hs hw)

/-- Of two answers the first error counts. -/
theorem AnswersWithin.or (h : AnswersWithin ws r) (h' : AnswersWithin ws q) :
    AnswersWithin ws (r.or q) := by
  cases h with
  | ok => exact h'
  | transport cause => exact .transport cause
  | timeout hw => exact .timeout hw

theorem AnswersWithin.result (h : AnswersWithin ws r) :
    resultOf r = .ok .unit ∨ (∃ c, resultOf r = .error { kind := .transport c })
      ∨ ∃ w ∈ ws, resultOf r = .error { kind := .timeout w } := by
  cases h with
  | ok => exact .inl rfl
  | transport cause => exact .inr (.inl ⟨cause, rfl⟩)
  | timeout hw => exact .inr (.inr ⟨_, hw, rfl⟩)

/-! The register accesses and the waits. -/

theorem State.writeReg_answer (a : Addr) (v : Byte) (s : State) :
    AnswersWithin [] (s.writeReg a v).2 := by
  rcases s.writeReg_cases a v with ⟨hok, -⟩ | ⟨cause, -, herror, -⟩
  · rw [hok]; exact .ok
  · rw [herror]; exact .transport cause

theorem State.setMode_answer (m : Mode) (s : State) : AnswersWithin [] (s.setMode m).2 :=
  s.writeReg_answer ..

theorem State.readReg_answer (a : Addr) (s : State) :
    (∃ b, (s.readReg a).2 = .ok b) ∨ ∃ cause, (s.readReg a).2 = .error (transportError cause) := by
  rcases s.readReg_cases a with ⟨-, b, hok, -⟩ | ⟨cause, -, herror, -⟩
  · exact .inl ⟨b, hok⟩
  · exact .inr ⟨cause, herror⟩

theorem State.WaitEnds.answer {reg : Addr} {bit : Fin 8} {timeout : Nat} {name : WaitName}
    {t : State} (h : s.WaitEnds reg bit timeout name t r) : AnswersWithin [name] r := by
  obtain ⟨n, -, -, ⟨rfl, -⟩ | ⟨rfl, -⟩ | ⟨cause, rfl, -⟩⟩ := h
  · exact .ok
  · exact .timeout (List.mem_singleton_self name)
  · exact .transport cause

theorem State.isReady_answer (s : State) : AnswersWithin [.modeReady] s.isReady.2 :=
  s.isReady_ends.answer

theorem State.setModeAndWait_answer (m : Mode) (s : State) :
    AnswersWithin [.modeReady] (s.setModeAndWait m).2 := by
  have hmode := s.setMode_answer m
  cases hm : (s.setMode m).2 with
  | some e =>
    rw [hm] at hmode
    rw [State.setModeAndWait_of_some hm]
    exact hmode.mono (List.nil_subset _)
  | none => rw [State.setModeAndWait_of_none hm]; exact State.isReady_answer _

theorem State.awaitEvent_answer (timeout : Nat) (name : WaitName) (s : State) :
    AnswersWithin [name] (s.awaitEvent timeout name).2 := by
  cases hslot : s.evt with
  | true => rw [State.awaitEvent_of_pending hslot]; exact .ok
  | false =>
    rcases State.awaitEvent_ends (timeout := timeout) (name := name) hslot with
      ⟨-, hok, -⟩ | ⟨-, herror, -⟩
    · rw [hok]; exact .ok
    · rw [herror]; exact .timeout (List.mem_singleton_self name)

/-- Whatever its design, a completion wait names itself in its timeout (44_packet_io R173, R174). -/
theorem State.completionWait_answer (dwell : Nat) (bit : Fin 8) (timeout : Nat) (name : WaitName)
    (s : State) : AnswersWithin [name] (s.completionWait dwell bit timeout name).2 := by
  cases hk : s.cfg.waitKind with
  | dwell => rw [State.completionWait_of_dwell hk]; exact .ok
  | pollStatus =>
    rw [State.completionWait_of_poll hk]
    exact (s.pollFor_ends .flagPoll s.cfg.regIrqFlags2 bit timeout name).answer
  | event => rw [State.completionWait_of_event hk]; exact s.awaitEvent_answer timeout name

/-! The steps of `Send` (44_packet_io R176). -/

theorem State.fifoWrite_answer (d : List Byte) (s : State) : AnswersWithin [] (s.fifoWrite d).2 := by
  rw [State.fifoWrite_eq]
  obtain ⟨-, -, -, herror⟩ := (s.loaded d).burstWrite_cases d
  cases hb : ((s.loaded d).burstWrite d).2 with
  | none => exact .ok
  | some e =>
    obtain ⟨cause, rfl⟩ := herror e hb
    exact .transport cause

theorem State.afterSend1_answer (s : State) : AnswersWithin [.modeReady] s.afterSend1.2 :=
  State.setModeAndWait_answer ..

theorem State.afterSend2_answer (d : List Byte) (s : State) : AnswersWithin [] (s.afterSend2 d).2 :=
  State.fifoWrite_answer ..

theorem State.afterSend3_answer (s : State) : AnswersWithin [.modeReady] s.afterSend3.2 :=
  State.setModeAndWait_answer ..

theorem State.afterSend4_answer (s : State) :
    AnswersWithin [.modeReady, .packetSent] s.afterSend4.2 := by
  have hstep3 := s.afterSend3_answer
  cases h3 : s.afterSend3.2 with
  | none =>
    have hwait : AnswersWithin [.packetSent] (s.afterSend3.1.setSeq .send4).waitTxDone.2 :=
      State.completionWait_answer ..
    rw [State.afterSend4_of_none h3]
    exact hwait.mono (by simp)
  | some e =>
    rw [h3] at hstep3
    rw [State.afterSend4_of_some h3]
    exact hstep3.mono (by simp)

theorem State.transmitAndReturn_answersWithin (s : State) :
    AnswersWithin [.modeReady, .packetSent] s.transmitAndReturn.2 := by
  have hstep5 : AnswersWithin [.modeReady]
      ((s.afterSend4.1.setSeq .send5).setModeAndWait .standby).2 := State.setModeAndWait_answer ..
  rw [State.transmitAndReturn_eq]
  exact s.afterSend4_answer.or (hstep5.mono (by simp))

theorem State.send_answer (d : List Byte) (s : State) :
    AnswersWithin [.modeReady, .packetSent] (s.send d).2 := by
  have hstep1 := s.afterSend1_answer
  have hstep2 := s.afterSend2_answer d
  rcases s.send_cases d with ⟨e, h1, hsend⟩ | ⟨e, -, h2, hsend⟩ | ⟨-, -, hsend⟩ <;> rw [hsend]
  · rw [h1] at hstep1
    exact hstep1.mono (by simp)
  · rw [h2] at hstep2
    exact hstep2.mono (List.nil_subset _)
  · exact State.transmitAndReturn_answersWithin _

/-! The steps of `Receive` (44_packet_io R178). -/

theorem State.fifoRead_answer (n : Nat) (s : State) :
    (∃ l, (s.fifoRead n).2 = .ok l ∧ l.length = n)
      ∨ ∃ cause, (s.fifoRead n).2 = .error (transportError cause) := by
  cases hb : (s.burstRead n).2.2 with
  | none =>
    have hok := State.fifoRead_of_none hb
    obtain ⟨hlen, -⟩ := State.fifoRead_answered hok
    exact .inl ⟨_, hok, hlen⟩
  | some e =>
    obtain ⟨-, -, -, herror⟩ := s.burstRead_cases n
    obtain ⟨cause, rfl⟩ := herror e hb
    exact .inr ⟨cause, State.fifoRead_of_some hb⟩

theorem State.afterRecv1_answer (s : State) : AnswersWithin [.modeReady] s.afterRecv1.2 :=
  State.setModeAndWait_answer ..

theorem State.afterRecv2_answer (s : State) : AnswersWithin [.payloadReady] s.afterRecv2.2 :=
  State.completionWait_answer ..

/-- `Receive` answers exactly `FIFO_WINDOW` bytes, or the error of the step it reached. -/
theorem State.receive_outcome (s : State) :
    (∃ l, s.receive.2 = .ok l ∧ l.length = s.cfg.fifoWindow)
      ∨ ∃ e, s.receive.2 = .error e ∧ AnswersWithin [.modeReady, .payloadReady] (some e) := by
  have hstep1 := s.afterRecv1_answer
  have hstep2 := s.afterRecv2_answer
  have hstep3 : (∃ l, s.afterRecv3.2 = .ok l ∧ l.length = s.cfg.fifoWindow)
      ∨ ∃ cause, s.afterRecv3.2 = .error (transportError cause) := State.fifoRead_answer ..
  cases h1 : s.afterRecv1.2 with
  | some e =>
    rw [h1] at hstep1
    rw [State.receive_of_error1 h1]
    exact .inr ⟨e, rfl, hstep1.mono (by simp)⟩
  | none =>
    cases h2 : s.afterRecv2.2 with
    | some e =>
      rw [h2] at hstep2
      rw [State.receive_of_error2 h1 h2]
      exact .inr ⟨e, rfl, hstep2.mono (by simp)⟩
    | none =>
      obtain ⟨hdrain, -⟩ := State.receive_of_waited h1 h2
      rw [hdrain]
      exact hstep3.imp_right fun ⟨cause, herror⟩ => ⟨_, herror, .transport cause⟩

end

/-! ### The host's results (60_exceptions R216) -/

theorem AnswersWithin.result_of_no_wait {r : Option OpError} (h : AnswersWithin [] r) :
    resultOf r = .ok .unit ∨ ∃ e, resultOf r = .error { kind := .transport e } := by
  simpa using h.result

theorem AnswersWithin.result_of_two_waits {w w' : WaitName} {r : Option OpError}
    (h : AnswersWithin [w, w'] r) :
    resultOf r = .ok .unit ∨ (∃ e, resultOf r = .error { kind := .transport e })
      ∨ resultOf r = .error { kind := .timeout w } ∨ resultOf r = .error { kind := .timeout w' } := by
  simpa using h.result

theorem State.setStandbyMode_result (s : State) :
    resultOf s.setStandbyMode.2 = .ok .unit
      ∨ ∃ e, resultOf s.setStandbyMode.2
          = .error { kind := .transport e, context := [.setStandbyMode] } := by
  have hmode := s.setMode_answer .standby
  unfold State.setStandbyMode
  generalize (s.setMode .standby).2 = r at hmode
  cases hmode with
  | ok => exact .inl rfl
  | transport cause => exact .inr ⟨cause, rfl⟩
  | timeout hw => cases hw

theorem State.readReg_result (a : Addr) (s : State) :
    (∃ b, resultWith .byte (s.readReg a).2 = .ok (.byte b))
      ∨ ∃ e, resultWith .byte (s.readReg a).2 = .error { kind := .transport e } :=
  (s.readReg_answer a).imp (fun ⟨b, h⟩ => ⟨b, congrArg (resultWith .byte) h⟩)
    fun ⟨e, h⟩ => ⟨e, congrArg (resultWith .byte) h⟩

theorem State.receive_result (s : State) :
    (∃ l, resultWith .bytes s.receive.2 = .ok (.bytes l) ∧ l.length = s.cfg.fifoWindow)
      ∨ (∃ e, resultWith .bytes s.receive.2 = .error { kind := .transport e })
      ∨ resultWith .bytes s.receive.2 = .error { kind := .timeout .modeReady }
      ∨ resultWith .bytes s.receive.2 = .error { kind := .timeout .payloadReady } := by
  rcases s.receive_outcome with ⟨l, hok, hlen⟩ | ⟨e, herror, hwithin⟩
  · exact .inl ⟨l, congrArg (resultWith .bytes) hok, hlen⟩
  · rw [herror]
    exact .inr (hwithin.result_of_two_waits.resolve_left nofun)

/-- Settles O12: the result of each operation is what its body answers. -/
theorem hostResults : Obligations.HostResults := by
  intro i s t h
  cases i with
  | reset =>
    obtain ⟨-, rfl⟩ := hostOperation_next (show execReset s = .next t from h)
    rfl
  | setFrequency hz =>
    obtain ⟨-, rfl⟩ := hostOperation_next (guarded_next h).2
    rfl
  | detectDevice =>
    obtain ⟨-, rfl⟩ := hostOperation_next (show execDetectDevice s = .next t from h)
    exact ⟨_, rfl⟩
  | setStandbyMode =>
    obtain ⟨-, rfl⟩ := hostOperation_next (show execSetStandbyMode s = .next t from h)
    exact s.setStandbyMode_result
  | isReady =>
    obtain ⟨-, rfl⟩ := hostOperation_next (show execIsReady s = .next t from h)
    simpa using s.isReady_answer.result
  | send d =>
    obtain rfl := exec_send_next h
    exact (s.send_answer d).result_of_two_waits
  | receive =>
    obtain rfl := exec_receive_next h
    exact s.receive_result
  | readRegister addr =>
    obtain ⟨-, rfl⟩ := hostOperation_next (guarded_next h).2
    exact s.readReg_result (registerOf addr)
  | writeRegister addr v =>
    obtain ⟨-, rfl⟩ := hostOperation_next (guarded_next h).2
    exact (s.writeReg_answer (registerOf addr) v).result_of_no_wait
  | _ => trivial

end Sys2Proof.Machine

/-!
PROOFS of the statements of 70_reset_and_hazards: the marks of the host's operations on every path,
the failing ones too. A step that needs readiness is taken only where the step before saw it.
-/

namespace Sys2Proof.Machine

/-! ### Single steps within the contracts (70_reset_and_hazards R246, R249, R250) -/

theorem regOpmode_ne_regFifo {c : Config} (h : c.registers.Nodup) : c.regOpmode ≠ c.regFifo := by
  obtain ⟨hfifo, -⟩ := List.nodup_cons.mp h
  exact (List.ne_of_not_mem_cons hfifo).symm

section
variable {s : State}

/-- A mode change within a sequence sets no mark, where the FIFO is not at the mode register. -/
theorem State.modeStep_hazard_of_ne (hne : s.cfg.regOpmode ≠ s.cfg.regFifo) (q : SeqState)
    (m : Mode) :
    ((s.setSeq q).setModeAndWait m).1.hazard = s.hazard :=
  State.setModeAndWait_hazard m (s := s.setSeq q) (.inr hne)

/-- `Send`'s load sets no mark where readiness was seen and no target counts its bytes. -/
theorem State.load_hazard_of_uncounted {d : List Byte} (hd : d = [] ∨ s.cfg.target ≠ .reference)
    (ha : s.awaitReady = false) (q : SeqState) :
    ((s.setSeq q).fifoWrite d).1.hazard = s.hazard := by
  have h := State.burstWrite_hazard (d := d) (s := (s.setSeq q).loaded d) hd
  have hmark : (((s.setSeq q).loaded d).hazard || ((s.setSeq q).loaded d).awaitReady)
      = (s.hazard || s.awaitReady) := rfl
  rw [State.fifoWrite_eq, h, hmark, ha, Bool.or_false]

/-- A read with readiness not awaited, or of the register that shows it, sets no mark. -/
theorem State.readReg_hazard_of_ready {a : Addr}
    (h : s.awaitReady = false ∨ a = s.cfg.regIrqFlags1) :
    (s.readReg a).1.hazard = s.hazard := by
  rw [State.readReg_hazard]
  rcases h with h | h <;> simp [h]

/-- A write with readiness not awaited, or to the mode register, sets no mark, where the mode
register gets a mode value and the FIFO of a reference target nothing. -/
theorem State.writeReg_hazard_of_contracts {a : Addr} {v : Byte}
    (hready : s.awaitReady = false ∨ a = s.cfg.regOpmode)
    (hmode : a = s.cfg.regOpmode → (modeOf s.cfg v).isSome = true)
    (hfifo : a = s.cfg.regFifo → s.cfg.target ≠ .reference) :
    (s.writeReg a v).1.hazard = s.hazard := by
  have hharmless : harmless s.cfg true a v := by
    by_cases ha : a = s.cfg.regFifo
    · exact .inr (.inl (hfifo ha))
    · exact .inr (.inr ⟨ha, hmode⟩)
  rw [s.writeReg_hazard hharmless]
  by_cases ho : a = s.cfg.regOpmode
  · simp [ho, Option.isNone_eq_false_iff.mpr (hmode ho)]
  · simp [ho, hready.resolve_right ho]

/-! ### Whole sequences, whatever fails (44_packet_io R176, R178) -/

/-- Step 4 of `Send` waits only where step 3 saw readiness. -/
theorem State.afterSend4_hazard (hne : s.cfg.regOpmode ≠ s.cfg.regFifo) :
    s.afterSend4.1.hazard = s.hazard := by
  have hstep3 : s.afterSend3.1.hazard = s.hazard := State.modeStep_hazard_of_ne hne .send3 .transmit
  cases h3 : s.afterSend3.2 with
  | some e => rw [State.afterSend4_of_some h3]; exact hstep3
  | none =>
    rw [State.afterSend4_of_none h3]
    exact (State.wait_hazard (State.modeStep_seen h3) .send4 ..).trans hstep3

/-- Step 5 of `Send` is a mode change, so it needs no readiness. -/
theorem State.transmitAndReturn_hazard (hne : s.cfg.regOpmode ≠ s.cfg.regFifo) :
    s.transmitAndReturn.1.hazard = s.hazard := by
  have hne4 : s.afterSend4.1.cfg.regOpmode ≠ s.afterSend4.1.cfg.regFifo := by
    rwa [s.quiet_afterSend4.cfg]
  rw [State.transmitAndReturn_eq]
  exact (State.modeStep_hazard_of_ne hne4 .send5 .standby).trans (State.afterSend4_hazard hne)

/-- The FIFO is loaded only where step 1 of `Send` saw readiness. -/
theorem State.afterSend2_hazard {d : List Byte} (hne : s.cfg.regOpmode ≠ s.cfg.regFifo)
    (hd : d = [] ∨ s.cfg.target ≠ .reference) (h1 : s.afterSend1.2 = none) :
    (s.afterSend2 d).1.hazard = s.hazard := by
  have hstep1 : s.afterSend1.1.hazard = s.hazard := State.modeStep_hazard_of_ne hne .send1 .standby
  rw [← s.quiet_afterSend1.cfg] at hd
  exact (State.load_hazard_of_uncounted hd (State.modeStep_seen h1) .send2).trans hstep1

/-- `Send` sets no mark, whichever of its steps fails. -/
theorem State.send_hazard {d : List Byte} (hne : s.cfg.regOpmode ≠ s.cfg.regFifo)
    (hd : d = [] ∨ s.cfg.target ≠ .reference) : (s.send d).1.hazard = s.hazard := by
  rcases s.send_cases d with ⟨e, -, hsend⟩ | ⟨e, h1, -, hsend⟩ | ⟨h1, -, hsend⟩ <;> rw [hsend]
  · exact State.modeStep_hazard_of_ne hne .send1 .standby
  · exact State.afterSend2_hazard hne hd h1
  · have hne2 : (s.afterSend2 d).1.cfg.regOpmode ≠ (s.afterSend2 d).1.cfg.regFifo := by
      rwa [(s.work_afterSend2 d).cfg]
    exact (State.transmitAndReturn_hazard hne2).trans (State.afterSend2_hazard hne hd h1)

/-- The wait of `Receive` is taken only where step 1 saw readiness. -/
theorem State.afterRecv2_hazard (hne : s.cfg.regOpmode ≠ s.cfg.regFifo)
    (h1 : s.afterRecv1.2 = none) :
    s.afterRecv2.1.hazard = s.hazard :=
  (State.wait_hazard (State.modeStep_seen h1) .recv2 ..).trans
    (State.modeStep_hazard_of_ne hne .recv1 .receive)

/-- So is the drain, which the wait leaves with readiness still seen. -/
theorem State.afterRecv3_hazard (hne : s.cfg.regOpmode ≠ s.cfg.regFifo)
    (h1 : s.afterRecv1.2 = none) :
    s.afterRecv3.1.hazard = s.hazard := by
  have hseen : s.afterRecv1.1.awaitReady = false := State.modeStep_seen h1
  have hdrain : s.afterRecv3.1.hazard = (s.afterRecv2.1.hazard || s.afterRecv2.1.awaitReady) :=
    State.fifoRead_hazard _ (s.afterRecv2.1.setSeq .recv3)
  rw [hdrain, s.afterRecv2_mode.2, hseen, Bool.or_false, State.afterRecv2_hazard hne h1]

/-- `Receive` sets no mark, whichever of its steps fails. -/
theorem State.receive_hazard (hne : s.cfg.regOpmode ≠ s.cfg.regFifo) :
    s.receive.1.hazard = s.hazard := by
  rcases s.receive_cases with
    ⟨e, -, hreceive⟩ | ⟨e, h1, -, hreceive⟩ | ⟨e, h1, -, -, hreceive⟩ | ⟨l, h1, -, -, hreceive⟩ <;>
    rw [hreceive]
  · exact State.modeStep_hazard_of_ne hne .recv1 .receive
  · exact State.afterRecv2_hazard hne h1
  · exact State.afterRecv3_hazard hne h1
  · exact (State.setSeq_hazard .recv4 s.afterRecv3.1).trans (State.afterRecv3_hazard hne h1)

/-- `SetFrequency` in Standby or Sleep, with readiness seen, sets no mark (43_frequency_synthesizer
R158). -/
theorem State.setFrequency_hazard_of_contracts (hnodup : s.cfg.registers.Nodup)
    (ha : s.awaitReady = false) (hm : s.modeCache = some .standby ∨ s.modeCache = some .sleep)
    (hz : Hz) :
    (s.setFrequency hz).hazard = s.hazard := by
  rw [State.setFrequency_hazard_of_data (frequencyWrites_dataRegister hnodup _), ha]
  rcases hm with hm | hm <;> simp [hm]

end

/-- The end of a host operation leaves `hazard` as its work did. -/
theorem hostOperation_hazard {body : State → State × Result} {s t : State}
    (h : hostOperation body s = .next t) : t.hazard = (body s).1.hazard := by
  obtain ⟨-, rfl⟩ := hostOperation_next h
  rfl

/-- Settles O18: each host operation, on whatever path it takes, leaves `hazard` as it was. -/
theorem keptContractsSetNoHazard : Obligations.KeptContractsSetNoHazard := by
  intro i s t hnodup hi hclean hk h
  have hne := regOpmode_ne_regFifo hnodup
  obtain ⟨hready, hkept⟩ := hk
  refine Eq.trans ?_ hclean
  cases i with
  | reset =>
    obtain ⟨-, -, -, -, -, hpulse, -⟩ := s.resetPulse_spec
    exact (hostOperation_hazard (show execReset s = .next t from h)).trans hpulse
  | setStandbyMode =>
    have hwork := s.setMode_hazard .standby (.inr hne)
    exact (hostOperation_hazard (show execSetStandbyMode s = .next t from h)).trans hwork
  | isReady =>
    exact (hostOperation_hazard (show execIsReady s = .next t from h)).trans s.isReady_hazard
  | detectDevice =>
    have hread := State.readReg_hazard_of_ready (a := s.cfg.regVersion)
      (.inl (hready.resolve_right nofun))
    exact (hostOperation_hazard (show execDetectDevice s = .next t from h)).trans hread
  | setFrequency hz =>
    have hwrites :=
      State.setFrequency_hazard_of_contracts hnodup (hready.resolve_right nofun) hkept hz
    exact (hostOperation_hazard (guarded_next h).2).trans hwrites
  | send d => exact (hostOperation_hazard (guarded_next h).2).trans (State.send_hazard hne hkept)
  | receive =>
    exact (hostOperation_hazard (show execReceive s = .next t from h)).trans
      (State.receive_hazard hne)
  | readRegister addr =>
    have hread := State.readReg_hazard_of_ready (hready.imp_right of_decide_eq_true)
    exact (hostOperation_hazard (guarded_next h).2).trans hread
  | writeRegister addr v =>
    obtain ⟨hmode, hfifo⟩ := hkept
    have hwrite :=
      State.writeReg_hazard_of_contracts (hready.imp_right of_decide_eq_true) hmode hfifo
    exact (hostOperation_hazard (guarded_next h).2).trans hwrite
  | _ => cases hi

end Sys2Proof.Machine
